-- ==== Sys2Proof/Word.lean ====
section
/-! DEFINITION. The word types of SHM-CORE: bytes, 10-bit symbols, 32-bit bus words and byte strings (R21, R22). -/

namespace Sys2Proof

/-- An 8-bit value: a byte string's element and a GF(256) element (R22, R150). -/
abbrev Byte := BitVec 8

/-- A 10-bit symbol, 0 to 1023 (R22, R170). -/
abbrev Sym := BitVec 10

/-- A 32-bit host-bus word: addresses, data, command words, CSR values (R34, R91, R120). -/
abbrev Word := BitVec 32

/-- A finite sequence of bytes (R22). -/
abbrev ByteString := List Byte

end Sys2Proof
end

