-- ==== Sys2Proof/Syntax.lean ====
section
/-! DEFINITION. The commands of SHM-CORE, one constructor per row of the opcode map (R121). The immediate operands are
the bytes A and B of the command word (R122); every other operand is implicit (R123). -/

namespace Sys2Proof

/-- A legal SHM-CORE command. -/
inductive Instr where
  /-- NOP, OP 0x00 (R340). -/
  | nop
  /-- GF_ADD a, b, OP 0x01 (R153). -/
  | gfAdd (a b : Byte)
  /-- GF_MUL a, b, OP 0x02 (R154). -/
  | gfMul (a b : Byte)
  /-- GF_DIV a, b, OP 0x03 (R155). -/
  | gfDiv (a b : Byte)
  /-- GF_INV a, OP 0x04 (R156). -/
  | gfInv (a : Byte)
  /-- CHK_CREATE, OP 0x10 (R173). -/
  | chkCreate
  /-- CHK_VERIFY, OP 0x11 (R174). -/
  | chkVerify
  /-- WC_PACK, OP 0x18 (R192). -/
  | wcPack
  /-- WC_UNPACK n, OP 0x19 (R193). -/
  | wcUnpack (n : Byte)
  /-- WC_TO_WORDS, OP 0x1A (R194). -/
  | wcToWords
  /-- WC_FROM_WORDS, OP 0x1B (R195). -/
  | wcFromWords
  /-- SH_INTERPOLATE x, OP 0x20 (R212). -/
  | shInterpolate (x : Byte)
  /-- SH_SPLIT, OP 0x21 (R215). -/
  | shSplit
  /-- SH_RECOMBINE, OP 0x22 (R220). -/
  | shRecombine
  /-- FC_ENCRYPT, OP 0x28 (R244). -/
  | fcEncrypt
  /-- FC_DECRYPT, OP 0x29 (R245). -/
  | fcDecrypt
  /-- SHARE_ENCODE, OP 0x30 (R264). -/
  | shareEncode
  /-- SHARE_DECODE, OP 0x31 (R266). -/
  | shareDecode
  /-- GENERATE, OP 0x38 (R283). -/
  | generate
  /-- COMBINE, OP 0x39 (R295). -/
  | combine
  /-- SES_RESET, OP 0x40 (R310). -/
  | sesReset
  /-- SES_ACCEPT, OP 0x41 (R314). -/
  | sesAccept
  /-- SES_STATUS, OP 0x42 (R315). -/
  | sesStatus
  /-- SES_IS_COMPLETE, OP 0x43 (R317). -/
  | sesIsComplete
  /-- SES_GROUP_COMPLETE g, OP 0x44 (R318). -/
  | sesGroupComplete (g : Byte)
  /-- SES_COMBINE, OP 0x45 (R316). -/
  | sesCombine
  /-- CLEAR, OP 0x7F (R341). -/
  | clear
deriving DecidableEq, Repr

/-- The mnemonic of a command (R121, R127). -/
def Instr.mnemonic : Instr → String
  | .nop => "NOP"
  | .gfAdd _ _ => "GF_ADD"
  | .gfMul _ _ => "GF_MUL"
  | .gfDiv _ _ => "GF_DIV"
  | .gfInv _ => "GF_INV"
  | .chkCreate => "CHK_CREATE"
  | .chkVerify => "CHK_VERIFY"
  | .wcPack => "WC_PACK"
  | .wcUnpack _ => "WC_UNPACK"
  | .wcToWords => "WC_TO_WORDS"
  | .wcFromWords => "WC_FROM_WORDS"
  | .shInterpolate _ => "SH_INTERPOLATE"
  | .shSplit => "SH_SPLIT"
  | .shRecombine => "SH_RECOMBINE"
  | .fcEncrypt => "FC_ENCRYPT"
  | .fcDecrypt => "FC_DECRYPT"
  | .shareEncode => "SHARE_ENCODE"
  | .shareDecode => "SHARE_DECODE"
  | .generate => "GENERATE"
  | .combine => "COMBINE"
  | .sesReset => "SES_RESET"
  | .sesAccept => "SES_ACCEPT"
  | .sesStatus => "SES_STATUS"
  | .sesIsComplete => "SES_IS_COMPLETE"
  | .sesGroupComplete _ => "SES_GROUP_COMPLETE"
  | .sesCombine => "SES_COMBINE"
  | .clear => "CLEAR"

end Sys2Proof
end

