-- ==== Sys2Proof/Vocab.lean ====
section
/-! DEFINITION. The type of the legal word lists (R14), and the synthetic list of 95_test_vectors.md, which shows that there
is one. -/

namespace Sys2Proof

/-- A legal `VOCAB`: exactly 1024 byte strings, pairwise distinct, each non-empty and without the byte 0x20 (R14). -/
def legalVocab (v : List ByteString) : Bool :=
  v.length == 1024 && v.all (fun w => !w.isEmpty && !w.contains 0x20) && decide v.Nodup

/-! ### VOCAB_TEST -/

/-- The decimal digit of `n` at the place `d`. -/
def vocabTestDigit (n d : Nat) : Byte := BitVec.ofNat 8 (0x30 + n / d % 10)

/-- Word `i` of `VOCAB_TEST`: `w` and four decimal digits (R14). -/
def vocabTestWord (i : Nat) : ByteString :=
  [0x77, vocabTestDigit i 1000, vocabTestDigit i 100, vocabTestDigit i 10, vocabTestDigit i 1]

/-- `VOCAB_TEST` (R14, 95_test_vectors.md), the spec's test fixture and not the unit's list. -/
def vocabTest : List ByteString := (List.range 1024).map vocabTestWord

/-- The number in the digits of a word of `VOCAB_TEST`. -/
def vocabTestNumber : ByteString → Nat
  | [_, a, b, c, d] => (a.toNat - 48) * 1000 + (b.toNat - 48) * 100 + (c.toNat - 48) * 10 + (d.toNat - 48)
  | _ => 0

theorem vocabTestNumber_word : ∀ i < 1024, vocabTestNumber (vocabTestWord i) = i := by decide +kernel

theorem vocabTest_nodup : vocabTest.Nodup := by
  refine List.Nodup.map_on (fun i hi j hj h => ?_) List.nodup_range
  rw [← vocabTestNumber_word i (List.mem_range.1 hi), h, vocabTestNumber_word j (List.mem_range.1 hj)]

theorem vocabTest_legal : legalVocab vocabTest = true := by
  have h1 : (vocabTest.length == 1024) = true := by decide +kernel
  have h2 : vocabTest.all (fun w => !w.isEmpty && !w.contains 0x20) = true := by decide +kernel
  rw [legalVocab, h1, h2, decide_eq_true vocabTest_nodup]; rfl

/-! ### The type -/

/-- A `VOCAB`: a word list of the shape R14 gives it. Every unit's list is one, by its type. The default value only shows
that the type has an inhabitant; no unit of the model takes it (assumption log 6). -/
structure Vocab where
  /-- The words; word `i` encodes the symbol `i`. -/
  words : List ByteString := vocabTest
  /-- They have the shape of R14. -/
  legal : legalVocab words = true := by exact vocabTest_legal
deriving DecidableEq, Repr, Inhabited

end Sys2Proof
end

