-- ==== Sys2Proof/Config.lean ====
section
/-! DEFINITION. What an implementation fixes (00_scope.md section 4), and the free values: constants without a body that
no proof can evaluate. -/

namespace Sys2Proof

/-- The legal values of `PASS_CHARSET` (R17). -/
inductive PassCharset where
  /-- Bytes 0x00 to 0x7F. -/
  | sevenBit
  /-- Bytes 0x20 to 0x7E. -/
  | printable
deriving DecidableEq, Repr

/-- The parameters of one unit (R10 to R17). They are fixed for the unit; `State` carries them so that every statement
holds for every unit (assumption log 5). Which sizes are legal is `Params.legal` in WellFormed.lean; the vocabulary is legal
by its type. -/
structure Params where
  /-- `L_MAX`, the largest secret, value and fragment length in bytes (R10). -/
  lMax : Nat
  /-- `MIN_SECRET`, the smallest master-secret length in bytes (R11). -/
  minSecret : Nat
  /-- `T_MAX`, the text capacity in bytes (R12). -/
  tMax : Nat
  /-- `P_MAX`, the passphrase capacity in bytes (R12). -/
  pMax : Nat
  /-- `VOCAB`, the word list; word `i` encodes symbol `i` (R14). -/
  vocab : Vocab
  /-- `CUSTOM`, the customization byte string (R15). -/
  custom : ByteString
  /-- `BASE_ITER`, the base iteration count of the cipher's round function (R16). -/
  baseIter : Nat
  /-- `PASS_CHARSET`, the passphrase bytes accepted (R17). -/
  charset : PassCharset
deriving DecidableEq, Repr

/-- The two collaborator ports a command may call: the random port as the stream of the bytes it will give (R386), and
the hash port's two functions (R18, R387). -/
structure Ports where
  /-- The `k`-th byte the random port gives. -/
  rng : Nat → Byte
  /-- `Digest4(salt, msg)`, 4 bytes. -/
  digest4 : ByteString → ByteString → Vector Byte 4
  /-- `Kdf(password, salt, iterations, n)`, `n` bytes. -/
  kdf : ByteString → ByteString → Nat → (n : Nat) → Vector Byte n

namespace Config

/-- FREE VALUE. The unit's `VOCAB`: a list of the shape R14 gives, whose words no source gives (D17; assumption log 6). -/
opaque vocab : Vocab

/-- FREE VALUE. The byte the random port returns as its `k`-th (R19, R386; assumption log 7). -/
opaque rngByte : Nat → Byte

/-- FREE VALUE. The hash port's 4-byte digest, a function of its arguments (R18, R387; assumption log 8). -/
opaque digest4 : ByteString → ByteString → Vector Byte 4

/-- FREE VALUE. The hash port's key-stretching function (R18, R387; assumption log 8). -/
opaque kdf : ByteString → ByteString → Nat → (n : Nat) → Vector Byte n

/-- FREE VALUE. What the `k`-th unspecified host read of a busy unit returns (R88, R413; assumption log 9). -/
opaque busyRead : Nat → Word

/-- The ports of the unit. -/
def ports : Ports := ⟨rngByte, digest4, kdf⟩

/-- The spec's default parameters (R10 to R17): L_MAX 32, MIN_SECRET 16, T_MAX 1024, P_MAX 256, CUSTOM "shamir",
BASE_ITER 2500, SEVEN_BIT; the vocabulary is free but for its shape. -/
def standardParams : Params where
  lMax := 32
  minSecret := 16
  tMax := 1024
  pMax := 256
  vocab := vocab
  custom := [0x73, 0x68, 0x61, 0x6D, 0x69, 0x72]
  baseIter := 2500
  charset := .sevenBit

end Config

end Sys2Proof
end

