-- ==== Sys2Proof/WellFormed.lean ====
section
/-! DEFINITION. Well-formedness checks: which command words are legal (R124), by the mask and match of every opcode-map
row and independently of the decoder, and which parameter values a unit may have (R10 to R17). A value of `Instr`
itself cannot be ill formed: its operands are bytes, so every one of its terms is a legal command. -/

namespace Sys2Proof

/-- A row of the opcode map as a mask and a match on the command word. -/
structure OpcodeRow where
  /-- The mnemonic of the row. -/
  mnemonic : String
  /-- The bits the row fixes. -/
  mask : Word
  /-- Their values. -/
  pattern : Word
deriving DecidableEq, Repr

/-- The 27 rows of R121: a row with no immediate fixes every bit, one with A only frees bits 15:8, one with A and B
frees bits 23:8. -/
def opcodeRows : List OpcodeRow :=
  [⟨"NOP", 0xFFFFFFFF, 0x00⟩, ⟨"GF_ADD", 0xFF0000FF, 0x01⟩, ⟨"GF_MUL", 0xFF0000FF, 0x02⟩,
   ⟨"GF_DIV", 0xFF0000FF, 0x03⟩, ⟨"GF_INV", 0xFFFF00FF, 0x04⟩, ⟨"CHK_CREATE", 0xFFFFFFFF, 0x10⟩,
   ⟨"CHK_VERIFY", 0xFFFFFFFF, 0x11⟩, ⟨"WC_PACK", 0xFFFFFFFF, 0x18⟩, ⟨"WC_UNPACK", 0xFFFF00FF, 0x19⟩,
   ⟨"WC_TO_WORDS", 0xFFFFFFFF, 0x1A⟩, ⟨"WC_FROM_WORDS", 0xFFFFFFFF, 0x1B⟩] ++
  [⟨"SH_INTERPOLATE", 0xFFFF00FF, 0x20⟩, ⟨"SH_SPLIT", 0xFFFFFFFF, 0x21⟩, ⟨"SH_RECOMBINE", 0xFFFFFFFF, 0x22⟩,
   ⟨"FC_ENCRYPT", 0xFFFFFFFF, 0x28⟩, ⟨"FC_DECRYPT", 0xFFFFFFFF, 0x29⟩, ⟨"SHARE_ENCODE", 0xFFFFFFFF, 0x30⟩,
   ⟨"SHARE_DECODE", 0xFFFFFFFF, 0x31⟩, ⟨"GENERATE", 0xFFFFFFFF, 0x38⟩, ⟨"COMBINE", 0xFFFFFFFF, 0x39⟩] ++
  [⟨"SES_RESET", 0xFFFFFFFF, 0x40⟩, ⟨"SES_ACCEPT", 0xFFFFFFFF, 0x41⟩, ⟨"SES_STATUS", 0xFFFFFFFF, 0x42⟩,
   ⟨"SES_IS_COMPLETE", 0xFFFFFFFF, 0x43⟩, ⟨"SES_GROUP_COMPLETE", 0xFFFF00FF, 0x44⟩,
   ⟨"SES_COMBINE", 0xFFFFFFFF, 0x45⟩, ⟨"CLEAR", 0xFFFFFFFF, 0x7F⟩]

/-- The word `w` is a word of the row. -/
def OpcodeRow.admits (r : OpcodeRow) (w : Word) : Bool := w &&& r.mask == r.pattern

/-- A command word is legal when it is a word of some row (R124, R125). -/
def legalCommandWord (w : Word) : Bool := opcodeRows.any (·.admits w)

/-- Legal parameter values: L_MAX even with MIN_SECRET <= L_MAX <= 64 (R10), MIN_SECRET even and at least 4 (R11),
T_MAX from 64 to 4096 and P_MAX at most 65535 (R12). A `Vocab` is legal by its type (R14, `legalVocab` in Vocab.lean), and every
CUSTOM, BASE_ITER and PASS_CHARSET is legal (R15 to R17). -/
def Params.legal (p : Params) : Bool :=
  p.lMax % 2 == 0 && decide (p.minSecret ≤ p.lMax) && decide (p.lMax ≤ 64) &&
  p.minSecret % 2 == 0 && decide (4 ≤ p.minSecret) &&
  decide (64 ≤ p.tMax) && decide (p.tMax ≤ 4096) && decide (p.pMax ≤ 65535)

end Sys2Proof
end

