-- ==== Sys2Proof/Decode.lean ====
section
/-! DEFINITION. The command decoder, total on every 32-bit word and rejecting by name, and the encoder (R120 to R127). -/

namespace Sys2Proof

/-- Why a command word is illegal (R124, R125). Every one of them completes with IllegalCommand(OP). -/
inductive CommandReject where
  /-- The Z field, bits 31:24, is not 0. -/
  | zNotZero
  /-- The OP value is not in the opcode map. -/
  | reservedOpcode (op : Byte)
  /-- The row takes no A operand and A is not 0. -/
  | aNotZero (op : Byte)
  /-- The row takes no B operand and B is not 0. -/
  | bNotZero (op : Byte)
deriving DecidableEq, Repr

/-- OP, bits 7:0 (R120). -/
def opField (w : Word) : Byte := w.extractLsb' 0 8
/-- A, bits 15:8 (R120, R122). -/
def aField (w : Word) : Byte := w.extractLsb' 8 8
/-- B, bits 23:16 (R120, R122). -/
def bField (w : Word) : Byte := w.extractLsb' 16 8
/-- Z, bits 31:24 (R120). -/
def zField (w : Word) : Byte := w.extractLsb' 24 8

/-- A row whose A and B fields must both be 0. -/
def decodePlain (w : Word) (i : Instr) : Except CommandReject Instr :=
  if aField w ≠ 0 then .error (.aNotZero (opField w))
  else if bField w ≠ 0 then .error (.bNotZero (opField w))
  else .ok i

/-- A row that takes A and whose B field must be 0. -/
def decodeUnary (w : Word) (mk : Byte → Instr) : Except CommandReject Instr :=
  if bField w ≠ 0 then .error (.bNotZero (opField w)) else .ok (mk (aField w))

/-- A row that takes both A and B. -/
def decodeBinary (w : Word) (mk : Byte → Byte → Instr) : Except CommandReject Instr :=
  .ok (mk (aField w) (bField w))

/-- The decoder (R121, R124): Z first, then the row of the OP value. -/
def decode (w : Word) : Except CommandReject Instr :=
  if zField w ≠ 0 then .error .zNotZero
  else match (opField w).toNat with
    | 0x00 => decodePlain w .nop
    | 0x01 => decodeBinary w .gfAdd
    | 0x02 => decodeBinary w .gfMul
    | 0x03 => decodeBinary w .gfDiv
    | 0x04 => decodeUnary w .gfInv
    | 0x10 => decodePlain w .chkCreate
    | 0x11 => decodePlain w .chkVerify
    | 0x18 => decodePlain w .wcPack
    | 0x19 => decodeUnary w .wcUnpack
    | 0x1A => decodePlain w .wcToWords
    | 0x1B => decodePlain w .wcFromWords
    | 0x20 => decodeUnary w .shInterpolate
    | 0x21 => decodePlain w .shSplit
    | 0x22 => decodePlain w .shRecombine
    | 0x28 => decodePlain w .fcEncrypt
    | 0x29 => decodePlain w .fcDecrypt
    | 0x30 => decodePlain w .shareEncode
    | 0x31 => decodePlain w .shareDecode
    | 0x38 => decodePlain w .generate
    | 0x39 => decodePlain w .combine
    | 0x40 => decodePlain w .sesReset
    | 0x41 => decodePlain w .sesAccept
    | 0x42 => decodePlain w .sesStatus
    | 0x43 => decodePlain w .sesIsComplete
    | 0x44 => decodeUnary w .sesGroupComplete
    | 0x45 => decodePlain w .sesCombine
    | 0x7F => decodePlain w .clear
    | _ => .error (.reservedOpcode (opField w))

/-- The assembled word `OP | (A << 8) | (B << 16)` (R127). -/
def assemble (op a b : Byte) : Word :=
  op.setWidth 32 ||| (a.setWidth 32 <<< 8) ||| (b.setWidth 32 <<< 16)

/-- The OP byte of a command (R121). -/
def Instr.opcode : Instr → Byte
  | .nop => 0x00
  | .gfAdd _ _ => 0x01
  | .gfMul _ _ => 0x02
  | .gfDiv _ _ => 0x03
  | .gfInv _ => 0x04
  | .chkCreate => 0x10
  | .chkVerify => 0x11
  | .wcPack => 0x18
  | .wcUnpack _ => 0x19
  | .wcToWords => 0x1A
  | .wcFromWords => 0x1B
  | .shInterpolate _ => 0x20
  | .shSplit => 0x21
  | .shRecombine => 0x22
  | .fcEncrypt => 0x28
  | .fcDecrypt => 0x29
  | .shareEncode => 0x30
  | .shareDecode => 0x31
  | .generate => 0x38
  | .combine => 0x39
  | .sesReset => 0x40
  | .sesAccept => 0x41
  | .sesStatus => 0x42
  | .sesIsComplete => 0x43
  | .sesGroupComplete _ => 0x44
  | .sesCombine => 0x45
  | .clear => 0x7F

/-- The A byte of a command, 0 where the row has none (R121, R127). -/
def Instr.operandA : Instr → Byte
  | .gfAdd a _ => a
  | .gfMul a _ => a
  | .gfDiv a _ => a
  | .gfInv a => a
  | .wcUnpack n => n
  | .shInterpolate x => x
  | .sesGroupComplete g => g
  | .nop | .chkCreate | .chkVerify | .wcPack | .wcToWords | .wcFromWords | .shSplit | .shRecombine
  | .fcEncrypt | .fcDecrypt | .shareEncode | .shareDecode | .generate | .combine | .sesReset
  | .sesAccept | .sesStatus | .sesIsComplete | .sesCombine | .clear => 0

/-- The B byte of a command, 0 where the row has none (R121, R127). -/
def Instr.operandB : Instr → Byte
  | .gfAdd _ b => b
  | .gfMul _ b => b
  | .gfDiv _ b => b
  | .nop | .gfInv _ | .chkCreate | .chkVerify | .wcPack | .wcUnpack _ | .wcToWords | .wcFromWords
  | .shInterpolate _ | .shSplit | .shRecombine | .fcEncrypt | .fcDecrypt | .shareEncode | .shareDecode
  | .generate | .combine | .sesReset | .sesAccept | .sesStatus | .sesIsComplete | .sesGroupComplete _
  | .sesCombine | .clear => 0

/-- The encoder: the command word of a command (R120, R121, R127). -/
def encode (i : Instr) : Word := assemble i.opcode i.operandA i.operandB

/-- The command a table word of `nbits` bits stands for. A command is one 32-bit word (R120, R126), so a word of at
most 32 bits is taken whole, its missing bits 0, and a longer one is no command. -/
def decodeTableWord (nbits w : Nat) : Option Instr :=
  if nbits ≤ 32 then
    match decode (BitVec.ofNat 32 (w % 2 ^ nbits)) with
    | .ok i => some i
    | .error _ => none
  else none

end Sys2Proof
end

