-- ==== Sys2Proof/Machine/State.lean ====
section
/-! DEFINITION. The architectural state of SHM-CORE as plain data (10_state.md), the errors a command can raise, the
machine's faults and refusals, and the state after reset. -/

namespace Sys2Proof.Machine

/-- The elements of one buffer space, `w` bits each (a `Host.Cell` list where `w = 8`): the (index, element) pairs of the
non-zero elements, indices strictly rising. An index that is not listed reads 0, the reset contents of every buffer
(R87). -/
abbrev Cells (w : Nat) := List (Nat × BitVec w)

/-- The canonical form of a buffer: indices strictly rising and no entry equal to what an unlisted index reads as. -/
def Cells.wf {w : Nat} : Cells w → Bool
  | [] => true
  | [(_, v)] => v != 0
  | (i, v) :: (j, u) :: rest => v != 0 && decide (i < j) && Cells.wf ((j, u) :: rest)

/-- The buffer spaces of 10_state.md section 3, without SES_GROUP, which is derived (R81). -/
structure Memory where
  /-- `SECRET` (R71). -/
  secret : Cells 8
  /-- `RESULT` (R72). -/
  result : Cells 8
  /-- `PASS` (R73). -/
  pass : Cells 8
  /-- `SYM` (R74). -/
  sym : Cells 10
  /-- `TEXT` (R75). -/
  text : Cells 8
  /-- `FRAG_X` (R76). -/
  fragX : Cells 8
  /-- `FRAG_Y`, index `j*64 + k` (R77). -/
  fragY : Cells 8
  /-- `GROUPS` (R78). -/
  groups : Cells 5
  /-- `MNEM`, index `m*4096 + b` (R79). -/
  mnem : Cells 8
  /-- `MNEM_LEN` (R80). -/
  mnemLen : Cells 13
deriving DecidableEq, Repr

/-- Every buffer is in canonical form. -/
def Memory.wf (m : Memory) : Bool :=
  Cells.wf m.secret && Cells.wf m.result && Cells.wf m.pass && Cells.wf m.sym && Cells.wf m.text &&
  Cells.wf m.fragX && Cells.wf m.fragY && Cells.wf m.groups && Cells.wf m.mnem && Cells.wf m.mnemLen

/-- The stored control and status registers (R34 to R63), each at the width its rule uses. ID, CAPS and CAPS2 are
constants of the unit; STATUS.BUSY and STATUS.ERR and the session registers are derived (R40, R64 to R70, R84). -/
structure Csrs where
  /-- `CMD` (R39). -/
  cmd : Word
  /-- `STATUS.DONE` (R40). -/
  done : Bool
  /-- `STATUS.READY` (R40, R82); the reset sequence runs while it is 0. -/
  ready : Bool
  /-- `STATUS.OVERRUN` (R40). -/
  overrun : Bool
  /-- `STATUS.ERRCODE` (R40, R361). -/
  errCode : BitVec 8
  /-- `ERRINFO` (R41). -/
  errInfo : Word
  /-- `RESULT`, the register (R42). -/
  result : Word
  /-- `LEN_SECRET` (R43). -/
  lenSecret : BitVec 7
  /-- `LEN_RESULT` (R44). -/
  lenResult : BitVec 7
  /-- `LEN_PASS` (R45). -/
  lenPass : BitVec 16
  /-- `LEN_SYM` (R46). -/
  lenSym : BitVec 7
  /-- `LEN_TEXT` (R47). -/
  lenText : BitVec 13
  /-- `FRAG_COUNT` (R48). -/
  fragCount : BitVec 5
  /-- `LEN_FRAG` (R49). -/
  lenFrag : BitVec 7
  /-- `GROUP_COUNT` (R50). -/
  groupCount : BitVec 5
  /-- `MNEM_COUNT` (R51). -/
  mnemCount : BitVec 9
  /-- `THRESHOLD` (R52). -/
  threshold : BitVec 5
  /-- `SHARE_COUNT` (R53). -/
  shareCount : BitVec 5
  /-- `IDENT` (R54). -/
  ident : BitVec 15
  /-- `ITER_EXP` (R55). -/
  iterExp : BitVec 5
  /-- `GROUP_THRESHOLD` (R56). -/
  groupThreshold : BitVec 5
  /-- `SH_ID` (R57). -/
  shId : BitVec 15
  /-- `SH_EXP` (R58). -/
  shExp : BitVec 5
  /-- `SH_GI` (R59). -/
  shGi : BitVec 4
  /-- `SH_GT` (R60). -/
  shGt : BitVec 5
  /-- `SH_GC` (R61). -/
  shGc : BitVec 5
  /-- `SH_MI` (R62). -/
  shMi : BitVec 4
  /-- `SH_MT` (R63). -/
  shMt : BitVec 5
deriving DecidableEq, Repr

/-- A Share (R260). Thresholds and counts hold their true values 1 to 16. -/
structure Share where
  identifier : BitVec 15
  iterationExponent : BitVec 5
  groupIndex : BitVec 4
  groupThreshold : BitVec 5
  groupCount : BitVec 5
  memberIndex : BitVec 4
  memberThreshold : BitVec 5
  value : ByteString
deriving DecidableEq, Repr

/-- The common parameters of a recovery attempt (R290): the four the source names and the value length. -/
structure CommonParams where
  identifier : BitVec 15
  iterationExponent : BitVec 5
  groupThreshold : BitVec 5
  groupCount : BitVec 5
  valueLength : Nat
deriving DecidableEq, Repr

/-- The states of the recovery session (R64, R320). -/
inductive SesState where
  | empty
  | collecting
  | complete
deriving DecidableEq, Repr

/-- The session store (R83). -/
structure Session where
  /-- EMPTY, COLLECTING or COMPLETE. -/
  state : SesState
  /-- The common parameters, defined when the state is not EMPTY. -/
  params : Option CommonParams
  /-- The accepted shares with the texts they were decoded from, in acceptance order. -/
  shares : List (Share × ByteString)
deriving DecidableEq, Repr

/-- The components of R32 but the pending-command register. -/
structure Arch where
  /-- The control and status registers. -/
  csr : Csrs
  /-- The buffer spaces. -/
  mem : Memory
  /-- The field tables (R82). -/
  tables : FieldTables
  /-- The session store (R83). -/
  ses : Session
deriving DecidableEq, Repr

/-- The contents of a non-empty pending-command register (R84): the accepted word, and the state at acceptance, whose
own pending register is empty (R33). -/
structure Pending where
  word : Word
  snapshot : Arch
deriving DecidableEq, Repr

/-- What moves in one step (assumption log 1): a host-bus transaction (R24), the reset input (R400), the unit itself, or
nothing. -/
inductive BusEvent where
  /-- `MemRead(addr, 1)`. -/
  | read (addr : Word)
  /-- `MemWrite(addr, 1, data)`. -/
  | write (addr data : Word)
  /-- The reset input. -/
  | reset
  /-- The unit's turn: the reset sequence ends, or the running command completes. -/
  | unit
  /-- Nothing moves: time passes before the next event (R408). -/
  | idle
deriving DecidableEq, Repr

/-- The whole machine. `bus`, `reads`, `draws` and `busyReads` are the model's own (assumption log 1, 7, 9, 15), and
`params` are the fixed parameters of the unit (assumption log 5). -/
structure State where
  /-- The architectural state of R32 but `pending`. -/
  arch : Arch
  /-- The pending-command register (R84). -/
  pending : Option Pending
  /-- The unit's parameters (00_scope.md section 4). -/
  params : Params
  /-- The events still to come. -/
  bus : List BusEvent
  /-- What the host's reads have returned, newest first. -/
  reads : List Word
  /-- How many bytes the random port has given (R386). -/
  draws : Nat
  /-- How many unspecified reads have been made (R413). -/
  busyReads : Nat
deriving DecidableEq, Repr

/-- The errors a command can raise, with the names of R361. -/
inductive CmdError where
  | illegalCommand
  | inputValidation
  | divisionByZero
  | unknownWord
  | invalidWordCount
  | invalidChecksum
  | invalidPadding
  | invalidShareFields
  | mnemonicSetMismatch
  | duplicateIndex
  | notEnoughFragments
  | notEnoughGroups
  | digestMismatch
  | tooManyShares
  | invalidSecretLength
  | invalidPassphraseEncoding
  | resourceLimit
deriving DecidableEq, Repr

/-- A raised error `E(info)` (R25): the error and the ERRINFO word. -/
structure Raised where
  error : CmdError
  info : Word
deriving DecidableEq, Repr

/-- The faults that stop the machine: none. A command error is a completion (R360), a quiet access has no effect (R92),
and "No behaviour of SHM-CORE is `stuck`" (93_implementation_defined.md). -/
inductive Fault where
deriving DecidableEq, Repr

/-- The refusals of the model. -/
inductive Refusal where
  /-- Raised by an arm of `exec` whose instruction has no meaning yet; safe. Every instruction has its meaning, so no
  arm raises it. -/
  | notModelled (mnemonic : String)
deriving DecidableEq, Repr

/-- Every stored register at its reset value (R35); READY is 1 once the reset sequence has ended (R40). -/
def Csrs.reset : Csrs where
  cmd := 0
  done := false
  ready := true
  overrun := false
  errCode := 0
  errInfo := 0
  result := 0
  lenSecret := 0
  lenResult := 0
  lenPass := 0
  lenSym := 0
  lenText := 0
  fragCount := 0
  lenFrag := 0
  groupCount := 0
  mnemCount := 0
  threshold := 0
  shareCount := 0
  ident := 0
  iterExp := 0
  groupThreshold := 0
  shId := 0
  shExp := 0
  shGi := 0
  shGt := 0
  shGc := 0
  shMi := 0
  shMt := 0

/-- Every buffer element 0 (R71 to R80, R87). -/
def Memory.zero : Memory := ⟨[], [], [], [], [], [], [], [], [], []⟩

/-- The EMPTY session (R83). -/
def Session.empty : Session := ⟨.empty, none, []⟩

/-- The architectural state after the reset sequence (R87). -/
def Arch.reset : Arch := ⟨Csrs.reset, Memory.zero, standardTables, Session.empty⟩

/-- The architectural state in the step of the reset itself (R400): STATUS reads 1, everything else is at its reset
value, and the field tables are not built yet. -/
def Arch.underReset : Arch := ⟨{ Csrs.reset with ready := false }, Memory.zero, blankTables, Session.empty⟩

/-- The machine after the reset sequence (R87), with the spec's default parameters and nothing on the bus. -/
def State.reset : State where
  arch := Arch.reset
  pending := none
  params := Config.standardParams
  bus := []
  reads := []
  draws := 0
  busyReads := 0

end Sys2Proof.Machine
end

