-- ==== Sys2Proof/Machine/Ops.lean ====
section
/-! DEFINITION. The shared operations: elements of a buffer, big-endian conversions, register and buffer updates, raising
an error (the one exception entry of SHM-CORE, R360) and committing a success (R408). -/

namespace Sys2Proof.Machine

/-! ### Buffer elements -/

/-- Element `i` of a buffer; an unlisted element is 0 (R87). -/
def Cells.read {w : Nat} : Cells w → Nat → BitVec w
  | [], _ => 0
  | (j, v) :: rest, i => if i = j then v else Cells.read rest i

/-- Remove element `i`, so that it reads 0. -/
def Cells.erase {w : Nat} : Cells w → Nat → Cells w
  | [], _ => []
  | (j, u) :: rest, i => if i = j then Cells.erase rest i else (j, u) :: Cells.erase rest i

/-- Enter element `i` in rising order. -/
def Cells.insert {w : Nat} : Cells w → Nat → BitVec w → Cells w
  | [], i, v => [(i, v)]
  | (j, u) :: rest, i, v =>
    if i < j then (i, v) :: (j, u) :: rest
    else if i = j then (i, v) :: rest
    else (j, u) :: Cells.insert rest i v

/-- Write element `i`, keeping the canonical form: a zero element is not listed. -/
def Cells.write {w : Nat} (c : Cells w) (i : Nat) (v : BitVec w) : Cells w :=
  if v = 0 then Cells.erase c i else Cells.insert c i v

/-- Write consecutive elements from index `base` on (R105: elements after them are unchanged). -/
def Cells.writeList {w : Nat} (c : Cells w) (base : Nat) : List (BitVec w) → Cells w
  | [] => c
  | v :: vs => Cells.writeList (Cells.write c base v) (base + 1) vs

/-- `buf[SPACE][base .. base+n)` (R23). -/
def Cells.slice {w : Nat} (c : Cells w) (base : Nat) : Nat → List (BitVec w)
  | 0 => []
  | n + 1 => Cells.read c base :: Cells.slice c (base + 1) n

/-! ### Big-endian conversions (R22) -/

/-- The number whose big-endian base-`2^w` digits are `s`: `BE` for bytes, `SymInt` for symbols. -/
def bigEndian {w : Nat} (s : List (BitVec w)) : Nat :=
  s.foldl (fun v d => v * 2 ^ w + d.toNat) 0

/-- The `n` big-endian base-`2^w` digits of `v`: `toBE` for bytes; of a larger `v`, its low digits. -/
def toBigEndian (w : Nat) : Nat → Nat → List (BitVec w)
  | _, 0 => []
  | v, n + 1 => toBigEndian w (v / 2 ^ w) n ++ [BitVec.ofNat w v]

/-- Bytewise exclusive or of two byte strings (R21). -/
def xorBytes (a b : ByteString) : ByteString := List.zipWith (· ^^^ ·) a b

/-! ### Checks -/

/-- `if c: raise E(info)` (R25). -/
def raiseIf (c : Prop) [Decidable c] (e : CmdError) (info : Nat) : Except Raised Unit :=
  if c then .error ⟨e, BitVec.ofNat 32 info⟩ else .ok ()

/-- `at m: X` (R287): an error `E(d)` of `X` becomes `E((m << 16) | d)`. -/
def atMnemonic {α : Type} (m : Nat) : Except Raised α → Except Raised α
  | .ok a => .ok a
  | .error e => .error ⟨e.error, (BitVec.ofNat 32 m <<< 16) ||| e.info⟩

/-- The first index `m`, counting from `start`, whose element conflicts with an element before it; `seen` are the
elements before `start`. -/
def firstConflict {α : Type} (bad : α → α → Bool) (seen : List α) (start : Nat) : List α → Option Nat
  | [] => none
  | a :: rest =>
    if seen.any (fun b => bad b a) then some start
    else firstConflict bad (seen ++ [a]) (start + 1) rest

/-- `raise E(f m)` for the index a search found, if it found one. -/
def raiseAt (found : Option Nat) (e : CmdError) (f : Nat → Nat) : Except Raised Unit :=
  match found with
  | none => .ok ()
  | some m => .error ⟨e, BitVec.ofNat 32 (f m)⟩

/-! ### Register and buffer results of the commands (R105) -/

/-- Write CSR `RESULT` (R42). -/
def Arch.putResult (a : Arch) (v : Word) : Arch := { a with csr := { a.csr with result := v } }

/-- Write space `RESULT` and `LEN_RESULT` (R44, R72). -/
def Arch.putResultBytes (a : Arch) (bs : ByteString) : Arch :=
  { a with
    csr := { a.csr with lenResult := BitVec.ofNat 7 bs.length }
    mem := { a.mem with result := Cells.writeList a.mem.result 0 bs } }

/-- Write symbols to `SYM` from index `base` on and set `LEN_SYM` to their end (R46, R74). -/
def Arch.putSymbols (a : Arch) (base : Nat) (s : List Sym) : Arch :=
  { a with
    csr := { a.csr with lenSym := BitVec.ofNat 7 (base + s.length) }
    mem := { a.mem with sym := Cells.writeList a.mem.sym base s } }

/-- Write `TEXT` and `LEN_TEXT` (R47, R75). -/
def Arch.putText (a : Arch) (t : ByteString) : Arch :=
  { a with
    csr := { a.csr with lenText := BitVec.ofNat 13 t.length }
    mem := { a.mem with text := Cells.writeList a.mem.text 0 t } }

/-- Write the seven share registers (R57 to R63). -/
def Arch.putShareFields (a : Arch) (sh : Share) : Arch :=
  { a with csr := { a.csr with
      shId := sh.identifier
      shExp := sh.iterationExponent
      shGi := sh.groupIndex
      shGt := sh.groupThreshold
      shGc := sh.groupCount
      shMi := sh.memberIndex
      shMt := sh.memberThreshold } }

/-- Write the session store (R83). -/
def Arch.putSession (a : Arch) (x : Session) : Arch := { a with ses := x }

/-! ### Completion -/

/-- The error codes of R361. -/
def CmdError.code : CmdError → BitVec 8
  | .illegalCommand => 0x01
  | .inputValidation => 0x02
  | .divisionByZero => 0x03
  | .unknownWord => 0x10
  | .invalidWordCount => 0x11
  | .invalidChecksum => 0x12
  | .invalidPadding => 0x13
  | .invalidShareFields => 0x14
  | .mnemonicSetMismatch => 0x20
  | .duplicateIndex => 0x21
  | .notEnoughFragments => 0x30
  | .notEnoughGroups => 0x31
  | .digestMismatch => 0x32
  | .tooManyShares => 0x33
  | .invalidSecretLength => 0x40
  | .invalidPassphraseEncoding => 0x41
  | .resourceLimit => 0x50

/-- `raise E(info)`, the one error entry of the machine (R25, R360, R370): ERRCODE, ERRINFO and DONE are written, the
pending register is emptied (BUSY falls), and nothing else changes. ERR follows from ERRCODE (R40). There is no saved
state, no vector and no return from an error: the host writes the next command (R360, R373). -/
def State.raise (s : State) (e : Raised) : State :=
  { s with
    pending := none
    arch := { s.arch with csr := { s.arch.csr with
      done := true
      errCode := e.error.code
      errInfo := e.info } } }

/-- `return` (R25, R408): the outputs `a` are committed with ERRCODE 0, ERRINFO 0 and DONE 1, and the pending register
is emptied. -/
def State.commit (s : State) (a : Arch) : State :=
  { s with
    pending := none
    arch := { a with csr := { a.csr with
      done := true
      errCode := 0
      errInfo := 0 } } }

/-- Complete the running command with the outputs it computed or the error it raised (R408). -/
def State.finish (s : State) : Except Raised Arch → Host.Outcome State Fault Refusal
  | .ok a => .next (s.commit a)
  | .error e => .next (s.raise e)

/-- The same with the random port advanced to byte `pos`: bytes drawn before an error stay drawn (R370, R386). -/
def State.finishDrawn (s : State) (pos : Nat) (r : Except Raised Arch) : Host.Outcome State Fault Refusal :=
  State.finish { s with draws := pos } r

end Sys2Proof.Machine
end

