-- ==== Sys2Proof/Machine/Flags.lean ====
section
/-! DEFINITION. The flags: the fields of STATUS and who sets and clears them (R40, R86). -/

namespace Sys2Proof.Machine

/-- BUSY: a command is pending or the reset sequence runs (R40, R84). -/
def State.busy (s : State) : Bool := s.pending.isSome || !s.arch.csr.ready

/-- ERR: `ERRCODE != 0` (R40). -/
def Csrs.err (c : Csrs) : Bool := c.errCode != 0

/-- The code of the session state: 0 EMPTY, 1 COLLECTING, 2 COMPLETE (R64). -/
def SesState.code : SesState → BitVec 2
  | .empty => 0
  | .collecting => 1
  | .complete => 2

/-- A flag as a word with the flag in bit `i`. -/
def flagAt (i : Nat) (b : Bool) : Word := (BitVec.ofBool b).setWidth 32 <<< i

/-- The STATUS word (R40). -/
def State.status (s : State) : Word :=
  flagAt 0 s.busy ||| flagAt 1 s.arch.csr.done ||| flagAt 2 s.arch.csr.err ||| flagAt 3 s.arch.csr.ready |||
  flagAt 4 s.arch.csr.overrun ||| (s.arch.csr.errCode.setWidth 32 <<< 8) |||
  (s.arch.ses.state.code.setWidth 32 <<< 16)

/-- Set or clear OVERRUN (R40, R412). -/
def State.putOverrun (s : State) (b : Bool) : State :=
  { s with arch := { s.arch with csr := { s.arch.csr with overrun := b } } }

end Sys2Proof.Machine
end

