-- ==== Sys2Proof/Machine/SessionView.lean ====
section
/-! DEFINITION. Groups, completeness and the derived views of the session store (R290, R311, R313). -/

namespace Sys2Proof.Machine

/-- `G_MAX`, the largest number of groups (R12). -/
def groupCapacity : Nat := 16

/-- `N_MAX`, the largest number of members of a group (R12). -/
def memberCapacity : Nat := 16

/-- `SES_MAX`, the largest number of shares the session holds (R12). -/
def sessionCapacity : Nat := 256

/-- `Params(sh)` (R290). -/
def commonParams (sh : Share) : CommonParams where
  identifier := sh.identifier
  iterationExponent := sh.iterationExponent
  groupThreshold := sh.groupThreshold
  groupCount := sh.groupCount
  valueLength := sh.value.length

/-- `Group(g)`: the shares with group index `g` (R311). -/
def groupOf (shs : List Share) (g : Nat) : List Share := shs.filter fun sh => sh.groupIndex.toNat == g

/-- `MT(g)`: the member threshold of the shares of a group, 0 for an empty one (R81, R311). -/
def memberThresholdOf (grp : List Share) : Nat := (grp.map fun sh => sh.memberThreshold.toNat).headD 0

/-- The distinct member indices of a group, ascending (R285, R311). -/
def memberIndices (grp : List Share) : List Nat :=
  (List.range memberCapacity).filter fun i => grp.any fun sh => sh.memberIndex.toNat == i

/-- `Complete(g)`: the group holds a share, and at least its threshold of distinct member indices (R311, R313). -/
def groupComplete (shs : List Share) (g : Nat) : Bool :=
  let grp := groupOf shs g
  !grp.isEmpty && decide (memberThresholdOf grp ≤ (memberIndices grp).length)

/-- The complete group indices, ascending (R285, R311). -/
def completeGroups (shs : List Share) : List Nat := (List.range groupCapacity).filter (groupComplete shs)

/-- The shares the session holds, in acceptance order. -/
def Session.held (x : Session) : List Share := x.shares.map (·.1)

/-- `Texts`: the accepted mnemonic texts, in acceptance order (R311). -/
def Session.texts (x : Session) : List ByteString := x.shares.map (·.2)

/-- `CompleteCount` (R311). -/
def Session.completeCount (x : Session) : Nat := (completeGroups x.held).length

/-- The common parameters while the session is not EMPTY; every view of them is 0 while it is (R65 to R68). -/
def Session.visibleParams (x : Session) : Option CommonParams :=
  if x.state = .empty then none else x.params

/-- The session's group threshold, 0 while EMPTY (R67). -/
def Session.groupThreshold (x : Session) : BitVec 5 := (x.visibleParams.map (·.groupThreshold)).getD 0

/-- The session's group count, 0 while EMPTY (R68). -/
def Session.groupCount (x : Session) : BitVec 5 := (x.visibleParams.map (·.groupCount)).getD 0

/-- The session's identifier, 0 while EMPTY (R65). -/
def Session.identifier (x : Session) : BitVec 15 := (x.visibleParams.map (·.identifier)).getD 0

/-- The session's iteration exponent, 0 while EMPTY (R66). -/
def Session.iterationExponent (x : Session) : BitVec 5 := (x.visibleParams.map (·.iterationExponent)).getD 0

/-- `IsComplete` (R311, R313). -/
def Session.isComplete (x : Session) : Bool :=
  x.state != .empty && decide (x.groupThreshold.toNat ≤ x.completeCount)

end Sys2Proof.Machine
end

