-- ==== Sys2Proof/Machine/Bus.lean ====
section
/-! DEFINITION. The host bus: addresses, element reads and writes, acceptance of a command, busy and reset behaviour
(20_memory.md, 10_state.md, 70_reset_and_hazards.md), and what the unit does on its own turn. -/

namespace Sys2Proof.Machine

/-! ### Addresses (R91, R92) -/

/-- The space id, address bits 31:24 (R91). -/
def spaceId (addr : Word) : Nat := (addr.extractLsb' 24 8).toNat

/-- The element index, address bits 23:0 (R91). -/
def elementIndex (addr : Word) : Nat := (addr.extractLsb' 0 24).toNat

/-- The address of element `i` of space `sp` (R91, R128). -/
def busAddress (sp i : Nat) : Word := BitVec.ofNat 32 (sp <<< 24) ||| BitVec.ofNat 32 i

/-- The buffer space `sp` has an element `i` (R91, R92). The CSR space is not a buffer: its numbers are R35's. -/
def hasElement (p : Params) (sp i : Nat) : Bool :=
  match sp with
  | 0x01 => decide (i < p.lMax)
  | 0x02 => decide (i < p.lMax)
  | 0x03 => decide (i < p.pMax)
  | 0x04 => decide (i < 64)
  | 0x05 => decide (i < p.tMax)
  | 0x06 => decide (i < 16)
  | 0x07 => decide (i / 64 < 16) && decide (i % 64 < p.lMax)
  | 0x08 => decide (i < 32)
  | 0x09 => decide (i / 4096 < 256) && decide (i % 4096 < p.tMax)
  | 0x0A => decide (i < 256)
  | 0x0B => decide (i < 16)
  | _ => false

/-! ### Reads -/

/-- `ID` (R36). -/
def idValue : Word := 0x53484D52

/-- `CAPS` (R37). -/
def capsValue (p : Params) : Word :=
  (BitVec.ofNat 8 p.lMax).setWidth 32 ||| ((BitVec.ofNat 8 p.minSecret).setWidth 32 <<< 8) |||
  ((BitVec.ofNat 16 p.tMax).setWidth 32 <<< 16)

/-- `CAPS2` (R38). -/
def caps2Value (p : Params) : Word := (BitVec.ofNat 16 p.pMax).setWidth 32

/-- The value of CSR `n` (R34 to R70); a number with no register reads 0. -/
def State.readCsr (s : State) (n : Nat) : Word :=
  let c := s.arch.csr
  let x := s.arch.ses
  match n with
  | 0x00 => idValue
  | 0x01 => c.cmd
  | 0x02 => s.status
  | 0x03 => c.errInfo
  | 0x04 => c.result
  | 0x05 => capsValue s.params
  | 0x06 => caps2Value s.params
  | 0x08 => c.lenSecret.setWidth 32
  | 0x09 => c.lenResult.setWidth 32
  | 0x0A => c.lenPass.setWidth 32
  | 0x0B => c.lenSym.setWidth 32
  | 0x0C => c.lenText.setWidth 32
  | 0x0D => c.fragCount.setWidth 32
  | 0x0E => c.lenFrag.setWidth 32
  | 0x0F => c.groupCount.setWidth 32
  | 0x10 => c.mnemCount.setWidth 32
  | 0x11 => c.threshold.setWidth 32
  | 0x12 => c.shareCount.setWidth 32
  | 0x13 => c.ident.setWidth 32
  | 0x14 => c.iterExp.setWidth 32
  | 0x15 => c.groupThreshold.setWidth 32
  | 0x18 => c.shId.setWidth 32
  | 0x19 => c.shExp.setWidth 32
  | 0x1A => c.shGi.setWidth 32
  | 0x1B => c.shGt.setWidth 32
  | 0x1C => c.shGc.setWidth 32
  | 0x1D => c.shMi.setWidth 32
  | 0x1E => c.shMt.setWidth 32
  | 0x20 => x.state.code.setWidth 32
  | 0x21 => x.identifier.setWidth 32
  | 0x22 => x.iterationExponent.setWidth 32
  | 0x23 => x.groupThreshold.setWidth 32
  | 0x24 => x.groupCount.setWidth 32
  | 0x25 => (BitVec.ofNat 9 x.shares.length).setWidth 32
  | 0x26 => (BitVec.ofNat 5 x.completeCount).setWidth 32
  | _ => 0

/-- Element `g` of SES_GROUP, derived from the session store (R81, R319). -/
def Session.groupWord (x : Session) (g : Nat) : Word :=
  let grp := groupOf x.held g
  (BitVec.ofNat 5 grp.length).setWidth 32 ||| ((BitVec.ofNat 5 (memberThresholdOf grp)).setWidth 32 <<< 8) |||
  flagAt 16 (groupComplete x.held g)

/-- Element `i` of the buffer space `sp`, zero-extended (R93). -/
def Arch.readBuffer (a : Arch) (sp i : Nat) : Word :=
  match sp with
  | 0x01 => (Cells.read a.mem.secret i).setWidth 32
  | 0x02 => (Cells.read a.mem.result i).setWidth 32
  | 0x03 => (Cells.read a.mem.pass i).setWidth 32
  | 0x04 => (Cells.read a.mem.sym i).setWidth 32
  | 0x05 => (Cells.read a.mem.text i).setWidth 32
  | 0x06 => (Cells.read a.mem.fragX i).setWidth 32
  | 0x07 => (Cells.read a.mem.fragY i).setWidth 32
  | 0x08 => (Cells.read a.mem.groups i).setWidth 32
  | 0x09 => (Cells.read a.mem.mnem i).setWidth 32
  | 0x0A => (Cells.read a.mem.mnemLen i).setWidth 32
  | 0x0B => a.ses.groupWord i
  | _ => 0

/-- What the address holds: the value an idle host read returns (R92, R93). -/
def State.peek (s : State) (addr : Word) : Word :=
  if spaceId addr = 0 then s.readCsr (elementIndex addr)
  else if hasElement s.params (spaceId addr) (elementIndex addr) then
    s.arch.readBuffer (spaceId addr) (elementIndex addr)
  else 0

/-- The registers readable while the unit is busy: ID, STATUS, CAPS and CAPS2 (R413). -/
def readableWhileBusy (addr : Word) : Bool :=
  addr == busAddress 0 0x00 || addr == busAddress 0 0x02 || addr == busAddress 0 0x05 || addr == busAddress 0 0x06

/-- A host read (R96, R413): the element's value, or, while the unit is busy, of any address but four an unspecified
one. Reading changes nothing of the unit. -/
def State.hostRead (s : State) (addr : Word) : State :=
  if s.busy && !readableWhileBusy addr then
    { s with reads := Config.busyRead s.busyReads :: s.reads, busyReads := s.busyReads + 1 }
  else { s with reads := s.peek addr :: s.reads }

/-! ### Writes -/

/-- A WARL length: `min(v, cap)` in `w` bits (R34, R43). -/
def warl (w : Nat) (v : Word) (cap : Nat) : BitVec w := BitVec.ofNat w (min v.toNat cap)

/-- A host write of a stored register (R43 to R63); CMD and STATUS are apart, and every other number ignores it (R34). -/
def Csrs.write (p : Params) (c : Csrs) (n : Nat) (v : Word) : Csrs :=
  match n with
  | 0x08 => { c with lenSecret := warl 7 v p.lMax }
  | 0x0A => { c with lenPass := warl 16 v p.pMax }
  | 0x0B => { c with lenSym := warl 7 v 64 }
  | 0x0C => { c with lenText := warl 13 v p.tMax }
  | 0x0D => { c with fragCount := warl 5 v 16 }
  | 0x0E => { c with lenFrag := warl 7 v p.lMax }
  | 0x0F => { c with groupCount := warl 5 v 16 }
  | 0x10 => { c with mnemCount := warl 9 v 256 }
  | 0x11 => { c with threshold := v.setWidth 5 }
  | 0x12 => { c with shareCount := v.setWidth 5 }
  | 0x13 => { c with ident := v.setWidth 15 }
  | 0x14 => { c with iterExp := v.setWidth 5 }
  | 0x15 => { c with groupThreshold := v.setWidth 5 }
  | 0x18 => { c with shId := v.setWidth 15 }
  | 0x19 => { c with shExp := v.setWidth 5 }
  | 0x1A => { c with shGi := v.setWidth 4 }
  | 0x1B => { c with shGt := v.setWidth 5 }
  | 0x1C => { c with shGc := v.setWidth 5 }
  | 0x1D => { c with shMi := v.setWidth 4 }
  | 0x1E => { c with shMt := v.setWidth 5 }
  | _ => c

/-- A host write of an element of a buffer space (R71 to R80, R93); RESULT and SES_GROUP ignore it (R72, R81). -/
def Memory.write (p : Params) (m : Memory) (sp i : Nat) (v : Word) : Memory :=
  match sp with
  | 0x01 => { m with secret := Cells.write m.secret i (v.setWidth 8) }
  | 0x03 => { m with pass := Cells.write m.pass i (v.setWidth 8) }
  | 0x04 => { m with sym := Cells.write m.sym i (v.setWidth 10) }
  | 0x05 => { m with text := Cells.write m.text i (v.setWidth 8) }
  | 0x06 => { m with fragX := Cells.write m.fragX i (v.setWidth 8) }
  | 0x07 => { m with fragY := Cells.write m.fragY i (v.setWidth 8) }
  | 0x08 => { m with groups := Cells.write m.groups i (v.setWidth 5) }
  | 0x09 => { m with mnem := Cells.write m.mnem i (v.setWidth 8) }
  | 0x0A => { m with mnemLen := Cells.write m.mnemLen i (warl 13 v p.tMax) }
  | _ => m

/-- A write that only stores (R96): to a register, to an existing element, or to nothing (R92). -/
def State.store (s : State) (addr v : Word) : State :=
  if spaceId addr = 0 then
    { s with arch := { s.arch with csr := Csrs.write s.params s.arch.csr (elementIndex addr) v } }
  else if hasElement s.params (spaceId addr) (elementIndex addr) then
    { s with arch := { s.arch with mem := Memory.write s.params s.arch.mem (spaceId addr) (elementIndex addr) v } }
  else s

/-- Acceptance of a command word by an idle unit (R33): CMD, the pending register with the snapshot of this step, and
DONE 0; BUSY follows. ERRCODE and ERRINFO stay until the completion (R373). -/
def State.accept (s : State) (w : Word) : State :=
  { s with
    pending := some ⟨w, s.arch⟩
    arch := { s.arch with csr := { s.arch.csr with cmd := w, done := false } } }

/-- The write clears OVERRUN: to STATUS with data bit 4 set (R40). -/
def clearsOverrun (addr v : Word) : Bool := addr == busAddress 0 0x02 && v.getLsbD 4

/-- A host write. During the reset sequence it changes nothing; while a command runs it is dropped and sets OVERRUN, but
for the W1C of STATUS (R412); idle, CMD starts a command (R33), the W1C clears OVERRUN, and any other write stores. -/
def State.hostWrite (s : State) (addr v : Word) : State :=
  if !s.arch.csr.ready then s
  else if s.pending.isSome then s.putOverrun (!clearsOverrun addr v)
  else if addr = busAddress 0 0x01 then s.accept v
  else if clearsOverrun addr v then s.putOverrun false
  else s.store addr v

/-! ### Reset and the unit's turn -/

/-- The reset input (R400): a running command is abandoned, everything takes its reset value, and the reset sequence
begins. The parameters are the unit's, and the bus, the read log and the ports are outside it. -/
def State.onReset (s : State) : State := { s with arch := Arch.underReset, pending := none }

/-- The reset sequence ends: the tables are built and STATUS becomes 0x8 (R401). -/
def State.finishReset (s : State) : State :=
  { s with arch := { s.arch with
      tables := buildTables
      csr := { s.arch.csr with ready := true, done := false, overrun := false, errCode := 0 } } }

/-- An illegal word completes with IllegalCommand(OP) (R124). -/
def State.illegalCommand (s : State) (w : Word) : State :=
  s.raise ⟨.illegalCommand, (opField w).setWidth 32⟩

/-- What the unit does on its turn. -/
inductive UnitTurn where
  /-- The reset sequence ends (R401). -/
  | buildTables
  /-- Nothing is pending: the idle unit holds all its state (R391). -/
  | idle
  /-- The pending command completes (R408). -/
  | run (i : Instr)
  /-- The pending word is illegal (R124). -/
  | illegal (w : Word)
deriving DecidableEq, Repr

/-- The unit's turn in a state: the pending word is read from the pending register, not fetched (R31, R103). -/
def State.turn (s : State) : UnitTurn :=
  if !s.arch.csr.ready then .buildTables
  else match s.pending with
    | none => .idle
    | some p =>
      match decode p.word with
      | .ok i => .run i
      | .error _ => .illegal p.word

/-- What a bus event other than the unit's turn does. -/
def State.onEvent (s : State) : BusEvent → State
  | .read addr => s.hostRead addr
  | .write addr v => s.hostWrite addr v
  | .reset => s.onReset
  | .idle => s
  | .unit => s

end Sys2Proof.Machine
end

