-- ==== Sys2Proof/Machine/Operands.lean ====
section
/-! DEFINITION. The operand forms of R123: what each implicit operand of a command is, read from the snapshot taken at
acceptance (R33, R105). -/

namespace Sys2Proof.Machine

/-- A fragment `(x, y)` (R210). -/
structure Fragment where
  x : Byte
  y : ByteString
deriving DecidableEq, Repr

/-- What a command reads its operands from: the snapshot of its acceptance (R33, R408). With no command pending it is
the present state, the snapshot a command accepted now would take (assumption log 14). -/
def State.operands (s : State) : Arch :=
  match s.pending with
  | some p => p.snapshot
  | none => s.arch

/-- An immediate byte zero-extended to the width of CSR RESULT (R122). -/
def zext32 (v : Byte) : Word := v.setWidth 32

/-- `SECRET[0..LEN_SECRET)` (R71). -/
def Arch.secretBytes (a : Arch) : ByteString := Cells.slice a.mem.secret 0 a.csr.lenSecret.toNat

/-- `PASS[0..LEN_PASS)`, the passphrase (R73). -/
def Arch.passBytes (a : Arch) : ByteString := Cells.slice a.mem.pass 0 a.csr.lenPass.toNat

/-- `SYM[0..LEN_SYM)` (R74). -/
def Arch.symbols (a : Arch) : List Sym := Cells.slice a.mem.sym 0 a.csr.lenSym.toNat

/-- `TEXT[0..LEN_TEXT)`, the mnemonic text (R75). -/
def Arch.textBytes (a : Arch) : ByteString := Cells.slice a.mem.text 0 a.csr.lenText.toNat

/-- The fragment file: fragment `j` for `j < FRAG_COUNT` (R76, R77, R210). -/
def Arch.fragments (a : Arch) : List Fragment :=
  (List.range a.csr.fragCount.toNat).map fun j =>
    ⟨Cells.read a.mem.fragX j, Cells.slice a.mem.fragY (j * 64) a.csr.lenFrag.toNat⟩

/-- The groups `(member_threshold, member_count)` for `g < GROUP_COUNT` (R78). -/
def Arch.groupShapes (a : Arch) : List (Nat × Nat) :=
  (List.range a.csr.groupCount.toNat).map fun g =>
    ((Cells.read a.mem.groups (2 * g)).toNat, (Cells.read a.mem.groups (2 * g + 1)).toNat)

/-- The mnemonic texts `MNEM[m*4096 .. m*4096 + MNEM_LEN[m])` for `m < MNEM_COUNT` (R79, R80). -/
def Arch.mnemonics (a : Arch) : List ByteString :=
  (List.range a.csr.mnemCount.toNat).map fun m =>
    Cells.slice a.mem.mnem (m * 4096) (Cells.read a.mem.mnemLen m).toNat

/-- The share that the registers SH_ID to SH_MT and the value operand describe (R260). -/
def Arch.shareOperand (a : Arch) : Share where
  identifier := a.csr.shId
  iterationExponent := a.csr.shExp
  groupIndex := a.csr.shGi
  groupThreshold := a.csr.shGt
  groupCount := a.csr.shGc
  memberIndex := a.csr.shMi
  memberThreshold := a.csr.shMt
  value := a.secretBytes

end Sys2Proof.Machine
end

