-- ==== Sys2Proof/Machine/Checksum.lean ====
section
/-! DEFINITION. The checksum over 10-bit symbols and the commands CHK_CREATE, CHK_VERIFY (41_checksum.md). -/

namespace Sys2Proof.Machine

/-- `S_MAX`, the capacity of the symbol buffer (R12). -/
def symCapacity : Nat := 64

/-- The generator constants `GEN[0]` to `GEN[9]` (R171). -/
def checksumGenerators : List (BitVec 30) :=
  [0x00E0E040, 0x01C1C080, 0x03838100, 0x07070200, 0x0E0E0009,
   0x1C0C2412, 0x38086C24, 0x3090FC48, 0x21B1F890, 0x03F3F120]

/-- Exclusive or of `GEN[i]`, `GEN[i+1]`, ... for the set bits of `b` from bit `i` on (R171). -/
def foldGenerators (b : BitVec 10) : Nat → List (BitVec 30) → BitVec 30 → BitVec 30
  | _, [], chk => chk
  | i, g :: gs, chk => foldGenerators b (i + 1) gs (if b.getLsbD i then chk ^^^ g else chk)

/-- One symbol's turn of `Polymod` (R171). -/
def polymodStep (chk : BitVec 30) (v : Sym) : BitVec 30 :=
  let b : BitVec 10 := chk.extractLsb' 20 10
  let shifted : BitVec 30 := ((chk.extractLsb' 0 20).setWidth 30 <<< 10) ^^^ v.setWidth 30
  foldGenerators b 0 checksumGenerators shifted

/-- `Polymod(s)` (R171). -/
def polymod (s : List Sym) : BitVec 30 := s.foldl polymodStep 1

/-- `CS`, the customization bytes as symbols (R170). -/
def customSymbols (p : Params) : List Sym := p.custom.map (·.setWidth 10)

/-- `Checksum(d)`, three symbols, most significant first (R172). -/
def checksum (p : Params) (d : List Sym) : List Sym :=
  let pm := polymod (customSymbols p ++ d ++ [0, 0, 0]) ^^^ 1
  [pm.extractLsb' 20 10, pm.extractLsb' 10 10, pm.extractLsb' 0 10]

/-- The target of the residue identity: `Polymod(CS ‖ s) = 1` (R171, R174). -/
def checksumHolds (p : Params) (s : List Sym) : Bool := polymod (customSymbols p ++ s) == 1

/-- CHK_CREATE (R173). -/
def execChkCreate (s : State) : Host.Outcome State Fault Refusal :=
  s.finish do
    let d := s.operands.symbols
    raiseIf (d.length + 3 > symCapacity) .resourceLimit 0
    return s.arch.putSymbols d.length (checksum s.params d)

/-- CHK_VERIFY (R174). -/
def execChkVerify (s : State) : Host.Outcome State Fault Refusal :=
  s.finish do
    raiseIf (checksumHolds s.params s.operands.symbols = false) .invalidChecksum 0
    return s.arch.putResult 1

end Sys2Proof.Machine
end

