-- ==== Sys2Proof/Machine/Cipher.lean ====
section
/-! DEFINITION. The passphrase cipher and the commands FC_ENCRYPT, FC_DECRYPT (44_cipher.md). -/

namespace Sys2Proof.Machine

/-- `Salt(id) = CUSTOM ‖ toBE(id, 2)` (R241). -/
def cipherSalt (p : Params) (id : BitVec 15) : ByteString := p.custom ++ toBigEndian 8 id.toNat 2

/-- The round function `F(i, P, e, S, H)` (R240). -/
def roundFunction (P : Ports) (p : Params) (i : Nat) (pass : ByteString) (e : BitVec 5) (salt half : ByteString) :
    ByteString :=
  (P.kdf (toBigEndian 8 i 1 ++ pass) (salt ++ half) (p.baseIter <<< e.toNat) half.length).toList

/-- One round: `(l, r) <- (r, l ⊕ F(i, ..., r))` (R242). -/
def feistelRound (P : Ports) (p : Params) (pass : ByteString) (e : BitVec 5) (salt : ByteString)
    (lr : ByteString × ByteString) (i : Nat) : ByteString × ByteString :=
  (lr.2, xorBytes lr.1 (roundFunction P p i pass e salt lr.2))

/-- The network with the rounds in the given order, the right half put out first (R242, R243). -/
def feistel (P : Ports) (p : Params) (rounds : List Nat) (m pass : ByteString) (e : BitVec 5) (id : BitVec 15) :
    ByteString :=
  let h := m.length / 2
  let lr := rounds.foldl (feistelRound P p pass e (cipherSalt p id)) (m.take h, m.drop h)
  lr.2 ++ lr.1

/-- `Encrypt(M, P, e, id)`: rounds 0 to 3 (R242). -/
def encrypt (P : Ports) (p : Params) (m pass : ByteString) (e : BitVec 5) (id : BitVec 15) : ByteString :=
  feistel P p [0, 1, 2, 3] m pass e id

/-- `Decrypt(C, P, e, id)`: rounds 3 to 0 (R243). -/
def decrypt (P : Ports) (p : Params) (c pass : ByteString) (e : BitVec 5) (id : BitVec 15) : ByteString :=
  feistel P p [3, 2, 1, 0] c pass e id

/-- `CheckLength(L)` (R246). -/
def checkLength (p : Params) (L : Nat) : Except Raised Unit :=
  raiseIf (L % 2 = 1 ∨ L < 2 ∨ L > p.lMax) .invalidSecretLength L

/-- The byte is in `PASS_CHARSET` (R17). -/
def PassCharset.accepts : PassCharset → Byte → Bool
  | .sevenBit, b => decide (b.toNat ≤ 0x7F)
  | .printable, b => decide (0x20 ≤ b.toNat) && decide (b.toNat ≤ 0x7E)

/-- `CheckPass(P)`: the first non-conforming byte's index is reported (R246). -/
def checkPass (p : Params) (pass : ByteString) : Except Raised Unit :=
  raiseAt (pass.findIdx? fun b => !PassCharset.accepts p.charset b) .invalidPassphraseEncoding id

/-- FC_ENCRYPT (R244). -/
def execFcEncrypt (s : State) : Host.Outcome State Fault Refusal :=
  s.finish do
    let a := s.operands
    checkLength s.params a.csr.lenSecret.toNat
    checkPass s.params a.passBytes
    return s.arch.putResultBytes
      (encrypt Config.ports s.params a.secretBytes a.passBytes a.csr.iterExp a.csr.ident)

/-- FC_DECRYPT (R245). -/
def execFcDecrypt (s : State) : Host.Outcome State Fault Refusal :=
  s.finish do
    let a := s.operands
    checkLength s.params a.csr.lenSecret.toNat
    checkPass s.params a.passBytes
    return s.arch.putResultBytes
      (decrypt Config.ports s.params a.secretBytes a.passBytes a.csr.iterExp a.csr.ident)

end Sys2Proof.Machine
end

