-- ==== Sys2Proof/Machine/Field.lean ====
section
/-! DEFINITION. GF(256) field arithmetic by the log/exp tables, and the commands GF_ADD, GF_MUL, GF_DIV, GF_INV
(40_field.md). -/

namespace Sys2Proof.Machine

/-- `gfadd(a, b)` (R153). -/
def gfadd (a b : Byte) : Byte := a ^^^ b

/-- `gfmul(a, b)` (R154). -/
def gfmul (t : FieldTables) (a b : Byte) : Byte :=
  if a = 0 ∨ b = 0 then 0 else t.expAt ((t.logAt a + t.logAt b) % 255)

/-- `gfdiv(a, b)` for a divisor that is not 0 (R155); the check of the divisor is the command's. -/
def gfdiv (t : FieldTables) (a b : Byte) : Byte :=
  if a = 0 then 0 else t.expAt ((t.logAt a + 255 - t.logAt b) % 255)

/-- `gfinv(a)` for `a` not 0 (R156). -/
def gfinv (t : FieldTables) (a : Byte) : Byte := t.expAt ((255 - t.logAt a) % 255)

/-- `Σ` over GF(256): repeated `gfadd` from 0 (R27). -/
def gfsum (vs : List Byte) : Byte := vs.foldl gfadd 0

/-- `Π` over GF(256): repeated `gfmul` from 1 (R27). -/
def gfprod (t : FieldTables) (vs : List Byte) : Byte := vs.foldl (gfmul t) 1

/-- GF_ADD (R153). -/
def execGfAdd (a b : Byte) (s : State) : Host.Outcome State Fault Refusal :=
  s.finish (.ok (s.arch.putResult (zext32 (gfadd a b))))

/-- GF_MUL (R154). -/
def execGfMul (a b : Byte) (s : State) : Host.Outcome State Fault Refusal :=
  s.finish (.ok (s.arch.putResult (zext32 (gfmul s.operands.tables a b))))

/-- GF_DIV (R155). -/
def execGfDiv (a b : Byte) (s : State) : Host.Outcome State Fault Refusal :=
  s.finish do
    raiseIf (b = 0) .divisionByZero 0
    return s.arch.putResult (zext32 (gfdiv s.operands.tables a b))

/-- GF_INV (R156). -/
def execGfInv (a : Byte) (s : State) : Host.Outcome State Fault Refusal :=
  s.finish do
    raiseIf (a = 0) .divisionByZero 0
    return s.arch.putResult (zext32 (gfinv s.operands.tables a))

end Sys2Proof.Machine
end

