-- ==== Sys2Proof/Machine/Shamir.lean ====
section
/-! DEFINITION. The Shamir engine: Lagrange interpolation, split and recombine, and the commands SH_INTERPOLATE, SH_SPLIT,
SH_RECOMBINE (43_shamir.md). -/

namespace Sys2Proof.Machine

/-- The x-coordinate of the digest fragment (R210, R213). -/
def digestX : Byte := 254

/-- The x-coordinate of the secret (R210). -/
def secretX : Byte := 255

/-- The x-coordinates of the fragments. -/
def xsOf (F : List Fragment) : List Byte := F.map (·.x)

/-- The Lagrange coefficient `c_i` at `x` for the nodes `xs` (R211): products over the nodes at the other positions. -/
def lagrangeCoeff (t : FieldTables) (xs : List Byte) (x : Byte) (i : Nat) : Byte :=
  let xi := xs.getD i 0
  let others := xs.eraseIdx i
  gfdiv t (gfprod t (others.map (gfadd x))) (gfprod t (others.map (gfadd xi)))

/-- `Interp(F, x)` (R211); the length is that of the first fragment, which all share. -/
def interp (t : FieldTables) (F : List Fragment) (x : Byte) : ByteString :=
  let xs := xsOf F
  let cs := (List.range F.length).map (lagrangeCoeff t xs x)
  (List.range ((F.map (·.y.length)).headD 0)).map fun k =>
    gfsum (List.zipWith (fun c f => gfmul t c (f.y.getD k 0)) cs F)

/-- `RngDraw(n)` at stream position `pos` (R26, R386). -/
def rngDraw (P : Ports) (pos n : Nat) : ByteString := (List.range n).map fun k => P.rng (pos + k)

/-- `DigestY(s, r) = Digest4(r, s) ‖ r` (R213). -/
def digestY (P : Ports) (s r : ByteString) : ByteString := (P.digest4 r s).toList ++ r

/-- How many bytes `Split(t, n, s)` draws for a secret of `L` bytes (R214). -/
def splitDraws (t L : Nat) : Nat := if t ≤ 1 then 0 else (t - 2) * L + (L - 4)

/-- The random fragments of `Split`, at x = 0 to t-3, drawn in x order from position `pos` (R214). -/
def randomFragments (P : Ports) (pos t L : Nat) : List Fragment :=
  (List.range (t - 2)).map fun i => ⟨BitVec.ofNat 8 i, rngDraw P (pos + i * L) L⟩

/-- The interpolation basis of `Split` for `t >= 2`: the random fragments, the digest fragment whose salt is drawn after
them, and the secret (R214). -/
def splitBasis (P : Ports) (pos t : Nat) (s : ByteString) : List Fragment :=
  let L := s.length
  let r := rngDraw P (pos + (t - 2) * L) (L - 4)
  randomFragments P pos t L ++ [⟨digestX, digestY P s r⟩, ⟨secretX, s⟩]

/-- `Split(t, n, s)` with the random port at position `pos` (R214); it leaves the port at `pos + splitDraws t s.length`. -/
def split (P : Ports) (T : FieldTables) (pos t n : Nat) (s : ByteString) : List Fragment :=
  if t = 1 then (List.range n).map fun i => ⟨BitVec.ofNat 8 i, s⟩
  else
    randomFragments P pos t s.length ++
      (List.range' (t - 2) (n - (t - 2))).map fun i =>
        ⟨BitVec.ofNat 8 i, interp T (splitBasis P pos t s) (BitVec.ofNat 8 i)⟩

/-- The first `j` with `x_j = x_i` for some `i < j` (R212, R219). -/
def firstDuplicateX (F : List Fragment) : Option Nat := firstConflict (· == ·) [] 0 (xsOf F)

/-- `Recombine(t, F)` (R219). -/
def recombine (P : Ports) (T : FieldTables) (t : Nat) (F : List Fragment) : Except Raised ByteString := do
  raiseIf (¬(1 ≤ t ∧ t ≤ 16)) .inputValidation 0
  raiseIf (F.length = 0) .notEnoughFragments 0
  raiseAt (firstDuplicateX F) .duplicateIndex id
  raiseIf (F.length < t) .notEnoughFragments F.length
  raiseIf (F.length > t) .tooManyShares F.length
  let y0 := (F.map (·.y)).headD []
  if t = 1 then return y0
  raiseIf (y0.length < 4) .invalidSecretLength y0.length
  let s := interp T F secretX
  let d := interp T F digestX
  raiseIf (d.take 4 ≠ (P.digest4 (d.drop 4) s).toList) .digestMismatch 0
  return s

/-- Write fragments to the fragment file from fragment `j` on (R76, R77). -/
def putFragmentsFrom (j : Nat) (m : Memory) : List Fragment → Memory
  | [] => m
  | f :: rest =>
    putFragmentsFrom (j + 1)
      { m with
        fragX := Cells.write m.fragX j f.x
        fragY := Cells.writeList m.fragY (j * 64) f.y } rest

/-- Write the fragment file with its count and length registers (R215). -/
def Arch.putFragments (a : Arch) (F : List Fragment) (L : Nat) : Arch :=
  { a with
    csr := { a.csr with fragCount := BitVec.ofNat 5 F.length, lenFrag := BitVec.ofNat 7 L }
    mem := putFragmentsFrom 0 a.mem F }

/-- SH_INTERPOLATE x (R212). -/
def execShInterpolate (x : Byte) (s : State) : Host.Outcome State Fault Refusal :=
  s.finish do
    let F := s.operands.fragments
    raiseIf (F.length = 0) .notEnoughFragments 0
    raiseAt (firstDuplicateX F) .duplicateIndex id
    return s.arch.putResultBytes (interp s.operands.tables F x)

/-- SH_SPLIT's checks (R215), made before anything is drawn. -/
def splitChecks (t n L : Nat) : Except Raised Unit := do
  raiseIf (¬(1 ≤ t ∧ t ≤ n ∧ n ≤ 16)) .inputValidation 0
  raiseIf (t ≥ 2 ∧ L < 4) .invalidSecretLength L

/-- SH_SPLIT (R215). -/
def execShSplit (s : State) : Host.Outcome State Fault Refusal :=
  let t := s.operands.csr.threshold.toNat
  let n := s.operands.csr.shareCount.toNat
  let secret := s.operands.secretBytes
  match splitChecks t n secret.length with
  | .error e => s.finish (.error e)
  | .ok _ =>
    s.finishDrawn (s.draws + splitDraws t secret.length)
      (.ok (s.arch.putFragments (split Config.ports s.operands.tables s.draws t n secret) secret.length))

/-- SH_RECOMBINE (R220). -/
def execShRecombine (s : State) : Host.Outcome State Fault Refusal :=
  s.finish do
    let y ← recombine Config.ports s.operands.tables s.operands.csr.threshold.toNat s.operands.fragments
    return s.arch.putResultBytes y

end Sys2Proof.Machine
end

