-- ==== Sys2Proof/Machine/WordCodec.lean ====
section
/-! DEFINITION. The word codec and the commands WC_PACK, WC_UNPACK, WC_TO_WORDS, WC_FROM_WORDS (42_wordcodec.md). -/

namespace Sys2Proof.Machine

/-- The separator byte 0x20 (R190). -/
def space : Byte := 0x20

/-- `Tokens(t)` with the token begun so far (R190). -/
def tokensFrom (cur : ByteString) : ByteString → List ByteString
  | [] => if cur.isEmpty then [] else [cur]
  | c :: rest =>
    if c = space then
      if cur.isEmpty then tokensFrom [] rest else cur :: tokensFrom [] rest
    else tokensFrom (cur ++ [c]) rest

/-- `Tokens(t)`: the maximal runs of bytes other than 0x20 (R190). -/
def tokens (t : ByteString) : List ByteString := tokensFrom [] t

/-- `Lookup(tok)`: the index of the word equal to the token, or a miss (R191). -/
def lookupWord (p : Params) (tok : ByteString) : Option Sym :=
  (p.vocab.words.findIdx? (· == tok)).map (BitVec.ofNat 10)

/-- `Word(s)` (R191). -/
def wordOf (p : Params) (s : Sym) : ByteString := p.vocab.words.getD s.toNat []

/-- Look up every token; the first miss raises UnknownWord with its token index (R195, R265). -/
def lookupAll (p : Params) : Nat → List ByteString → Except Raised (List Sym)
  | _, [] => .ok []
  | j, tok :: rest =>
    match lookupWord p tok with
    | none => .error ⟨.unknownWord, BitVec.ofNat 32 j⟩
    | some v => do
      let vs ← lookupAll p (j + 1) rest
      return v :: vs

/-- `ceil(8L/10)`, the symbols a value of `L` bytes takes (R196). -/
def symbolsFor (bytes : Nat) : Nat := (8 * bytes + 9) / 10

/-- `Pack(b)` (R196). -/
def pack (b : ByteString) : List Sym := toBigEndian 10 (bigEndian b) (symbolsFor b.length)

/-- Words joined by one space each. -/
def joinWords : List ByteString → ByteString
  | [] => []
  | [w] => w
  | w :: v :: rest => w ++ space :: joinWords (v :: rest)

/-- `Text(s)` (R197). -/
def textOf (p : Params) (s : List Sym) : ByteString := joinWords (s.map (wordOf p))

/-- WC_PACK (R192). -/
def execWcPack (s : State) : Host.Outcome State Fault Refusal :=
  s.finish (.ok (s.arch.putSymbols 0 (pack s.operands.secretBytes)))

/-- WC_UNPACK n (R193). -/
def execWcUnpack (n : Byte) (s : State) : Host.Outcome State Fault Refusal :=
  s.finish do
    raiseIf (n.toNat > s.params.lMax) .resourceLimit 0
    let v := bigEndian s.operands.symbols
    raiseIf (v ≥ 2 ^ (8 * n.toNat)) .invalidPadding 0
    return s.arch.putResultBytes (toBigEndian 8 v n.toNat)

/-- WC_TO_WORDS (R194). -/
def execWcToWords (s : State) : Host.Outcome State Fault Refusal :=
  s.finish do
    let t := textOf s.params s.operands.symbols
    raiseIf (t.length > s.params.tMax) .resourceLimit 0
    return s.arch.putText t

/-- WC_FROM_WORDS (R195). -/
def execWcFromWords (s : State) : Host.Outcome State Fault Refusal :=
  s.finish do
    let vs ← lookupAll s.params 0 (tokens s.operands.textBytes)
    raiseIf (vs.length > symCapacity) .resourceLimit 0
    return s.arch.putSymbols 0 vs

end Sys2Proof.Machine
end

