-- ==== Sys2Proof/Machine/ShareCodec.lean ====
section
/-! DEFINITION. The share codec and the commands SHARE_ENCODE, SHARE_DECODE (45_share.md). -/

namespace Sys2Proof.Machine

/-- A true threshold or count 1 to 16 as the 4 stored bits, its value minus one (R262). -/
def storedMinusOne (v : BitVec 5) : BitVec 4 := (v - 1).setWidth 4

/-- The true value of 4 stored bits (R262, R265). -/
def plusOne (v : BitVec 4) : BitVec 5 := v.setWidth 5 + 1

/-- The 40-bit share header (R262). -/
def shareHeader (sh : Share) : BitVec 40 :=
  (sh.identifier.setWidth 40 <<< 25) ||| (sh.iterationExponent.setWidth 40 <<< 20) |||
  (sh.groupIndex.setWidth 40 <<< 16) ||| ((storedMinusOne sh.groupThreshold).setWidth 40 <<< 12) |||
  ((storedMinusOne sh.groupCount).setWidth 40 <<< 8) ||| (sh.memberIndex.setWidth 40 <<< 4) |||
  (storedMinusOne sh.memberThreshold).setWidth 40

/-- Symbol `i` of the header is `header[39-10i : 30-10i]` (R262). -/
def headerSymbols (hdr : BitVec 40) : List Sym :=
  [hdr.extractLsb' 30 10, hdr.extractLsb' 20 10, hdr.extractLsb' 10 10, hdr.extractLsb' 0 10]

/-- `Encode(sh)`: header, value and checksum symbols (R263, R264). -/
def encodeShare (p : Params) (sh : Share) : List Sym :=
  let d := headerSymbols (shareHeader sh) ++ pack sh.value
  d ++ checksum p d

/-- The Share with the fields of a header and a value (R265). -/
def shareFromHeader (hdr : BitVec 40) (value : ByteString) : Share where
  identifier := hdr.extractLsb' 25 15
  iterationExponent := hdr.extractLsb' 20 5
  groupIndex := hdr.extractLsb' 16 4
  groupThreshold := plusOne (hdr.extractLsb' 12 4)
  groupCount := plusOne (hdr.extractLsb' 8 4)
  memberIndex := hdr.extractLsb' 4 4
  memberThreshold := plusOne (hdr.extractLsb' 0 4)
  value := value

/-- The padding bits of `V` value symbols beyond the largest even byte count they hold (R265). -/
def paddingBits (V : Nat) : Nat := (10 * V) % 16

/-- `Decode(t)` after the lookup, on the symbols (R265). -/
def decodeSymbols (p : Params) (s : List Sym) : Except Raised Share := do
  let W := s.length
  raiseIf (W < 7 + symbolsFor p.minSecret) .invalidWordCount W
  let V := W - 7
  raiseIf (paddingBits V > 8) .invalidWordCount W
  let L := (10 * V - paddingBits V) / 8
  raiseIf (L > p.lMax) .resourceLimit W
  raiseIf (checksumHolds p s = false) .invalidChecksum 0
  let v := bigEndian ((s.drop 4).take V)
  raiseIf (v ≥ 2 ^ (8 * L)) .invalidPadding 0
  let sh := shareFromHeader (BitVec.ofNat 40 (bigEndian (s.take 4))) (toBigEndian 8 v L)
  raiseIf (sh.groupThreshold.toNat > sh.groupCount.toNat ∨ sh.groupIndex.toNat ≥ sh.groupCount.toNat)
    .invalidShareFields 0
  return sh

/-- `Decode(t)`: the Share and its symbols (R265). -/
def decodeShare (p : Params) (t : ByteString) : Except Raised (Share × List Sym) := do
  let s ← lookupAll p 0 (tokens t)
  let sh ← decodeSymbols p s
  return (sh, s)

/-- SHARE_ENCODE's checks of the fields and the value length (R264). -/
def shareChecks (p : Params) (sh : Share) : Except Raised Unit := do
  let gt := sh.groupThreshold.toNat
  let gc := sh.groupCount.toNat
  let mt := sh.memberThreshold.toNat
  raiseIf (¬(1 ≤ gt ∧ gt ≤ 16 ∧ 1 ≤ gc ∧ gc ≤ 16 ∧ 1 ≤ mt ∧ mt ≤ 16 ∧ gt ≤ gc ∧ sh.groupIndex.toNat < gc))
    .inputValidation 0
  raiseIf (sh.value.length % 2 = 1 ∨ sh.value.length < p.minSecret) .invalidSecretLength sh.value.length

/-- SHARE_ENCODE (R264). -/
def execShareEncode (s : State) : Host.Outcome State Fault Refusal :=
  s.finish do
    let sh := s.operands.shareOperand
    shareChecks s.params sh
    let sy := encodeShare s.params sh
    let t := textOf s.params sy
    raiseIf (t.length > s.params.tMax) .resourceLimit 0
    return (s.arch.putSymbols 0 sy).putText t

/-- SHARE_DECODE (R266). -/
def execShareDecode (s : State) : Host.Outcome State Fault Refusal :=
  s.finish do
    let r ← decodeShare s.params s.operands.textBytes
    return ((s.arch.putShareFields r.1).putResultBytes r.1.value).putSymbols 0 r.2

end Sys2Proof.Machine
end

