-- ==== Sys2Proof/Machine/Orchestrator.lean ====
section
/-! DEFINITION. The split/combine orchestrator and the commands GENERATE, COMBINE (46_orchestrator.md). -/

namespace Sys2Proof.Machine

/-! ### Generate -/

/-- A group's shape is legal: `1 <= mt <= mc <= 16`, and not 1 of many (R280). -/
def legalGroup (g : Nat × Nat) : Bool :=
  decide (1 ≤ g.1) && decide (g.1 ≤ g.2) && decide (g.2 ≤ memberCapacity) && !(g.1 == 1 && decide (g.2 > 1))

/-- `GenValidate` (R280). -/
def genValidate (p : Params) (gt : Nat) (groups : List (Nat × Nat)) (S pass : ByteString) : Except Raised Unit := do
  raiseIf (¬(1 ≤ gt ∧ gt ≤ groups.length ∧ groups.length ≤ groupCapacity)) .inputValidation 0x100
  raiseAt (groups.findIdx? fun g => !legalGroup g) .inputValidation id
  raiseIf (S.length % 2 = 1 ∨ S.length < p.minSecret ∨ S.length > p.lMax) .invalidSecretLength S.length
  checkPass p pass

/-- `BE(RngDraw(2)) & 0x7FFF`: the low 15 bits of two drawn bytes (R282). -/
def drawIdentifier (P : Ports) (pos : Nat) : BitVec 15 := BitVec.ofNat 15 (bigEndian (rngDraw P pos 2))

/-- The share of member fragment `f` of group `g` (R281): its member index is the fragment's x. -/
def memberShare (id : BitVec 15) (e : BitVec 5) (gt gc g mt : Nat) (f : Fragment) : Share where
  identifier := id
  iterationExponent := e
  groupIndex := BitVec.ofNat 4 g
  groupThreshold := BitVec.ofNat 5 gt
  groupCount := BitVec.ofNat 5 gc
  memberIndex := f.x.setWidth 4
  memberThreshold := BitVec.ofNat 5 mt
  value := f.y

/-- The member splits of the groups in order, from group `g` and random position `pos` on (R281). -/
def splitMembers (P : Ports) (T : FieldTables) (id : BitVec 15) (e : BitVec 5) (gt gc : Nat) :
    Nat → Nat → List (Nat × Nat) → List Fragment → List Share
  | g, pos, (mt, mc) :: shapes, G :: Gs =>
    (split P T pos mt mc G.y).map (memberShare id e gt gc g mt) ++
      splitMembers P T id e gt gc (g + 1) (pos + splitDraws mt G.y.length) shapes Gs
  | _, _, _, _ => []

/-- How many bytes a GENERATE draws for a secret of `L` bytes: 2, the group-level split, and each member split (R281). -/
def generateDraws (gt : Nat) (groups : List (Nat × Nat)) (L : Nat) : Nat :=
  2 + splitDraws gt L + (groups.map fun g => splitDraws g.1 L).sum

/-- `Generate(gt, groups, S, P, e)` with the random port at `pos` (R281): the identifier and the shares. -/
def generateShares (P : Ports) (T : FieldTables) (p : Params) (pos gt : Nat) (groups : List (Nat × Nat))
    (S pass : ByteString) (e : BitVec 5) : BitVec 15 × List Share :=
  let id := drawIdentifier P pos
  let ems := encrypt P p S pass e id
  let G := split P T (pos + 2) gt groups.length ems
  (id, splitMembers P T id e gt groups.length 0 (pos + 2 + splitDraws gt ems.length) groups G)

/-- The mnemonic texts of the shares from index `m` on; the first that does not fit raises ResourceLimit (R283). -/
def mnemonicTexts (p : Params) : Nat → List Share → Except Raised (List ByteString)
  | _, [] => .ok []
  | m, sh :: rest => do
    let t := textOf p (encodeShare p sh)
    raiseIf (t.length > p.tMax) .resourceLimit (m <<< 16)
    let ts ← mnemonicTexts p (m + 1) rest
    return t :: ts

/-- Write mnemonic texts to the slots from `m` on (R283, R284). -/
def putMnemonicsFrom (m : Nat) (mem : Memory) : List ByteString → Memory
  | [] => mem
  | t :: rest =>
    putMnemonicsFrom (m + 1)
      { mem with
        mnem := Cells.writeList mem.mnem (m * 4096) t
        mnemLen := Cells.write mem.mnemLen m (BitVec.ofNat 13 t.length) } rest

/-- GENERATE's outputs: the mnemonics, their count and the identifier (R283). -/
def Arch.putMnemonics (a : Arch) (ts : List ByteString) (id : BitVec 15) : Arch :=
  { a with
    csr := { a.csr with mnemCount := BitVec.ofNat 9 ts.length, ident := id }
    mem := putMnemonicsFrom 0 a.mem ts }

/-- GENERATE (R283). -/
def execGenerate (s : State) : Host.Outcome State Fault Refusal :=
  let a := s.operands
  let gt := a.csr.groupThreshold.toNat
  match genValidate s.params gt a.groupShapes a.secretBytes a.passBytes with
  | .error e => s.finish (.error e)
  | .ok _ =>
    let r := generateShares Config.ports a.tables s.params s.draws gt a.groupShapes a.secretBytes a.passBytes
      a.csr.iterExp
    s.finishDrawn (s.draws + generateDraws gt a.groupShapes a.secretBytes.length) do
      let ts ← mnemonicTexts s.params 0 r.2
      return s.arch.putMnemonics ts r.1

/-! ### Combine -/

/-- Decode the mnemonics from index `m` on, each `at m` (R285, R287). -/
def decodeAll (p : Params) : Nat → List ByteString → Except Raised (List Share)
  | _, [] => .ok []
  | m, t :: rest => do
    let r ← atMnemonic m (decodeShare p t)
    let shs ← decodeAll p (m + 1) rest
    return r.1 :: shs

/-- Two shares of one group with different member thresholds (R285, R290). -/
def thresholdsDiffer (a b : Share) : Bool :=
  a.groupIndex == b.groupIndex && a.memberThreshold != b.memberThreshold

/-- Two different shares of one group with one member index (R285, R288). -/
def indicesClash (a b : Share) : Bool :=
  a.groupIndex == b.groupIndex && a.memberIndex == b.memberIndex && a != b

/-- `re-raising DigestMismatch(_) as DigestMismatch(d)` (R285). -/
def digestMismatchAs {α : Type} (d : Nat) : Except Raised α → Except Raised α
  | .ok a => .ok a
  | .error e => if e.error = .digestMismatch then .error ⟨.digestMismatch, BitVec.ofNat 32 d⟩ else .error e

/-- `Fg`: the fragments of a group's first `mt` member indices, ascending (R285, R286). -/
def memberFragments (grp : List Share) : List Fragment :=
  ((memberIndices grp).take (memberThresholdOf grp)).map fun i =>
    ⟨BitVec.ofNat 8 i, ((grp.find? fun sh => sh.memberIndex.toNat == i).map (·.value)).getD []⟩

/-- `GF`: the group fragments of the chosen groups (R285). -/
def groupFragments (P : Ports) (T : FieldTables) (shs : List Share) : List Nat → Except Raised (List Fragment)
  | [] => .ok []
  | g :: gs => do
    let grp := groupOf shs g
    let y ← digestMismatchAs g (recombine P T (memberThresholdOf grp) (memberFragments grp))
    let rest ← groupFragments P T shs gs
    return ⟨BitVec.ofNat 8 g, y⟩ :: rest

/-- `Combine` from the decoded shares on, `sh0` the first of them (R285, R286). -/
def combineShares (P : Ports) (T : FieldTables) (p : Params) (sh0 : Share) (shs : List Share) (pass : ByteString) :
    Except Raised ByteString := do
  raiseAt (shs.findIdx? fun sh => commonParams sh != commonParams sh0) .mnemonicSetMismatch (fun m => (m <<< 16) + 1)
  raiseAt (firstConflict thresholdsDiffer [] 0 shs) .mnemonicSetMismatch (fun m => (m <<< 16) + 2)
  raiseAt (firstConflict indicesClash [] 0 shs) .duplicateIndex (fun m => m <<< 16)
  let C := completeGroups shs
  let gt := sh0.groupThreshold.toNat
  raiseIf (C.length < gt) .notEnoughGroups C.length
  let GF ← groupFragments P T shs (C.take gt)
  let ems ← digestMismatchAs 0x100 (recombine P T gt GF)
  return decrypt P p ems pass sh0.iterationExponent sh0.identifier

/-- `Combine(T, P)` (R285). -/
def combine (P : Ports) (T : FieldTables) (p : Params) (texts : List ByteString) (pass : ByteString) :
    Except Raised ByteString := do
  checkPass p pass
  raiseIf (texts.length = 0) .notEnoughGroups 0
  let shs ← decodeAll p 0 texts
  match shs with
  | [] => .error ⟨.notEnoughGroups, 0⟩
  | sh0 :: _ => combineShares P T p sh0 shs pass

/-- COMBINE (R295). -/
def execCombine (s : State) : Host.Outcome State Fault Refusal :=
  s.finish do
    let a := s.operands
    let y ← combine Config.ports a.tables s.params a.mnemonics a.passBytes
    return s.arch.putResultBytes y

end Sys2Proof.Machine
end

