-- ==== Sys2Proof/Machine/SessionCmds.lean ====
section
/-! DEFINITION. The recovery session and the commands SES_RESET, SES_ACCEPT, SES_STATUS, SES_IS_COMPLETE,
SES_GROUP_COMPLETE, SES_COMBINE (47_session.md). The session registers are views of the store (R311, R319), so no
command writes them separately. -/

namespace Sys2Proof.Machine

/-- A decoded share enters the session: it is appended, and the state is COMPLETE or COLLECTING as the session then is
(R312, R320; assumption log 10). -/
def Session.insert (x : Session) (c : Option CommonParams) (sh : Share) (t : ByteString) : Session :=
  let y : Session := ⟨.collecting, c, x.shares ++ [(sh, t)]⟩
  if y.isComplete then { y with state := .complete } else y

/-- `Accept` after the decode, on a session that is not EMPTY (R312): the new session and 1, or the same one and 0. -/
def Session.acceptMore (x : Session) (sh : Share) (t : ByteString) : Except Raised (Session × Word) := do
  raiseIf (x.params ≠ some (commonParams sh)) .mnemonicSetMismatch 1
  let grp := groupOf x.held sh.groupIndex.toNat
  raiseIf (grp ≠ [] ∧ memberThresholdOf grp ≠ sh.memberThreshold.toNat) .mnemonicSetMismatch 2
  if sh ∈ x.held then return (x, 0)
  raiseIf (∃ h ∈ x.held, h.groupIndex = sh.groupIndex ∧ h.memberIndex = sh.memberIndex) .duplicateIndex 0
  raiseIf (x.shares.length = sessionCapacity) .resourceLimit 0
  return (x.insert x.params sh t, 1)

/-- `Accept(t)` (R312). -/
def Session.accept (p : Params) (x : Session) (t : ByteString) : Except Raised (Session × Word) := do
  let r ← decodeShare p t
  if x.state = .empty then return (x.insert (some (commonParams r.1)) r.1 t, 1)
  x.acceptMore r.1 t

/-- SES_RESET (R310). -/
def execSesReset (s : State) : Host.Outcome State Fault Refusal :=
  s.finish (.ok (s.arch.putSession Session.empty))

/-- SES_ACCEPT (R314). -/
def execSesAccept (s : State) : Host.Outcome State Fault Refusal :=
  s.finish do
    let r ← Session.accept s.params s.operands.ses s.operands.textBytes
    return (s.arch.putSession r.1).putResult r.2

/-- The packed summary of the session (R315). -/
def Session.statusWord (x : Session) : Word :=
  x.state.code.setWidth 32 ||| ((BitVec.ofNat 5 x.completeCount).setWidth 32 <<< 4) |||
  (x.groupThreshold.setWidth 32 <<< 12) ||| (x.groupCount.setWidth 32 <<< 20)

/-- SES_STATUS (R315). -/
def execSesStatus (s : State) : Host.Outcome State Fault Refusal :=
  s.finish (.ok (s.arch.putResult s.operands.ses.statusWord))

/-- SES_IS_COMPLETE (R317). -/
def execSesIsComplete (s : State) : Host.Outcome State Fault Refusal :=
  s.finish (.ok (s.arch.putResult (flagAt 0 s.operands.ses.isComplete)))

/-- SES_GROUP_COMPLETE g (R318). -/
def execSesGroupComplete (g : Byte) (s : State) : Host.Outcome State Fault Refusal :=
  s.finish (.ok (s.arch.putResult (flagAt 0 (groupComplete s.operands.ses.held g.toNat))))

/-- SES_COMBINE (R316). -/
def execSesCombine (s : State) : Host.Outcome State Fault Refusal :=
  s.finish do
    let a := s.operands
    raiseIf (a.ses.state ≠ .complete) .notEnoughGroups a.ses.completeCount
    let y ← combine Config.ports a.tables s.params a.ses.texts a.passBytes
    return (s.arch.putResultBytes y).putSession Session.empty

end Sys2Proof.Machine
end

