-- ==== Sys2Proof/Machine/SystemCmds.lean ====
section
/-! DEFINITION. The system commands NOP and CLEAR (48_system.md). -/

namespace Sys2Proof.Machine

/-- CLEAR's registers: every RW register but CMD, and LEN_RESULT and RESULT, become 0 (R341, C12). -/
def Csrs.cleared (c : Csrs) : Csrs :=
  { Csrs.reset with
    cmd := c.cmd
    done := c.done
    ready := c.ready
    overrun := c.overrun
    errCode := c.errCode
    errInfo := c.errInfo }

/-- NOP (R340). -/
def execNop (s : State) : Host.Outcome State Fault Refusal := s.finish (.ok s.arch)

/-- CLEAR (R341). -/
def execClear (s : State) : Host.Outcome State Fault Refusal :=
  s.finish (.ok { s.arch with csr := s.arch.csr.cleared, mem := Memory.zero })

end Sys2Proof.Machine
end

