-- ==== Sys2Proof/Machine/Dispatch.lean ====
section
/-! DEFINITION. One arm per command: the completion of the command on the state (R121, R408). -/

namespace Sys2Proof.Machine
open Sys2Proof

def exec (i : Instr) (s : State) : Host.Outcome State Fault Refusal :=
  match i with
  | .nop => Sys2Proof.Machine.execNop s
  | .gfAdd a b => Sys2Proof.Machine.execGfAdd a b s
  | .gfMul a b => Sys2Proof.Machine.execGfMul a b s
  | .gfDiv a b => Sys2Proof.Machine.execGfDiv a b s
  | .gfInv a => Sys2Proof.Machine.execGfInv a s
  | .chkCreate => Sys2Proof.Machine.execChkCreate s
  | .chkVerify => Sys2Proof.Machine.execChkVerify s
  | .wcPack => Sys2Proof.Machine.execWcPack s
  | .wcUnpack n => Sys2Proof.Machine.execWcUnpack n s
  | .wcToWords => Sys2Proof.Machine.execWcToWords s
  | .wcFromWords => Sys2Proof.Machine.execWcFromWords s
  | .shInterpolate x => Sys2Proof.Machine.execShInterpolate x s
  | .shSplit => Sys2Proof.Machine.execShSplit s
  | .shRecombine => Sys2Proof.Machine.execShRecombine s
  | .fcEncrypt => Sys2Proof.Machine.execFcEncrypt s
  | .fcDecrypt => Sys2Proof.Machine.execFcDecrypt s
  | .shareEncode => Sys2Proof.Machine.execShareEncode s
  | .shareDecode => Sys2Proof.Machine.execShareDecode s
  | .generate => Sys2Proof.Machine.execGenerate s
  | .combine => Sys2Proof.Machine.execCombine s
  | .sesReset => Sys2Proof.Machine.execSesReset s
  | .sesAccept => Sys2Proof.Machine.execSesAccept s
  | .sesStatus => Sys2Proof.Machine.execSesStatus s
  | .sesIsComplete => Sys2Proof.Machine.execSesIsComplete s
  | .sesGroupComplete g => Sys2Proof.Machine.execSesGroupComplete g s
  | .sesCombine => Sys2Proof.Machine.execSesCombine s
  | .clear => Sys2Proof.Machine.execClear s

end Sys2Proof.Machine
end

