-- ==== Sys2Proof/Machine/Step.lean ====
section
/-! DEFINITION. One step of the machine, and the placing of a command where the next step completes it. -/

namespace Sys2Proof.Machine

/-- The unit moves: it ends the reset sequence, completes the pending command, or holds its state. -/
def State.runUnit (s : State) : Host.Outcome State Fault Refusal :=
  match s.turn with
  | .buildTables => .next s.finishReset
  | .idle => .next s
  | .run i => exec i s
  | .illegal w => .next (s.illegalCommand w)

/-- One step: the next bus event, or, with none to come, the unit's turn (assumption log 1, 3). -/
def step (s : State) : Host.Outcome State Fault Refusal :=
  match s.bus with
  | [] => s.runUnit
  | .unit :: rest => State.runUnit { s with bus := rest }
  | .read addr :: rest => .next (State.onEvent { s with bus := rest } (.read addr))
  | .write addr v :: rest => .next (State.onEvent { s with bus := rest } (.write addr v))
  | .reset :: rest => .next (State.onEvent { s with bus := rest } .reset)
  | .idle :: rest => .next (State.onEvent { s with bus := rest } .idle)

/-- The state in which the unit has accepted the command word `w` (of `nbits` bits) and its turn is next: a host write of
the word to CMD has taken place (R33; assumption log 2). A reset sequence that runs is ended first. -/
def State.withFetchWord (s : State) (nbits w : Nat) : State :=
  let r := if s.arch.csr.ready then s else s.finishReset
  let a := State.accept { r with pending := none } (BitVec.ofNat 32 (w % 2 ^ nbits))
  { a with bus := .unit :: s.bus }

end Sys2Proof.Machine
end

