-- ==== Sys2Proof/Machine/HostScript.lean ====
section
/-! DEFINITION. The host-script notation of R128, as functions from a script line to bus events. The script `wait` polls
until BUSY reads 0; here it is the unit's turn followed by one poll, after which BUSY does read 0. -/

namespace Sys2Proof.Machine

/-- A line of a host script (R128). -/
inductive HostOp where
  /-- `wr SPACE[i], v`. -/
  | wr (sp i : Nat) (v : Word)
  /-- `wrc NAME, v`, the register by its number. -/
  | wrc (n : Nat) (v : Word)
  /-- `rd SPACE[i]`. -/
  | rd (sp i : Nat)
  /-- `rdc NAME`. -/
  | rdc (n : Nat)
  /-- `cmd MNEMONIC operands`. -/
  | cmd (i : Instr)
  /-- `cmd w`, a raw word. -/
  | cmdWord (w : Word)
  /-- `wait`. -/
  | wait
deriving DecidableEq, Repr

/-- The bus events of a script line (R128). -/
def HostOp.events : HostOp → List BusEvent
  | .wr sp i v => [.write (busAddress sp i) v]
  | .wrc n v => [.write (busAddress 0 n) v]
  | .rd sp i => [.read (busAddress sp i)]
  | .rdc n => [.read (busAddress 0 n)]
  | .cmd i => [.write (busAddress 0 0x01) (encode i)]
  | .cmdWord w => [.write (busAddress 0 0x01) w]
  | .wait => [.unit, .read (busAddress 0 0x02)]

/-- `exec MNEMONIC operands` (R128). -/
def hostExec (i : Instr) : List HostOp := [.cmd i, .wait]

/-- `GF_SUB a, b` is `GF_ADD a, b` (R128, R27). -/
def gfSub (a b : Byte) : Instr := .gfAdd a b

/-- The writes of `ld` from element `i` on. -/
def loadFrom (sp i : Nat) : ByteString → List HostOp
  | [] => []
  | b :: rest => .wr sp i (zext32 b) :: loadFrom sp (i + 1) rest
where
  /-- A byte as bus data. -/
  zext32 (b : Byte) : Word := b.setWidth 32

/-- `ld SPACE, LENCSR, bytes` (R128). -/
def hostLoad (sp lenCsr : Nat) (bs : ByteString) : List HostOp :=
  loadFrom sp 0 bs ++ [.wrc lenCsr (BitVec.ofNat 32 bs.length)]

/-- `ldtext string` (R128). -/
def hostLoadText (t : ByteString) : List HostOp := hostLoad 0x05 0x0C t

/-- The bus events of a script. -/
def scriptEvents (ops : List HostOp) : List BusEvent := ops.flatMap HostOp.events

end Sys2Proof.Machine
end

