-- ==== Sys2Proof/Safety.lean ====
section
/-! DEFINITION. The terms the claims are stated in: the two ways a command completes, what a buffer holds after a store,
the field and its polynomials said without tables, and the invariants of the machine. -/

namespace Sys2Proof.Machine

/-! ### Completions (R25, R370, R408) -/

/-- `s` after a successful completion that leaves the registers `c` (with DONE 1 and an empty error report), the buffers
`m` and the session `x`; everything else of `s` is unchanged and nothing is pending. -/
def State.succeeded (s : State) (c : Csrs) (m : Memory) (x : Session) : State :=
  { s with
    pending := none
    arch := { s.arch with
      csr := { c with done := true, errCode := 0, errInfo := 0 }
      mem := m
      ses := x } }

/-- `s` after a completion with the error `code` and the detail `info`: only the error report and DONE are written, and
nothing is pending. -/
def State.failed (s : State) (code : BitVec 8) (info : Word) : State :=
  { s with
    pending := none
    arch := { s.arch with csr := { s.arch.csr with done := true, errCode := code, errInfo := info } } }

/-- `s` after it has accepted the command word `w` (R33). -/
def State.accepted (s : State) (w : Word) : State :=
  { s with
    pending := some ⟨w, s.arch⟩
    arch := { s.arch with csr := { s.arch.csr with cmd := w, done := false } } }

/-- The unit is idle: its tables are built and nothing is pending. -/
def State.isIdle (s : State) : Prop := s.arch.csr.ready = true ∧ s.pending = none

/-! ### Stores (R105) -/

/-- `c'` is `c` with `vs` stored from element `base` on: every other element reads as before. -/
def StoredAt {w : Nat} (c c' : Cells w) (base : Nat) (vs : List (BitVec w)) : Prop :=
  ∀ k, Cells.read c' k = if base ≤ k ∧ k < base + vs.length then vs.getD (k - base) 0 else Cells.read c k

/-- `c'` is `c` with row `j` stored from element `j * stride` on, for each of the rows: every other element reads as
before. -/
def RowsStored {w : Nat} (c c' : Cells w) (stride : Nat) (rows : List (List (BitVec w))) : Prop :=
  ∀ j k, k < stride → Cells.read c' (j * stride + k) =
    if j < rows.length ∧ k < (rows.getD j []).length then (rows.getD j []).getD k 0
    else Cells.read c (j * stride + k)

/-! ### Searches -/

/-- `m` is the first number with the property. -/
def FirstAt (P : Nat → Prop) (m : Nat) : Prop := P m ∧ ∀ i, i < m → ¬ P i

/-- Element `j` repeats an earlier one. -/
def Repeats (xs : List Byte) (j : Nat) : Prop := j < xs.length ∧ ∃ i, i < j ∧ xs.getD i 0 = xs.getD j 0

/-! ### The field without tables (R150, R157) -/

/-- The product of two polynomials over GF(2), of degree at most 14. -/
def carrylessProduct (a b : Byte) : BitVec 15 :=
  (List.range 8).foldl (fun v i => if b.getLsbD i then v ^^^ (a.setWidth 15 <<< i) else v) 0

/-- The remainder modulo `P(x)` = 0x11B: the terms of degree 14 down to 8 are cancelled in turn. -/
def reduceModP (v : BitVec 15) : Byte :=
  ([6, 5, 4, 3, 2, 1, 0].foldl (fun v k => if v.getLsbD (8 + k) then v ^^^ (0x11B#15 <<< k) else v) v).setWidth 8

/-- Multiplication in GF(2)[x] modulo `P(x)` (R150). -/
def fieldProduct (a b : Byte) : Byte := reduceModP (carrylessProduct a b)

/-- The value at `x` of the polynomial whose coefficients are `cs`, the constant term first. -/
def polynomialAt (cs : List Byte) (x : Byte) : Byte := cs.foldr (fun c acc => c ^^^ fieldProduct x acc) 0

/-! ### The codecs -/

/-- The byte is a passphrase byte the unit accepts (R17). -/
def PassCharset.Allows : PassCharset → Byte → Prop
  | .sevenBit, b => b.toNat ≤ 0x7F
  | .printable, b => 0x20 ≤ b.toNat ∧ b.toNat ≤ 0x7E

/-- Every byte of the passphrase is accepted (R246). -/
def PassAccepted (p : Params) (pass : ByteString) : Prop := ∀ b ∈ pass, PassCharset.Allows p.charset b

/-- Byte `j` of the passphrase is the first that is not accepted (R246). -/
def PassRefusedAt (p : Params) (pass : ByteString) (j : Nat) : Prop :=
  FirstAt (fun i => i < pass.length ∧ ¬ PassCharset.Allows p.charset (pass.getD i 0)) j

/-- The words of the symbols joined by single spaces (R197). -/
def wordsText (p : Params) (sy : List Sym) : ByteString :=
  List.intercalate [0x20] (sy.map fun s => p.vocab.words.getD s.toNat [])

/-- `sy` are the symbols of the tokens (R191). -/
def SymbolsOf (p : Params) (toks : List ByteString) (sy : List Sym) : Prop :=
  sy.length = toks.length ∧ ∀ j, j < toks.length → p.vocab.words[(sy.getD j 0).toNat]? = some (toks.getD j [])

/-- Token `j` is the first that is not a word of the vocabulary (R195). -/
def UnknownAt (p : Params) (toks : List ByteString) (j : Nat) : Prop :=
  FirstAt (fun i => i < toks.length ∧ toks.getD i [] ∉ p.vocab.words) j

/-- The header of a share as a number (R262). -/
def headerNumber (sh : Share) : Nat :=
  sh.identifier.toNat * 2 ^ 25 + sh.iterationExponent.toNat * 2 ^ 20 + sh.groupIndex.toNat * 2 ^ 16 +
  (sh.groupThreshold.toNat - 1) * 2 ^ 12 + (sh.groupCount.toNat - 1) * 2 ^ 8 + sh.memberIndex.toNat * 2 ^ 4 +
  (sh.memberThreshold.toNat - 1)

/-- The fields of the share are in the ranges of R260 and agree as R264 asks. -/
def ShareFieldsLegal (sh : Share) : Prop :=
  1 ≤ sh.groupThreshold.toNat ∧ sh.groupThreshold.toNat ≤ 16 ∧ 1 ≤ sh.groupCount.toNat ∧ sh.groupCount.toNat ≤ 16 ∧
  1 ≤ sh.memberThreshold.toNat ∧ sh.memberThreshold.toNat ≤ 16 ∧
  sh.groupThreshold.toNat ≤ sh.groupCount.toNat ∧ sh.groupIndex.toNat < sh.groupCount.toNat

/-- `sy` is the packed form of the byte string: `ceil(8L/10)` symbols with the same big-endian value (R196). -/
def PackedAs (b : ByteString) (sy : List Sym) : Prop :=
  sy.length = (8 * b.length + 9) / 10 ∧ bigEndian sy = bigEndian b

/-- `sy` are the symbols of the share: four header symbols, the packed value, and the three checksum symbols of these
(R262, R263). -/
def ShareSymbols (p : Params) (sh : Share) (sy : List Sym) : Prop :=
  ∃ hdr value check : List Sym, sy = hdr ++ value ++ check ∧ hdr.length = 4 ∧ bigEndian hdr = headerNumber sh ∧
    PackedAs sh.value value ∧ check.length = 3 ∧ check = checksum p (hdr ++ value)

/-! ### The ports -/

/-- The `n` bytes of the random port from byte `pos` on (R386). -/
def drawn (pos n : Nat) : ByteString := (List.range n).map fun k => Config.rngByte (pos + k)

/-- The output of the cipher's round `i` on a half (R240, R241). -/
def roundOutput (p : Params) (pass : ByteString) (e : BitVec 5) (id : BitVec 15) (i : Nat) (half : ByteString) :
    ByteString :=
  (Config.kdf (BitVec.ofNat 8 i :: pass)
    (p.custom ++ [BitVec.ofNat 8 (id.toNat / 256), BitVec.ofNat 8 (id.toNat % 256)] ++ half)
    (p.baseIter * 2 ^ e.toNat) half.length).toList

/-- `out` is the result of the four rounds, in the given order, on the even-length input `m` (R242, R243). -/
def FourRounds (p : Params) (pass : ByteString) (e : BitVec 5) (id : BitVec 15) (m out : ByteString)
    (r0 r1 r2 r3 : Nat) : Prop :=
  let x0 := m.take (m.length / 2)
  let x1 := m.drop (m.length / 2)
  let x2 := xorBytes x0 (roundOutput p pass e id r0 x1)
  let x3 := xorBytes x1 (roundOutput p pass e id r1 x2)
  let x4 := xorBytes x2 (roundOutput p pass e id r2 x3)
  let x5 := xorBytes x3 (roundOutput p pass e id r3 x4)
  out = x5 ++ x4

/-! ### Shares and groups -/

/-- All shares have the common parameters `c` (R290). -/
def SameParams (c : CommonParams) (shs : List Share) : Prop := ∀ sh ∈ shs, commonParams sh = c

/-- Shares of one group have one member threshold (R290). -/
def ThresholdsAgree (shs : List Share) : Prop :=
  ∀ a ∈ shs, ∀ b ∈ shs, a.groupIndex = b.groupIndex → a.memberThreshold = b.memberThreshold

/-- Shares of one group with one member index are equal (R288). -/
def NoClash (shs : List Share) : Prop :=
  ∀ a ∈ shs, ∀ b ∈ shs, a.groupIndex = b.groupIndex → a.memberIndex = b.memberIndex → a = b

/-- How many distinct member indices the shares of group `g` have (R285, R311). -/
def membersOf (shs : List Share) (g : Nat) : Nat :=
  ((shs.filter fun sh => sh.groupIndex.toNat == g).map (·.memberIndex)).dedup.length

/-- Group `g` is complete: it has a share, and as many distinct member indices as that share's threshold (R311, R313). -/
def CompleteGroup (shs : List Share) (g : Nat) : Prop :=
  ∃ sh ∈ shs, sh.groupIndex.toNat = g ∧ sh.memberThreshold.toNat ≤ membersOf shs g

/-! ### The invariants -/

/-- Every buffer, and every buffer of the snapshot, is in canonical form. -/
def State.memoryCanonical (s : State) : Prop :=
  s.arch.mem.wf = true ∧ ∀ p ∈ s.pending, p.snapshot.mem.wf = true

/-- Once READY is 1 the field tables are those of R151, in the unit and in the snapshot (R82, R401). -/
def State.tablesBuilt (s : State) : Prop :=
  (s.arch.csr.ready = true → s.arch.tables = standardTables) ∧
  ∀ p ∈ s.pending, p.snapshot.tables = standardTables

/-- The length and count registers are within the capacities, and no element outside its space is listed (R12, R43 to
R51, R71 to R80). -/
def Arch.withinCapacity (p : Params) (a : Arch) : Prop :=
  a.csr.lenSecret.toNat ≤ p.lMax ∧ a.csr.lenResult.toNat ≤ p.lMax ∧ a.csr.lenPass.toNat ≤ p.pMax ∧
  a.csr.lenSym.toNat ≤ 64 ∧ a.csr.lenText.toNat ≤ p.tMax ∧ a.csr.fragCount.toNat ≤ 16 ∧
  a.csr.lenFrag.toNat ≤ p.lMax ∧ a.csr.groupCount.toNat ≤ 16 ∧ a.csr.mnemCount.toNat ≤ 256 ∧
  (∀ m, (Cells.read a.mem.mnemLen m).toNat ≤ p.tMax) ∧
  (∀ e ∈ a.mem.secret, e.1 < p.lMax) ∧ (∀ e ∈ a.mem.result, e.1 < p.lMax) ∧ (∀ e ∈ a.mem.pass, e.1 < p.pMax) ∧
  (∀ e ∈ a.mem.sym, e.1 < 64) ∧ (∀ e ∈ a.mem.text, e.1 < p.tMax) ∧ (∀ e ∈ a.mem.fragX, e.1 < 16) ∧
  (∀ e ∈ a.mem.fragY, e.1 / 64 < 16 ∧ e.1 % 64 < p.lMax) ∧ (∀ e ∈ a.mem.groups, e.1 < 32) ∧
  (∀ e ∈ a.mem.mnem, e.1 / 4096 < 256 ∧ e.1 % 4096 < p.tMax) ∧ (∀ e ∈ a.mem.mnemLen, e.1 < 256)

/-- The sizes of the unit are legal (R10, R12): L_MAX at most 64, T_MAX at most 4096, P_MAX at most 65535. -/
def Params.sizesLegal (p : Params) : Prop := p.lMax ≤ 64 ∧ p.tMax ≤ 4096 ∧ p.pMax ≤ 65535

/-- The unit's sizes are legal, and the unit and the snapshot are within them. -/
def State.capacityKept (s : State) : Prop :=
  Params.sizesLegal s.params ∧ s.arch.withinCapacity s.params ∧ ∀ p ∈ s.pending, p.snapshot.withinCapacity s.params

/-- What the session store always is (R83, R312, R320): EMPTY and without shares, or holding shares whose texts decode to
them, which agree in their common parameters and in the member threshold of each group, no two of one group and member
index, and COMPLETE exactly when enough groups are complete. -/
def Session.consistent (p : Params) (x : Session) : Prop :=
  (x.state = .empty ∧ x.params = none ∧ x.shares = []) ∨
  (x.state ≠ .empty ∧ x.shares ≠ [] ∧ (∃ c, x.params = some c ∧ SameParams c x.held) ∧
    (∀ e ∈ x.shares, ∃ sy, decodeShare p e.2 = .ok (e.1, sy)) ∧
    ThresholdsAgree x.held ∧
    x.held.Pairwise (fun a b => ¬(a.groupIndex = b.groupIndex ∧ a.memberIndex = b.memberIndex)) ∧
    (x.state = .complete ↔ x.isComplete = true))

/-- The session of the unit, and of the snapshot, is consistent. -/
def State.sessionConsistent (s : State) : Prop :=
  s.arch.ses.consistent s.params ∧ ∀ p ∈ s.pending, p.snapshot.ses.consistent s.params

/-- While a command is pending the tables are built, and the unit is the snapshot but for CMD, DONE and OVERRUN (R33,
R408). -/
def State.snapshotAgrees (s : State) : Prop :=
  ∀ p ∈ s.pending, p.snapshot.csr.ready = true ∧
    s.arch = { p.snapshot with csr := { p.snapshot.csr with
      cmd := p.word
      done := false
      overrun := s.arch.csr.overrun } }

/-! ### What a command may do -/

/-- The error codes R361 lists for a command, IllegalCommand apart. -/
def Instr.errorCodes : Instr → List (BitVec 8)
  | .nop | .clear | .sesReset | .sesStatus | .sesIsComplete | .sesGroupComplete _ | .gfAdd _ _ | .gfMul _ _ => []
  | .gfDiv _ _ | .gfInv _ => [0x03]
  | .chkCreate => [0x50]
  | .chkVerify => [0x12]
  | .wcPack => []
  | .wcUnpack _ => [0x13, 0x50]
  | .wcToWords => [0x50]
  | .wcFromWords => [0x10, 0x50]
  | .shInterpolate _ => [0x21, 0x30]
  | .shSplit => [0x02, 0x40]
  | .shRecombine => [0x02, 0x21, 0x30, 0x32, 0x33, 0x40]
  | .fcEncrypt | .fcDecrypt => [0x40, 0x41]
  | .shareEncode => [0x02, 0x40, 0x50]
  | .shareDecode => [0x10, 0x11, 0x12, 0x13, 0x14, 0x50]
  | .generate => [0x02, 0x40, 0x41, 0x50]
  | .combine => [0x10, 0x11, 0x12, 0x13, 0x14, 0x20, 0x21, 0x31, 0x32, 0x41, 0x50]
  | .sesAccept => [0x10, 0x11, 0x12, 0x13, 0x14, 0x20, 0x21, 0x50]
  | .sesCombine => [0x31, 0x32, 0x41]

/-- The command may change the session store on success (R123). -/
def Instr.writesSession : Instr → Bool
  | .sesReset | .sesAccept | .sesCombine => true
  | .nop | .gfAdd _ _ | .gfMul _ _ | .gfDiv _ _ | .gfInv _ | .chkCreate | .chkVerify | .wcPack | .wcUnpack _
  | .wcToWords | .wcFromWords | .shInterpolate _ | .shSplit | .shRecombine | .fcEncrypt | .fcDecrypt | .shareEncode
  | .shareDecode | .generate | .combine | .sesStatus | .sesIsComplete | .sesGroupComplete _ | .clear => false

/-- The command draws from the random port (R386). -/
def Instr.draws : Instr → Bool
  | .shSplit | .generate => true
  | .nop | .gfAdd _ _ | .gfMul _ _ | .gfDiv _ _ | .gfInv _ | .chkCreate | .chkVerify | .wcPack | .wcUnpack _
  | .wcToWords | .wcFromWords | .shInterpolate _ | .shRecombine | .fcEncrypt | .fcDecrypt | .shareEncode
  | .shareDecode | .combine | .sesReset | .sesAccept | .sesStatus | .sesIsComplete | .sesGroupComplete _
  | .sesCombine | .clear => false

/-- The command writes CSR RESULT on success (R42). -/
def Instr.writesResult : Instr → Bool
  | .gfAdd _ _ | .gfMul _ _ | .gfDiv _ _ | .gfInv _ | .chkVerify | .sesAccept | .sesStatus | .sesIsComplete
  | .sesGroupComplete _ | .clear => true
  | .nop | .chkCreate | .wcPack | .wcUnpack _ | .wcToWords | .wcFromWords | .shInterpolate _ | .shSplit
  | .shRecombine | .fcEncrypt | .fcDecrypt | .shareEncode | .shareDecode | .generate | .combine | .sesReset
  | .sesCombine => false

/-! ### The host bus -/

/-- The host-bus address of element `i` of space `sp`: the space id in bits 31:24, the index below it (R91). -/
def elementAddress (sp i : Nat) : Word := BitVec.ofNat 32 (sp * 2 ^ 24 + i)

/-- How many elements the plainly indexed buffer space has (R91); the two-dimensional spaces are apart. -/
def plainCapacity (p : Params) : Nat → Option Nat
  | 0x01 => some p.lMax
  | 0x02 => some p.lMax
  | 0x03 => some p.pMax
  | 0x04 => some 64
  | 0x05 => some p.tMax
  | 0x06 => some 16
  | 0x08 => some 32
  | 0x0A => some 256
  | 0x0B => some 16
  | _ => none

/-- The address names no element and no register (R34, R91, R92), `sp` its space id and `i` its index. -/
def NamesNothing (p : Params) (sp i : Nat) : Prop :=
  0x0C ≤ sp ∨ (∃ n, plainCapacity p sp = some n ∧ n ≤ i) ∨
  (sp = 0x07 ∧ (16 * 64 ≤ i ∨ p.lMax ≤ i % 64)) ∨ (sp = 0x09 ∧ (256 * 4096 ≤ i ∨ p.tMax ≤ i % 4096)) ∨
  (sp = 0x00 ∧ (i = 0x07 ∨ i = 0x16 ∨ i = 0x17 ∨ i = 0x1F ∨ 0x27 ≤ i))

/-- The number an idle unit stores for a host write of `v` to index `i` of space `sp`, where that address is writable and
stores (R43 to R63, R71 to R80, R93): the WARL minimum, or the low bits of the element's width. -/
def storedNumber (p : Params) (sp i v : Nat) : Option Nat :=
  match sp with
  | 0x00 =>
    match i with
    | 0x08 => some (min v p.lMax)
    | 0x0A => some (min v p.pMax)
    | 0x0B => some (min v 64)
    | 0x0C => some (min v p.tMax)
    | 0x0D => some (min v 16)
    | 0x0E => some (min v p.lMax)
    | 0x0F => some (min v 16)
    | 0x10 => some (min v 256)
    | 0x11 | 0x12 | 0x14 | 0x15 | 0x19 | 0x1B | 0x1C | 0x1E => some (v % 2 ^ 5)
    | 0x13 | 0x18 => some (v % 2 ^ 15)
    | 0x1A | 0x1D => some (v % 2 ^ 4)
    | _ => none
  | 0x01 => if i < p.lMax then some (v % 2 ^ 8) else none
  | 0x03 => if i < p.pMax then some (v % 2 ^ 8) else none
  | 0x04 => if i < 64 then some (v % 2 ^ 10) else none
  | 0x05 => if i < p.tMax then some (v % 2 ^ 8) else none
  | 0x06 => if i < 16 then some (v % 2 ^ 8) else none
  | 0x07 => if i < 16 * 64 ∧ i % 64 < p.lMax then some (v % 2 ^ 8) else none
  | 0x08 => if i < 32 then some (v % 2 ^ 5) else none
  | 0x09 => if i < 256 * 4096 ∧ i % 4096 < p.tMax then some (v % 2 ^ 8) else none
  | 0x0A => if i < 256 then some (min v p.tMax) else none
  | _ => none

/-- The address is read-only to the host: a register of R35 marked RO, or an element of RESULT or SES_GROUP (R34, R72,
R81). STATUS is apart. -/
def ReadOnly (sp i : Nat) : Prop :=
  sp = 0x02 ∨ sp = 0x0B ∨
  (sp = 0x00 ∧ (i = 0x00 ∨ i = 0x03 ∨ i = 0x04 ∨ i = 0x05 ∨ i = 0x06 ∨ i = 0x09 ∨ (0x20 ≤ i ∧ i ≤ 0x26)))

/-- A group of a GENERATE request is legal (R280). -/
def GroupLegal (g : Nat × Nat) : Prop := 1 ≤ g.1 ∧ g.1 ≤ g.2 ∧ g.2 ≤ 16 ∧ ¬(g.1 = 1 ∧ 1 < g.2)

/-- The number of the STATUS word: the fields of R40 at their places, every other bit 0. -/
def statusNumber (busy done err ready overrun : Bool) (errCode sesState : Nat) : Nat :=
  busy.toNat + 2 * done.toNat + 4 * err.toNat + 8 * ready.toNat + 16 * overrun.toNat + 256 * errCode +
  65536 * sesState

end Sys2Proof.Machine
end

