-- ==== Sys2Proof/Certificates/Slice0/Obligations.lean ====
section
/-! DEFINITION. The statements: what the rules of spec/ say the commands, the host bus and the machine do. -/

open Sys2Proof Sys2Proof.Machine

/-! ## Encoding and the step -/

/-- R120, R121, R127: decoding the word of a command gives the command back, with every operand byte. -/
def Obligations.DecodeEncodeRoundTrip : Prop := ∀ i : Instr, decode (encode i) = .ok i

/-- R124: the decoder accepts exactly the legal words, each for the one command it encodes; an illegal word is accepted by
an idle unit and completes with IllegalCommand and the OP byte, changing nothing else. -/
def Obligations.IllegalWordsAreAcceptedAndRefused : Prop :=
  (∀ w : Word, (∃ i, decode w = .ok i) ↔ legalCommandWord w = true) ∧
  (∀ (w : Word) (i : Instr), decode w = .ok i → encode i = w) ∧
  ∀ (s : State) (w : Word), s.isIdle → legalCommandWord w = false →
    step { s with bus := [.write 0x00000001 w, .unit] } = .next { s.accepted w with bus := [.unit] } ∧
    step { s.accepted w with bus := [.unit] } =
      .next { (s.accepted w).failed 0x01 (BitVec.ofNat 32 (w.toNat % 256)) with bus := [] }

/-- R121: words written out from the opcode map decode to their commands. -/
def Obligations.SampleWordsDecode : Prop :=
  decode 0x00835701 = .ok (.gfAdd 0x57 0x83) ∧ decode 0x0083C103 = .ok (.gfDiv 0xC1 0x83) ∧
  decode 0x00005304 = .ok (.gfInv 0x53) ∧ decode 0x00000010 = .ok .chkCreate ∧
  decode 0x00001019 = .ok (.wcUnpack 16) ∧ decode 0x0000FF20 = .ok (.shInterpolate 255) ∧
  decode 0x00000029 = .ok .fcDecrypt ∧ decode 0x00000031 = .ok .shareDecode ∧ decode 0x00000038 = .ok .generate ∧
  decode 0x00000344 = .ok (.sesGroupComplete 3) ∧ decode 0x0000007F = .ok .clear

/-- R31, R33, R96, R99, R391, R400, R401, R408: what one step is. When the pending word decodes to a command, the unit's turn
runs exactly that command on the operands of the snapshot; with nothing pending it leaves the unit as it is, and with READY 0
it ends the reset sequence. A bus read is `hostRead`, a bus write `hostWrite`, a reset `onReset`, and an idle moment changes
nothing. That one event is taken off the list `bus`, and that an empty list means the unit's turn, is the model's choice
(assumption log 1, 3), as is that one turn ends the reset sequence (assumption log 4). -/
def Obligations.StepRunsTheDecodedCommand : Prop :=
  ∀ s : State,
    (∀ (p : Pending) (i : Instr), s.arch.csr.ready = true → s.pending = some p → decode p.word = .ok i →
      s.operands = p.snapshot ∧ (s.bus = [] → step s = exec i s) ∧
      ∀ rest, s.bus = .unit :: rest → step s = exec i { s with bus := rest }) ∧
    (s.arch.csr.ready = true → s.pending = none →
      (s.bus = [] → step s = .next s) ∧ ∀ rest, s.bus = .unit :: rest → step s = .next { s with bus := rest }) ∧
    (s.arch.csr.ready = false →
      (s.bus = [] → step s = .next s.finishReset) ∧
      ∀ rest, s.bus = .unit :: rest → step s = .next (State.finishReset { s with bus := rest })) ∧
    ∀ rest : List BusEvent,
      (∀ addr, s.bus = .read addr :: rest → step s = .next (State.hostRead { s with bus := rest } addr)) ∧
      (∀ addr v, s.bus = .write addr v :: rest → step s = .next (State.hostWrite { s with bus := rest } addr v)) ∧
      (s.bus = .reset :: rest → step s = .next (State.onReset { s with bus := rest })) ∧
      (s.bus = .idle :: rest → step s = .next { s with bus := rest })

/-- Section 93: no behaviour of the unit is stuck, so every step answers a next state. That it takes one event off the list
`bus` and keeps the field `params` is the model's choice (assumption log 1, 3, 5). -/
def Obligations.EveryStepAnswers : Prop :=
  ∀ s : State, ∃ t, step s = .next t ∧ t.params = s.params ∧ t.bus = s.bus.tail

/-! ## NOP and CLEAR -/

/-- R340: NOP changes nothing but what every completion writes; its word is 0 and no other word with OP 0 is legal. -/
def Obligations.NopOnlyClearsTheReport : Prop :=
  encode .nop = 0x00000000 ∧
  (∀ w : Word, w.toNat % 256 = 0 → w ≠ 0 → legalCommandWord w = false) ∧
  (∀ s : State, exec .nop s = .next (s.succeeded s.arch.csr s.arch.mem s.arch.ses)) ∧
  ∀ s : State, s.pending = none → s.status = 0x0000030E →
    ∃ t, exec .nop (s.accepted (encode .nop)) = .next t ∧ t.status = 0x0000000A

/-- R341: CLEAR zeroes every buffer and every operand and result register, and nothing else; from a unit whose tables are
built it leaves the reset state but for CMD, DONE, OVERRUN and the session. -/
def Obligations.ClearZeroesTheWorkingStorage : Prop :=
  encode .clear = 0x0000007F ∧
  ∀ s : State, ∃ (m : Memory) (t : State), exec .clear s = .next t ∧
    t = s.succeeded { s.arch.csr with
      result := 0, lenSecret := 0, lenResult := 0, lenPass := 0, lenSym := 0, lenText := 0, fragCount := 0,
      lenFrag := 0, groupCount := 0, mnemCount := 0, threshold := 0, shareCount := 0, ident := 0, iterExp := 0,
      groupThreshold := 0, shId := 0, shExp := 0, shGi := 0, shGt := 0, shGc := 0, shMi := 0, shMt := 0 }
      m s.arch.ses ∧
    (∀ addr : Word, addr.toNat / 2 ^ 24 ≠ 0x00 → addr.toNat / 2 ^ 24 ≠ 0x0B → t.peek addr = 0) ∧
    (s.arch.csr.ready = true → s.arch.tables = standardTables →
      t.arch = { Arch.reset with
        csr := { Csrs.reset with cmd := s.arch.csr.cmd, done := true, overrun := s.arch.csr.overrun }
        ses := s.arch.ses })

/-! ## The field commands -/

/-- R153: GF_ADD is exclusive or into RESULT; it writes no buffer and no other register. -/
def Obligations.GfAddIsExclusiveOr : Prop :=
  ∀ (a b : Byte) (s : State),
    encode (.gfAdd a b) = 0x01 ||| (a.setWidth 32 <<< 8) ||| (b.setWidth 32 <<< 16) ∧
    exec (.gfAdd a b) s =
      .next (s.succeeded { s.arch.csr with result := (a ^^^ b).setWidth 32 } s.arch.mem s.arch.ses)

/-- R154: GF_MUL is the exponent sum the tables give, 0 for an operand 0; that this is the product of the two polynomials
modulo P(x) is R157, which the spec marks derived. -/
def Obligations.GfMulIsThePolynomialProduct : Prop :=
  ∀ (a b : Byte) (s : State), s.operands.tables = standardTables →
    encode (.gfMul a b) = 0x02 ||| (a.setWidth 32 <<< 8) ||| (b.setWidth 32 <<< 16) ∧
    (a = 0 ∨ b = 0 → fieldProduct a b = 0) ∧
    (a ≠ 0 → b ≠ 0 → fieldProduct a b =
      standardTables.expAt ((standardTables.logAt a + standardTables.logAt b) % 255)) ∧
    exec (.gfMul a b) s =
      .next (s.succeeded { s.arch.csr with result := (fieldProduct a b).setWidth 32 } s.arch.mem s.arch.ses)

/-- R155: GF_DIV by 0 raises DivisionByZero; by any other byte it leaves the quotient; that its product with the divisor is
the dividend is a law of R158, which the spec marks derived. -/
def Obligations.GfDivDividesOrRaises : Prop :=
  ∀ (a b : Byte) (s : State), s.operands.tables = standardTables →
    encode (.gfDiv a b) = 0x03 ||| (a.setWidth 32 <<< 8) ||| (b.setWidth 32 <<< 16) ∧
    (b = 0 → exec (.gfDiv a b) s = .next (s.failed 0x03 0)) ∧
    (b ≠ 0 → ∃ q : Byte, fieldProduct q b = a ∧ (a = 0 → q = 0) ∧
      (a ≠ 0 → q = standardTables.expAt
        (((standardTables.logAt a : Int) - (standardTables.logAt b : Int)) % 255).toNat) ∧
      exec (.gfDiv a b) s =
        .next (s.succeeded { s.arch.csr with result := q.setWidth 32 } s.arch.mem s.arch.ses))

/-- R156: GF_INV of 0 raises DivisionByZero; of any other byte it leaves the inverse, which is GF_DIV 1, a; that its product
with the byte is 1 is a law of R158, which the spec marks derived. -/
def Obligations.GfInvInvertsOrRaises : Prop :=
  ∀ (a : Byte) (s : State), s.operands.tables = standardTables →
    encode (.gfInv a) = 0x04 ||| (a.setWidth 32 <<< 8) ∧
    (a = 0 → exec (.gfInv a) s = .next (s.failed 0x03 0)) ∧
    (a ≠ 0 → exec (.gfInv a) s = exec (.gfDiv 1 a) s ∧
      ∃ q : Byte, fieldProduct a q = 1 ∧ q = standardTables.expAt ((255 - standardTables.logAt a) % 255) ∧
        exec (.gfInv a) s =
          .next (s.succeeded { s.arch.csr with result := q.setWidth 32 } s.arch.mem s.arch.ses))

/-- The laws of the field, R158, which the spec marks derived from R150 and R153 to R156. -/
def Obligations.FieldLaws : Prop :=
  ∀ a b c : Byte,
    gfadd a b = gfadd b a ∧ gfadd (gfadd a b) c = gfadd a (gfadd b c) ∧ gfadd a 0 = a ∧ gfadd a a = 0 ∧
    gfmul standardTables a b = gfmul standardTables b a ∧
    gfmul standardTables (gfmul standardTables a b) c = gfmul standardTables a (gfmul standardTables b c) ∧
    gfmul standardTables a (gfadd b c) = gfadd (gfmul standardTables a b) (gfmul standardTables a c) ∧
    gfmul standardTables a 1 = a ∧
    (a ≠ 0 → gfmul standardTables a (gfinv standardTables a) = 1 ∧ gfinv standardTables (gfinv standardTables a) = a) ∧
    (b ≠ 0 → gfmul standardTables (gfdiv standardTables a b) b = a) ∧
    (gfmul standardTables a b = 0 → a = 0 ∨ b = 0)

/-- R151: EXP holds the powers of the generator 0x03 and LOG their exponents. -/
def Obligations.TablesArePowersOfTheGenerator : Prop :=
  standardTables.exp.length = 255 ∧ standardTables.log.length = 256 ∧ standardTables.expAt 0 = 1 ∧
  (∀ i, i < 254 → standardTables.expAt (i + 1) = fieldProduct 0x03 (standardTables.expAt i)) ∧
  (∀ i, i < 255 → standardTables.logAt (standardTables.expAt i) = i) ∧
  (∀ v : Byte, v ≠ 0 → standardTables.logAt v < 255 ∧ standardTables.expAt (standardTables.logAt v) = v) ∧
  standardTables.logAt 0 = 0

/-! ## The checksum commands -/

/-- R173: CHK_CREATE appends the three checksum symbols, or raises ResourceLimit where they do not fit; it writes SYM and
LEN_SYM only. That they make the residue 1 is R172's remark, which the spec marks derived. -/
def Obligations.ChkCreateAppendsTheChecksum : Prop :=
  encode .chkCreate = 0x00000010 ∧
  ∀ s : State, let d := s.operands.symbols
    (64 < d.length + 3 → exec .chkCreate s = .next (s.failed 0x50 0)) ∧
    (d.length + 3 ≤ 64 → ∃ (sym : Cells 10) (c : List Sym),
      exec .chkCreate s = .next (s.succeeded { s.arch.csr with lenSym := BitVec.ofNat 7 (d.length + 3) }
        { s.arch.mem with sym := sym } s.arch.ses) ∧
      StoredAt s.arch.mem.sym sym d.length c ∧ c.length = 3 ∧ c = checksum s.params d ∧
      polymod (customSymbols s.params ++ d ++ c) = 1)

/-- R174: CHK_VERIFY leaves 1 in RESULT when the residue is 1, and raises InvalidChecksum when it is not. -/
def Obligations.ChkVerifyTestsTheResidue : Prop :=
  encode .chkVerify = 0x00000011 ∧
  ∀ s : State,
    (polymod (customSymbols s.params ++ s.operands.symbols) = 1 → exec .chkVerify s =
      .next (s.succeeded { s.arch.csr with result := 1 } s.arch.mem s.arch.ses)) ∧
    (polymod (customSymbols s.params ++ s.operands.symbols) ≠ 1 → exec .chkVerify s = .next (s.failed 0x12 0))

/-- R175's sentence from general knowledge (assumption log 20): in a string that fits the symbol buffer every change of one,
two or three symbols is detected. -/
def Obligations.ThreeSymbolChangesAreDetected : Prop :=
  ∀ (p : Params) (x y : List Sym), x.length ≤ 64 → y.length = x.length → x ≠ y →
    ((List.range x.length).filter fun i => x.getD i 0 != y.getD i 0).length ≤ 3 →
    polymod (customSymbols p ++ x) = 1 → polymod (customSymbols p ++ y) ≠ 1

/-! ## The word codec commands -/

/-- R192, R196: WC_PACK writes the symbols of the big-endian integer of the operand bytes, most significant first. -/
def Obligations.WcPackWritesTheSymbols : Prop :=
  encode .wcPack = 0x00000018 ∧
  ∀ s : State, let b := s.operands.secretBytes
    ∃ (sym : Cells 10) (v : List Sym),
      exec .wcPack s = .next (s.succeeded { s.arch.csr with lenSym := BitVec.ofNat 7 v.length }
        { s.arch.mem with sym := sym } s.arch.ses) ∧
      StoredAt s.arch.mem.sym sym 0 v ∧ PackedAs b v ∧
      ∀ i, i < v.length → (v.getD i 0).toNat = bigEndian b / 2 ^ (10 * (v.length - 1 - i)) % 2 ^ 10

/-- R193: WC_UNPACK writes the `n` big-endian bytes of the symbols' integer, or raises ResourceLimit for too many bytes,
then InvalidPadding for an integer that needs more. -/
def Obligations.WcUnpackWritesTheBytes : Prop :=
  ∀ (n : Byte) (s : State), let v := bigEndian s.operands.symbols
    encode (.wcUnpack n) = 0x19 ||| (n.setWidth 32 <<< 8) ∧
    (s.params.lMax < n.toNat → exec (.wcUnpack n) s = .next (s.failed 0x50 0)) ∧
    (n.toNat ≤ s.params.lMax → 2 ^ (8 * n.toNat) ≤ v → exec (.wcUnpack n) s = .next (s.failed 0x13 0)) ∧
    (n.toNat ≤ s.params.lMax → v < 2 ^ (8 * n.toNat) → ∃ (res : Cells 8) (r : ByteString),
      exec (.wcUnpack n) s = .next (s.succeeded { s.arch.csr with lenResult := BitVec.ofNat 7 n.toNat }
        { s.arch.mem with result := res } s.arch.ses) ∧
      StoredAt s.arch.mem.result res 0 r ∧ r.length = n.toNat ∧ bigEndian r = v)

/-- R194, R197: WC_TO_WORDS writes the words of the symbols joined by single spaces, or raises ResourceLimit where the text
does not fit. -/
def Obligations.WcToWordsWritesTheText : Prop :=
  encode .wcToWords = 0x0000001A ∧
  ∀ s : State, let t := wordsText s.params s.operands.symbols
    (s.params.tMax < t.length → exec .wcToWords s = .next (s.failed 0x50 0)) ∧
    (t.length ≤ s.params.tMax → ∃ text : Cells 8,
      exec .wcToWords s = .next (s.succeeded { s.arch.csr with lenText := BitVec.ofNat 13 t.length }
        { s.arch.mem with text := text } s.arch.ses) ∧
      StoredAt s.arch.mem.text text 0 t)

/-- R195: WC_FROM_WORDS raises UnknownWord at the first token that is no word, then ResourceLimit above 64 tokens, and else
writes the symbols of the tokens. -/
def Obligations.WcFromWordsWritesTheSymbols : Prop :=
  encode .wcFromWords = 0x0000001B ∧
  ∀ s : State, let toks := tokens s.operands.textBytes
    (∀ j, UnknownAt s.params toks j → exec .wcFromWords s = .next (s.failed 0x10 (BitVec.ofNat 32 j))) ∧
    ((∀ t ∈ toks, t ∈ s.params.vocab.words) → 64 < toks.length → exec .wcFromWords s = .next (s.failed 0x50 0)) ∧
    ((∀ t ∈ toks, t ∈ s.params.vocab.words) → toks.length ≤ 64 → ∃ (sym : Cells 10) (v : List Sym),
      exec .wcFromWords s = .next (s.succeeded { s.arch.csr with lenSym := BitVec.ofNat 7 toks.length }
        { s.arch.mem with sym := sym } s.arch.ses) ∧
      StoredAt s.arch.mem.sym sym 0 v ∧ SymbolsOf s.params toks v)

/-- R190: the tokens of a byte string are its maximal runs of bytes other than 0x20, in order. -/
def Obligations.TokensAreMaximalRuns : Prop :=
  tokens [] = [] ∧ (∀ t : ByteString, tokens (0x20 :: t) = tokens t) ∧
  ∀ w : ByteString, w ≠ [] → (0x20 : Byte) ∉ w →
    tokens w = [w] ∧ ∀ t : ByteString, tokens (w ++ 0x20 :: t) = w :: tokens t

/-- R198, which the spec marks derived: WC_PACK then WC_UNPACK of the same length returns the bytes; WC_TO_WORDS then
WC_FROM_WORDS returns the symbols. -/
def Obligations.WordCodecRoundTrips : Prop :=
  (∀ s : State, s.params.lMax ≤ 64 → s.operands.csr.lenSecret.toNat ≤ s.params.lMax →
    ∃ t u, exec .wcPack s = .next t ∧
      exec (.wcUnpack (BitVec.ofNat 8 s.operands.csr.lenSecret.toNat)) t = .next u ∧ u.arch.csr.errCode = 0 ∧
      u.arch.csr.lenResult = s.operands.csr.lenSecret ∧
      Cells.slice u.arch.mem.result 0 u.arch.csr.lenResult.toNat = s.operands.secretBytes) ∧
  ∀ s : State, s.params.tMax ≤ 4096 → s.operands.csr.lenSym.toNat ≤ 64 →
    (wordsText s.params s.operands.symbols).length ≤ s.params.tMax →
    ∃ t u, exec .wcToWords s = .next t ∧ exec .wcFromWords t = .next u ∧ u.arch.csr.errCode = 0 ∧
      u.arch.symbols = s.operands.symbols

/-! ## The Shamir commands -/

/-- R212: SH_INTERPOLATE raises NotEnoughFragments on an empty file, DuplicateIndex at the first repeated x, and else writes
the value of the interpolating polynomial at x. -/
def Obligations.ShInterpolateWritesTheValue : Prop :=
  ∀ (x : Byte) (s : State), let F := s.operands.fragments
    encode (.shInterpolate x) = 0x20 ||| (x.setWidth 32 <<< 8) ∧
    (F = [] → exec (.shInterpolate x) s = .next (s.failed 0x30 0)) ∧
    (∀ j, FirstAt (Repeats (F.map (·.x))) j →
      exec (.shInterpolate x) s = .next (s.failed 0x21 (BitVec.ofNat 32 j))) ∧
    (F ≠ [] → (F.map (·.x)).Nodup → ∃ res : Cells 8,
      exec (.shInterpolate x) s = .next (s.succeeded { s.arch.csr with lenResult := s.operands.csr.lenFrag }
        { s.arch.mem with result := res } s.arch.ses) ∧
      StoredAt s.arch.mem.result res 0 (interp s.operands.tables F x))

/-- R211: byte by byte, `Interp` is the value of the one polynomial of degree at most `k - 1` through the `k` fragments. -/
def Obligations.InterpIsTheInterpolatingPolynomial : Prop :=
  ∀ (F : List Fragment) (L : Nat), F ≠ [] → (F.map (·.x)).Nodup → (∀ f ∈ F, f.y.length = L) →
    (∀ x, (interp standardTables F x).length = L) ∧
    (∀ f ∈ F, interp standardTables F f.x = f.y) ∧
    (∀ k, k < L → ∃ cs : List Byte, cs.length = F.length ∧
      ∀ x, (interp standardTables F x).getD k 0 = polynomialAt cs x) ∧
    (∀ k, k < L → ∀ cs : List Byte, cs.length ≤ F.length →
      (∀ f ∈ F, polynomialAt cs f.x = f.y.getD k 0) →
      ∀ x, (interp standardTables F x).getD k 0 = polynomialAt cs x)

/-- R214, R215: SH_SPLIT checks the threshold and count, then the length, draws nothing before that, and else fills the
fragment file with the `n` points of the split, drawing `(t-2)*L + (L-4)` bytes, or none when `t = 1`. -/
def Obligations.ShSplitFillsTheFragmentFile : Prop :=
  encode .shSplit = 0x00000021 ∧
  ∀ s : State,
    let t := s.operands.csr.threshold.toNat
    let n := s.operands.csr.shareCount.toNat
    let secret := s.operands.secretBytes
    let L := secret.length
    let salt := drawn (s.draws + (t - 2) * L) (L - 4)
    let basis := (List.range (t - 2)).map (fun j => Fragment.mk (BitVec.ofNat 8 j) (drawn (s.draws + j * L) L)) ++
      [⟨254, (Config.digest4 salt secret).toList ++ salt⟩, ⟨255, secret⟩]
    (¬(1 ≤ t ∧ t ≤ n ∧ n ≤ 16) → exec .shSplit s = .next (s.failed 0x02 0)) ∧
    (1 ≤ t ∧ t ≤ n ∧ n ≤ 16 → 2 ≤ t → L < 4 → exec .shSplit s = .next (s.failed 0x40 (BitVec.ofNat 32 L))) ∧
    (1 ≤ t ∧ t ≤ n ∧ n ≤ 16 → (t = 1 ∨ 4 ≤ L) → L ≤ 64 →
      ∃ (fx fy : Cells 8) (rows : List ByteString),
        exec .shSplit s =
          .next (State.succeeded { s with draws := s.draws + if t = 1 then 0 else (t - 2) * L + (L - 4) }
            { s.arch.csr with fragCount := s.operands.csr.shareCount, lenFrag := s.operands.csr.lenSecret }
            { s.arch.mem with fragX := fx, fragY := fy } s.arch.ses) ∧
        StoredAt s.arch.mem.fragX fx 0 ((List.range n).map (BitVec.ofNat 8)) ∧
        RowsStored s.arch.mem.fragY fy 64 rows ∧ rows.length = n ∧ (∀ r ∈ rows, r.length = L) ∧
        (t = 1 → ∀ r ∈ rows, r = secret) ∧
        (2 ≤ t → (∀ j, j < t - 2 → rows.getD j [] = drawn (s.draws + j * L) L) ∧
          ∀ j, t - 2 ≤ j → j < n →
            rows.getD j [] = interp s.operands.tables basis (BitVec.ofNat 8 j)))

/-- R219, R220: SH_RECOMBINE makes its checks in their order and else writes the recombined secret. -/
def Obligations.ShRecombineRecoversOrReports : Prop :=
  encode .shRecombine = 0x00000022 ∧
  ∀ s : State,
    let t := s.operands.csr.threshold.toNat
    let F := s.operands.fragments
    let L := s.operands.csr.lenFrag.toNat
    let secret := interp s.operands.tables F 255
    let digest := interp s.operands.tables F 254
    let out := if t = 1 then (F.map (·.y)).headD [] else secret
    (¬(1 ≤ t ∧ t ≤ 16) → exec .shRecombine s = .next (s.failed 0x02 0)) ∧
    (1 ≤ t ∧ t ≤ 16 → F = [] → exec .shRecombine s = .next (s.failed 0x30 0)) ∧
    (1 ≤ t ∧ t ≤ 16 → ∀ j, FirstAt (Repeats (F.map (·.x))) j →
      exec .shRecombine s = .next (s.failed 0x21 (BitVec.ofNat 32 j))) ∧
    (1 ≤ t ∧ t ≤ 16 → F ≠ [] → (F.map (·.x)).Nodup →
      (F.length < t → exec .shRecombine s = .next (s.failed 0x30 (BitVec.ofNat 32 F.length))) ∧
      (t < F.length → exec .shRecombine s = .next (s.failed 0x33 (BitVec.ofNat 32 F.length))) ∧
      (F.length = t → 2 ≤ t → L < 4 → exec .shRecombine s = .next (s.failed 0x40 (BitVec.ofNat 32 L))) ∧
      (F.length = t → 2 ≤ t → 4 ≤ L → digest.take 4 ≠ (Config.digest4 (digest.drop 4) secret).toList →
        exec .shRecombine s = .next (s.failed 0x32 0)) ∧
      (F.length = t → (t = 1 ∨ 4 ≤ L ∧ digest.take 4 = (Config.digest4 (digest.drop 4) secret).toList) →
        ∃ res : Cells 8,
          exec .shRecombine s = .next (s.succeeded { s.arch.csr with lenResult := s.operands.csr.lenFrag }
            { s.arch.mem with result := res } s.arch.ses) ∧
          StoredAt s.arch.mem.result res 0 out))

/-- R216, which the spec marks derived: every `t` of the `n` fragments of a split, in any order, recombine to the secret, and `t - 1` of them raise
NotEnoughFragments; for `t = 1` every fragment is the secret. -/
def Obligations.ThresholdIsExact : Prop :=
  ∀ (P : Ports) (pos t n : Nat) (secret : ByteString), t ≤ n → n ≤ 16 →
    (2 ≤ t → 4 ≤ secret.length → ∀ G : List Fragment, G ⊆ split P standardTables pos t n secret →
      (G.map (·.x)).Nodup →
      (G.length = t → recombine P standardTables t G = .ok secret) ∧
      (G.length = t - 1 →
        recombine P standardTables t G = .error ⟨.notEnoughFragments, BitVec.ofNat 32 (t - 1)⟩)) ∧
    (t = 1 → ∀ f ∈ split P standardTables pos t n secret, f.y = secret)

/-! ## The cipher commands -/

/-- R240 to R246: FC_ENCRYPT and FC_DECRYPT check the length, then the passphrase, and else write the result of the four
rounds, 0 to 3 or 3 to 0. -/
def Obligations.CipherCommandsRunFourRounds : Prop :=
  encode .fcEncrypt = 0x00000028 ∧ encode .fcDecrypt = 0x00000029 ∧
  ∀ s : State,
    let a := s.operands
    let m := a.secretBytes
    let L := m.length
    ((L % 2 = 1 ∨ L < 2 ∨ s.params.lMax < L) →
      exec .fcEncrypt s = .next (s.failed 0x40 (BitVec.ofNat 32 L)) ∧
      exec .fcDecrypt s = .next (s.failed 0x40 (BitVec.ofNat 32 L))) ∧
    (L % 2 = 0 → 2 ≤ L → L ≤ s.params.lMax →
      (∀ j, PassRefusedAt s.params a.passBytes j →
        exec .fcEncrypt s = .next (s.failed 0x41 (BitVec.ofNat 32 j)) ∧
        exec .fcDecrypt s = .next (s.failed 0x41 (BitVec.ofNat 32 j))) ∧
      (PassAccepted s.params a.passBytes →
        (∃ (res : Cells 8) (c : ByteString),
          exec .fcEncrypt s = .next (s.succeeded { s.arch.csr with lenResult := a.csr.lenSecret }
            { s.arch.mem with result := res } s.arch.ses) ∧
          StoredAt s.arch.mem.result res 0 c ∧ c.length = L ∧
          FourRounds s.params a.passBytes a.csr.iterExp a.csr.ident m c 0 1 2 3) ∧
        ∃ (res : Cells 8) (c : ByteString),
          exec .fcDecrypt s = .next (s.succeeded { s.arch.csr with lenResult := a.csr.lenSecret }
            { s.arch.mem with result := res } s.arch.ses) ∧
          StoredAt s.arch.mem.result res 0 c ∧ c.length = L ∧
          FourRounds s.params a.passBytes a.csr.iterExp a.csr.ident m c 3 2 1 0))

/-- R243's remark, which the spec marks derived: decryption inverts encryption, and encryption decryption, for every
passphrase, exponent and identifier. -/
def Obligations.DecryptInvertsEncrypt : Prop :=
  ∀ (P : Ports) (p : Params) (m pass : ByteString) (e : BitVec 5) (id : BitVec 15), m.length % 2 = 0 →
    decrypt P p (encrypt P p m pass e id) pass e id = m ∧ encrypt P p (decrypt P p m pass e id) pass e id = m

/-! ## The share commands -/

/-- R262 to R264: SHARE_ENCODE checks the fields, then the value length, then the text length, and else writes the share's
symbols and its text. -/
def Obligations.ShareEncodeWritesTheMnemonic : Prop :=
  encode .shareEncode = 0x00000030 ∧
  ∀ s : State,
    let sh := s.operands.shareOperand
    let L := sh.value.length
    (¬ ShareFieldsLegal sh → exec .shareEncode s = .next (s.failed 0x02 0)) ∧
    (ShareFieldsLegal sh → (L % 2 = 1 ∨ L < s.params.minSecret) →
      exec .shareEncode s = .next (s.failed 0x40 (BitVec.ofNat 32 L))) ∧
    (ShareFieldsLegal sh → L % 2 = 0 → s.params.minSecret ≤ L →
      ∃ sy : List Sym, ShareSymbols s.params sh sy ∧
        (s.params.tMax < (wordsText s.params sy).length → exec .shareEncode s = .next (s.failed 0x50 0)) ∧
        ((wordsText s.params sy).length ≤ s.params.tMax → ∃ (sym : Cells 10) (text : Cells 8),
          exec .shareEncode s = .next (s.succeeded
            { s.arch.csr with
              lenSym := BitVec.ofNat 7 sy.length
              lenText := BitVec.ofNat 13 (wordsText s.params sy).length }
            { s.arch.mem with sym := sym, text := text } s.arch.ses) ∧
          StoredAt s.arch.mem.sym sym 0 sy ∧ StoredAt s.arch.mem.text text 0 (wordsText s.params sy)))

/-- R265, R266: SHARE_DECODE makes its checks in their order and else writes the share's fields, its value and its
symbols. -/
def Obligations.ShareDecodeReadsTheMnemonic : Prop :=
  encode .shareDecode = 0x00000031 ∧
  ∀ s : State,
    let toks := tokens s.operands.textBytes
    let W := toks.length
    let V := W - 7
    let pad := 10 * V % 16
    let L := (10 * V - pad) / 8
    (∀ j, UnknownAt s.params toks j → exec .shareDecode s = .next (s.failed 0x10 (BitVec.ofNat 32 j))) ∧
    ∀ sy : List Sym, SymbolsOf s.params toks sy →
      let v := bigEndian ((sy.drop 4).take V)
      let hdr := bigEndian (sy.take 4)
      if W < 7 + (8 * s.params.minSecret + 9) / 10 then
        exec .shareDecode s = .next (s.failed 0x11 (BitVec.ofNat 32 W))
      else if 8 < pad then exec .shareDecode s = .next (s.failed 0x11 (BitVec.ofNat 32 W))
      else if s.params.lMax < L then exec .shareDecode s = .next (s.failed 0x50 (BitVec.ofNat 32 W))
      else if polymod (customSymbols s.params ++ sy) ≠ 1 then exec .shareDecode s = .next (s.failed 0x12 0)
      else if 2 ^ (8 * L) ≤ v then exec .shareDecode s = .next (s.failed 0x13 0)
      else if hdr / 2 ^ 8 % 16 < hdr / 2 ^ 12 % 16 ∨ hdr / 2 ^ 8 % 16 < hdr / 2 ^ 16 % 16 then
        exec .shareDecode s = .next (s.failed 0x14 0)
      else ∃ (res : Cells 8) (sym : Cells 10) (value : ByteString),
        exec .shareDecode s = .next (s.succeeded
          { s.arch.csr with
            shId := BitVec.ofNat 15 (hdr / 2 ^ 25)
            shExp := BitVec.ofNat 5 (hdr / 2 ^ 20 % 32)
            shGi := BitVec.ofNat 4 (hdr / 2 ^ 16 % 16)
            shGt := BitVec.ofNat 5 (hdr / 2 ^ 12 % 16 + 1)
            shGc := BitVec.ofNat 5 (hdr / 2 ^ 8 % 16 + 1)
            shMi := BitVec.ofNat 4 (hdr / 2 ^ 4 % 16)
            shMt := BitVec.ofNat 5 (hdr % 16 + 1)
            lenResult := BitVec.ofNat 7 L
            lenSym := BitVec.ofNat 7 W }
          { s.arch.mem with result := res, sym := sym } s.arch.ses) ∧
        StoredAt s.arch.mem.result res 0 value ∧ value.length = L ∧ bigEndian value = v ∧
        StoredAt s.arch.mem.sym sym 0 sy

/-- R268, which the spec marks derived: a share that passes SHARE_ENCODE's checks decodes from its text to itself and its symbols, and with any one word
replaced by another it raises InvalidChecksum. -/
def Obligations.ShareTextRoundTrip : Prop :=
  ∀ (p : Params) (sh : Share), p.legal = true → ShareFieldsLegal sh → sh.value.length % 2 = 0 →
    p.minSecret ≤ sh.value.length → sh.value.length ≤ p.lMax →
    decodeShare p (wordsText p (encodeShare p sh)) = .ok (sh, encodeShare p sh) ∧
    ∀ (j : Nat) (w : Sym), j < (encodeShare p sh).length → w ≠ (encodeShare p sh).getD j 0 →
      decodeShare p (wordsText p ((encodeShare p sh).set j w)) = .error ⟨.invalidChecksum, 0⟩

/-- R267's remarks, which the spec marks derived: shares of one group of one split have the same first three symbols, shares of different groups of one split differ
in symbol 2, and two members of one group differ in symbol 3. -/
def Obligations.GroupFingerprint : Prop :=
  ∀ (p : Params) (a b : Share), a.identifier = b.identifier → a.iterationExponent = b.iterationExponent →
    a.groupThreshold = b.groupThreshold → a.groupCount = b.groupCount →
    (a.groupIndex = b.groupIndex → (encodeShare p a).take 3 = (encodeShare p b).take 3) ∧
    (a.groupIndex ≠ b.groupIndex → (encodeShare p a).getD 2 0 ≠ (encodeShare p b).getD 2 0) ∧
    (a.memberThreshold = b.memberThreshold → a.memberIndex ≠ b.memberIndex →
      (encodeShare p a).getD 3 0 ≠ (encodeShare p b).getD 3 0)

/-! ## The orchestrator commands -/

/-- R280 to R284: GENERATE makes its checks in their order before anything is drawn, and else writes the mnemonics of the
two-level split, group by group and member by member, with the identifier it drew; a text that does not fit raises
ResourceLimit with its index, and the bytes drawn stay drawn. -/
def Obligations.GenerateWritesTheMnemonics : Prop :=
  encode .generate = 0x00000038 ∧
  ∀ s : State, s.params.tMax ≤ 4096 → 4 ≤ s.params.minSecret →
    let a := s.operands
    let p := s.params
    let gt := a.csr.groupThreshold.toNat
    let shapes := a.groupShapes
    let L := a.secretBytes.length
    let id : BitVec 15 := BitVec.ofNat 15 ((Config.rngByte s.draws).toNat * 256 + (Config.rngByte (s.draws + 1)).toNat)
    let ems := encrypt Config.ports p a.secretBytes a.passBytes a.csr.iterExp id
    let G := split Config.ports a.tables (s.draws + 2) gt shapes.length ems
    let memberPos := fun g => s.draws + 2 + splitDraws gt L + ((shapes.take g).map fun q => splitDraws q.1 L).sum
    let drawsAfter := memberPos shapes.length
    (¬(1 ≤ gt ∧ gt ≤ shapes.length ∧ shapes.length ≤ 16) → exec .generate s = .next (s.failed 0x02 0x100)) ∧
    (1 ≤ gt ∧ gt ≤ shapes.length ∧ shapes.length ≤ 16 →
      (∀ g, FirstAt (fun g => g < shapes.length ∧ ¬ GroupLegal (shapes.getD g (0, 0))) g →
        exec .generate s = .next (s.failed 0x02 (BitVec.ofNat 32 g))) ∧
      ((∀ q ∈ shapes, GroupLegal q) →
        ((L % 2 = 1 ∨ L < p.minSecret ∨ p.lMax < L) →
          exec .generate s = .next (s.failed 0x40 (BitVec.ofNat 32 L))) ∧
        (L % 2 = 0 → p.minSecret ≤ L → L ≤ p.lMax →
          (∀ j, PassRefusedAt p a.passBytes j → exec .generate s = .next (s.failed 0x41 (BitVec.ofNat 32 j))) ∧
          (PassAccepted p a.passBytes → ∃ shs : List Share,
            shs.length = (shapes.map (·.2)).sum ∧
            (∀ g i, g < shapes.length → i < (shapes.getD g (0, 0)).2 →
              shs[((shapes.take g).map (·.2)).sum + i]? = some
                { identifier := id
                  iterationExponent := a.csr.iterExp
                  groupIndex := BitVec.ofNat 4 g
                  groupThreshold := BitVec.ofNat 5 gt
                  groupCount := BitVec.ofNat 5 shapes.length
                  memberIndex := BitVec.ofNat 4 i
                  memberThreshold := BitVec.ofNat 5 (shapes.getD g (0, 0)).1
                  value := ((split Config.ports a.tables (memberPos g) (shapes.getD g (0, 0)).1
                    (shapes.getD g (0, 0)).2 ((G.map (·.y)).getD g [])).map (·.y)).getD i [] }) ∧
            let texts := shs.map fun sh => wordsText p (encodeShare p sh)
            (∀ m, FirstAt (fun m => m < texts.length ∧ p.tMax < (texts.getD m []).length) m →
              exec .generate s = .next (State.failed { s with draws := drawsAfter } 0x50 (BitVec.ofNat 32 m <<< 16))) ∧
            ((∀ t ∈ texts, t.length ≤ p.tMax) → ∃ (mnem : Cells 8) (mnemLen : Cells 13),
              exec .generate s = .next (State.succeeded { s with draws := drawsAfter }
                { s.arch.csr with mnemCount := BitVec.ofNat 9 shs.length, ident := id }
                { s.arch.mem with mnem := mnem, mnemLen := mnemLen } s.arch.ses) ∧
              RowsStored s.arch.mem.mnem mnem 4096 texts ∧
              StoredAt s.arch.mem.mnemLen mnemLen 0 (texts.map fun t => BitVec.ofNat 13 t.length))))))

/-- R285 to R289, R295: COMBINE makes its checks in their order, recombines each of the first complete groups and then the
group fragments, and writes the decrypted secret. -/
def Obligations.CombineRecoversOrReports : Prop :=
  encode .combine = 0x00000039 ∧
  ∀ s : State,
    let a := s.operands
    let p := s.params
    let texts := a.mnemonics
    (∀ j, PassRefusedAt p a.passBytes j → exec .combine s = .next (s.failed 0x41 (BitVec.ofNat 32 j))) ∧
    (PassAccepted p a.passBytes →
      (texts = [] → exec .combine s = .next (s.failed 0x31 0)) ∧
      (∀ (m : Nat) (e : Raised), m < texts.length → decodeShare p (texts.getD m []) = .error e →
        (∀ i, i < m → ∃ r, decodeShare p (texts.getD i []) = .ok r) →
        exec .combine s = .next (s.failed e.error.code ((BitVec.ofNat 32 m <<< 16) ||| e.info))) ∧
      ∀ (sh0 : Share) (rest : List Share),
        List.Forall₂ (fun t sh => ∃ sy, decodeShare p t = .ok (sh, sy)) texts (sh0 :: rest) →
        let shs := sh0 :: rest
        let gt := sh0.groupThreshold.toNat
        let C := completeGroups shs
        let recombined := fun g =>
          recombine Config.ports a.tables (memberThresholdOf (groupOf shs g)) (memberFragments (groupOf shs g))
        (∀ m, FirstAt (fun m => ∃ sh, shs[m]? = some sh ∧ commonParams sh ≠ commonParams sh0) m →
          exec .combine s = .next (s.failed 0x20 (BitVec.ofNat 32 (m * 65536 + 1)))) ∧
        (SameParams (commonParams sh0) shs →
          (∀ m, FirstAt (fun m => ∃ sh, shs[m]? = some sh ∧ ¬ ThresholdsAgree (shs.take m ++ [sh])) m →
            exec .combine s = .next (s.failed 0x20 (BitVec.ofNat 32 (m * 65536 + 2)))) ∧
          (ThresholdsAgree shs →
            (∀ m, FirstAt (fun m => ∃ sh, shs[m]? = some sh ∧ ¬ NoClash (shs.take m ++ [sh])) m →
              exec .combine s = .next (s.failed 0x21 (BitVec.ofNat 32 (m * 65536)))) ∧
            (NoClash shs →
              (C.length < gt → exec .combine s = .next (s.failed 0x31 (BitVec.ofNat 32 C.length))) ∧
              (gt ≤ C.length →
                (∀ (before after : List Nat) (g : Nat), C.take gt = before ++ g :: after →
                  (∀ h ∈ before, ∃ y, recombined h = .ok y) → recombined g = .error ⟨.digestMismatch, 0⟩ →
                  exec .combine s = .next (s.failed 0x32 (BitVec.ofNat 32 g))) ∧
                ∀ y : Nat → ByteString, (∀ g ∈ C.take gt, recombined g = .ok (y g)) →
                  let GF := (C.take gt).map fun g => Fragment.mk (BitVec.ofNat 8 g) (y g)
                  (recombine Config.ports a.tables gt GF = .error ⟨.digestMismatch, 0⟩ →
                    exec .combine s = .next (s.failed 0x32 0x100)) ∧
                  ∀ ems, recombine Config.ports a.tables gt GF = .ok ems →
                    ∃ (res : Cells 8) (secret : ByteString),
                      secret = decrypt Config.ports p ems a.passBytes sh0.iterationExponent sh0.identifier ∧
                      exec .combine s = .next (s.succeeded { s.arch.csr with lenResult := BitVec.ofNat 7 secret.length }
                        { s.arch.mem with result := res } s.arch.ses) ∧
                      StoredAt s.arch.mem.result res 0 secret)))))

/-- R285, R286: of shares that pass the checks, `C` is the ascending list of the complete groups, and a complete group gives
the fragments of its lowest member indices, as many as its threshold, each with the value of its share. -/
def Obligations.SelectionIsLowestFirst : Prop :=
  ∀ shs : List Share, ThresholdsAgree shs → NoClash shs →
    (completeGroups shs).Pairwise (· < ·) ∧ (∀ g, g ∈ completeGroups shs ↔ CompleteGroup shs g) ∧
    ∀ g, CompleteGroup shs g →
      let F := memberFragments (groupOf shs g)
      memberThresholdOf (groupOf shs g) = F.length ∧
      (∀ sh ∈ shs, sh.groupIndex.toNat = g → sh.memberThreshold.toNat = F.length) ∧
      F.Pairwise (fun a b => a.x.toNat < b.x.toNat) ∧
      (∀ f ∈ F, ∃ sh ∈ shs, sh.groupIndex.toNat = g ∧ sh.memberIndex.toNat = f.x.toNat) ∧
      ∀ sh ∈ shs, sh.groupIndex.toNat = g →
        (∀ f ∈ F, sh.memberIndex.toNat = f.x.toNat → f.y = sh.value) ∧
        ((∀ f ∈ F, sh.memberIndex.toNat ≠ f.x.toNat) → ∀ f ∈ F, f.x.toNat < sh.memberIndex.toNat)

/-- R296, which the spec marks derived: for every legal GENERATE request and every choice of at least the member threshold of the mnemonics of at least
the group threshold of the groups, in any order, with or without the other mnemonics, the combine function with the same
passphrase returns the original secret. -/
def Obligations.GenerateThenCombineRecovers : Prop :=
  ∀ (P : Ports) (p : Params) (pos gt : Nat) (groups : List (Nat × Nat)) (secret pass : ByteString) (e : BitVec 5),
    p.legal = true → 1 ≤ gt → gt ≤ groups.length → groups.length ≤ 16 → (∀ q ∈ groups, GroupLegal q) →
    secret.length % 2 = 0 → p.minSecret ≤ secret.length → secret.length ≤ p.lMax → PassAccepted p pass →
    let shs := (generateShares P standardTables p pos gt groups secret pass e).2
    let text := fun sh => wordsText p (encodeShare p sh)
    ∀ chosen : List Share, chosen ⊆ shs →
      (∃ gs : List Nat, gs.Nodup ∧ gt ≤ gs.length ∧ ∀ g ∈ gs, g < groups.length ∧
        ∃ members : List Share, members ⊆ chosen ∧ (members.map (·.memberIndex)).Nodup ∧
          (∀ sh ∈ members, sh.groupIndex.toNat = g) ∧ (groups.getD g (0, 0)).1 ≤ members.length) →
      combine P standardTables p (chosen.map text) pass = .ok secret

/-! ## The session commands -/

/-- R310: SES_RESET leaves the session EMPTY, with no shares and no parameters. -/
def Obligations.SesResetEmptiesTheSession : Prop :=
  encode .sesReset = 0x00000040 ∧
  ∀ s : State, exec .sesReset s = .next (s.succeeded s.arch.csr s.arch.mem ⟨.empty, none, []⟩)

/-- R312, R314, R320: SES_ACCEPT reports a decode error, different common parameters, a different member threshold or a
taken member index with the session unchanged, ignores an identical share, and else appends the share; the state becomes
COMPLETE when enough groups are complete, and COLLECTING when not. The ResourceLimit branch of R312 is never reached. That a
first share can make the session COMPLETE follows R320 against the letter of R312; it is the model's choice (assumption
log 10). -/
def Obligations.SesAcceptAddsAShare : Prop :=
  encode .sesAccept = 0x00000041 ∧
  ∀ s : State, s.operands.ses.consistent s.params →
    let x := s.operands.ses
    let t := s.operands.textBytes
    (∀ e, decodeShare s.params t = .error e → exec .sesAccept s = .next (s.failed e.error.code e.info)) ∧
    ∀ (sh : Share) (sy : List Sym), decodeShare s.params t = .ok (sh, sy) →
      let enters := fun st => exec .sesAccept s =
        .next (s.succeeded { s.arch.csr with result := 1 } s.arch.mem
          ⟨st, some (commonParams sh), x.shares ++ [(sh, t)]⟩)
      (x.state = .empty →
        (sh.groupThreshold = 1 ∧ sh.memberThreshold = 1 → enters .complete) ∧
        (¬(sh.groupThreshold = 1 ∧ sh.memberThreshold = 1) → enters .collecting)) ∧
      (x.state ≠ .empty →
        (x.params ≠ some (commonParams sh) → exec .sesAccept s = .next (s.failed 0x20 1)) ∧
        (x.params = some (commonParams sh) →
          ((∃ h ∈ x.held, h.groupIndex = sh.groupIndex ∧ h.memberThreshold ≠ sh.memberThreshold) →
            exec .sesAccept s = .next (s.failed 0x20 2)) ∧
          (sh ∈ x.held →
            exec .sesAccept s = .next (s.succeeded { s.arch.csr with result := 0 } s.arch.mem x)) ∧
          ((∀ h ∈ x.held, h.groupIndex = sh.groupIndex → h.memberThreshold = sh.memberThreshold) → sh ∉ x.held →
            ((∃ h ∈ x.held, h.groupIndex = sh.groupIndex ∧ h.memberIndex = sh.memberIndex) →
              exec .sesAccept s = .next (s.failed 0x21 0)) ∧
            ((∀ h ∈ x.held, ¬(h.groupIndex = sh.groupIndex ∧ h.memberIndex = sh.memberIndex)) →
              (x.state = .complete → enters .complete) ∧
              ((completeGroups (x.held ++ [sh])).length < sh.groupThreshold.toNat → enters .collecting) ∧
              (sh.groupThreshold.toNat ≤ (completeGroups (x.held ++ [sh])).length → enters .complete)))))

/-- R315: SES_STATUS leaves the packed summary of the session in RESULT. -/
def Obligations.SesStatusPacksTheSummary : Prop :=
  encode .sesStatus = 0x00000042 ∧
  ∀ s : State, let x := s.operands.ses
    ∃ r : Word, exec .sesStatus s = .next (s.succeeded { s.arch.csr with result := r } s.arch.mem s.arch.ses) ∧
      r.toNat = x.state.code.toNat + 2 ^ 4 * (completeGroups x.held).length + 2 ^ 12 * x.groupThreshold.toNat +
        2 ^ 20 * x.groupCount.toNat

/-- R313, R317, R318: SES_IS_COMPLETE leaves 1 exactly when the session is not EMPTY and as many groups as its group
threshold are complete, and SES_GROUP_COMPLETE 1 exactly when the group holds a share and as many distinct member indices as
its threshold; both leave 0 otherwise. -/
def Obligations.SesQueriesAnswerCompleteness : Prop :=
  encode .sesIsComplete = 0x00000043 ∧
  (∀ s : State, let x := s.operands.ses
    let complete := x.state ≠ .empty ∧ ∃ c, x.params = some c ∧ ∃ gs : List Nat, gs.Nodup ∧
      (∀ g ∈ gs, CompleteGroup x.held g) ∧ c.groupThreshold.toNat ≤ gs.length
    x.consistent s.params →
    (complete → exec .sesIsComplete s = .next (s.succeeded { s.arch.csr with result := 1 } s.arch.mem s.arch.ses)) ∧
    (¬ complete →
      exec .sesIsComplete s = .next (s.succeeded { s.arch.csr with result := 0 } s.arch.mem s.arch.ses))) ∧
  ∀ (g : Byte) (s : State), s.operands.ses.consistent s.params →
    encode (.sesGroupComplete g) = 0x44 ||| (g.setWidth 32 <<< 8) ∧
    (CompleteGroup s.operands.ses.held g.toNat →
      exec (.sesGroupComplete g) s = .next (s.succeeded { s.arch.csr with result := 1 } s.arch.mem s.arch.ses)) ∧
    (¬ CompleteGroup s.operands.ses.held g.toNat →
      exec (.sesGroupComplete g) s = .next (s.succeeded { s.arch.csr with result := 0 } s.arch.mem s.arch.ses))

/-- R316: SES_COMBINE raises NotEnoughGroups unless the session is COMPLETE, and else combines the accepted texts: it writes
the secret and empties the session, or reports the error with the session unchanged. -/
def Obligations.SesCombineEndsTheSession : Prop :=
  encode .sesCombine = 0x00000045 ∧
  ∀ s : State, let a := s.operands
    (a.ses.state ≠ .complete →
      exec .sesCombine s = .next (s.failed 0x31 (BitVec.ofNat 32 (completeGroups a.ses.held).length))) ∧
    (a.ses.state = .complete →
      (∀ e, combine Config.ports a.tables s.params (a.ses.shares.map (·.2)) a.passBytes = .error e →
        exec .sesCombine s = .next (s.failed e.error.code e.info)) ∧
      ∀ secret, combine Config.ports a.tables s.params (a.ses.shares.map (·.2)) a.passBytes = .ok secret →
        ∃ res : Cells 8,
          exec .sesCombine s = .next (s.succeeded { s.arch.csr with lenResult := BitVec.ofNat 7 secret.length }
            { s.arch.mem with result := res } ⟨.empty, none, []⟩) ∧
          StoredAt s.arch.mem.result res 0 secret)

/-- R64 to R70, R81, R319: the session registers and SES_GROUP read as the session store is. -/
def Obligations.SessionRegistersMirrorTheStore : Prop :=
  ∀ s : State, s.arch.ses.consistent s.params →
    let x := s.arch.ses
    (s.peek 0x00000020).toNat = x.state.code.toNat ∧
    (x.state = .empty → s.peek 0x00000021 = 0 ∧ s.peek 0x00000022 = 0 ∧ s.peek 0x00000023 = 0 ∧ s.peek 0x00000024 = 0) ∧
    (∀ sh ∈ x.held, (s.peek 0x00000021).toNat = sh.identifier.toNat ∧
      (s.peek 0x00000022).toNat = sh.iterationExponent.toNat ∧ (s.peek 0x00000023).toNat = sh.groupThreshold.toNat ∧
      (s.peek 0x00000024).toNat = sh.groupCount.toNat) ∧
    (s.peek 0x00000025).toNat = x.shares.length ∧
    (∃ gs : List Nat, gs.Nodup ∧ (∀ g, g ∈ gs ↔ CompleteGroup x.held g) ∧ (s.peek 0x00000026).toNat = gs.length) ∧
    ∀ g, g < 16 → ∃ n mt c : Nat,
      (s.peek (elementAddress 0x0B g)).toNat = n + 2 ^ 8 * mt + 2 ^ 16 * c ∧
      n = (x.held.filter fun sh => sh.groupIndex.toNat == g).length ∧ (n = 0 → mt = 0) ∧
      (∀ sh ∈ x.held, sh.groupIndex.toNat = g → mt = sh.memberThreshold.toNat) ∧
      c ≤ 1 ∧ (c = 1 ↔ CompleteGroup x.held g)

/-! ## Every command -/

/-- R370: a command that raises writes its error report and nothing else; only GENERATE can have drawn before it. -/
def Obligations.ErrorsArePrecise : Prop :=
  ∀ (i : Instr) (s t : State), exec i s = .next t → t.arch.csr.errCode ≠ 0 →
    t = State.failed { s with draws := t.draws } t.arch.csr.errCode t.arch.csr.errInfo ∧ s.draws ≤ t.draws ∧
    (i ≠ .generate → t.draws = s.draws)

/-- R360, R361: every command completes, with success and an empty report or with one of the error codes listed for it. -/
def Obligations.CommandsRaiseOnlyTheirCodes : Prop :=
  ∀ (i : Instr) (s : State), 4 ≤ s.params.minSecret → s.operands.ses.consistent s.params →
    ∃ t, exec i s = .next t ∧ t.pending = none ∧ t.arch.csr.done = true ∧
      ((t.arch.csr.errCode = 0 ∧ t.arch.csr.errInfo = 0) ∨ t.arch.csr.errCode ∈ Instr.errorCodes i)

/-- R42, R82, R321, R386: no command changes CMD, READY, OVERRUN, the tables, the parameters or the bus; only the session
commands that R123 lists change the session, only SH_SPLIT and GENERATE draw, and only the commands R42 lists change RESULT,
and not when they raise. -/
def Obligations.CommandsKeepTheirFrame : Prop :=
  ∀ (i : Instr) (s t : State), exec i s = .next t →
    t.arch.csr.cmd = s.arch.csr.cmd ∧ t.arch.csr.ready = s.arch.csr.ready ∧
    t.arch.csr.overrun = s.arch.csr.overrun ∧ t.arch.tables = s.arch.tables ∧ t.params = s.params ∧
    t.bus = s.bus ∧ t.reads = s.reads ∧ t.busyReads = s.busyReads ∧
    (Instr.writesSession i = false → t.arch.ses = s.arch.ses) ∧ (Instr.draws i = false → t.draws = s.draws) ∧
    (Instr.writesResult i = false ∨ t.arch.csr.errCode ≠ 0 → t.arch.csr.result = s.arch.csr.result)

/-! ## Invariants -/

/-- Every step keeps the canonical form of every buffer, and of the snapshot's. -/
def Obligations.StepsKeepMemoryCanonical : Prop :=
  ∀ s t : State, s.memoryCanonical → step s = .next t → t.memoryCanonical

/-- R82, R401: every step keeps the tables at the contents of R151 while READY is 1. -/
def Obligations.StepsKeepTheTables : Prop :=
  ∀ s t : State, s.tablesBuilt → step s = .next t → t.tablesBuilt

/-- R12, R43 to R51, R71 to R80: every step keeps the lengths and counts within the capacities and writes no element that
does not exist. -/
def Obligations.StepsStayWithinCapacity : Prop :=
  ∀ s t : State, s.capacityKept → step s = .next t → t.capacityKept

/-- R33, R408: while a command is pending every step keeps the unit as it was accepted, but for OVERRUN. -/
def Obligations.StepsKeepTheSnapshot : Prop :=
  ∀ s t : State, s.snapshotAgrees → step s = .next t → t.snapshotAgrees

/-- R83, R311, R312, R320: every step keeps the session consistent. That the session is COMPLETE exactly when enough groups
are complete, after a first share too, follows R320 against the letter of R312; it is the model's choice (assumption
log 10). -/
def Obligations.StepsKeepTheSessionConsistent : Prop :=
  ∀ s t : State, s.sessionConsistent → step s = .next t → t.sessionConsistent

/-- R87: the state after reset meets every invariant. R10 to R12, R14: its parameters are legal, its vocabulary 1024 distinct
non-empty words without the byte 0x20; that they are the spec's defaults is the model's choice (assumption log 5). -/
def Obligations.ResetMeetsTheInvariants : Prop :=
  State.reset.memoryCanonical ∧ State.reset.tablesBuilt ∧ State.reset.capacityKept ∧ State.reset.snapshotAgrees ∧
  State.reset.sessionConsistent ∧ Params.legal State.reset.params = true ∧
  State.reset.params.vocab.words.length = 1024 ∧ State.reset.params.vocab.words.Nodup ∧
  ∀ w ∈ State.reset.params.vocab.words, w ≠ [] ∧ (0x20 : Byte) ∉ w

/-! ## The host bus and reset -/

/-- R33: an idle unit accepts a command word: CMD and the pending register with the snapshot, DONE 0, BUSY 1; a busy one only
sets OVERRUN; in the reset sequence nothing changes. -/
def Obligations.CommandAcceptance : Prop :=
  ∀ (s : State) (w : Word) (rest : List BusEvent), s.bus = .write 0x00000001 w :: rest →
    (s.isIdle → step s = .next { s with
        bus := rest
        pending := some ⟨w, s.arch⟩
        arch := { s.arch with csr := { s.arch.csr with cmd := w, done := false } } } ∧
      (s.accepted w).busy = true) ∧
    (s.arch.csr.ready = true → s.pending ≠ none → step s = .next { s with
        bus := rest
        arch := { s.arch with csr := { s.arch.csr with overrun := true } } }) ∧
    (s.arch.csr.ready = false → step s = .next { s with bus := rest })

/-- R40, R100, R412: while a command runs a host write only sets OVERRUN, or clears it where it is a write to STATUS with bit 4
set, and the command then completes as without the write; in the reset sequence no write changes anything; an idle unit
ignores writes to read-only and to missing addresses, and of a write to STATUS it obeys bit 4 alone: set, it clears OVERRUN
and changes nothing else; clear, it changes nothing and sets no OVERRUN. -/
def Obligations.BusyWritesAreDropped : Prop :=
  ∀ (s : State) (addr v : Word),
    (s.arch.csr.ready = true → s.pending ≠ none →
      let flag := !(addr == 0x00000002 && v.getLsbD 4)
      s.hostWrite addr v = { s with arch := { s.arch with csr := { s.arch.csr with overrun := flag } } } ∧
      ∀ t, s.runUnit = .next t → (s.hostWrite addr v).runUnit =
        .next { t with arch := { t.arch with csr := { t.arch.csr with overrun := flag } } }) ∧
    (s.arch.csr.ready = false → s.hostWrite addr v = s) ∧
    (s.isIdle →
      (ReadOnly (addr.toNat / 2 ^ 24) (addr.toNat % 2 ^ 24) ∨
        NamesNothing s.params (addr.toNat / 2 ^ 24) (addr.toNat % 2 ^ 24) → s.hostWrite addr v = s) ∧
      (v.getLsbD 4 = true → s.hostWrite 0x00000002 v =
        { s with arch := { s.arch with csr := { s.arch.csr with overrun := false } } }) ∧
      (v.getLsbD 4 = false → s.hostWrite 0x00000002 v = s))

/-- R96, R99, R413: while the unit is busy a read of ID, STATUS, CAPS or CAPS2 returns its value and a read of any other
address an unspecified one; an idle unit's read of any address returns what the address holds; a read changes nothing of the
unit. That the unspecified value is a free value indexed by the counter `busyReads`, and that the values are kept in the list
`reads`, is the model's choice (assumption log 9, 15). -/
def Obligations.BusyReadsAreUnspecified : Prop :=
  ∀ (s : State) (addr : Word),
    (s.isIdle → s.hostRead addr = { s with reads := s.peek addr :: s.reads }) ∧
    (s.pending ≠ none ∨ s.arch.csr.ready = false →
      (addr = 0x00000000 ∨ addr = 0x00000002 ∨ addr = 0x00000005 ∨ addr = 0x00000006 →
        s.hostRead addr = { s with reads := s.peek addr :: s.reads }) ∧
      (addr ≠ 0x00000000 → addr ≠ 0x00000002 → addr ≠ 0x00000005 → addr ≠ 0x00000006 →
        s.hostRead addr =
          { s with reads := Config.busyRead s.busyReads :: s.reads, busyReads := s.busyReads + 1 }))

/-- R34, R92: an address that names no register and no element reads 0 and ignores writes, with no other effect. -/
def Obligations.MissingAddressesAreQuiet : Prop :=
  ∀ (s : State) (addr : Word), NamesNothing s.params (addr.toNat / 2 ^ 24) (addr.toNat % 2 ^ 24) →
    s.peek addr = 0 ∧
    (s.isIdle → s.hostRead addr = { s with reads := 0 :: s.reads } ∧ ∀ v, s.hostWrite addr v = s)

/-- R43 to R63, R71 to R80, R93: a host write to a writable address of an idle unit stores the element's low bits, or the
WARL minimum, which a read returns zero-extended; every other address reads as before, and nothing but a register or an
element changes. -/
def Obligations.WritesReadBack : Prop :=
  ∀ (s : State) (addr v : Word) (n : Nat), Params.sizesLegal s.params → s.isIdle →
    storedNumber s.params (addr.toNat / 2 ^ 24) (addr.toNat % 2 ^ 24) v.toNat = some n →
    let t := s.hostWrite addr v
    (t.peek addr).toNat = n ∧ (∀ other, other ≠ addr → t.peek other = s.peek other) ∧
    t = { s with arch := { s.arch with csr := t.arch.csr, mem := t.arch.mem } } ∧
    t.hostRead addr = { t with reads := BitVec.ofNat 32 n :: t.reads }

/-- R35, R39 to R63, R71 to R80, R91: every register reads its own field and every buffer space its own buffer, zero-extended.
The fields are the model's names for the registers and buffers of these rules; ID, STATUS, CAPS and CAPS2 are
FixedRegistersAndStatus, the session registers and SES_GROUP are SessionRegistersMirrorTheStore. -/
def Obligations.RegistersAndBuffersReadTheirOwn : Prop :=
  ∀ s : State, Params.sizesLegal s.params →
    let c := s.arch.csr
    let m := s.arch.mem
    (s.peek 0x00000001 = c.cmd ∧ s.peek 0x00000003 = c.errInfo ∧ s.peek 0x00000004 = c.result ∧
      (s.peek 0x00000008).toNat = c.lenSecret.toNat ∧ (s.peek 0x00000009).toNat = c.lenResult.toNat ∧
      (s.peek 0x0000000A).toNat = c.lenPass.toNat ∧ (s.peek 0x0000000B).toNat = c.lenSym.toNat ∧
      (s.peek 0x0000000C).toNat = c.lenText.toNat ∧ (s.peek 0x0000000D).toNat = c.fragCount.toNat ∧
      (s.peek 0x0000000E).toNat = c.lenFrag.toNat ∧ (s.peek 0x0000000F).toNat = c.groupCount.toNat ∧
      (s.peek 0x00000010).toNat = c.mnemCount.toNat ∧ (s.peek 0x00000011).toNat = c.threshold.toNat ∧
      (s.peek 0x00000012).toNat = c.shareCount.toNat ∧ (s.peek 0x00000013).toNat = c.ident.toNat ∧
      (s.peek 0x00000014).toNat = c.iterExp.toNat ∧ (s.peek 0x00000015).toNat = c.groupThreshold.toNat ∧
      (s.peek 0x00000018).toNat = c.shId.toNat ∧ (s.peek 0x00000019).toNat = c.shExp.toNat ∧
      (s.peek 0x0000001A).toNat = c.shGi.toNat ∧ (s.peek 0x0000001B).toNat = c.shGt.toNat ∧
      (s.peek 0x0000001C).toNat = c.shGc.toNat ∧ (s.peek 0x0000001D).toNat = c.shMi.toNat ∧
      (s.peek 0x0000001E).toNat = c.shMt.toNat) ∧
    (∀ i, i < s.params.lMax →
      (s.peek (elementAddress 0x01 i)).toNat = (Cells.read m.secret i).toNat ∧
      (s.peek (elementAddress 0x02 i)).toNat = (Cells.read m.result i).toNat) ∧
    (∀ i, i < s.params.pMax → (s.peek (elementAddress 0x03 i)).toNat = (Cells.read m.pass i).toNat) ∧
    (∀ i, i < 64 → (s.peek (elementAddress 0x04 i)).toNat = (Cells.read m.sym i).toNat) ∧
    (∀ i, i < s.params.tMax → (s.peek (elementAddress 0x05 i)).toNat = (Cells.read m.text i).toNat) ∧
    (∀ j, j < 16 →
      (s.peek (elementAddress 0x06 j)).toNat = (Cells.read m.fragX j).toNat ∧
      ∀ k, k < s.params.lMax →
        (s.peek (elementAddress 0x07 (j * 64 + k))).toNat = (Cells.read m.fragY (j * 64 + k)).toNat) ∧
    (∀ i, i < 32 → (s.peek (elementAddress 0x08 i)).toNat = (Cells.read m.groups i).toNat) ∧
    ∀ n, n < 256 →
      (s.peek (elementAddress 0x0A n)).toNat = (Cells.read m.mnemLen n).toNat ∧
      ∀ b, b < s.params.tMax →
        (s.peek (elementAddress 0x09 (n * 4096 + b))).toNat = (Cells.read m.mnem (n * 4096 + b)).toNat

/-- R36 to R38, R40: what ID, CAPS, CAPS2 and STATUS read. -/
def Obligations.FixedRegistersAndStatus : Prop :=
  ∀ s : State,
    s.peek 0x00000000 = 0x53484D52 ∧
    (s.params.lMax < 256 → s.params.minSecret < 256 → s.params.tMax < 65536 →
      (s.peek 0x00000005).toNat = s.params.lMax + 2 ^ 8 * s.params.minSecret + 2 ^ 16 * s.params.tMax) ∧
    (s.params.pMax < 65536 → (s.peek 0x00000006).toNat = s.params.pMax) ∧
    (s.peek 0x00000002).toNat =
      statusNumber (s.pending.isSome || !s.arch.csr.ready) s.arch.csr.done (s.arch.csr.errCode != 0)
        s.arch.csr.ready s.arch.csr.overrun s.arch.csr.errCode.toNat s.arch.ses.state.code.toNat

/-- R87, R400, R401: reset abandons whatever runs and STATUS reads 1; when the reset sequence ends STATUS reads 8, the tables
are those of R151, nothing is pending, the session is EMPTY, and every register and element but the constants reads 0. That
the sequence ends at the unit's next turn is the model's choice (assumption log 4). -/
def Obligations.ResetSequence : Prop :=
  ∀ (s : State) (rest : List BusEvent), s.bus = .reset :: .unit :: rest →
    ∃ t u, step s = .next t ∧ t.status = 0x00000001 ∧ t.pending = none ∧ t.arch.ses = ⟨.empty, none, []⟩ ∧
      step t = .next u ∧ u.status = 0x00000008 ∧ u.pending = none ∧ u.arch.tables = standardTables ∧
      u.arch.ses = ⟨.empty, none, []⟩ ∧
      ∀ addr, addr ≠ 0x00000000 → addr ≠ 0x00000002 → addr ≠ 0x00000005 → addr ≠ 0x00000006 →
        t.peek addr = 0 ∧ u.peek addr = 0
end

