-- ==== Sys2Proof/Laws/State.lean ====
section
/-! SUPPORT. What each named update leaves in every component of the state: one lemma per component per update. -/

namespace Sys2Proof.Machine

/-! ### putResult -/

@[simp] theorem Arch.putResult_csr (a : Arch) (v : Word) : (a.putResult v).csr = { a.csr with result := v } := rfl
@[simp] theorem Arch.putResult_mem (a : Arch) (v : Word) : (a.putResult v).mem = a.mem := rfl
@[simp] theorem Arch.putResult_tables (a : Arch) (v : Word) : (a.putResult v).tables = a.tables := rfl
@[simp] theorem Arch.putResult_ses (a : Arch) (v : Word) : (a.putResult v).ses = a.ses := rfl

/-! ### putResultBytes -/

@[simp] theorem Arch.putResultBytes_csr (a : Arch) (bs : ByteString) :
    (a.putResultBytes bs).csr = { a.csr with lenResult := BitVec.ofNat 7 bs.length } := rfl
@[simp] theorem Arch.putResultBytes_mem (a : Arch) (bs : ByteString) :
    (a.putResultBytes bs).mem = { a.mem with result := Cells.writeList a.mem.result 0 bs } := rfl
@[simp] theorem Arch.putResultBytes_tables (a : Arch) (bs : ByteString) :
    (a.putResultBytes bs).tables = a.tables := rfl
@[simp] theorem Arch.putResultBytes_ses (a : Arch) (bs : ByteString) : (a.putResultBytes bs).ses = a.ses := rfl

/-! ### putSymbols -/

@[simp] theorem Arch.putSymbols_csr (a : Arch) (base : Nat) (s : List Sym) :
    (a.putSymbols base s).csr = { a.csr with lenSym := BitVec.ofNat 7 (base + s.length) } := rfl
@[simp] theorem Arch.putSymbols_mem (a : Arch) (base : Nat) (s : List Sym) :
    (a.putSymbols base s).mem = { a.mem with sym := Cells.writeList a.mem.sym base s } := rfl
@[simp] theorem Arch.putSymbols_tables (a : Arch) (base : Nat) (s : List Sym) :
    (a.putSymbols base s).tables = a.tables := rfl
@[simp] theorem Arch.putSymbols_ses (a : Arch) (base : Nat) (s : List Sym) : (a.putSymbols base s).ses = a.ses := rfl

/-! ### putText -/

@[simp] theorem Arch.putText_csr (a : Arch) (t : ByteString) :
    (a.putText t).csr = { a.csr with lenText := BitVec.ofNat 13 t.length } := rfl
@[simp] theorem Arch.putText_mem (a : Arch) (t : ByteString) :
    (a.putText t).mem = { a.mem with text := Cells.writeList a.mem.text 0 t } := rfl
@[simp] theorem Arch.putText_tables (a : Arch) (t : ByteString) : (a.putText t).tables = a.tables := rfl
@[simp] theorem Arch.putText_ses (a : Arch) (t : ByteString) : (a.putText t).ses = a.ses := rfl

/-! ### putShareFields -/

@[simp] theorem Arch.putShareFields_csr (a : Arch) (sh : Share) :
    (a.putShareFields sh).csr = { a.csr with
      shId := sh.identifier, shExp := sh.iterationExponent, shGi := sh.groupIndex, shGt := sh.groupThreshold,
      shGc := sh.groupCount, shMi := sh.memberIndex, shMt := sh.memberThreshold } := rfl
@[simp] theorem Arch.putShareFields_mem (a : Arch) (sh : Share) : (a.putShareFields sh).mem = a.mem := rfl
@[simp] theorem Arch.putShareFields_tables (a : Arch) (sh : Share) : (a.putShareFields sh).tables = a.tables := rfl
@[simp] theorem Arch.putShareFields_ses (a : Arch) (sh : Share) : (a.putShareFields sh).ses = a.ses := rfl

/-! ### putSession -/

@[simp] theorem Arch.putSession_csr (a : Arch) (x : Session) : (a.putSession x).csr = a.csr := rfl
@[simp] theorem Arch.putSession_mem (a : Arch) (x : Session) : (a.putSession x).mem = a.mem := rfl
@[simp] theorem Arch.putSession_tables (a : Arch) (x : Session) : (a.putSession x).tables = a.tables := rfl
@[simp] theorem Arch.putSession_ses (a : Arch) (x : Session) : (a.putSession x).ses = x := rfl

/-! ### putFragments -/

@[simp] theorem Arch.putFragments_csr (a : Arch) (F : List Fragment) (L : Nat) :
    (a.putFragments F L).csr = { a.csr with fragCount := BitVec.ofNat 5 F.length, lenFrag := BitVec.ofNat 7 L } := rfl
@[simp] theorem Arch.putFragments_mem (a : Arch) (F : List Fragment) (L : Nat) :
    (a.putFragments F L).mem = putFragmentsFrom 0 a.mem F := rfl
@[simp] theorem Arch.putFragments_tables (a : Arch) (F : List Fragment) (L : Nat) :
    (a.putFragments F L).tables = a.tables := rfl
@[simp] theorem Arch.putFragments_ses (a : Arch) (F : List Fragment) (L : Nat) :
    (a.putFragments F L).ses = a.ses := rfl

/-! ### putMnemonics -/

@[simp] theorem Arch.putMnemonics_csr (a : Arch) (ts : List ByteString) (id : BitVec 15) :
    (a.putMnemonics ts id).csr = { a.csr with mnemCount := BitVec.ofNat 9 ts.length, ident := id } := rfl
@[simp] theorem Arch.putMnemonics_mem (a : Arch) (ts : List ByteString) (id : BitVec 15) :
    (a.putMnemonics ts id).mem = putMnemonicsFrom 0 a.mem ts := rfl
@[simp] theorem Arch.putMnemonics_tables (a : Arch) (ts : List ByteString) (id : BitVec 15) :
    (a.putMnemonics ts id).tables = a.tables := rfl
@[simp] theorem Arch.putMnemonics_ses (a : Arch) (ts : List ByteString) (id : BitVec 15) :
    (a.putMnemonics ts id).ses = a.ses := rfl

/-! ### raise -/

@[simp] theorem State.raise_arch (s : State) (e : Raised) :
    (s.raise e).arch = { s.arch with csr := { s.arch.csr with done := true, errCode := e.error.code, errInfo := e.info } } := rfl
@[simp] theorem State.raise_pending (s : State) (e : Raised) : (s.raise e).pending = none := rfl
@[simp] theorem State.raise_params (s : State) (e : Raised) : (s.raise e).params = s.params := rfl
@[simp] theorem State.raise_bus (s : State) (e : Raised) : (s.raise e).bus = s.bus := rfl
@[simp] theorem State.raise_reads (s : State) (e : Raised) : (s.raise e).reads = s.reads := rfl
@[simp] theorem State.raise_draws (s : State) (e : Raised) : (s.raise e).draws = s.draws := rfl
@[simp] theorem State.raise_busyReads (s : State) (e : Raised) : (s.raise e).busyReads = s.busyReads := rfl

/-! ### commit -/

@[simp] theorem State.commit_arch (s : State) (a : Arch) :
    (s.commit a).arch = { a with csr := { a.csr with done := true, errCode := 0, errInfo := 0 } } := rfl
@[simp] theorem State.commit_pending (s : State) (a : Arch) : (s.commit a).pending = none := rfl
@[simp] theorem State.commit_params (s : State) (a : Arch) : (s.commit a).params = s.params := rfl
@[simp] theorem State.commit_bus (s : State) (a : Arch) : (s.commit a).bus = s.bus := rfl
@[simp] theorem State.commit_reads (s : State) (a : Arch) : (s.commit a).reads = s.reads := rfl
@[simp] theorem State.commit_draws (s : State) (a : Arch) : (s.commit a).draws = s.draws := rfl
@[simp] theorem State.commit_busyReads (s : State) (a : Arch) : (s.commit a).busyReads = s.busyReads := rfl

/-! ### succeeded -/

@[simp] theorem State.succeeded_arch (s : State) (c : Csrs) (m : Memory) (x : Session) :
    (s.succeeded c m x).arch = { s.arch with csr := { c with done := true, errCode := 0, errInfo := 0 }, mem := m, ses := x } := rfl
@[simp] theorem State.succeeded_pending (s : State) (c : Csrs) (m : Memory) (x : Session) :
    (s.succeeded c m x).pending = none := rfl
@[simp] theorem State.succeeded_params (s : State) (c : Csrs) (m : Memory) (x : Session) :
    (s.succeeded c m x).params = s.params := rfl
@[simp] theorem State.succeeded_bus (s : State) (c : Csrs) (m : Memory) (x : Session) :
    (s.succeeded c m x).bus = s.bus := rfl
@[simp] theorem State.succeeded_reads (s : State) (c : Csrs) (m : Memory) (x : Session) :
    (s.succeeded c m x).reads = s.reads := rfl
@[simp] theorem State.succeeded_draws (s : State) (c : Csrs) (m : Memory) (x : Session) :
    (s.succeeded c m x).draws = s.draws := rfl
@[simp] theorem State.succeeded_busyReads (s : State) (c : Csrs) (m : Memory) (x : Session) :
    (s.succeeded c m x).busyReads = s.busyReads := rfl

/-! ### failed -/

@[simp] theorem State.failed_arch (s : State) (code : BitVec 8) (info : Word) :
    (s.failed code info).arch = { s.arch with csr := { s.arch.csr with done := true, errCode := code, errInfo := info } } := rfl
@[simp] theorem State.failed_pending (s : State) (code : BitVec 8) (info : Word) :
    (s.failed code info).pending = none := rfl
@[simp] theorem State.failed_params (s : State) (code : BitVec 8) (info : Word) :
    (s.failed code info).params = s.params := rfl
@[simp] theorem State.failed_bus (s : State) (code : BitVec 8) (info : Word) : (s.failed code info).bus = s.bus := rfl
@[simp] theorem State.failed_reads (s : State) (code : BitVec 8) (info : Word) :
    (s.failed code info).reads = s.reads := rfl
@[simp] theorem State.failed_draws (s : State) (code : BitVec 8) (info : Word) :
    (s.failed code info).draws = s.draws := rfl
@[simp] theorem State.failed_busyReads (s : State) (code : BitVec 8) (info : Word) :
    (s.failed code info).busyReads = s.busyReads := rfl

/-! ### putOverrun -/

@[simp] theorem State.putOverrun_arch (s : State) (b : Bool) :
    (s.putOverrun b).arch = { s.arch with csr := { s.arch.csr with overrun := b } } := rfl
@[simp] theorem State.putOverrun_pending (s : State) (b : Bool) : (s.putOverrun b).pending = s.pending := rfl
@[simp] theorem State.putOverrun_params (s : State) (b : Bool) : (s.putOverrun b).params = s.params := rfl
@[simp] theorem State.putOverrun_bus (s : State) (b : Bool) : (s.putOverrun b).bus = s.bus := rfl
@[simp] theorem State.putOverrun_reads (s : State) (b : Bool) : (s.putOverrun b).reads = s.reads := rfl
@[simp] theorem State.putOverrun_draws (s : State) (b : Bool) : (s.putOverrun b).draws = s.draws := rfl
@[simp] theorem State.putOverrun_busyReads (s : State) (b : Bool) : (s.putOverrun b).busyReads = s.busyReads := rfl

/-! ### accept -/

@[simp] theorem State.accept_arch (s : State) (w : Word) :
    (s.accept w).arch = { s.arch with csr := { s.arch.csr with cmd := w, done := false } } := rfl
@[simp] theorem State.accept_pending (s : State) (w : Word) : (s.accept w).pending = some ⟨w, s.arch⟩ := rfl
@[simp] theorem State.accept_params (s : State) (w : Word) : (s.accept w).params = s.params := rfl
@[simp] theorem State.accept_bus (s : State) (w : Word) : (s.accept w).bus = s.bus := rfl
@[simp] theorem State.accept_reads (s : State) (w : Word) : (s.accept w).reads = s.reads := rfl
@[simp] theorem State.accept_draws (s : State) (w : Word) : (s.accept w).draws = s.draws := rfl
@[simp] theorem State.accept_busyReads (s : State) (w : Word) : (s.accept w).busyReads = s.busyReads := rfl

/-! ### onReset -/

@[simp] theorem State.onReset_arch (s : State) : s.onReset.arch = Arch.underReset := rfl
@[simp] theorem State.onReset_pending (s : State) : s.onReset.pending = none := rfl
@[simp] theorem State.onReset_params (s : State) : s.onReset.params = s.params := rfl
@[simp] theorem State.onReset_bus (s : State) : s.onReset.bus = s.bus := rfl
@[simp] theorem State.onReset_reads (s : State) : s.onReset.reads = s.reads := rfl
@[simp] theorem State.onReset_draws (s : State) : s.onReset.draws = s.draws := rfl
@[simp] theorem State.onReset_busyReads (s : State) : s.onReset.busyReads = s.busyReads := rfl

/-! ### finishReset -/

@[simp] theorem State.finishReset_arch (s : State) :
    s.finishReset.arch = { s.arch with
      tables := buildTables
      csr := { s.arch.csr with ready := true, done := false, overrun := false, errCode := 0 } } := rfl
@[simp] theorem State.finishReset_pending (s : State) : s.finishReset.pending = s.pending := rfl
@[simp] theorem State.finishReset_params (s : State) : s.finishReset.params = s.params := rfl
@[simp] theorem State.finishReset_bus (s : State) : s.finishReset.bus = s.bus := rfl
@[simp] theorem State.finishReset_reads (s : State) : s.finishReset.reads = s.reads := rfl
@[simp] theorem State.finishReset_draws (s : State) : s.finishReset.draws = s.draws := rfl
@[simp] theorem State.finishReset_busyReads (s : State) : s.finishReset.busyReads = s.busyReads := rfl

/-! ### The statement's names for the two completions -/

theorem State.accepted_eq_accept (s : State) (w : Word) : s.accepted w = s.accept w := rfl

theorem State.raise_eq_failed (s : State) (e : Raised) : s.raise e = s.failed e.error.code e.info := rfl

/-- A commit of outputs that keep the tables is a success with those outputs. -/
theorem State.commit_eq_succeeded (s : State) (a : Arch) (h : a.tables = s.arch.tables) :
    s.commit a = s.succeeded a.csr a.mem a.ses := by
  cases a; simp_all [State.commit, State.succeeded]

end Sys2Proof.Machine
end

