-- ==== Sys2Proof/Laws/Ops.lean ====
section
/-! SUPPORT. What each shared operation can do, said once: checks and raises, completions, searches and big-endian
conversions. -/

namespace Sys2Proof.Machine

/-! ### Checks -/

/-- A check that fails ends the computation with its error; one that holds goes on. -/
@[simp] theorem raiseIf_bind {α : Type} (c : Prop) [Decidable c] (e : CmdError) (n : Nat) (f : Unit → Except Raised α) :
    (raiseIf c e n >>= f) = if c then .error ⟨e, BitVec.ofNat 32 n⟩ else f () := by
  unfold raiseIf; split <;> rfl

theorem raiseIf_eq_ok_iff (c : Prop) [Decidable c] (e : CmdError) (n : Nat) (u : Unit) :
    raiseIf c e n = .ok u ↔ ¬ c := by
  unfold raiseIf; split <;> simp_all

@[simp] theorem raiseAt_none_bind {α : Type} (e : CmdError) (g : Nat → Nat) (f : Unit → Except Raised α) :
    (raiseAt none e g >>= f) = f () := rfl

@[simp] theorem raiseAt_some_bind {α : Type} (m : Nat) (e : CmdError) (g : Nat → Nat) (f : Unit → Except Raised α) :
    (raiseAt (some m) e g >>= f) = .error ⟨e, BitVec.ofNat 32 (g m)⟩ := rfl

@[simp] theorem except_ok_bind {α β : Type} (a : α) (f : α → Except Raised β) : (Except.ok a >>= f) = f a := rfl

@[simp] theorem except_error_bind {α β : Type} (e : Raised) (f : α → Except Raised β) :
    (Except.error e >>= f) = .error e := rfl

/-- A computation that answers has answered at every step. -/
theorem bind_eq_ok {α β : Type} {x : Except Raised α} {f : α → Except Raised β} {b : β} (h : (x >>= f) = .ok b) :
    ∃ a, x = .ok a ∧ f a = .ok b := by
  cases x with
  | error e => exact absurd h (by simp)
  | ok a => exact ⟨a, rfl, h⟩

/-- A computation that raises has raised at its first step, or answered there and raised later. -/
theorem bind_eq_error {α β : Type} {x : Except Raised α} {f : α → Except Raised β} {e : Raised}
    (h : (x >>= f) = .error e) : x = .error e ∨ ∃ a, x = .ok a ∧ f a = .error e := by
  cases x with
  | error e' => exact .inl (by simpa using h)
  | ok a => exact .inr ⟨a, rfl, h⟩

@[simp] theorem atMnemonic_ok {α : Type} (m : Nat) (a : α) : atMnemonic m (.ok a) = .ok a := rfl

@[simp] theorem atMnemonic_error {α : Type} (m : Nat) (e : Raised) :
    atMnemonic (α := α) m (.error e) = .error ⟨e.error, (BitVec.ofNat 32 m <<< 16) ||| e.info⟩ := rfl

/-! ### Completions -/

@[simp] theorem State.finish_ok (s : State) (a : Arch) : s.finish (.ok a) = .next (s.commit a) := rfl

@[simp] theorem State.finish_error (s : State) (e : Raised) :
    s.finish (.error e) = .next (s.failed e.error.code e.info) := rfl

/-- A command that computed outputs keeping the tables completes with success. -/
theorem State.finish_eq_succeeded {s : State} {r : Except Raised Arch} {a : Arch} (h : r = .ok a)
    (ht : a.tables = s.arch.tables) : s.finish r = .next (s.succeeded a.csr a.mem a.ses) := by
  rw [h, State.finish_ok, State.commit_eq_succeeded s a ht]

/-- A completion always answers a next state: the commit of the outputs or the report of the error. -/
theorem State.finish_cases {s t : State} {r : Except Raised Arch} (h : s.finish r = .next t) :
    (∃ a, r = .ok a ∧ t = s.commit a) ∨ ∃ e, r = .error e ∧ t = s.failed e.error.code e.info := by
  cases r with
  | ok a => exact .inl ⟨a, rfl, by simpa using h.symm⟩
  | error e => exact .inr ⟨e, rfl, by simpa using h.symm⟩

theorem State.finish_answers (s : State) (r : Except Raised Arch) : ∃ t, s.finish r = .next t := by
  cases r <;> exact ⟨_, rfl⟩

theorem State.finishDrawn_eq (s : State) (pos : Nat) (r : Except Raised Arch) :
    s.finishDrawn pos r = State.finish { s with draws := pos } r := rfl

/-- No error has the code of success (R361). -/
theorem CmdError.code_ne_zero (e : CmdError) : e.code ≠ 0 := by cases e <;> decide

/-! ### The first conflict -/

theorem firstConflict_eq_some {α : Type} {bad : α → α → Bool} {l : List α} {seen : List α} {start m : Nat}
    (h : firstConflict bad seen start l = some m) :
    start ≤ m ∧ m < start + l.length ∧
      (∃ a, l[m - start]? = some a ∧ ((seen ++ l.take (m - start)).any fun b => bad b a) = true) ∧
      ∀ i a, i < m - start → l[i]? = some a → ((seen ++ l.take i).any fun b => bad b a) = false := by
  induction l generalizing seen start with
  | nil => simp [firstConflict] at h
  | cons x rest ih =>
    simp only [firstConflict] at h
    split at h
    · rename_i hx
      obtain rfl : start = m := by simpa using h
      refine ⟨le_refl _, by simp, ⟨x, by simp, by simpa using hx⟩, fun i a hi => by omega⟩
    · rename_i hx
      obtain ⟨h1, h2, ⟨a, ha, hb⟩, h3⟩ := ih h
      have hm : m - start = (m - (start + 1)) + 1 := by omega
      refine ⟨by omega, by simp; omega, ⟨a, ?_, ?_⟩, fun i b hi hb' => ?_⟩
      · rw [hm]; simpa using ha
      · rw [hm]; simpa using hb
      · cases i with
        | zero =>
          obtain rfl : x = b := by simpa using hb'
          simpa using hx
        | succ i => simpa using h3 i b (by omega) (by simpa using hb')

theorem firstConflict_eq_none {α : Type} {bad : α → α → Bool} {l : List α} {seen : List α} {start : Nat}
    (h : firstConflict bad seen start l = none) :
    ∀ i a, l[i]? = some a → ((seen ++ l.take i).any fun b => bad b a) = false := by
  induction l generalizing seen start with
  | nil => intro i a ha; simp at ha
  | cons x rest ih =>
    simp only [firstConflict] at h
    split at h
    · cases h
    · rename_i hx
      intro i a ha
      cases i with
      | zero =>
        obtain rfl : x = a := by simpa using ha
        simpa using hx
      | succ i => simpa using ih h i a (by simpa using ha)

/-! ### Big-endian conversions -/

theorem bigEndian_append_singleton {w : Nat} (s : List (BitVec w)) (d : BitVec w) :
    bigEndian (s ++ [d]) = bigEndian s * 2 ^ w + d.toNat := by
  simp [bigEndian, List.foldl_append]

theorem bigEndian_foldl {w : Nat} (s : List (BitVec w)) (v : Nat) :
    s.foldl (fun v d => v * 2 ^ w + d.toNat) v = v * 2 ^ (w * s.length) + bigEndian s := by
  induction s using List.reverseRecOn with
  | nil => simp [bigEndian]
  | append_singleton s d ih =>
    rw [List.foldl_append, bigEndian_append_singleton]
    simp only [List.foldl_cons, List.foldl_nil, ih, List.length_append, List.length_singleton]
    rw [Nat.mul_add, Nat.pow_add, Nat.mul_one]; ring

theorem bigEndian_append {w : Nat} (s r : List (BitVec w)) :
    bigEndian (s ++ r) = bigEndian s * 2 ^ (w * r.length) + bigEndian r := by
  rw [bigEndian, List.foldl_append, bigEndian_foldl]; rfl

theorem bigEndian_lt {w : Nat} (s : List (BitVec w)) : bigEndian s < 2 ^ (w * s.length) := by
  induction s using List.reverseRecOn with
  | nil => simp [bigEndian]
  | append_singleton s d ih =>
    rw [bigEndian_append_singleton, List.length_append, List.length_singleton, Nat.mul_add, Nat.pow_add, Nat.mul_one]
    have := d.isLt
    nlinarith

@[simp] theorem toBigEndian_length (w v n : Nat) : (toBigEndian w v n).length = n := by
  induction n generalizing v with
  | zero => rfl
  | succ n ih => simp [toBigEndian, ih]

/-- The digits of a number give it back, but for what does not fit. -/
theorem bigEndian_toBigEndian (w v n : Nat) : bigEndian (toBigEndian w v n) = v % 2 ^ (w * n) := by
  induction n generalizing v with
  | zero => simp [toBigEndian, bigEndian, Nat.mod_one]
  | succ n ih =>
    rw [toBigEndian, bigEndian_append_singleton, ih, BitVec.toNat_ofNat, Nat.mul_succ, Nat.add_comm (w * n), Nat.pow_add,
      Nat.mod_mul]
    ring

/-- A digit string is the digits of its value. -/
theorem toBigEndian_bigEndian {w : Nat} (s : List (BitVec w)) : toBigEndian w (bigEndian s) s.length = s := by
  induction s using List.reverseRecOn with
  | nil => rfl
  | append_singleton s d ih =>
    rw [List.length_append, List.length_singleton, toBigEndian, bigEndian_append_singleton]
    have hd := d.isLt
    have h1 : (bigEndian s * 2 ^ w + d.toNat) / 2 ^ w = bigEndian s := by
      rw [Nat.mul_comm, Nat.mul_add_div (Nat.two_pow_pos w), Nat.div_eq_of_lt hd, Nat.add_zero]
    have h2 : BitVec.ofNat w (bigEndian s * 2 ^ w + d.toNat) = d := by
      apply BitVec.eq_of_toNat_eq
      rw [BitVec.toNat_ofNat, Nat.mul_comm, Nat.mul_add_mod, Nat.mod_eq_of_lt hd]
    rw [h1, h2, ih]

/-- Two digit strings of one length and one value are equal. -/
theorem bigEndian_injective {w : Nat} {s r : List (BitVec w)} (hl : s.length = r.length)
    (h : bigEndian s = bigEndian r) : s = r := by
  rw [← toBigEndian_bigEndian s, ← toBigEndian_bigEndian r, hl, h]

/-! ### Byte strings -/

@[simp] theorem xorBytes_length (a b : ByteString) : (xorBytes a b).length = min a.length b.length := by
  simp [xorBytes]

/-- Exclusive or twice with one string cancels. -/
theorem xorBytes_cancel {a b : ByteString} (h : a.length = b.length) : xorBytes (xorBytes a b) b = a := by
  induction a generalizing b with
  | nil => simp [xorBytes]
  | cons x a ih =>
    cases b with
    | nil => simp at h
    | cons y b =>
      have := ih (b := b) (by simpa using h)
      simp only [xorBytes, List.zipWith_cons_cons, BitVec.xor_assoc, BitVec.xor_self, BitVec.xor_zero] at *
      rw [this]

end Sys2Proof.Machine
end

