-- ==== Sys2Proof/Laws/Functions.lean ====
section
/-! SUPPORT. What each function the commands share can answer: passphrase checks, lookups, interpolation, mnemonics,
decoding and the choice of fragments, one lemma per function. -/

namespace Sys2Proof

/-! ### The shape of a vocabulary (R14) -/

theorem legalVocab_iff (v : List ByteString) :
    legalVocab v = true ↔ v.length = 1024 ∧ (∀ w ∈ v, w ≠ [] ∧ (0x20 : Byte) ∉ w) ∧ v.Nodup := by
  simp [legalVocab, Bool.and_eq_true, and_assoc]

@[simp] theorem Vocab.length_words (v : Vocab) : v.words.length = 1024 := ((legalVocab_iff _).1 v.legal).1

theorem Vocab.word_shape (v : Vocab) : ∀ w ∈ v.words, w ≠ [] ∧ (0x20 : Byte) ∉ w := ((legalVocab_iff _).1 v.legal).2.1

theorem Vocab.nodup_words (v : Vocab) : v.words.Nodup := ((legalVocab_iff _).1 v.legal).2.2

end Sys2Proof

namespace Sys2Proof.Machine

/-! ### The passphrase (R17, R246) -/

theorem accepts_iff (c : PassCharset) (b : Byte) : PassCharset.accepts c b = true ↔ PassCharset.Allows c b := by
  cases c <;> simp [PassCharset.accepts, PassCharset.Allows]

theorem checkPass_of_accepted {p : Params} {pass : ByteString} (h : PassAccepted p pass) :
    checkPass p pass = .ok () := by
  have : (pass.findIdx? fun b => !PassCharset.accepts p.charset b) = none := by
    rw [List.findIdx?_eq_none_iff]
    intro b hb
    simp [(accepts_iff _ _).2 (h b hb)]
  simp [checkPass, this, raiseAt]

theorem checkPass_of_refused {p : Params} {pass : ByteString} {j : Nat} (h : PassRefusedAt p pass j) :
    checkPass p pass = .error ⟨.invalidPassphraseEncoding, BitVec.ofNat 32 j⟩ := by
  obtain ⟨⟨hj, hb⟩, hi⟩ := h
  have : (pass.findIdx? fun b => !PassCharset.accepts p.charset b) = some j := by
    rw [List.findIdx?_eq_some_iff_getElem]
    refine ⟨hj, ?_, fun i hij => ?_⟩
    · rw [List.getD_eq_getElem _ _ hj, ← accepts_iff] at hb
      simp [hb]
    · have hlt : i < pass.length := by omega
      have := hi i hij
      simpa [hlt, ← accepts_iff, List.getD_eq_getElem _ _ hlt] using this
  simp [checkPass, this, raiseAt]

/-- A passphrase is accepted whole or refused at a first byte. -/
theorem checkPass_cases (p : Params) (pass : ByteString) :
    PassAccepted p pass ∨ ∃ j, PassRefusedAt p pass j := by
  by_cases h : PassAccepted p pass
  · exact .inl h
  · right
    have : ∃ j, j < pass.length ∧ ¬ PassCharset.Allows p.charset (pass.getD j 0) := by
      simp only [PassAccepted, not_forall] at h
      obtain ⟨b, hb, hn⟩ := h
      obtain ⟨j, hj, rfl⟩ := List.getElem_of_mem hb
      exact ⟨j, hj, by rwa [List.getD_eq_getElem _ _ hj]⟩
    classical
    exact ⟨Nat.find this, Nat.find_spec this, fun i hi => Nat.find_min this hi⟩

/-! ### The vocabulary (R14) -/

theorem wordOf_eq_getElem (p : Params) (s : Sym) :
    wordOf p s = p.vocab.words[s.toNat]'(by rw [Vocab.length_words]; exact s.isLt) :=
  List.getD_eq_getElem _ _ _

/-- Every symbol has a word of the vocabulary. -/
theorem wordOf_mem (p : Params) (s : Sym) : wordOf p s ∈ p.vocab.words := by
  rw [wordOf_eq_getElem]; exact List.getElem_mem _

/-- The word of a symbol encodes that symbol. -/
@[simp] theorem lookupWord_wordOf (p : Params) (s : Sym) : lookupWord p (wordOf p s) = some s := by
  have hs : s.toNat < p.vocab.words.length := by rw [Vocab.length_words]; exact s.isLt
  have : p.vocab.words.findIdx? (· == wordOf p s) = some s.toNat := by
    rw [List.findIdx?_eq_some_iff_getElem]
    refine ⟨hs, by simp [wordOf_eq_getElem], fun j hj h => ?_⟩
    rw [wordOf_eq_getElem, beq_iff_eq] at h
    exact absurd ((p.vocab.nodup_words.getElem_inj_iff).1 h) (by omega)
  rw [lookupWord, this]; simp

/-! ### Lookups (R191, R195) -/

theorem lookupAll_length {p : Params} {j : Nat} {toks : List ByteString} {sy : List Sym}
    (h : lookupAll p j toks = .ok sy) : sy.length = toks.length := by
  induction toks generalizing j sy with
  | nil => simp_all [lookupAll]
  | cons tok rest ih =>
    rw [lookupAll] at h
    split at h
    · cases h
    · obtain ⟨vs, hv, h'⟩ := bind_eq_ok h
      cases h'
      simp [ih hv]

/-- A lookup that raises reports UnknownWord at a token that is not in the vocabulary. -/
theorem lookupAll_error {p : Params} {j : Nat} {toks : List ByteString} {e : Raised}
    (h : lookupAll p j toks = .error e) :
    ∃ i, i < toks.length ∧ e = ⟨.unknownWord, BitVec.ofNat 32 (j + i)⟩ := by
  induction toks generalizing j with
  | nil => cases h
  | cons tok rest ih =>
    rw [lookupAll] at h
    split at h
    · cases h
      exact ⟨0, by simp, by simp⟩
    · rcases bind_eq_error h with h | ⟨_, _, h⟩
      · obtain ⟨i, hi, he⟩ := ih h
        exact ⟨i + 1, by simpa using hi, by rw [he, Nat.add_right_comm, Nat.add_assoc]⟩
      · cases h

/-! ### Interpolation and splits (R211, R214) -/

@[simp] theorem interp_length (t : FieldTables) (F : List Fragment) (x : Byte) :
    (interp t F x).length = (F.map (·.y.length)).headD 0 := by
  simp [interp]

@[simp] theorem rngDraw_length (P : Ports) (pos n : Nat) : (rngDraw P pos n).length = n := by simp [rngDraw]

theorem rngDraw_ports (pos n : Nat) : rngDraw Config.ports pos n = drawn pos n := rfl

@[simp] theorem randomFragments_length (P : Ports) (pos t L : Nat) : (randomFragments P pos t L).length = t - 2 := by
  simp [randomFragments]

/-- A split has `n` fragments. -/
theorem split_length (P : Ports) (T : FieldTables) (pos t n : Nat) (s : ByteString) (h : t = 1 ∨ t - 2 ≤ n) :
    (split P T pos t n s).length = n := by
  unfold split
  split
  · simp
  · rcases h with h | h
    · contradiction
    · simp; omega

/-- A recombination of a threshold-1 set is its one fragment's value. -/
theorem recombine_one (P : Ports) (T : FieldTables) (f : Fragment) : recombine P T 1 [f] = .ok f.y := by
  simp [recombine, firstDuplicateX, xsOf, firstConflict, pure, Except.pure]

/-! ### Mnemonics (R283, R285) -/

/-- The texts, where each fits, are those of the shares in order. -/
theorem mnemonicTexts_ok {p : Params} {m : Nat} {shs : List Share} {ts : List ByteString}
    (h : mnemonicTexts p m shs = .ok ts) :
    ts = shs.map (fun sh => textOf p (encodeShare p sh)) ∧ ∀ t ∈ ts, t.length ≤ p.tMax := by
  induction shs generalizing m ts with
  | nil => simp_all [mnemonicTexts]
  | cons sh rest ih =>
    rw [mnemonicTexts, raiseIf_bind] at h
    split at h
    · cases h
    · rename_i hle
      obtain ⟨us, hu, h'⟩ := bind_eq_ok h
      cases h'
      obtain ⟨h1, h2⟩ := ih hu
      subst h1
      exact ⟨rfl, List.forall_mem_cons.2 ⟨Nat.not_lt.1 hle, h2⟩⟩

/-- A decoded list has one share for each text. -/
theorem decodeAll_ok {p : Params} {m : Nat} {ts : List ByteString} {shs : List Share}
    (h : decodeAll p m ts = .ok shs) :
    List.Forall₂ (fun t sh => ∃ sy, decodeShare p t = .ok (sh, sy)) ts shs := by
  induction ts generalizing m shs with
  | nil =>
    obtain rfl : shs = [] := by simpa [decodeAll] using h.symm
    exact .nil
  | cons t rest ih =>
    rw [decodeAll] at h
    obtain ⟨r, hr, h⟩ := bind_eq_ok h
    obtain ⟨us, hu, h⟩ := bind_eq_ok h
    cases h
    refine .cons ⟨r.2, ?_⟩ (ih hu)
    cases hd : decodeShare p t with
    | ok r' => rw [hd] at hr; cases hr; rfl
    | error e => rw [hd] at hr; cases hr

/-- The texts decoded in order give the list of their shares. -/
theorem decodeAll_of_decodes {p : Params} {ts : List ByteString} {shs : List Share}
    (h : List.Forall₂ (fun t sh => ∃ sy, decodeShare p t = .ok (sh, sy)) ts shs) (m : Nat) :
    decodeAll p m ts = .ok shs := by
  induction h generalizing m with
  | nil => rfl
  | cons h _ ih =>
    obtain ⟨sy, hd⟩ := h
    simp [decodeAll, hd, ih, pure, Except.pure]

/-! ### Addresses (R91) -/

theorem spaceId_eq (addr : Word) : spaceId addr = addr.toNat / 16777216 := by
  have h := addr.isLt
  rw [spaceId, BitVec.extractLsb'_toNat, Nat.shiftRight_eq_div_pow, Nat.mod_eq_of_lt (by omega)]

theorem elementIndex_eq (addr : Word) : elementIndex addr = addr.toNat % 16777216 := by
  rw [elementIndex, BitVec.extractLsb'_toNat, Nat.shiftRight_zero]

theorem elementAddress_toNat {sp i : Nat} (hs : sp < 256) (hi : i < 16777216) :
    (elementAddress sp i).toNat = sp * 16777216 + i := by
  rw [elementAddress, BitVec.toNat_ofNat, Nat.mod_eq_of_lt (by omega)]; norm_num

/-- The space of an element's address is the element's. -/
theorem spaceId_elementAddress {sp i : Nat} (hs : sp < 256) (hi : i < 16777216) :
    spaceId (elementAddress sp i) = sp := by
  rw [spaceId_eq, elementAddress_toNat hs hi]; omega

/-- The index of an element's address is the element's. -/
theorem elementIndex_elementAddress {sp i : Nat} (hs : sp < 256) (hi : i < 16777216) :
    elementIndex (elementAddress sp i) = i := by
  rw [elementIndex_eq, elementAddress_toNat hs hi]; omega

end Sys2Proof.Machine
end

