-- ==== Sys2Proof/Laws/Memory.lean ====
section
/-! SUPPORT. Laws of the buffers: a read after a write, what a write leaves alone, and that every memory operation keeps
the canonical form. -/

namespace Sys2Proof.Machine

variable {w : Nat}

/-! ### Reads after writes, on any list -/

theorem Cells.read_erase (c : Cells w) (i k : Nat) :
    Cells.read (Cells.erase c i) k = if k = i then 0 else Cells.read c k := by
  induction c with
  | nil => simp [Cells.erase, Cells.read]
  | cons e rest ih =>
    obtain ⟨j, u⟩ := e
    by_cases hij : i = j
    · subst hij
      simp only [Cells.erase, if_true, ih, Cells.read]
      split <;> rfl
    · simp only [Cells.erase, hij, if_false, Cells.read, ih]
      by_cases hkj : k = j
      · subst hkj; simp [Ne.symm hij]
      · simp [hkj]

theorem Cells.read_insert (c : Cells w) (i k : Nat) (v : BitVec w) :
    Cells.read (Cells.insert c i v) k = if k = i then v else Cells.read c k := by
  induction c with
  | nil => simp [Cells.insert, Cells.read]
  | cons e rest ih =>
    obtain ⟨j, u⟩ := e
    simp only [Cells.insert]
    split
    · simp [Cells.read]
    · split
      · rename_i hij; subst hij
        simp only [Cells.read]; split <;> rfl
      · rename_i hij
        simp only [Cells.read, ih]
        by_cases hkj : k = j
        · subst hkj; simp [Ne.symm hij]
        · simp [hkj]

/-- A read after a write: the value written at its index, every other element as before. -/
theorem Cells.read_write (c : Cells w) (i k : Nat) (v : BitVec w) :
    Cells.read (Cells.write c i v) k = if k = i then v else Cells.read c k := by
  unfold Cells.write
  split
  · rename_i hv; rw [Cells.read_erase, hv]
  · exact Cells.read_insert c i k v

/-- A read after a block write: the block's element inside it, every other element as before (R105). -/
theorem Cells.read_writeList (c : Cells w) (base : Nat) (vs : List (BitVec w)) (k : Nat) :
    Cells.read (Cells.writeList c base vs) k =
      if base ≤ k ∧ k < base + vs.length then vs.getD (k - base) 0 else Cells.read c k := by
  induction vs generalizing c base with
  | nil =>
    rw [if_neg (by simp)]; rfl
  | cons v vs ih =>
    rw [Cells.writeList, ih, Cells.read_write]
    by_cases h1 : k = base
    · subst h1; simp
    · by_cases h2 : base + 1 ≤ k ∧ k < base + 1 + vs.length
      · have h3 : base ≤ k ∧ k < base + (v :: vs).length := by simp; omega
        obtain ⟨d, hd⟩ : ∃ d, k - base = d + 1 := ⟨k - base - 1, by omega⟩
        have h4 : k - (base + 1) = d := by omega
        rw [if_pos h2, if_pos h3, hd, h4, List.getD_cons_succ]
      · have h3 : ¬(base ≤ k ∧ k < base + (v :: vs).length) := by simp; omega
        rw [if_neg h2, if_neg h3, if_neg h1]

@[simp] theorem Cells.slice_length (c : Cells w) (base n : Nat) : (Cells.slice c base n).length = n := by
  induction n generalizing base with
  | zero => rfl
  | succ n ih => simp [Cells.slice, ih]

theorem Cells.slice_getD (c : Cells w) (base n k : Nat) (hk : k < n) :
    (Cells.slice c base n).getD k 0 = Cells.read c (base + k) := by
  induction n generalizing base k with
  | zero => omega
  | succ n ih =>
    cases k with
    | zero => simp [Cells.slice]
    | succ k => simp only [Cells.slice, List.getD_cons_succ]; rw [ih (base + 1) k (by omega)]; congr 1; omega

/-- A slice depends only on the elements it covers. -/
theorem Cells.slice_congr (c c' : Cells w) (base n : Nat)
    (h : ∀ k, k < n → Cells.read c (base + k) = Cells.read c' (base + k)) :
    Cells.slice c base n = Cells.slice c' base n := by
  induction n generalizing base with
  | zero => rfl
  | succ n ih =>
    have h0 := h 0 (by omega)
    simp only [Cells.slice, Nat.add_zero] at *
    rw [h0, ih (base + 1) (fun k hk => by have := h (k + 1) (by omega); simpa [Nat.add_assoc, Nat.add_comm 1 k] using this)]

/-- A block written and read back. -/
theorem Cells.slice_writeList_same (c : Cells w) (base : Nat) (vs : List (BitVec w)) :
    Cells.slice (Cells.writeList c base vs) base vs.length = vs := by
  apply List.ext_getElem (by simp)
  intro k h1 h2
  have h3 : k < vs.length := h2
  have := Cells.slice_getD (Cells.writeList c base vs) base vs.length k h3
  rw [Cells.read_writeList] at this
  simpa [h3, List.getD_eq_getElem?_getD] using this

/-! ### The canonical form -/

theorem Cells.wf_cons {c : Cells w} {i : Nat} {v : BitVec w} :
    Cells.wf ((i, v) :: c) = true ↔ v ≠ 0 ∧ (∀ e ∈ c.head?, i < e.1) ∧ Cells.wf c = true := by
  cases c with
  | nil => simp [Cells.wf]
  | cons e rest => obtain ⟨j, u⟩ := e; simp [Cells.wf, Bool.and_eq_true, and_assoc]

theorem Cells.wf_iff (c : Cells w) :
    Cells.wf c = true ↔ c.Pairwise (fun a b => a.1 < b.1) ∧ ∀ e ∈ c, e.2 ≠ 0 := by
  induction c with
  | nil => simp [Cells.wf]
  | cons e rest ih =>
    obtain ⟨i, v⟩ := e
    rw [Cells.wf_cons, ih]
    cases rest with
    | nil => simp
    | cons e' rest' =>
      obtain ⟨j, u⟩ := e'
      simp only [List.head?_cons, Option.mem_some_iff, forall_eq', List.pairwise_cons, List.mem_cons, forall_eq_or_imp]
      constructor
      · rintro ⟨hv, hij, ⟨h1, h2⟩, hu, h3⟩
        exact ⟨⟨⟨hij, fun a ha => lt_trans hij (h1 a ha)⟩, h1, h2⟩, hv, hu, h3⟩
      · rintro ⟨⟨⟨hij, _⟩, h1, h2⟩, hv, hu, h3⟩
        exact ⟨hv, hij, ⟨h1, h2⟩, hu, h3⟩

theorem Cells.erase_eq_filter (c : Cells w) (i : Nat) : Cells.erase c i = c.filter fun e => i != e.1 := by
  induction c with
  | nil => rfl
  | cons e rest ih =>
    obtain ⟨j, u⟩ := e
    by_cases h : i = j
    · subst h; simp [Cells.erase, ih]
    · simp [Cells.erase, ih, h]

theorem Cells.erase_wf {c : Cells w} (h : Cells.wf c = true) (i : Nat) : Cells.wf (Cells.erase c i) = true := by
  rw [Cells.wf_iff] at *
  rw [Cells.erase_eq_filter]
  exact ⟨h.1.filter _, fun e he => h.2 e (List.mem_of_mem_filter he)⟩

theorem Cells.mem_insert {c : Cells w} {i : Nat} {v : BitVec w} {e : Nat × BitVec w} (he : e ∈ Cells.insert c i v) :
    e = (i, v) ∨ e ∈ c := by
  induction c with
  | nil => simpa [Cells.insert] using he
  | cons a rest ih =>
    obtain ⟨j, u⟩ := a
    simp only [Cells.insert] at he
    split at he
    · simpa using he
    · split at he
      · rcases List.mem_cons.1 he with h | h
        · exact .inl h
        · exact .inr (List.mem_cons_of_mem _ h)
      · rcases List.mem_cons.1 he with h | h
        · exact .inr (by simp [h])
        · rcases ih h with h | h
          · exact .inl h
          · exact .inr (List.mem_cons_of_mem _ h)

theorem Cells.insert_wf {c : Cells w} (h : Cells.wf c = true) (i : Nat) {v : BitVec w} (hv : v ≠ 0) :
    Cells.wf (Cells.insert c i v) = true := by
  rw [Cells.wf_iff] at *
  obtain ⟨hp, hz⟩ := h
  refine ⟨?_, fun e he => ?_⟩
  · induction c with
    | nil => simp [Cells.insert]
    | cons a rest ih =>
      obtain ⟨j, u⟩ := a
      obtain ⟨h1, h2⟩ := List.pairwise_cons.1 hp
      simp only [Cells.insert]
      split
      · rename_i hij
        refine List.pairwise_cons.2 ⟨fun e he => ?_, hp⟩
        rcases List.mem_cons.1 he with h | h
        · rw [h]; exact hij
        · exact lt_trans hij (h1 e h)
      · split
        · rename_i _ hij; subst hij
          exact List.pairwise_cons.2 ⟨h1, h2⟩
        · rename_i hle hne
          refine List.pairwise_cons.2 ⟨fun e he => ?_, ih h2 (fun e he => hz e (List.mem_cons_of_mem _ he))⟩
          rcases Cells.mem_insert he with h | h
          · rw [h]; show j < i; omega
          · exact h1 e h
  · rcases Cells.mem_insert he with h | h
    · rw [h]; exact hv
    · exact hz e h

/-- A write keeps the canonical form. -/
theorem Cells.write_wf {c : Cells w} (h : Cells.wf c = true) (i : Nat) (v : BitVec w) :
    Cells.wf (Cells.write c i v) = true := by
  unfold Cells.write
  split
  · exact Cells.erase_wf h i
  · exact Cells.insert_wf h i ‹_›

/-- A block write keeps the canonical form. -/
theorem Cells.writeList_wf {c : Cells w} (h : Cells.wf c = true) (base : Nat) (vs : List (BitVec w)) :
    Cells.wf (Cells.writeList c base vs) = true := by
  induction vs generalizing c base with
  | nil => exact h
  | cons v vs ih => exact ih (Cells.write_wf h base v) (base + 1)

/-- In canonical form, equal reads mean equal buffers. -/
theorem Cells.mem_iff_read {c : Cells w} (h : Cells.wf c = true) (i : Nat) (v : BitVec w) (hv : v ≠ 0) :
    (i, v) ∈ c ↔ Cells.read c i = v := by
  rw [Cells.wf_iff] at h
  obtain ⟨hp, hz⟩ := h
  induction c with
  | nil => simpa [Cells.read] using Ne.symm hv
  | cons a rest ih =>
    obtain ⟨j, u⟩ := a
    obtain ⟨h1, h2⟩ := List.pairwise_cons.1 hp
    have ih := ih h2 (fun e he => hz e (List.mem_cons_of_mem _ he))
    simp only [List.mem_cons, Prod.mk.injEq, Cells.read]
    by_cases hij : i = j
    · subst hij
      simp only [true_and, if_true]
      constructor
      · rintro (h | h)
        · exact h.symm
        · exact absurd (h1 _ h) (lt_irrefl _)
      · exact fun h => .inl h.symm
    · simp [hij, ih]

theorem Memory.wf_iff (m : Memory) :
    m.wf = true ↔ Cells.wf m.secret = true ∧ Cells.wf m.result = true ∧ Cells.wf m.pass = true ∧
      Cells.wf m.sym = true ∧ Cells.wf m.text = true ∧ Cells.wf m.fragX = true ∧ Cells.wf m.fragY = true ∧
      Cells.wf m.groups = true ∧ Cells.wf m.mnem = true ∧ Cells.wf m.mnemLen = true := by
  simp [Memory.wf, Bool.and_eq_true, and_assoc]

theorem Memory.zero_wf : Memory.zero.wf = true := by decide

/-- A host write of an element keeps the canonical form. -/
theorem Memory.write_wf (p : Params) {m : Memory} (h : m.wf = true) (sp i : Nat) (v : Word) :
    (Memory.write p m sp i v).wf = true := by
  unfold Memory.write
  split
  all_goals
    have g := (Memory.wf_iff m).1 h
    refine (Memory.wf_iff _).2 ?_
    simp only [Cells.write_wf, g, and_self]

theorem putFragmentsFrom_wf (F : List Fragment) (j : Nat) {m : Memory} (h : m.wf = true) :
    (putFragmentsFrom j m F).wf = true := by
  induction F generalizing j m with
  | nil => exact h
  | cons f rest ih =>
    refine ih (j + 1) ?_
    rw [Memory.wf_iff] at *
    simp [Cells.write_wf, Cells.writeList_wf, h]

theorem putMnemonicsFrom_wf (ts : List ByteString) (k : Nat) {m : Memory} (h : m.wf = true) :
    (putMnemonicsFrom k m ts).wf = true := by
  induction ts generalizing k m with
  | nil => exact h
  | cons t rest ih =>
    refine ih (k + 1) ?_
    rw [Memory.wf_iff] at *
    simp [Cells.write_wf, Cells.writeList_wf, h]

theorem Arch.putResultBytes_wf {a : Arch} (h : a.mem.wf = true) (bs : ByteString) :
    (a.putResultBytes bs).mem.wf = true := by
  rw [Memory.wf_iff] at *; simp [Arch.putResultBytes, Cells.writeList_wf, h]

theorem Arch.putSymbols_wf {a : Arch} (h : a.mem.wf = true) (base : Nat) (s : List Sym) :
    (a.putSymbols base s).mem.wf = true := by
  rw [Memory.wf_iff] at *; simp [Arch.putSymbols, Cells.writeList_wf, h]

theorem Arch.putText_wf {a : Arch} (h : a.mem.wf = true) (t : ByteString) : (a.putText t).mem.wf = true := by
  rw [Memory.wf_iff] at *; simp [Arch.putText, Cells.writeList_wf, h]

theorem Arch.putFragments_wf {a : Arch} (h : a.mem.wf = true) (F : List Fragment) (L : Nat) :
    (a.putFragments F L).mem.wf = true := putFragmentsFrom_wf F 0 h

theorem Arch.putMnemonics_wf {a : Arch} (h : a.mem.wf = true) (ts : List ByteString) (id : BitVec 15) :
    (a.putMnemonics ts id).mem.wf = true := putMnemonicsFrom_wf ts 0 h

end Sys2Proof.Machine
end

