-- ==== Sys2Proof/Laws/PerInstr.lean ====
section
/-! SUPPORT. The fields of every command's encoding, one lemma per constructor (R120, R121, R127). -/

namespace Sys2Proof.Laws.EncodeFields

/-- The word of a command holds its opcode in bits 7:0, its A byte in bits 15:8, its B byte in bits 23:16 and 0 above. -/
def Statement (i : Instr) : Prop :=
  opField (encode i) = i.opcode ∧ aField (encode i) = i.operandA ∧ bField (encode i) = i.operandB ∧
    zField (encode i) = 0

/-- The fields of an assembled word are the bytes it was assembled from (R127). -/
theorem assemble_fields (op a b : Byte) :
    opField (assemble op a b) = op ∧ aField (assemble op a b) = a ∧ bField (assemble op a b) = b ∧
      zField (assemble op a b) = 0 := by
  refine ⟨?_, ?_, ?_, ?_⟩ <;>
  · apply BitVec.eq_of_getLsbD_eq
    intro i hi
    simp only [opField, aField, bField, zField, assemble, BitVec.getLsbD_extractLsb', BitVec.getLsbD_or,
      BitVec.getLsbD_setWidth, BitVec.getLsbD_shiftLeft]
    interval_cases i <;> simp

theorem nop : Statement .nop := assemble_fields _ _ _

theorem gfAdd (a b : Byte) : Statement (.gfAdd a b) := assemble_fields _ _ _

theorem gfMul (a b : Byte) : Statement (.gfMul a b) := assemble_fields _ _ _

theorem gfDiv (a b : Byte) : Statement (.gfDiv a b) := assemble_fields _ _ _

theorem gfInv (a : Byte) : Statement (.gfInv a) := assemble_fields _ _ _

theorem chkCreate : Statement .chkCreate := assemble_fields _ _ _

theorem chkVerify : Statement .chkVerify := assemble_fields _ _ _

theorem wcPack : Statement .wcPack := assemble_fields _ _ _

theorem wcUnpack (a : Byte) : Statement (.wcUnpack a) := assemble_fields _ _ _

theorem wcToWords : Statement .wcToWords := assemble_fields _ _ _

theorem wcFromWords : Statement .wcFromWords := assemble_fields _ _ _

theorem shInterpolate (a : Byte) : Statement (.shInterpolate a) := assemble_fields _ _ _

theorem shSplit : Statement .shSplit := assemble_fields _ _ _

theorem shRecombine : Statement .shRecombine := assemble_fields _ _ _

theorem fcEncrypt : Statement .fcEncrypt := assemble_fields _ _ _

theorem fcDecrypt : Statement .fcDecrypt := assemble_fields _ _ _

theorem shareEncode : Statement .shareEncode := assemble_fields _ _ _

theorem shareDecode : Statement .shareDecode := assemble_fields _ _ _

theorem generate : Statement .generate := assemble_fields _ _ _

theorem combine : Statement .combine := assemble_fields _ _ _

theorem sesReset : Statement .sesReset := assemble_fields _ _ _

theorem sesAccept : Statement .sesAccept := assemble_fields _ _ _

theorem sesStatus : Statement .sesStatus := assemble_fields _ _ _

theorem sesIsComplete : Statement .sesIsComplete := assemble_fields _ _ _

theorem sesGroupComplete (a : Byte) : Statement (.sesGroupComplete a) := assemble_fields _ _ _

theorem sesCombine : Statement .sesCombine := assemble_fields _ _ _

theorem clear : Statement .clear := assemble_fields _ _ _

end Sys2Proof.Laws.EncodeFields
end

