-- ==== Sys2Proof/Laws/Rows.lean ====
section
/-! SUPPORT. What the stores of whole operands leave in a buffer: a block, the rows of the fragment file and the mnemonic
slots, in the terms of Safety.lean. -/

namespace Sys2Proof.Machine

variable {w : Nat}

/-- A block store is a store in the sense of the claims. -/
theorem storedAt_writeList (c : Cells w) (base : Nat) (vs : List (BitVec w)) :
    StoredAt c (Cells.writeList c base vs) base vs := Cells.read_writeList c base vs

/-- A block read back after its store. -/
theorem StoredAt.slice {c c' : Cells w} {base : Nat} {vs : List (BitVec w)} (h : StoredAt c c' base vs) :
    Cells.slice c' base vs.length = vs := by
  apply List.ext_getElem (by simp)
  intro k h1 h2
  have := Cells.slice_getD c' base vs.length k h2
  rw [h, if_pos ⟨by omega, by omega⟩, Nat.add_sub_cancel_left] at this
  simpa [h2, List.getD_eq_getElem?_getD] using this

/-- A row store in a buffer of rows: the row's elements inside it, everything else as before. -/
theorem read_row (c : Cells w) {stride j : Nat} {row : List (BitVec w)} (hr : row.length ≤ stride) (r k : Nat)
    (hk : k < stride) :
    Cells.read (Cells.writeList c (j * stride) row) (r * stride + k) =
      if r = j ∧ k < row.length then row.getD k 0 else Cells.read c (r * stride + k) := by
  rw [Cells.read_writeList]
  by_cases h : r = j
  · subst h
    by_cases h2 : k < row.length
    · rw [if_pos (by omega), if_pos ⟨rfl, h2⟩, Nat.add_sub_cancel_left]
    · rw [if_neg (by omega), if_neg (by simp [h2])]
  · rw [if_neg, if_neg (by simp [h])]
    rintro ⟨h1, h2⟩
    rcases Nat.lt_or_gt_of_ne h with h3 | h3
    · have := Nat.mul_le_mul_right stride h3
      rw [Nat.succ_mul] at this; omega
    · have := Nat.mul_le_mul_right stride h3
      rw [Nat.succ_mul] at this; omega

theorem putFragmentsFrom_fragX (F : List Fragment) (j : Nat) (m : Memory) (k : Nat) :
    Cells.read (putFragmentsFrom j m F).fragX k =
      if j ≤ k ∧ k < j + F.length then (F.map (·.x)).getD (k - j) 0 else Cells.read m.fragX k := by
  induction F generalizing j m with
  | nil => rw [if_neg (by simp)]; rfl
  | cons f rest ih =>
    rw [putFragmentsFrom, ih, Cells.read_write]
    by_cases h : k = j
    · subst h; simp
    · by_cases h2 : j + 1 ≤ k ∧ k < j + 1 + rest.length
      · obtain ⟨d, hd⟩ : ∃ d, k - j = d + 1 := ⟨k - j - 1, by omega⟩
        rw [if_pos h2, if_pos (by simp; omega), hd, show k - (j + 1) = d by omega, List.map_cons, List.getD_cons_succ]
      · rw [if_neg h2, if_neg h, if_neg (by simp; omega)]

theorem putFragmentsFrom_fragY (F : List Fragment) (hF : ∀ f ∈ F, f.y.length ≤ 64) (j : Nat) (m : Memory) (r k : Nat)
    (hk : k < 64) :
    Cells.read (putFragmentsFrom j m F).fragY (r * 64 + k) =
      if j ≤ r ∧ r < j + F.length ∧ k < ((F.map (·.y)).getD (r - j) []).length
      then ((F.map (·.y)).getD (r - j) []).getD k 0 else Cells.read m.fragY (r * 64 + k) := by
  induction F generalizing j m with
  | nil => rw [if_neg (by simp)]; rfl
  | cons f rest ih =>
    rw [putFragmentsFrom, ih (fun g hg => hF g (List.mem_cons_of_mem _ hg)),
      read_row _ (hF f (List.mem_cons_self ..)) r k hk]
    by_cases h : r = j
    · subst h; simp
    · by_cases h2 : j + 1 ≤ r ∧ r < j + 1 + rest.length
      · obtain ⟨d, hd⟩ : ∃ d, r - j = d + 1 := ⟨r - j - 1, by omega⟩
        have h3 : j ≤ r ∧ r < j + (f :: rest).length := by simp; omega
        simp only [hd, show r - (j + 1) = d by omega, List.map_cons, List.getD_cons_succ, h2, h3, h, true_and,
          false_and, if_false]
      · rw [if_neg (by tauto), if_neg (by simp [h]), if_neg (by simp; omega)]

/-- The other buffers are as before a fragment store. -/
theorem putFragmentsFrom_frame (F : List Fragment) (j : Nat) (m : Memory) :
    putFragmentsFrom j m F =
      { m with fragX := (putFragmentsFrom j m F).fragX, fragY := (putFragmentsFrom j m F).fragY } := by
  induction F generalizing j m with
  | nil => rfl
  | cons f rest ih => rw [putFragmentsFrom, ih]

theorem putMnemonicsFrom_mnem (ts : List ByteString) (ht : ∀ t ∈ ts, t.length ≤ 4096) (j : Nat) (m : Memory)
    (r k : Nat) (hk : k < 4096) :
    Cells.read (putMnemonicsFrom j m ts).mnem (r * 4096 + k) =
      if j ≤ r ∧ r < j + ts.length ∧ k < (ts.getD (r - j) []).length
      then (ts.getD (r - j) []).getD k 0 else Cells.read m.mnem (r * 4096 + k) := by
  induction ts generalizing j m with
  | nil => rw [if_neg (by simp)]; rfl
  | cons t rest ih =>
    rw [putMnemonicsFrom, ih (fun g hg => ht g (List.mem_cons_of_mem _ hg)),
      read_row _ (ht t (List.mem_cons_self ..)) r k hk]
    by_cases h : r = j
    · subst h; simp
    · by_cases h2 : j + 1 ≤ r ∧ r < j + 1 + rest.length
      · obtain ⟨d, hd⟩ : ∃ d, r - j = d + 1 := ⟨r - j - 1, by omega⟩
        have h3 : j ≤ r ∧ r < j + (t :: rest).length := by simp; omega
        simp only [hd, show r - (j + 1) = d by omega, List.getD_cons_succ, h2, h3, h, true_and, false_and, if_false]
      · rw [if_neg (by tauto), if_neg (by simp [h]), if_neg (by simp; omega)]

theorem putMnemonicsFrom_mnemLen (ts : List ByteString) (j : Nat) (m : Memory) (k : Nat) :
    Cells.read (putMnemonicsFrom j m ts).mnemLen k =
      if j ≤ k ∧ k < j + ts.length then BitVec.ofNat 13 (ts.getD (k - j) []).length
      else Cells.read m.mnemLen k := by
  induction ts generalizing j m with
  | nil => rw [if_neg (by simp)]; rfl
  | cons t rest ih =>
    rw [putMnemonicsFrom, ih, Cells.read_write]
    by_cases h : k = j
    · subst h; simp
    · by_cases h2 : j + 1 ≤ k ∧ k < j + 1 + rest.length
      · obtain ⟨d, hd⟩ : ∃ d, k - j = d + 1 := ⟨k - j - 1, by omega⟩
        rw [if_pos h2, if_pos (by simp; omega), hd, show k - (j + 1) = d by omega, List.getD_cons_succ]
      · rw [if_neg h2, if_neg h, if_neg (by simp; omega)]

/-- The other buffers are as before a store of mnemonics. -/
theorem putMnemonicsFrom_frame (ts : List ByteString) (j : Nat) (m : Memory) :
    putMnemonicsFrom j m ts =
      { m with mnem := (putMnemonicsFrom j m ts).mnem, mnemLen := (putMnemonicsFrom j m ts).mnemLen } := by
  induction ts generalizing j m with
  | nil => rfl
  | cons t rest ih => rw [putMnemonicsFrom, ih]

/-- The fragment file read back after it was filled with fragments of one length. -/
theorem fragments_of_filled {a : Arch} {F : List Fragment} {m : Memory} {L : Nat} (hm : a.mem = putFragmentsFrom 0 m F)
    (hc : a.csr.fragCount.toNat = F.length) (hl : a.csr.lenFrag.toNat = L) (hL : L ≤ 64)
    (hF : ∀ f ∈ F, f.y.length = L) : a.fragments = F := by
  apply List.ext_getElem
  · simp [Arch.fragments, hc]
  · intro i h1 h2
    have hi : F[i].y.length = L := hF _ (List.getElem_mem h2)
    have hx := putFragmentsFrom_fragX F 0 m i
    rw [if_pos ⟨by omega, by omega⟩] at hx
    have hy : Cells.slice a.mem.fragY (i * 64) a.csr.lenFrag.toNat = F[i].y := by
      apply List.ext_getElem
      · simp [hl, hi]
      · intro k h3 h4
        have hk : k < L := by omega
        have := Cells.slice_getD a.mem.fragY (i * 64) a.csr.lenFrag.toNat k (by omega)
        rw [hm, putFragmentsFrom_fragY F (fun f hf => by rw [hF f hf]; exact hL) 0 m i k (by omega)] at this
        simp only [hl, hi, hk, h2, List.getD_eq_getElem?_getD, List.getElem?_map, Nat.sub_zero, Nat.zero_le, Nat.zero_add,
          List.getElem?_eq_getElem, Option.map_some, Option.getD_some, and_self, if_true] at this
        simpa [hl, hm, hk, h4] using this
    rw [hm] at hy
    simp only [Arch.fragments, List.getElem_map, List.getElem_range, hm, hy, hx]
    simp [h2]

/-- The mnemonic slots read back after they are filled. -/
theorem mnemonics_of_filled {a : Arch} {ts : List ByteString} {m : Memory} (hm : a.mem = putMnemonicsFrom 0 m ts)
    (hc : a.csr.mnemCount.toNat = ts.length) (ht : ∀ t ∈ ts, t.length ≤ 4096) : a.mnemonics = ts := by
  apply List.ext_getElem
  · simp [Arch.mnemonics, hc]
  · intro j h1 h2
    have hj := ht _ (List.getElem_mem h2)
    have hlen : (Cells.read a.mem.mnemLen j).toNat = ts[j].length := by
      rw [hm, putMnemonicsFrom_mnemLen, if_pos (by omega), Nat.sub_zero, List.getD_eq_getElem _ _ h2]
      simp; omega
    simp only [Arch.mnemonics, List.getElem_map, List.getElem_range, hlen]
    apply List.ext_getElem (by simp)
    intro k h3 h4
    have := Cells.slice_getD a.mem.mnem (j * 4096) ts[j].length k h4
    rw [List.getD_eq_getElem _ _ h3] at this
    rw [this, hm, putMnemonicsFrom_mnem ts ht 0 m j k (by omega)]
    simp [h2, h4]

end Sys2Proof.Machine
end

