-- ==== Sys2Proof/Laws/Tables.lean ====
section
/-! SUPPORT. The reset sequence builds the tables the spec prints. -/

namespace Sys2Proof.Machine

/-- The construction loop of R152 yields the contents R151 prints. -/
theorem buildTables_eq_standard : buildTables = standardTables := by decide +kernel

end Sys2Proof.Machine
end

