-- ==== Sys2Proof/Tests/Slice0.lean ====
section
/-! SUPPORT. The model's own tests: ill-formed terms that the checks refuse, words written out from the opcode map and a few of
the spec's example values, and for every statement with hypotheses a witness that meets them. -/

namespace Sys2Proof.Tests
-- One theorem at a time: the evaluations below would otherwise each hold a thread.
set_option Elab.async false
open Sys2Proof Sys2Proof.Machine

/-! ### A unit for the tests: VOCAB_TEST of 95_test_vectors.md and small sizes -/

/-- Small legal parameters. -/
def testParams : Params where
  lMax := 8
  minSecret := 4
  tMax := 65
  pMax := 4
  vocab := ⟨vocabTest, vocabTest_legal⟩
  custom := [0x73, 0x68, 0x61, 0x6D, 0x69, 0x72]
  baseIter := 1
  charset := .printable

theorem testParams_legal : testParams.legal = true := by decide +kernel

/-- An idle unit with these registers and buffers. -/
def unit (c : Csrs) (m : Memory) : State :=
  { State.reset with params := testParams, arch := { Arch.reset with csr := c, mem := m } }

/-- A unit with symbols. -/
def symState (s : List Sym) : State :=
  unit { Csrs.reset with lenSym := BitVec.ofNat 7 s.length } { Memory.zero with sym := Cells.writeList [] 0 s }

/-- A unit with a text. -/
def textState (t : ByteString) : State :=
  unit { Csrs.reset with lenText := BitVec.ofNat 13 t.length } { Memory.zero with text := Cells.writeList [] 0 t }

/-- A unit with secret bytes and a passphrase. -/
def secretState (c : Csrs) (s pass : ByteString) : State :=
  unit { c with lenSecret := BitVec.ofNat 7 s.length, lenPass := BitVec.ofNat 16 pass.length }
    { Memory.zero with secret := Cells.writeList [] 0 s, pass := Cells.writeList [] 0 pass }

/-- A unit with a threshold and a fragment file. -/
def fragState (t : Nat) (F : List Fragment) (L : Nat) : State :=
  unit { Csrs.reset with threshold := BitVec.ofNat 5 t, fragCount := BitVec.ofNat 5 F.length, lenFrag := BitVec.ofNat 7 L }
    (putFragmentsFrom 0 Memory.zero F)

/-! ### Ill-formed terms are refused -/

theorem test_refuses_z : legalCommandWord 0x01000000 = false ∧ decode 0x01000000 = .error .zNotZero := by decide +kernel

theorem test_refuses_reserved_op :
    legalCommandWord 0x00000005 = false ∧ decode 0x00000005 = .error (.reservedOpcode 0x05) ∧
    legalCommandWord 0x000000FF = false ∧ decode 0x000000FF = .error (.reservedOpcode 0xFF) := by decide +kernel

theorem test_refuses_a : legalCommandWord 0x00000110 = false ∧ decode 0x00000110 = .error (.aNotZero 0x10) := by decide +kernel

theorem test_refuses_b : legalCommandWord 0x00010004 = false ∧ decode 0x00010004 = .error (.bNotZero 0x04) := by decide +kernel

theorem test_refuses_lMax_odd : Params.legal { testParams with lMax := 7 } = false := by decide +kernel
theorem test_refuses_lMax_below_minSecret : Params.legal { testParams with lMax := 2 } = false := by decide +kernel
theorem test_refuses_lMax_large : Params.legal { testParams with lMax := 66 } = false := by decide +kernel
theorem test_refuses_minSecret_odd : Params.legal { testParams with minSecret := 5 } = false := by decide +kernel
theorem test_refuses_minSecret_small : Params.legal { testParams with minSecret := 2 } = false := by decide +kernel
theorem test_refuses_tMax : Params.legal { testParams with tMax := 63 } = false ∧
    Params.legal { testParams with tMax := 4097 } = false := by decide +kernel
theorem test_refuses_pMax : Params.legal { testParams with pMax := 65536 } = false := by decide +kernel
theorem test_refuses_short_vocab : legalVocab (vocabTest.take 1023) = false := by decide +kernel
theorem test_refuses_empty_word : legalVocab (vocabTest.set 3 []) = false := by decide +kernel
theorem test_refuses_space_in_word : legalVocab (vocabTest.set 3 [0x77, 0x20]) = false := by decide +kernel
theorem test_refuses_equal_words : legalVocab (vocabTestWord 0 :: vocabTestWord 0 :: vocabTest.drop 2) = false := by
  have h : ¬ (vocabTestWord 0 :: vocabTestWord 0 :: vocabTest.drop 2).Nodup := fun h => (List.nodup_cons.1 h).1 (by simp)
  rw [legalVocab, decide_eq_false h, Bool.and_false]

/-! ### Words written out from the opcode map (R121, R127) -/

theorem test_decode_system : decode 0x00000000 = .ok .nop ∧ decode 0x0000007F = .ok .clear := by decide

theorem test_decode_field :
    decode 0x00835701 = .ok (.gfAdd 0x57 0x83) ∧ decode 0x00835702 = .ok (.gfMul 0x57 0x83) ∧
    decode 0x0083C103 = .ok (.gfDiv 0xC1 0x83) ∧ decode 0x00005304 = .ok (.gfInv 0x53) := by decide

theorem test_decode_checksum : decode 0x00000010 = .ok .chkCreate ∧ decode 0x00000011 = .ok .chkVerify := by decide

theorem test_decode_wordcodec :
    decode 0x00000018 = .ok .wcPack ∧ decode 0x00000219 = .ok (.wcUnpack 2) ∧ decode 0x0000001A = .ok .wcToWords ∧
    decode 0x0000001B = .ok .wcFromWords := by decide

theorem test_decode_shamir :
    decode 0x0000FE20 = .ok (.shInterpolate 254) ∧ decode 0x00000021 = .ok .shSplit ∧
    decode 0x00000022 = .ok .shRecombine := by decide

theorem test_decode_cipher : decode 0x00000028 = .ok .fcEncrypt ∧ decode 0x00000029 = .ok .fcDecrypt := by decide

theorem test_decode_share : decode 0x00000030 = .ok .shareEncode ∧ decode 0x00000031 = .ok .shareDecode := by decide

theorem test_decode_orchestrator : decode 0x00000038 = .ok .generate ∧ decode 0x00000039 = .ok .combine := by decide

theorem test_decode_session :
    decode 0x00000040 = .ok .sesReset ∧ decode 0x00000041 = .ok .sesAccept ∧ decode 0x00000042 = .ok .sesStatus ∧
    decode 0x00000043 = .ok .sesIsComplete ∧ decode 0x00000344 = .ok (.sesGroupComplete 3) ∧
    decode 0x00000045 = .ok .sesCombine := by decide

theorem test_decodeTableWord : decodeTableWord 32 0x00835702 = some (.gfMul 0x57 0x83) ∧
    decodeTableWord 24 0x835702 = some (.gfMul 0x57 0x83) ∧ decodeTableWord 32 0x01000000 = none := by decide

/-! ### Example values of the spec -/

/-- The register RESULT and the error code after a command on a state. -/
def resultOf (i : Instr) (s : State) : Option (Word × BitVec 8) :=
  match exec i s with
  | .next t => some (t.arch.csr.result, t.arch.csr.errCode)
  | .fault _ => none
  | .refused _ => none

/-- The elements a command leaves in a buffer, and the error code. -/
def bufferOf {w : Nat} (f : Memory → Cells w) (n : Nat) (i : Instr) (s : State) : Option (List (BitVec w) × BitVec 8) :=
  match exec i s with
  | .next t => some (Cells.slice (f t.arch.mem) 0 n, t.arch.csr.errCode)
  | .fault _ => none
  | .refused _ => none

/-- The examples of R153 to R156. -/
theorem test_field_examples :
    resultOf (.gfAdd 0x57 0x83) State.reset = some (0xD4, 0) ∧ resultOf (.gfMul 0x57 0x83) State.reset = some (0xC1, 0) ∧
    resultOf (.gfDiv 0xC1 0x83) State.reset = some (0x57, 0) ∧ resultOf (.gfInv 0x53) State.reset = some (0xCA, 0) ∧
    resultOf (.gfDiv 0 0) State.reset = some (0, 0x03) := by decide +kernel

/-- The example of R173: the checksum of four zero symbols. -/
theorem test_chkCreate_example :
    bufferOf (·.sym) 7 .chkCreate (symState [0, 0, 0, 0]) = some ([0, 0, 0, 0, 470, 286, 145], 0) := by decide +kernel

/-- The checksum of the empty string (R173) verifies (R174), and with a symbol changed it does not. -/
theorem test_chkVerify_example :
    resultOf .chkVerify (symState [413, 424, 113]) = some (1, 0) ∧
    resultOf .chkVerify (symState [413, 425, 113]) = some (0, 0x12) := by decide +kernel

/-- The example of R192. -/
theorem test_wcPack_example :
    bufferOf (·.sym) 13 .wcPack (secretState Csrs.reset ((List.range 16).map (BitVec.ofNat 8)) []) =
      some ([0, 4, 32, 193, 5, 24, 112, 514, 266, 44, 192, 835, 527], 0) := by decide +kernel

/-- The examples of R193. -/
theorem test_wcUnpack_example :
    bufferOf (·.result) 2 (.wcUnpack 2) (symState [63, 1023]) = some ([0xFF, 0xFF], 0) ∧
    bufferOf (·.result) 2 (.wcUnpack 1) (symState [63, 1023]) = some ([0, 0], 0x13) := by decide +kernel

/-- The examples of R194 and R195: the text of two symbols, and back with other spacing. -/
theorem test_words_examples :
    bufferOf (·.text) 11 .wcToWords (symState [1, 1023]) = some (vocabTestWord 1 ++ space :: vocabTestWord 1023, 0) ∧
    bufferOf (·.sym) 2 .wcFromWords (textState ([0x20, 0x20] ++ vocabTestWord 1 ++ [0x20, 0x20] ++ vocabTestWord 1023 ++ [0x20])) =
      some ([1, 1023], 0) ∧
    (bufferOf (·.sym) 2 .wcFromWords (textState (vocabTestWord 1 ++ [0x20, 0x57]))).map (·.2) = some 0x10 := by
  decide +kernel

/-- The examples of R212. -/
theorem test_shInterpolate_example :
    bufferOf (·.result) 2 (.shInterpolate 0) (fragState 2 [⟨1, [0x10, 0x20]⟩, ⟨2, [0x30, 0x40]⟩] 2) =
      some ([0xF9, 0x00], 0) ∧
    bufferOf (·.result) 2 (.shInterpolate 255) (fragState 2 [⟨1, [0x10, 0x20]⟩, ⟨2, [0x30, 0x40]⟩] 2) =
      some ([0xB7, 0xD2], 0) := by decide +kernel

/-- The example share of R264, with a value of 16 zero bytes. -/
def exampleShare : Share := ⟨0x1234, 0, 0, 1, 1, 2, 3, List.replicate 16 0⟩

/-- The example of R264, and back (R266). -/
theorem test_share_example :
    encodeShare testParams exampleShare =
      [145, 640, 0, 34, 0, 0, 0, 0, 0, 0, 0, 0, 0, 0, 0, 0, 0, 884, 29, 285] ∧
    decodeSymbols { testParams with lMax := 32, minSecret := 16 } (encodeShare testParams exampleShare) =
      .ok exampleShare := by decide +kernel

/-- The example of R241: the cipher salt. -/
theorem test_cipherSalt_example :
    cipherSalt testParams 0x1234 = [0x73, 0x68, 0x61, 0x6D, 0x69, 0x72, 0x12, 0x34] := by decide +kernel

/-- The example of R340: a NOP clears the report of a division by zero. -/
theorem test_nop_example :
    (match exec (.gfDiv 1 0) State.reset with
      | .next t => (match exec .nop t with | .next u => (t.status, u.status) | _ => (0, 0))
      | _ => (0, 0)) = (0x0000030E, 0x0000000A) := by decide +kernel

/-- `withFetchWord` places a command that the next step completes. -/
theorem test_withFetchWord :
    (match step (State.reset.withFetchWord 32 0x00835702) with
      | .next t => (t.arch.csr.result, t.status)
      | _ => (0, 0)) = (0xC1, 0x0000000A) := by decide +kernel

/-- R37, R38: CAPS and CAPS2 with the default sizes. -/
theorem test_caps : State.reset.readCsr 0x05 = 0x04001020 ∧ State.reset.readCsr 0x06 = 0x00000100 := by decide

end Sys2Proof.Tests
end

