-- ==== Sys2Proof/Tests/Witnesses.lean ====
section
/-! SUPPORT. For every statement with hypotheses, a state and operands that meet them, for each of its clauses at a boundary
value. -/

namespace Sys2Proof.Tests
-- One theorem at a time: the evaluations below would otherwise each hold a thread.
set_option Elab.async false
open Sys2Proof Sys2Proof.Machine

/-! ### The test vocabulary: texts and their tokens -/

theorem testParams_vocab : testParams.vocab.words = vocabTest := by simp only [testParams]

theorem textState_read (t : ByteString) (h : t.length < 8192) : (textState t).operands.textBytes = t := by
  have e : (BitVec.ofNat 13 t.length).toNat = t.length := by simp; omega
  show Cells.slice (Cells.writeList [] 0 t) 0 (BitVec.ofNat 13 t.length).toNat = t
  rw [e, Cells.slice_writeList_same]

theorem tokensFrom_word (w cur rest : ByteString) (h : (0x20 : Byte) ∉ w) :
    tokensFrom cur (w ++ rest) = tokensFrom (cur ++ w) rest := by
  induction w generalizing cur with
  | nil => simp
  | cons c w ih =>
    simp only [List.mem_cons, not_or] at h
    rw [List.cons_append, tokensFrom, if_neg (by simpa [space] using Ne.symm h.1), ih _ h.2]; simp

theorem tokens_words (ws : List ByteString) (h : ∀ w ∈ ws, w ≠ [] ∧ (0x20 : Byte) ∉ w) :
    tokens (List.intercalate [0x20] ws) = ws := by
  rw [List.intercalate]
  induction ws with
  | nil => rfl
  | cons w rest ih =>
    obtain ⟨h0, hs⟩ := h w (List.mem_cons_self ..)
    have ih := ih fun y hy => h y (List.mem_cons_of_mem _ hy)
    have he : w.isEmpty = false := by simpa using h0
    cases rest with
    | nil =>
      have := tokensFrom_word w [] [] hs
      simp_all [tokens, tokensFrom]
    | cons v rest =>
      rw [List.intersperse_cons_cons, List.flatten_cons, tokens, tokensFrom_word _ _ _ hs, List.flatten_cons]
      simp only [List.nil_append, List.singleton_append, tokensFrom, space, he, if_true]
      rw [← tokens, ih]; rfl

/-- The words of a list of symbols. -/
theorem tokens_wordsText (sy : List Sym) :
    tokens (wordsText testParams sy) = sy.map fun s => vocabTestWord s.toNat := by
  have hw : ∀ i < 1024, (0x20 : Byte) ∉ vocabTestWord i := by decide +kernel
  have e : (sy.map fun s => testParams.vocab.words.getD s.toNat []) = sy.map fun s => vocabTestWord s.toNat := by
    refine List.map_congr_left fun s _ => ?_
    rw [testParams_vocab]; simp [vocabTest, s.isLt]
  rw [wordsText, e, tokens_words]
  intro w h
  obtain ⟨s, _, rfl⟩ := List.mem_map.1 h
  exact ⟨by simp [vocabTestWord], hw _ s.isLt⟩

theorem lookupWord_testWord (s : Sym) : lookupWord testParams (vocabTestWord s.toNat) = some s := by
  have : wordOf testParams s = vocabTestWord s.toNat := by
    rw [wordOf, testParams_vocab]; simp [vocabTest, s.isLt]
  rw [← this, lookupWord_wordOf]

theorem lookupAll_words (sy : List Sym) (j : Nat) :
    lookupAll testParams j (sy.map fun s => vocabTestWord s.toNat) = .ok sy := by
  induction sy generalizing j with
  | nil => rfl
  | cons s rest ih => simp only [List.map_cons, lookupAll, lookupWord_testWord, ih]; rfl

theorem length_joined (ws : List ByteString) (h : ∀ x ∈ ws, x.length = 5) :
    (List.intercalate [0x20] ws).length = 6 * ws.length - 1 := by
  rw [List.intercalate]
  induction ws with
  | nil => rfl
  | cons x rest ih =>
    have hx := h x (List.mem_cons_self ..)
    have ih := ih fun y hy => h y (List.mem_cons_of_mem _ hy)
    cases rest with
    | nil => simp [hx]
    | cons y rest =>
      simp only [List.intersperse_cons_cons, List.flatten_cons, List.length_append, List.length_cons,
        List.length_nil] at *
      omega

theorem vocabTest_getD : ∀ i, i < 1024 → vocabTest.getD i [] = vocabTestWord i := by
  intro i hi
  simp [vocabTest, hi]

/-- A text of the test vocabulary: its length, its tokens, and the symbols they stand for. -/
theorem wordsText_length (p : Params) (hp : p.vocab.words = vocabTest) (sy : List Sym) :
    (wordsText p sy).length = 6 * sy.length - 1 := by
  rw [wordsText, length_joined]
  · simp
  · intro x hx
    obtain ⟨s, _, rfl⟩ := List.mem_map.1 hx
    rw [hp, vocabTest_getD _ s.isLt]; rfl

theorem wordsText_read (sy : List Sym) (h : sy.length ≤ 1000) :
    tokens (textState (wordsText testParams sy)).operands.textBytes = sy.map fun s => vocabTestWord s.toNat := by
  rw [textState_read _ (by rw [wordsText_length _ testParams_vocab]; omega), tokens_wordsText]

theorem symbolsOf_words (sy : List Sym) : SymbolsOf testParams (sy.map fun s => vocabTestWord s.toNat) sy := by
  refine ⟨by simp, fun j hj => ?_⟩
  have hj : j < sy.length := by simpa using hj
  rw [testParams_vocab, List.getD_eq_getElem _ _ hj, List.getD_eq_getElem _ _ (by simpa using hj)]
  simp [vocabTest, sy[j].isLt]

theorem words_known (sy : List Sym) : ∀ t ∈ sy.map (fun s => vocabTestWord s.toNat), t ∈ testParams.vocab.words := by
  intro t ht
  obtain ⟨s, _, rfl⟩ := List.mem_map.1 ht
  rw [testParams_vocab, vocabTest]
  exact List.mem_map.2 ⟨_, List.mem_range.2 s.isLt, rfl⟩

/-! ### Encoding, step, system -/

theorem witness_IllegalWords :
    State.reset.isIdle ∧ legalCommandWord 0x01000000 = false ∧ legalCommandWord 0x00000080 = false := by
  unfold State.isIdle; decide

theorem witness_StepRuns :
    (State.reset.accepted 0x0).arch.csr.ready = true ∧ (State.reset.accepted 0x0).pending = some ⟨0x0, Arch.reset⟩ ∧
    decode 0x0 = .ok .nop ∧ (State.reset.accepted 0x0).bus = [] ∧
    ({ State.reset.accepted 0x0 with bus := [.unit] } : State).bus = .unit :: [] := ⟨rfl, rfl, rfl, rfl, rfl⟩

/-- The other cases of a step: an idle unit, the reset sequence, and each bus event. -/
theorem witness_StepRuns_otherwise :
    (State.reset.arch.csr.ready = true ∧ State.reset.pending = none ∧ State.reset.bus = []) ∧
    (State.reset.onReset.arch.csr.ready = false ∧ State.reset.onReset.bus = []) ∧
    ({ State.reset with bus := [.read 0x0AFFFFFF] } : State).bus = .read 0x0AFFFFFF :: [] ∧
    ({ State.reset with bus := [.write 0x00000002 0x10] } : State).bus = .write 0x00000002 0x10 :: [] ∧
    ({ State.reset with bus := [.reset] } : State).bus = .reset :: [] ∧
    ({ State.reset with bus := [.idle] } : State).bus = .idle :: [] := ⟨⟨rfl, rfl, rfl⟩, ⟨rfl, rfl⟩, rfl, rfl, rfl, rfl⟩

/-- The state after a division by zero. -/
def afterError : State := State.reset.failed 0x03 0

theorem witness_Nop :
    ((0x100 : Word).toNat % 256 = 0 ∧ (0x100 : Word) ≠ 0) ∧ afterError.pending = none ∧
    afterError.status = 0x0000030E := by decide

theorem witness_Clear : State.reset.arch.csr.ready = true ∧ State.reset.arch.tables = standardTables := ⟨rfl, rfl⟩

/-! ### Field -/

theorem witness_GfMul :
    State.reset.operands.tables = standardTables ∧ ((0 : Byte) = 0 ∨ (5 : Byte) = 0) ∧ (0xFF : Byte) ≠ 0 := by
  refine ⟨rfl, ?_, ?_⟩ <;> decide

theorem witness_GfDiv :
    State.reset.operands.tables = standardTables ∧ (0 : Byte) = 0 ∧ (1 : Byte) ≠ 0 ∧ (0xFF : Byte) ≠ 0 := by
  refine ⟨rfl, rfl, ?_, ?_⟩ <;> decide

theorem witness_GfInv : State.reset.operands.tables = standardTables ∧ (0 : Byte) = 0 ∧ (1 : Byte) ≠ 0 :=
  ⟨rfl, rfl, by decide⟩

theorem witness_FieldLaws : (1 : Byte) ≠ 0 ∧ gfmul standardTables 0 5 = 0 := by decide

theorem witness_Tables : (253 : Nat) < 254 ∧ (254 : Nat) < 255 ∧ (0xFF : Byte) ≠ 0 := by decide

/-! ### Checksum -/

theorem witness_ChkCreate :
    64 < (symState (List.replicate 62 0)).operands.symbols.length + 3 ∧
    (symState (List.replicate 61 0)).operands.symbols.length + 3 ≤ 64 := by decide +kernel

theorem witness_ChkVerify :
    polymod (customSymbols testParams ++ (symState [413, 424, 113]).operands.symbols) = 1 ∧
    polymod (customSymbols testParams ++ (symState []).operands.symbols) ≠ 1 := by decide +kernel

/-- A longest string with a valid checksum. -/
def longString : List Sym := List.replicate 61 0 ++ checksum testParams (List.replicate 61 0)

/-- The same with three symbols changed. -/
def changedString : List Sym := ((longString.set 0 1).set 30 5).set 63 9

theorem witness_ThreeSymbolChanges :
    longString.length ≤ 64 ∧ changedString.length = longString.length ∧ longString ≠ changedString ∧
    ((List.range longString.length).filter fun i => longString.getD i 0 != changedString.getD i 0).length ≤ 3 ∧
    polymod (customSymbols testParams ++ longString) = 1 := by decide +kernel

/-! ### Word codec -/

theorem witness_WcPack : (0 : Nat) < (symState [1]).operands.symbols.length := by decide +kernel

theorem witness_WcUnpack :
    testParams.lMax < (9 : Byte).toNat ∧
    ((1 : Byte).toNat ≤ testParams.lMax ∧ 2 ^ (8 * (1 : Byte).toNat) ≤ bigEndian (symState [256]).operands.symbols) ∧
    ((8 : Byte).toNat ≤ testParams.lMax ∧ (1 : Byte).toNat ≤ testParams.lMax ∧
      bigEndian (symState [255]).operands.symbols < 2 ^ (8 * (1 : Byte).toNat)) := by decide +kernel

/-- Eleven symbols, whose text has 65 bytes. -/
def elevenSymbols : List Sym := List.replicate 11 1

theorem witness_WcToWords :
    (symState elevenSymbols).params.tMax = 65 ∧
    (wordsText testParams (symState elevenSymbols).operands.symbols).length ≤ testParams.tMax ∧
    testParams.tMax < (wordsText testParams (symState (elevenSymbols ++ [1])).operands.symbols).length := by
  decide +kernel

/-- The text of `n` known words. -/
def knownWords (n : Nat) : ByteString := wordsText testParams (List.replicate n 1)

theorem witness_WcFromWords :
    UnknownAt testParams (tokens (textState (vocabTestWord 1 ++ [0x20, 0x57])).operands.textBytes) 1 ∧
    ((∀ t ∈ tokens (textState (knownWords 65)).operands.textBytes, t ∈ testParams.vocab.words) ∧
      64 < (tokens (textState (knownWords 65)).operands.textBytes).length) ∧
    ((∀ t ∈ tokens (textState (knownWords 64)).operands.textBytes, t ∈ testParams.vocab.words) ∧
      (tokens (textState (knownWords 64)).operands.textBytes).length ≤ 64) := by
  refine ⟨?_, ?_, ?_⟩
  · rw [textState_read _ (by decide)]
    unfold UnknownAt FirstAt; decide +kernel
  · rw [knownWords, wordsText_read _ (by simp)]; exact ⟨words_known _, by simp⟩
  · rw [knownWords, wordsText_read _ (by simp)]; exact ⟨words_known _, by simp⟩

theorem witness_Tokens : (vocabTestWord 1 : ByteString) ≠ [] ∧ (0x20 : Byte) ∉ vocabTestWord 1 := by decide

theorem witness_WordCodecRoundTrips :
    (testParams.lMax ≤ 64 ∧
      (secretState Csrs.reset [1, 2, 3, 4, 5, 6, 7, 8] []).operands.csr.lenSecret.toNat ≤ testParams.lMax) ∧
    testParams.tMax ≤ 4096 ∧ (symState elevenSymbols).operands.csr.lenSym.toNat ≤ 64 ∧
    (wordsText testParams (symState elevenSymbols).operands.symbols).length ≤ testParams.tMax := by decide +kernel

/-! ### Shamir -/

theorem witness_ShInterpolate :
    (fragState 0 [] 4).operands.fragments = [] ∧
    FirstAt (Repeats ((fragState 0 [⟨1, [0]⟩, ⟨2, [0]⟩, ⟨1, [5]⟩] 1).operands.fragments.map (·.x))) 2 ∧
    ((fragState 0 [⟨253, [7]⟩, ⟨255, [8]⟩] 1).operands.fragments ≠ [] ∧
      ((fragState 0 [⟨253, [7]⟩, ⟨255, [8]⟩] 1).operands.fragments.map (·.x)).Nodup) := by
  refine ⟨rfl, ?_, by decide +kernel⟩
  have h : (fragState 0 [⟨1, [0]⟩, ⟨2, [0]⟩, ⟨1, [5]⟩] 1).operands.fragments.map (·.x) = [1, 2, 1] := by
    decide +kernel
  rw [h]; unfold FirstAt Repeats; decide

/-- Two points of a line whose value at 255 is zero, and at 254 is 1 in its first byte. -/
def lineFragments : List Fragment := [⟨0, [255, 0, 0, 0]⟩, ⟨1, [254, 0, 0, 0]⟩]

/-- Two points of the zero line. -/
def zeroFragments : List Fragment := [⟨0, [0, 0, 0, 0]⟩, ⟨1, [0, 0, 0, 0]⟩]

theorem witness_Interp :
    lineFragments ≠ [] ∧ (lineFragments.map (·.x)).Nodup ∧ (∀ f ∈ lineFragments, f.y.length = 4) ∧ (3 : Nat) < 4 ∧
    ([255, 1] : List Byte).length ≤ lineFragments.length ∧
    (∀ f ∈ lineFragments, polynomialAt [255, 1] f.x = f.y.getD 0 0) := by
  decide +kernel

/-- A split request. -/
def splitState (t n : Nat) (s : ByteString) : State :=
  secretState { Csrs.reset with threshold := BitVec.ofNat 5 t, shareCount := BitVec.ofNat 5 n } s []

/-- The threshold, the count and the secret length of a request. -/
def splitShape (s : State) : Nat × Nat × Nat :=
  (s.operands.csr.threshold.toNat, s.operands.csr.shareCount.toNat, s.operands.secretBytes.length)

theorem witness_ShSplit :
    (splitShape (splitState 0 1 []) = (0, 1, 0) ∧ splitShape (splitState 3 2 []) = (3, 2, 0) ∧
      splitShape (splitState 1 17 []) = (1, 17, 0)) ∧
    splitShape (splitState 2 2 [1, 2, 3]) = (2, 2, 3) ∧ splitShape (splitState 1 16 []) = (1, 16, 0) ∧
    splitShape (splitState 2 2 [1, 2, 3, 4]) = (2, 2, 4) ∧
    splitShape (splitState 16 16 (List.replicate 64 1)) = (16, 16, 64) := by decide +kernel

/-- The digest of the four zero bytes with the empty salt. -/
def zeroDigest : ByteString := (Config.digest4 [] [0, 0, 0, 0]).toList

/-- The zero secret and its digest fragment. -/
def digestFragments : List Fragment := [⟨254, zeroDigest⟩, ⟨255, [0, 0, 0, 0]⟩]

theorem gfmul_one_left : ∀ b : Byte, gfmul standardTables 1 b = b := by decide +kernel

theorem zeroDigest_length : zeroDigest.length = 4 := by simp [zeroDigest]

theorem digestFragments_read (s : State) (hs : s = fragState 2 digestFragments 4) :
    s.operands.fragments = digestFragments := by
  subst hs
  exact fragments_of_filled (m := Memory.zero) (L := 4) rfl rfl rfl (by decide) (by simp [digestFragments, zeroDigest_length])

theorem interp_digestFragments :
    interp standardTables digestFragments 255 = [0, 0, 0, 0] ∧ interp standardTables digestFragments 254 = zeroDigest := by
  have hl := zeroDigest_length
  obtain ⟨a, b, c, d, h⟩ : ∃ a b c d, zeroDigest = [a, b, c, d] := by
    match zeroDigest, hl with
    | [a, b, c, d], _ => exact ⟨a, b, c, d, rfl⟩
  have c0 : lagrangeCoeff standardTables [254#8, 255#8] 255#8 0 = 0 ∧
      lagrangeCoeff standardTables [254#8, 255#8] 255#8 1 = 1 ∧
      lagrangeCoeff standardTables [254#8, 255#8] 254#8 0 = 1 ∧
      lagrangeCoeff standardTables [254#8, 255#8] 254#8 1 = 0 := by decide +kernel
  have hz : ∀ b, gfmul standardTables 0#8 b = 0#8 := fun b => by simp [gfmul]
  have ho : ∀ b, gfmul standardTables 1#8 b = b := gfmul_one_left
  constructor <;> simp [interp, digestFragments, h, xsOf, List.range_succ, c0, hz, ho, gfsum, gfadd]

/-- The recombination of the two lines: one of the digests is not the hash port's. -/
theorem recombine_line (P : Ports) : recombine P standardTables 2 lineFragments =
    if [1, 0, 0, 0] ≠ (P.digest4 [] [0, 0, 0, 0]).toList then .error ⟨.digestMismatch, 0⟩ else .ok [0, 0, 0, 0] := by
  have h1 : interp standardTables lineFragments secretX = [0, 0, 0, 0] := by decide +kernel
  have h2 : interp standardTables lineFragments digestX = [1, 0, 0, 0] := by decide +kernel
  have h3 : firstDuplicateX lineFragments = none := by decide +kernel
  simp only [recombine, raiseIf_bind, h1, h2, h3, raiseAt_none_bind]
  rfl

theorem recombine_zero (P : Ports) : recombine P standardTables 2 zeroFragments =
    if [0, 0, 0, 0] ≠ (P.digest4 [] [0, 0, 0, 0]).toList then .error ⟨.digestMismatch, 0⟩ else .ok [0, 0, 0, 0] := by
  have h1 : interp standardTables zeroFragments secretX = [0, 0, 0, 0] := by decide +kernel
  have h2 : interp standardTables zeroFragments digestX = [0, 0, 0, 0] := by decide +kernel
  have h3 : firstDuplicateX zeroFragments = none := by decide +kernel
  simp only [recombine, raiseIf_bind, h1, h2, h3, raiseAt_none_bind]
  rfl

theorem line_or_zero_mismatches (P : Ports) :
    recombine P standardTables 2 lineFragments = .error ⟨.digestMismatch, 0⟩ ∨
    recombine P standardTables 2 zeroFragments = .error ⟨.digestMismatch, 0⟩ := by
  rw [recombine_line, recombine_zero]
  by_cases h : [1, 0, 0, 0] ≠ (P.digest4 [] [0, 0, 0, 0]).toList
  · exact .inl (if_pos h)
  · refine .inr (if_pos fun h' => ?_)
    rw [not_not] at h
    rw [← h] at h'
    exact absurd h' (by decide)

theorem witness_ShRecombine :
    ¬(1 ≤ (fragState 0 [] 4).operands.csr.threshold.toNat) ∧
    ¬((fragState 17 [] 4).operands.csr.threshold.toNat ≤ 16) ∧
    (fragState 16 [] 4).operands.csr.threshold.toNat = 16 ∧ (fragState 16 [] 4).operands.fragments = [] ∧
    FirstAt (Repeats ((fragState 2 [⟨1, [0]⟩, ⟨1, [0]⟩] 1).operands.fragments.map (·.x))) 1 ∧
    (((fragState 3 lineFragments 4).operands.fragments.map (·.x)).Nodup ∧
      (fragState 3 lineFragments 4).operands.fragments.length < 3) ∧
    (((fragState 1 lineFragments 4).operands.fragments.map (·.x)).Nodup ∧
      1 < (fragState 1 lineFragments 4).operands.fragments.length) ∧
    (((fragState 2 [⟨0, [1, 2, 3]⟩, ⟨1, [4, 5, 6]⟩] 3).operands.fragments.map (·.x)).Nodup ∧
      (fragState 2 [⟨0, [1, 2, 3]⟩, ⟨1, [4, 5, 6]⟩] 3).operands.fragments.length = 2) ∧
    (fragState 1 [⟨253, []⟩] 0).operands.fragments = [⟨253, []⟩] := by
  refine ⟨by decide, by decide, rfl, rfl, ?_, by decide +kernel, by decide +kernel, by decide +kernel, by decide +kernel⟩
  have h : (fragState 2 [⟨1, [0]⟩, ⟨1, [0]⟩] 1).operands.fragments.map (·.x) = [1, 1] := by decide +kernel
  rw [h]; unfold FirstAt Repeats; decide

/-- A fragment file of two whose digest is wrong: whatever the hash port answers, one of two files is one. -/
theorem witness_ShRecombine_mismatch :
    ∃ F : List Fragment, (fragState 2 F 4).operands.fragments = F ∧ F.length = 2 ∧ (F.map (·.x)).Nodup ∧
      (interp standardTables F 254).take 4 ≠
        (Config.digest4 ((interp standardTables F 254).drop 4) (interp standardTables F 255)).toList := by
  by_cases h : zeroDigest = [0, 0, 0, 0]
  · refine ⟨lineFragments, by decide +kernel, rfl, by decide, ?_⟩
    have h1 : interp standardTables lineFragments 255 = [0, 0, 0, 0] := by decide +kernel
    have h2 : interp standardTables lineFragments 254 = [1, 0, 0, 0] := by decide +kernel
    rw [h1, h2]
    show [1, 0, 0, 0] ≠ zeroDigest
    rw [h]; decide
  · refine ⟨zeroFragments, by decide +kernel, rfl, by decide, ?_⟩
    have h1 : interp standardTables zeroFragments 255 = [0, 0, 0, 0] := by decide +kernel
    have h2 : interp standardTables zeroFragments 254 = [0, 0, 0, 0] := by decide +kernel
    rw [h1, h2]
    exact fun h' => h h'.symm

/-- A fragment file of two whose digest agrees. -/
theorem witness_ShRecombine_agrees :
    (fragState 2 digestFragments 4).operands.csr.threshold.toNat = 2 ∧
    (fragState 2 digestFragments 4).operands.fragments = digestFragments ∧
    (digestFragments.map (·.x)).Nodup ∧ digestFragments.length = 2 ∧
    (interp standardTables digestFragments 254).take 4 =
      (Config.digest4 ((interp standardTables digestFragments 254).drop 4)
        (interp standardTables digestFragments 255)).toList := by
  refine ⟨rfl, digestFragments_read _ rfl, ?_, rfl, ?_⟩
  · simp [digestFragments]
  · rw [interp_digestFragments.1, interp_digestFragments.2]
    have h := zeroDigest_length
    rw [List.take_of_length_le (by omega), List.drop_of_length_le (by omega)]
    rfl

/-- Ports whose bytes and digests are zero. -/
def zeroPorts : Ports :=
  ⟨fun _ => 0, fun _ _ => Vector.replicate 4 0, fun _ _ _ n => Vector.replicate n 0⟩

theorem witness_ThresholdIsExact :
    split zeroPorts standardTables 0 2 2 [1, 2, 3, 4] ⊆ split zeroPorts standardTables 0 2 2 [1, 2, 3, 4] ∧
    ((split zeroPorts standardTables 0 2 2 [1, 2, 3, 4]).map (·.x)).Nodup ∧
    (split zeroPorts standardTables 0 2 2 [1, 2, 3, 4]).length = 2 ∧
    ((split zeroPorts standardTables 0 2 2 [1, 2, 3, 4]).take 1).length = 2 - 1 ∧
    (2 : Nat) ≤ 2 ∧ (16 : Nat) ≤ 16 ∧ 4 ≤ ([1, 2, 3, 4] : ByteString).length := by
  refine ⟨fun _ h => h, ?_⟩; decide +kernel

/-! ### Cipher -/

/-- The passphrase operand of a state with the passphrase. -/
theorem witness_Cipher :
    (secretState Csrs.reset [1, 2, 3] []).operands.secretBytes.length % 2 = 1 ∧
    (secretState Csrs.reset [] []).operands.secretBytes.length < 2 ∧
    testParams.lMax < (secretState Csrs.reset (List.replicate 10 1) []).operands.secretBytes.length ∧
    (secretState Csrs.reset [1, 2] [0x20, 0x7F]).operands.secretBytes.length = 2 ∧
    PassRefusedAt testParams (secretState Csrs.reset [1, 2] [0x20, 0x7F]).operands.passBytes 1 ∧
    (secretState Csrs.reset (List.replicate 8 1) [0x20, 0x7E]).operands.secretBytes.length = testParams.lMax ∧
    PassAccepted testParams (secretState Csrs.reset (List.replicate 8 1) [0x20, 0x7E]).operands.passBytes := by
  have h1 : (secretState Csrs.reset [1, 2] [0x20, 0x7F]).operands.passBytes = [0x20, 0x7F] := by decide +kernel
  have h2 : (secretState Csrs.reset (List.replicate 8 1) [0x20, 0x7E]).operands.passBytes = [0x20, 0x7E] := by
    decide +kernel
  rw [h1, h2]
  refine ⟨by decide +kernel, by decide +kernel, by decide +kernel, by decide +kernel, ?_, by decide +kernel, ?_⟩
  · refine ⟨⟨by decide, ?_⟩, fun i hi => ?_⟩
    · simp [testParams, PassCharset.Allows]
    · obtain rfl : i = 0 := by omega
      simp [testParams, PassCharset.Allows]
  · simp [PassAccepted, testParams, PassCharset.Allows]

theorem witness_DecryptInvertsEncrypt : ([1, 2, 3, 4] : ByteString).length % 2 = 0 := rfl

/-! ### Shares -/

/-- The text of a share. -/
def text (sh : Share) : ByteString := wordsText testParams (encodeShare testParams sh)

/-- A share whose text decodes to it, checked by evaluation. -/
def Decodes (sh : Share) : Prop := decodeShare testParams (text sh) = .ok (sh, encodeShare testParams sh)

/-- The one share of a 1-of-1 split. -/
def single : Share := ⟨5, 0, 0, 1, 1, 0, 1, [1, 2, 3, 4]⟩
/-- The same with another identifier. -/
def singleOther : Share := { single with identifier := 6 }
/-- Member 0 of group 0 of a 2-member group. -/
def member0 : Share := ⟨7, 0, 0, 1, 2, 0, 2, [1, 2, 3, 4]⟩
/-- Member 1 of that group. -/
def member1 : Share := { member0 with memberIndex := 1, value := [5, 6, 7, 8] }
/-- Member 2 of that group. -/
def member2 : Share := { member0 with memberIndex := 2 }
/-- A share with member 0's index and another value. -/
def clashing : Share := { member0 with value := [9, 9, 9, 9] }
/-- A share of that group with another member threshold. -/
def otherThreshold : Share := { member0 with memberIndex := 3, memberThreshold := 3 }
/-- A share of the other group. -/
def otherGroup : Share := { member0 with groupIndex := 1 }
/-- The two members of a group whose values lie on a line, or are zero. -/
def lineShare (zero : Bool) (i : Nat) : Share :=
  ⟨9, 0, 0, 1, 1, BitVec.ofNat 4 i, 2, if zero then [0, 0, 0, 0] else [BitVec.ofNat 8 (255 - i), 0, 0, 0]⟩
/-- The one share of each of two groups whose values lie on a line, or are zero. -/
def lineGroup (zero : Bool) (i : Nat) : Share :=
  ⟨9, 0, BitVec.ofNat 4 i, 2, 2, 0, 1, if zero then [0, 0, 0, 0] else [BitVec.ofNat 8 (255 - i), 0, 0, 0]⟩

/-- A share decodes from its text when its symbols pass the decoder's checks. -/
theorem decodes_of {sh : Share} (h : decodeSymbols testParams (encodeShare testParams sh) = .ok sh) : Decodes sh := by
  rw [Decodes, decodeShare, text, tokens_wordsText, lookupAll_words, except_ok_bind, h]; rfl

theorem decodes_single : Decodes single ∧ Decodes singleOther :=
  ⟨decodes_of (by decide +kernel), decodes_of (by decide +kernel)⟩

theorem decodes_members : Decodes member0 ∧ Decodes member1 ∧ Decodes member2 ∧ Decodes clashing ∧
    Decodes otherThreshold ∧ Decodes otherGroup :=
  ⟨decodes_of (by decide +kernel), decodes_of (by decide +kernel), decodes_of (by decide +kernel),
    decodes_of (by decide +kernel), decodes_of (by decide +kernel), decodes_of (by decide +kernel)⟩

theorem decodes_lines : ∀ z i, i < 2 → Decodes (lineShare z i) ∧ Decodes (lineGroup z i) := by
  have h : ∀ z i, i < 2 → decodeSymbols testParams (encodeShare testParams (lineShare z i)) = .ok (lineShare z i) ∧
      decodeSymbols testParams (encodeShare testParams (lineGroup z i)) = .ok (lineGroup z i) := by decide +kernel
  exact fun z i hi => ⟨decodes_of (h z i hi).1, decodes_of (h z i hi).2⟩

/-- The text of a share of a four-byte value has 65 bytes. -/
theorem text_length {sh : Share} (h : sh.value.length = 4) : (text sh).length = 65 := by
  rw [text, wordsText_length _ testParams_vocab]
  simp [encodeShare, headerSymbols, pack, h, symbolsFor, checksum]

theorem witness_ShareEncode :
    ¬ ShareFieldsLegal { single with groupIndex := 1 } ∧ ¬ ShareFieldsLegal { single with memberThreshold := 17 } ∧
    ShareFieldsLegal { single with value := [1, 2, 3, 4, 5] } ∧
    (([1, 2, 3, 4, 5] : ByteString).length % 2 = 1 ∧ ([1, 2] : ByteString).length < testParams.minSecret) ∧
    ShareFieldsLegal single ∧ single.value.length % 2 = 0 ∧ testParams.minSecret ≤ single.value.length ∧
    (wordsText testParams (encodeShare testParams single)).length ≤ testParams.tMax ∧
    ({ testParams with tMax := 64 } : Params).tMax <
      (wordsText testParams (encodeShare testParams single)).length := by
  rw [show (wordsText testParams (encodeShare testParams single)).length = 65 from text_length rfl]
  unfold ShareFieldsLegal; decide

/-- Symbols of a text that decodes until the fields are checked, with the checksum made right. -/
def checked (d : List Sym) : List Sym := d ++ checksum testParams d

/-- The symbols' text gives the symbols back, and these are the counts the decoder sees: the word count, the padding bits and
the value length. -/
def DecoderSees (sy : List Sym) (W pad L : Nat) : Prop :=
  SymbolsOf testParams (tokens (textState (wordsText testParams sy)).operands.textBytes) sy ∧
  (tokens (textState (wordsText testParams sy)).operands.textBytes).length = W ∧
  10 * (W - 7) % 16 = pad ∧ (10 * (W - 7) - pad) / 8 = L

theorem decoderSees {sy : List Sym} (W pad L : Nat) (hl : sy.length ≤ 1000)
    (h : sy.length = W ∧ 10 * (W - 7) % 16 = pad ∧ (10 * (W - 7) - pad) / 8 = L) : DecoderSees sy W pad L := by
  rw [DecoderSees, wordsText_read _ hl]
  exact ⟨symbolsOf_words sy, by simpa using h.1, h.2⟩

theorem witness_ShareDecode_counts :
    UnknownAt testParams (tokens (textState [0x57]).operands.textBytes) 0 ∧
    DecoderSees (List.replicate 10 0) 10 14 2 ∧ DecoderSees (List.replicate 12 0) 12 2 6 ∧
    DecoderSees (List.replicate 13 0) 13 12 6 ∧ DecoderSees (List.replicate 15 0) 15 0 10 ∧
    DecoderSees (List.replicate 11 0) 11 8 4 := by
  refine ⟨?_, decoderSees _ _ _ (by decide) (by decide), decoderSees _ _ _ (by decide) (by decide),
    decoderSees _ _ _ (by decide) (by decide), decoderSees _ _ _ (by decide) (by decide),
    decoderSees _ _ _ (by decide) (by decide)⟩
  unfold UnknownAt FirstAt; decide +kernel

theorem witness_ShareDecode :
    polymod (customSymbols testParams ++ List.replicate 11 0) ≠ 1 ∧
    DecoderSees (checked ([0, 0, 0, 0] ++ [4, 0, 0, 0])) 11 8 4 ∧ 2 ^ (8 * 4) ≤ bigEndian ([4, 0, 0, 0] : List Sym) ∧
    DecoderSees (checked ([0, 0, 4, 0] ++ [3, 1023, 1023, 1023])) 11 8 4 ∧
    bigEndian ([3, 1023, 1023, 1023] : List Sym) < 2 ^ (8 * 4) ∧
    bigEndian ([0, 0, 4, 0] : List Sym) / 2 ^ 8 % 16 < bigEndian ([0, 0, 4, 0] : List Sym) / 2 ^ 12 % 16 ∧
    DecoderSees (checked ([0, 0, 0, 0] ++ [3, 1023, 1023, 1023])) 11 8 4 ∧
    polymod (customSymbols testParams ++ checked ([0, 0, 0, 0] ++ [3, 1023, 1023, 1023])) = 1 := by
  refine ⟨by decide +kernel, decoderSees _ _ _ (by decide +kernel) (by decide +kernel), by decide,
    decoderSees _ _ _ (by decide +kernel) (by decide +kernel), by decide, by decide,
    decoderSees _ _ _ (by decide +kernel) (by decide +kernel), by decide +kernel⟩

theorem witness_ShareTextRoundTrip :
    testParams.legal = true ∧ ShareFieldsLegal single ∧ single.value.length % 2 = 0 ∧
    testParams.minSecret ≤ single.value.length ∧ single.value.length ≤ testParams.lMax ∧
    10 < (encodeShare testParams single).length ∧ (1023 : Sym) ≠ (encodeShare testParams single).getD 10 0 := by
  refine ⟨testParams_legal, ?_⟩; unfold ShareFieldsLegal; decide +kernel

theorem witness_GroupFingerprint :
    (member0.identifier = member1.identifier ∧ member0.iterationExponent = member1.iterationExponent ∧
      member0.groupThreshold = member1.groupThreshold ∧ member0.groupCount = member1.groupCount) ∧
    member0.groupIndex = member1.groupIndex ∧ member0.groupIndex ≠ otherGroup.groupIndex ∧
    member0.memberThreshold = member1.memberThreshold ∧ member0.memberIndex ≠ member1.memberIndex := by decide

/-! ### Orchestrator -/

/-- A request to generate. -/
def generateState (gt : Nat) (shapes : List (Nat × Nat)) (s pass : ByteString) : State :=
  let u := secretState { Csrs.reset with
    groupThreshold := BitVec.ofNat 5 gt, groupCount := BitVec.ofNat 5 shapes.length } s pass
  { u with arch := { u.arch with mem := { u.arch.mem with
    groups := Cells.writeList [] 0 (shapes.flatMap fun q => [BitVec.ofNat 5 q.1, BitVec.ofNat 5 q.2]) } } }

/-- The operands of a request: the threshold, the groups, the secret length and the passphrase. -/
def generateShape (s : State) : Nat × List (Nat × Nat) × Nat × ByteString :=
  (s.operands.csr.groupThreshold.toNat, s.operands.groupShapes, s.operands.secretBytes.length, s.operands.passBytes)

theorem witness_Generate :
    testParams.tMax ≤ 4096 ∧ 4 ≤ testParams.minSecret ∧
    generateShape (generateState 1 [] [] []) = (1, [], 0, []) ∧
    generateShape (generateState 2 [(1, 1)] [] []) = (2, [(1, 1)], 0, []) ∧
    (generateShape (generateState 1 (List.replicate 17 (1, 1)) [] [])).2.1.length = 17 ∧
    generateShape (generateState 1 [(2, 3), (1, 2)] [] []) = (1, [(2, 3), (1, 2)], 0, []) ∧
    generateShape (generateState 1 [(1, 1)] [1, 2, 3] []) = (1, [(1, 1)], 3, []) ∧
    generateShape (generateState 1 [(1, 1)] [1, 2, 3, 4] [0x7F]) = (1, [(1, 1)], 4, [0x7F]) ∧
    generateShape (generateState 2 [(1, 1), (16, 16)] [1, 2, 3, 4] []) = (2, [(1, 1), (16, 16)], 4, []) :=
  ⟨by decide, by decide, by decide +kernel, by decide +kernel, by decide +kernel, by decide +kernel, by decide +kernel,
    by decide +kernel, by decide +kernel⟩

theorem witness_Generate_groups :
    GroupLegal (2, 3) ∧ ¬ GroupLegal (1, 2) ∧ GroupLegal (1, 1) ∧ GroupLegal (16, 16) := by
  unfold GroupLegal; decide

theorem witness_Generate_passphrase :
    PassRefusedAt testParams [0x7F] 0 ∧ PassAccepted testParams [] := by
  refine ⟨⟨⟨by decide, ?_⟩, fun i hi => absurd hi (Nat.not_lt_zero i)⟩, by simp [PassAccepted]⟩
  simp [testParams, PassCharset.Allows]

/-- A share of a four-byte value has a text of 65 bytes, whatever the random and hash ports gave: it fits 65 bytes and not
64. -/
theorem witness_Generate_texts (p : Params) (hp : p.vocab.words = vocabTest) (sh : Share) (h : sh.value.length = 4) :
    (wordsText p (encodeShare p sh)).length = 65 := by
  rw [wordsText_length p hp]
  simp [encodeShare, headerSymbols, pack, h, symbolsFor, checksum]

/-- Mnemonics in the slots, and a passphrase. -/
def mnemState (texts : List ByteString) (pass : ByteString) : State :=
  unit { Csrs.reset with mnemCount := BitVec.ofNat 9 texts.length, lenPass := BitVec.ofNat 16 pass.length }
    (putMnemonicsFrom 0 { Memory.zero with pass := Cells.writeList [] 0 pass } texts)

theorem mnemState_read (ts : List ByteString) (pass : ByteString) (hc : ts.length ≤ 256)
    (ht : ∀ t ∈ ts, t.length ≤ 4096) : (mnemState ts pass).operands.mnemonics = ts := by
  refine mnemonics_of_filled rfl ?_ ht
  show (BitVec.ofNat 9 ts.length).toNat = ts.length
  simp; omega

theorem mnemState_texts (shs : List Share) (pass : ByteString) (hc : shs.length ≤ 256)
    (h : ∀ sh ∈ shs, sh.value.length = 4) : (mnemState (shs.map text) pass).operands.mnemonics = shs.map text := by
  refine mnemState_read _ _ (by simpa using hc) fun t ht => ?_
  obtain ⟨sh, hsh, rfl⟩ := List.mem_map.1 ht
  rw [text_length (h sh hsh)]; omega

theorem forall2_of_decodes {shs : List Share} (h : ∀ sh ∈ shs, Decodes sh) :
    List.Forall₂ (fun t sh => ∃ sy, decodeShare testParams t = .ok (sh, sy)) (shs.map text) shs := by
  induction shs with
  | nil => exact .nil
  | cons sh rest ih =>
    exact .cons ⟨_, h sh (List.mem_cons_self ..)⟩ (ih fun x hx => h x (List.mem_cons_of_mem _ hx))

theorem witness_Combine_checks :
    PassRefusedAt testParams (mnemState [] [0x7F]).operands.passBytes 0 ∧
    PassAccepted testParams (mnemState [] []).operands.passBytes ∧ (mnemState [] []).operands.mnemonics = [] ∧
    (mnemState [text single, []] []).operands.mnemonics = [text single, []] ∧
    decodeShare testParams [] = .error ⟨.invalidWordCount, 0⟩ ∧ Decodes single := by
  have h : (mnemState [] [0x7F]).operands.passBytes = [0x7F] := by decide +kernel
  rw [h]
  refine ⟨witness_Generate_passphrase.1, witness_Generate_passphrase.2, rfl, mnemState_read _ _ (by simp) ?_,
    by decide +kernel, decodes_single.1⟩
  simp [text_length (sh := single) rfl]

theorem witness_Combine_params :
    (mnemState ([single, singleOther].map text) []).operands.mnemonics = [single, singleOther].map text ∧
    List.Forall₂ (fun t sh => ∃ sy, decodeShare testParams t = .ok (sh, sy)) ([single, singleOther].map text)
      [single, singleOther] ∧
    FirstAt (fun m => ∃ sh, [single, singleOther][m]? = some sh ∧ commonParams sh ≠ commonParams single) 1 := by
  refine ⟨mnemState_texts _ _ (by decide) (by decide), forall2_of_decodes ?_, ⟨singleOther, rfl, by decide⟩, fun i hi => ?_⟩
  · simp [decodes_single]
  · obtain rfl : i = 0 := by omega
    rintro ⟨sh, h, hn⟩
    cases h; exact hn rfl

theorem witness_Combine_thresholds :
    (mnemState ([member0, otherThreshold].map text) []).operands.mnemonics = [member0, otherThreshold].map text ∧
    List.Forall₂ (fun t sh => ∃ sy, decodeShare testParams t = .ok (sh, sy)) ([member0, otherThreshold].map text)
      [member0, otherThreshold] ∧
    SameParams (commonParams member0) [member0, otherThreshold] ∧
    FirstAt (fun m => ∃ sh, [member0, otherThreshold][m]? = some sh ∧
      ¬ ThresholdsAgree ([member0, otherThreshold].take m ++ [sh])) 1 := by
  refine ⟨mnemState_texts _ _ (by decide) (by decide), forall2_of_decodes (by simp [decodes_members]), by unfold SameParams; decide,
    ⟨otherThreshold, rfl, by unfold ThresholdsAgree; decide⟩, fun i hi => ?_⟩
  obtain rfl : i = 0 := by omega
  rintro ⟨sh, h, hn⟩
  cases h; exact hn (by unfold ThresholdsAgree; decide)

theorem witness_Combine_clash :
    (mnemState ([member0, clashing].map text) []).operands.mnemonics = [member0, clashing].map text ∧
    List.Forall₂ (fun t sh => ∃ sy, decodeShare testParams t = .ok (sh, sy)) ([member0, clashing].map text)
      [member0, clashing] ∧
    SameParams (commonParams member0) [member0, clashing] ∧ ThresholdsAgree [member0, clashing] ∧
    FirstAt (fun m => ∃ sh, [member0, clashing][m]? = some sh ∧ ¬ NoClash ([member0, clashing].take m ++ [sh])) 1 := by
  refine ⟨mnemState_texts _ _ (by decide) (by decide), forall2_of_decodes (by simp [decodes_members]), by unfold SameParams; decide,
    by unfold ThresholdsAgree; decide, ⟨clashing, rfl, by unfold NoClash; decide⟩, fun i hi => ?_⟩
  obtain rfl : i = 0 := by omega
  rintro ⟨sh, h, hn⟩
  cases h; exact hn (by unfold NoClash; decide)

/-- The premises on the shares of a combination. -/
def Combinable (shs : List Share) (sh0 : Share) : Prop :=
  SameParams (commonParams sh0) shs ∧ ThresholdsAgree shs ∧ NoClash shs

theorem witness_Combine_groups :
    (mnemState ([member0].map text) []).operands.mnemonics = [member0].map text ∧ Decodes member0 ∧
    Combinable [member0] member0 ∧ (completeGroups [member0]).length < member0.groupThreshold.toNat := by
  refine ⟨mnemState_texts _ _ (by decide) (by decide), decodes_members.1, ?_, by decide⟩
  unfold Combinable SameParams ThresholdsAgree NoClash; decide

/-- A set of two shares of one group whose digest is wrong: whatever the hash port answers, one of two sets is one. -/
theorem witness_Combine_mismatch :
    ∃ shs sh0 rest, shs = sh0 :: rest ∧ (mnemState (shs.map text) []).operands.mnemonics = shs.map text ∧
      (∀ sh ∈ shs, Decodes sh) ∧ Combinable shs sh0 ∧ sh0.groupThreshold.toNat ≤ (completeGroups shs).length ∧
      (completeGroups shs).take sh0.groupThreshold.toNat = [] ++ 0 :: [] ∧
      recombine Config.ports standardTables (memberThresholdOf (groupOf shs 0)) (memberFragments (groupOf shs 0)) =
        .error ⟨.digestMismatch, 0⟩ := by
  rcases line_or_zero_mismatches Config.ports with h | h
  · refine ⟨_, lineShare false 0, [lineShare false 1], rfl, mnemState_texts _ _ (by decide) (by decide), ?_, ?_, by decide, by decide, ?_⟩
    · simp [decodes_lines]
    · unfold Combinable SameParams ThresholdsAgree NoClash; decide
    · have h1 : memberThresholdOf (groupOf [lineShare false 0, lineShare false 1] 0) = 2 := by decide
      have h2 : memberFragments (groupOf [lineShare false 0, lineShare false 1] 0) = lineFragments := by decide
      rw [h1, h2, h]
  · refine ⟨_, lineShare true 0, [lineShare true 1], rfl, mnemState_texts _ _ (by decide) (by decide), ?_, ?_, by decide, by decide, ?_⟩
    · simp [decodes_lines]
    · unfold Combinable SameParams ThresholdsAgree NoClash; decide
    · have h1 : memberThresholdOf (groupOf [lineShare true 0, lineShare true 1] 0) = 2 := by decide
      have h2 : memberFragments (groupOf [lineShare true 0, lineShare true 1] 0) = zeroFragments := by decide
      rw [h1, h2, h]

/-- A set of one share of each of two groups whose group digest is wrong. -/
theorem witness_Combine_groupMismatch :
    ∃ (z : Bool) (y : Nat → ByteString), let shs := [lineGroup z 0, lineGroup z 1]
      (mnemState (shs.map text) []).operands.mnemonics = shs.map text ∧ (∀ sh ∈ shs, Decodes sh) ∧
      Combinable shs (lineGroup z 0) ∧ (completeGroups shs).take 2 = [0, 1] ∧
      (∀ g ∈ [0, 1], recombine Config.ports standardTables (memberThresholdOf (groupOf shs g))
        (memberFragments (groupOf shs g)) = .ok (y g)) ∧
      recombine Config.ports standardTables 2 ([0, 1].map fun g => Fragment.mk (BitVec.ofNat 8 g) (y g)) =
        .error ⟨.digestMismatch, 0⟩ := by
  have key : ∀ z, let shs := [lineGroup z 0, lineGroup z 1]
      (mnemState (shs.map text) []).operands.mnemonics = shs.map text ∧ Combinable shs (lineGroup z 0) ∧
      (completeGroups shs).take 2 = [0, 1] ∧ memberThresholdOf (groupOf shs 0) = 1 ∧
      memberThresholdOf (groupOf shs 1) = 1 ∧
      memberFragments (groupOf shs 0) = [⟨0, (lineGroup z 0).value⟩] ∧
      memberFragments (groupOf shs 1) = [⟨0, (lineGroup z 1).value⟩] := by
    intro z
    refine ⟨mnemState_texts _ _ (by simp) ?_, ?_⟩
    · cases z <;> decide
    · revert z; unfold Combinable SameParams ThresholdsAgree NoClash; decide +kernel
  have one : ∀ z, ∀ g ∈ [0, 1], recombine Config.ports standardTables
      (memberThresholdOf (groupOf [lineGroup z 0, lineGroup z 1] g))
      (memberFragments (groupOf [lineGroup z 0, lineGroup z 1] g)) = .ok (lineGroup z g).value := by
    intro z g hg
    obtain ⟨_, _, _, h1, h2, h3, h4⟩ := key z
    rcases List.mem_cons.1 hg with rfl | hg
    · rw [h1, h3, recombine_one]
    · obtain rfl : g = 1 := by simpa using hg
      rw [h2, h4, recombine_one]
  rcases line_or_zero_mismatches Config.ports with h | h
  · exact ⟨false, fun g => (lineGroup false g).value, (key false).1, by simp [decodes_lines], (key false).2.1,
      (key false).2.2.1, one false, h⟩
  · exact ⟨true, fun g => (lineGroup true g).value, (key true).1, by simp [decodes_lines], (key true).2.1,
      (key true).2.2.1, one true, h⟩

/-- A share that alone recovers. -/
theorem witness_Combine_success :
    (mnemState ([single].map text) []).operands.mnemonics = [single].map text ∧ Decodes single ∧
    Combinable [single] single ∧ (completeGroups [single]).take single.groupThreshold.toNat = [0] ∧
    recombine Config.ports standardTables (memberThresholdOf (groupOf [single] 0)) (memberFragments (groupOf [single] 0)) =
      .ok [1, 2, 3, 4] ∧
    recombine Config.ports standardTables single.groupThreshold.toNat [⟨0, [1, 2, 3, 4]⟩] = .ok [1, 2, 3, 4] := by
  have h1 : memberFragments (groupOf [single] 0) = [⟨0, [1, 2, 3, 4]⟩] := by decide
  refine ⟨mnemState_texts _ _ (by decide) (by decide), decodes_single.1, ?_, by decide, ?_, recombine_one _ _ _⟩
  · unfold Combinable SameParams ThresholdsAgree NoClash; decide
  · rw [h1]; exact recombine_one _ _ _

theorem witness_Selection :
    let shs := [member2, member1, member0]
    ThresholdsAgree shs ∧ NoClash shs ∧ CompleteGroup shs 0 ∧
    memberFragments (groupOf shs 0) = [⟨0, member0.value⟩, ⟨1, member1.value⟩] ∧ member2.memberIndex.toNat = 2 := by
  unfold ThresholdsAgree NoClash CompleteGroup; decide

theorem witness_GenerateThenCombine :
    let shs := (generateShares zeroPorts standardTables testParams 0 1 [(1, 1)] [1, 2, 3, 4] [] 0).2
    testParams.legal = true ∧ (∀ q ∈ [(1, 1)], GroupLegal q) ∧ ([1, 2, 3, 4] : ByteString).length % 2 = 0 ∧
    testParams.minSecret ≤ 4 ∧ (4 : Nat) ≤ testParams.lMax ∧ PassAccepted testParams [] ∧ shs ⊆ shs ∧
    ([0] : List Nat).Nodup ∧ 1 ≤ ([0] : List Nat).length ∧ (shs.map (·.memberIndex)).Nodup ∧
    (∀ sh ∈ shs, sh.groupIndex.toNat = 0) ∧ (([(1, 1)] : List (Nat × Nat)).getD 0 (0, 0)).1 ≤ shs.length := by
  refine ⟨testParams_legal, ?_, rfl, by decide, by decide, witness_Generate_passphrase.2, fun _ h => h, by decide,
    by decide, by decide +kernel, by decide +kernel, by decide +kernel⟩
  unfold GroupLegal; decide

/-! ### Session -/

/-- A session that holds the shares with their texts. -/
def sessionOf (st : SesState) (shs : List Share) : Session :=
  ⟨st, shs.head?.map commonParams, shs.map fun sh => (sh, text sh)⟩

/-- A unit with a session and a text. -/
def sesState (x : Session) (t : ByteString) : State :=
  { textState t with arch := { (textState t).arch with ses := x } }

/-- The consistency of a session of given shares comes down to facts about the shares. -/
theorem consistent_of (st : SesState) (sh0 : Share) (rest : List Share) (hst : st ≠ .empty)
    (hd : ∀ sh ∈ sh0 :: rest, Decodes sh) (hs : SameParams (commonParams sh0) (sh0 :: rest))
    (ht : ThresholdsAgree (sh0 :: rest))
    (hp : (sh0 :: rest).Pairwise fun a b => ¬(a.groupIndex = b.groupIndex ∧ a.memberIndex = b.memberIndex))
    (hc : st = .complete ↔ (sessionOf st (sh0 :: rest)).isComplete = true) :
    (sessionOf st (sh0 :: rest)).consistent testParams := by
  have held : (sessionOf st (sh0 :: rest)).held = sh0 :: rest := by
    simp [Session.held, sessionOf, Function.comp_def]
  refine .inr ⟨hst, by simp [sessionOf], ⟨commonParams sh0, rfl, by rw [held]; exact hs⟩, ?_, by rw [held]; exact ht,
    by rw [held]; exact hp, hc⟩
  intro e he
  obtain ⟨sh, hsh, rfl⟩ := List.mem_map.1 he
  have h := hd sh hsh
  unfold Decodes at h
  refine ⟨encodeShare testParams sh, ?_⟩
  dsimp only
  rw [h]

theorem consistent_empty (p : Params) : Session.empty.consistent p := .inl ⟨rfl, rfl, rfl⟩

theorem consistent_collecting : (sessionOf .collecting [member0]).consistent testParams := by
  refine consistent_of _ _ _ (by decide) (by simp [decodes_members]) ?_ ?_ (by decide) (by decide)
  · unfold SameParams; decide
  · unfold ThresholdsAgree; decide

theorem consistent_complete : (sessionOf .complete [member0, member1]).consistent testParams := by
  refine consistent_of _ _ _ (by decide) (by simp [decodes_members]) ?_ ?_ (by decide) (by decide)
  · unfold SameParams; decide
  · unfold ThresholdsAgree; decide

/-- The texts the cases of SES_ACCEPT are given. -/
theorem witness_SesAccept_texts :
    (sesState Session.empty []).operands.textBytes = [] ∧
    ∀ sh ∈ [single, member0, member1, member2, clashing, otherThreshold, otherGroup],
      (sesState Session.empty (text sh)).operands.textBytes = text sh := by
  refine ⟨rfl, fun sh h => ?_⟩
  have hl : sh.value.length = 4 := by revert sh; decide
  exact textState_read _ (by rw [text_length hl]; omega)

theorem witness_SesAccept :
    decodeShare testParams [] = .error ⟨.invalidWordCount, 0⟩ ∧ Session.empty.consistent testParams ∧
    (single.groupThreshold = 1 ∧ single.memberThreshold = 1) ∧
    ¬(member0.groupThreshold = 1 ∧ member0.memberThreshold = 1) ∧
    (sessionOf .collecting [member0]).consistent testParams ∧
    (sessionOf .collecting [member0]).params ≠ some (commonParams single) ∧
    (sessionOf .collecting [member0]).params = some (commonParams otherThreshold) ∧
    (∃ h ∈ (sessionOf .collecting [member0]).held,
      h.groupIndex = otherThreshold.groupIndex ∧ h.memberThreshold ≠ otherThreshold.memberThreshold) ∧
    member0 ∈ (sessionOf .collecting [member0]).held ∧
    (clashing ∉ (sessionOf .collecting [member0]).held ∧ ∃ h ∈ (sessionOf .collecting [member0]).held,
      h.groupIndex = clashing.groupIndex ∧ h.memberIndex = clashing.memberIndex) ∧
    ((∀ h ∈ (sessionOf .collecting [member0]).held,
        ¬(h.groupIndex = otherGroup.groupIndex ∧ h.memberIndex = otherGroup.memberIndex)) ∧
      (completeGroups ((sessionOf .collecting [member0]).held ++ [otherGroup])).length <
        otherGroup.groupThreshold.toNat) ∧
    ((∀ h ∈ (sessionOf .collecting [member0]).held,
        ¬(h.groupIndex = member1.groupIndex ∧ h.memberIndex = member1.memberIndex)) ∧
      member1.groupThreshold.toNat ≤
        (completeGroups ((sessionOf .collecting [member0]).held ++ [member1])).length) ∧
    ((sessionOf .complete [member0, member1]).consistent testParams ∧
      ∀ h ∈ (sessionOf .complete [member0, member1]).held,
        ¬(h.groupIndex = member2.groupIndex ∧ h.memberIndex = member2.memberIndex)) := by
  have h1 : (sessionOf .collecting [member0]).held = [member0] := by
    simp [Session.held, sessionOf]
  have h2 : (sessionOf .complete [member0, member1]).held = [member0, member1] := by
    simp [Session.held, sessionOf]
  rw [h1, h2]
  refine ⟨by decide +kernel, consistent_empty _, by decide, by decide, consistent_collecting, by decide, by decide,
    by decide, by decide, by decide, by decide, by decide, consistent_complete, by decide⟩

theorem witness_SesQueries :
    (sessionOf .complete [member0, member1]).consistent testParams ∧
    (sessionOf .complete [member0, member1]).params = some (commonParams member0) ∧
    (sessionOf .complete [member0, member1]).held = [member0, member1] ∧
    (commonParams member0).groupThreshold.toNat ≤ ([0] : List Nat).length ∧
    (sessionOf .collecting [member0]).consistent testParams ∧ (sessionOf .collecting [member0]).held = [member0] ∧
    (∀ g, ¬ CompleteGroup [member0] g) ∧ CompleteGroup [member0, member1] 0 ∧ ¬ CompleteGroup [member0, member1] 1 ∧
    ¬ CompleteGroup [member0, member1] 255 := by
  refine ⟨consistent_complete, rfl, by simp [Session.held, sessionOf], by decide, consistent_collecting,
    by simp [Session.held, sessionOf], ?_, ?_⟩
  · rintro g ⟨sh, h, rfl, hm⟩
    obtain rfl : sh = member0 := by simpa using h
    exact absurd hm (by decide)
  · unfold CompleteGroup; decide

theorem checkPass_empty (p : Params) : checkPass p [] = .ok () := checkPass_of_accepted (by simp [PassAccepted])

theorem witness_SesCombine :
    (sessionOf .collecting [member0]).state ≠ .complete ∧ (sessionOf .complete [single]).state = .complete ∧
    combine Config.ports standardTables testParams [text single] [0x7F] = .error ⟨.invalidPassphraseEncoding, 0⟩ ∧
    combine Config.ports standardTables testParams [text single] [] =
      .ok (decrypt Config.ports testParams [1, 2, 3, 4] [] 0 5) := by
  refine ⟨by decide, rfl, ?_, ?_⟩
  · rw [combine, checkPass_of_refused witness_Generate_passphrase.1]; rfl
  · have hd := decodeAll_of_decodes (forall2_of_decodes (shs := [single]) (by simp [decodes_single])) 0
    obtain ⟨_, _, _, h1, h2, h3⟩ := witness_Combine_success
    have c1 : ([single].findIdx? fun sh => commonParams sh != commonParams single) = none := by decide
    have c2 : firstConflict thresholdsDiffer [] 0 [single] = none := by decide
    have c3 : firstConflict indicesClash [] 0 [single] = none := by decide
    have c4 : ¬ (completeGroups [single]).length < single.groupThreshold.toNat := by decide
    have hc : combineShares Config.ports standardTables testParams single [single] [] =
        .ok (decrypt Config.ports testParams [1, 2, 3, 4] [] 0 5) := by
      rw [combineShares]
      simp only [c1, c2, c3, c4, h1, raiseAt_none_bind, raiseIf_bind, if_false]
      simp only [groupFragments, h2, digestMismatchAs, except_ok_bind, pure_bind]
      rw [show recombine Config.ports standardTables single.groupThreshold.toNat [⟨BitVec.ofNat 8 0, [1, 2, 3, 4]⟩] =
        .ok [1, 2, 3, 4] from h3]
      rfl
    rw [combine, checkPass_empty, except_ok_bind, raiseIf_bind, if_neg (by simp),
      show [text single] = [single].map text from rfl, hd, except_ok_bind]
    exact hc

theorem witness_SessionRegisters :
    Session.empty.consistent testParams ∧ (sessionOf .complete [member0, member1]).consistent testParams ∧
    member0 ∈ [member0, member1] ∧ (15 : Nat) < 16 :=
  ⟨consistent_empty _, consistent_complete, by simp, by decide⟩

/-! ### Every command -/

theorem witness_ErrorsArePrecise :
    exec (.gfDiv 1 0) State.reset = .next afterError ∧ afterError.arch.csr.errCode ≠ 0 := ⟨rfl, by decide⟩

theorem witness_CommandCodes : 4 ≤ testParams.minSecret ∧ Session.empty.consistent testParams :=
  ⟨by decide, consistent_empty _⟩

theorem witness_CommandFrame :
    exec (.gfDiv 1 0) State.reset = .next afterError ∧ Instr.writesSession (.gfDiv 1 0) = false ∧
    Instr.draws (.gfDiv 1 0) = false ∧ afterError.arch.csr.errCode ≠ 0 ∧ Instr.writesResult .nop = false :=
  ⟨rfl, rfl, rfl, by decide, rfl⟩

/-! ### Invariants -/

/-- The machine with a pending NOP. -/
def pendingNop : State := State.reset.accepted 0

theorem step_pendingNop : ∃ t, step pendingNop = .next t := ⟨_, rfl⟩

theorem witness_InvariantMemory : pendingNop.memoryCanonical ∧ ∃ t, step pendingNop = .next t := by
  refine ⟨⟨by decide, fun p hp => ?_⟩, step_pendingNop⟩
  cases hp; decide

theorem witness_InvariantTables : pendingNop.tablesBuilt ∧ ∃ t, step pendingNop = .next t := by
  refine ⟨⟨fun _ => rfl, fun p hp => ?_⟩, step_pendingNop⟩
  cases hp; rfl

theorem zero_withinCapacity (c : Csrs) (hc : c = Csrs.reset ∨ c = { Csrs.reset with cmd := 0, done := false })
    (t : FieldTables) (x : Session) : Arch.withinCapacity Config.standardParams ⟨c, Memory.zero, t, x⟩ := by
  rcases hc with rfl | rfl <;>
    simp [Arch.withinCapacity, Csrs.reset, Memory.zero, Cells.read, Config.standardParams]

theorem witness_InvariantCapacity : pendingNop.capacityKept ∧ ∃ t, step pendingNop = .next t := by
  refine ⟨⟨⟨by decide, by decide, by decide⟩, zero_withinCapacity _ (.inr rfl) _ _, fun p hp => ?_⟩, step_pendingNop⟩
  cases hp
  exact zero_withinCapacity _ (.inl rfl) _ _

theorem witness_InvariantSnapshot : pendingNop.snapshotAgrees ∧ ∃ t, step pendingNop = .next t := by
  refine ⟨fun p hp => ?_, step_pendingNop⟩
  cases hp; exact ⟨rfl, rfl⟩

theorem witness_InvariantSession : pendingNop.sessionConsistent ∧ ∃ t, step pendingNop = .next t := by
  refine ⟨⟨consistent_empty _, fun p hp => ?_⟩, step_pendingNop⟩
  cases hp; exact consistent_empty _

/-! ### Host bus and reset -/

theorem witness_CommandAcceptance :
    ({ State.reset with bus := [.write 0x00000001 5] } : State).bus = .write 0x00000001 5 :: [] ∧
    State.reset.isIdle ∧ (pendingNop.arch.csr.ready = true ∧ pendingNop.pending ≠ none) ∧
    State.reset.onReset.arch.csr.ready = false := by
  refine ⟨rfl, ⟨rfl, rfl⟩, ⟨rfl, by simp [pendingNop, State.accepted]⟩, rfl⟩

theorem witness_BusyWrites :
    (pendingNop.arch.csr.ready = true ∧ pendingNop.pending ≠ none ∧ ∃ t, pendingNop.runUnit = .next t) ∧
    State.reset.onReset.arch.csr.ready = false ∧ State.reset.isIdle ∧
    ReadOnly ((0x02000000 : Word).toNat / 2 ^ 24) ((0x02000000 : Word).toNat % 2 ^ 24) ∧
    NamesNothing testParams ((0x00000027 : Word).toNat / 2 ^ 24) ((0x00000027 : Word).toNat % 2 ^ 24) ∧
    (0x10 : Word).getLsbD 4 = true ∧ (0xFFFFFFEF : Word).getLsbD 4 = false := by
  refine ⟨⟨rfl, by simp [pendingNop, State.accepted], ⟨_, rfl⟩⟩, rfl, ⟨rfl, rfl⟩, .inl (by decide), ?_, by decide, by decide⟩
  exact .inr (.inr (.inr (.inr (by decide))))

theorem witness_BusyReads :
    State.reset.isIdle ∧ pendingNop.pending ≠ none ∧ State.reset.onReset.arch.csr.ready = false ∧ (0x00000001 : Word) ≠ 0x00000000 := by
  refine ⟨⟨rfl, rfl⟩, by simp [pendingNop, State.accepted], rfl, by decide⟩

/-- Idle STATUS writes, vector Y7 after its completion: bit 4 clears OVERRUN, and without it nothing changes. -/
theorem test_status_write_of_idle_unit :
    ((State.reset.putOverrun true).hostWrite 0x00000002 0x10).status = 0x00000008 ∧
    ((State.reset.putOverrun true).hostWrite 0x00000002 0xFFFFFFEF).status = 0x00000018 ∧
    (State.reset.hostWrite 0x00000002 0xFFFFFFEF).status = 0x00000008 := by decide +kernel

theorem witness_RegistersAndBuffers :
    Params.sizesLegal testParams ∧ (7 : Nat) < testParams.lMax ∧ (3 : Nat) < testParams.pMax ∧ (64 : Nat) < testParams.tMax ∧
    elementAddress 0x09 (255 * 4096 + 64) = 0x090FF040 ∧ elementAddress 0x07 (15 * 64 + 7) = 0x070003C7 := by
  refine ⟨⟨by decide, by decide, by decide⟩, by decide, by decide, by decide, by decide, by decide⟩

theorem witness_MissingAddresses :
    NamesNothing testParams ((0x0C000000 : Word).toNat / 2 ^ 24) ((0x0C000000 : Word).toNat % 2 ^ 24) ∧
    NamesNothing testParams ((0x01000008 : Word).toNat / 2 ^ 24) ((0x01000008 : Word).toNat % 2 ^ 24) ∧
    NamesNothing testParams ((0x07000008 : Word).toNat / 2 ^ 24) ((0x07000008 : Word).toNat % 2 ^ 24) ∧
    NamesNothing testParams ((0x09000041 : Word).toNat / 2 ^ 24) ((0x09000041 : Word).toNat % 2 ^ 24) ∧
    NamesNothing testParams ((0x00000007 : Word).toNat / 2 ^ 24) ((0x00000007 : Word).toNat % 2 ^ 24) ∧
    State.reset.isIdle := by
  refine ⟨.inl (by decide), .inr (.inl ⟨8, by decide +kernel, by decide⟩), .inr (.inr (.inl ?_)),
    .inr (.inr (.inr (.inl ?_))), .inr (.inr (.inr (.inr (by decide)))), rfl, rfl⟩
  · exact ⟨by decide, .inr (by decide +kernel)⟩
  · exact ⟨by decide, .inr (by decide +kernel)⟩

theorem witness_WritesReadBack :
    Params.sizesLegal testParams ∧ (unit Csrs.reset Memory.zero).isIdle ∧
    storedNumber testParams ((0x00000008 : Word).toNat / 2 ^ 24) ((0x00000008 : Word).toNat % 2 ^ 24) 200 = some 8 ∧
    storedNumber testParams ((0x04000000 : Word).toNat / 2 ^ 24) ((0x04000000 : Word).toNat % 2 ^ 24) 1025 = some 1 ∧
    storedNumber testParams ((0x0A0000FF : Word).toNat / 2 ^ 24) ((0x0A0000FF : Word).toNat % 2 ^ 24) 66 = some 65 ∧
    (0x00000008 : Word) ≠ 0x0000000A := by
  refine ⟨⟨by decide, by decide, by decide⟩, ⟨rfl, rfl⟩, ?_⟩
  decide +kernel

theorem witness_FixedRegisters :
    testParams.lMax < 256 ∧ testParams.minSecret < 256 ∧ testParams.tMax < 65536 ∧ testParams.pMax < 65536 := by decide

theorem witness_ResetSequence :
    ({ State.reset with bus := [.reset, .unit] } : State).bus = .reset :: .unit :: [] := rfl

end Sys2Proof.Tests
end

/-! PROOFS. How long the results of the shared functions are: the cipher, interpolation and splits, decoding, mnemonics
and combination. -/

namespace Sys2Proof.Machine

/-! ### Checks that passed -/

/-- A computation that begins with a check answers only where the check passed. -/
theorem raiseIf_bind_eq_ok_iff {α : Type} {c : Prop} [Decidable c] {e : CmdError} {n : Nat}
    {f : Unit → Except Raised α} {a : α} : (raiseIf c e n >>= f) = .ok a ↔ ¬ c ∧ f () = .ok a := by
  rw [raiseIf_bind]
  split <;> simp_all

/-- A computation that begins with a search for an offender answers only where none was found. -/
theorem raiseAt_bind_eq_ok_iff {α : Type} {found : Option Nat} {e : CmdError} {g : Nat → Nat}
    {f : Unit → Except Raised α} {a : α} : (raiseAt found e g >>= f) = .ok a ↔ found = none ∧ f () = .ok a := by
  cases found <;> simp

/-! ### Operands (R71 to R76) -/

@[simp] theorem Arch.secretBytes_length (a : Arch) : a.secretBytes.length = a.csr.lenSecret.toNat :=
  Cells.slice_length ..

@[simp] theorem Arch.symbols_length (a : Arch) : a.symbols.length = a.csr.lenSym.toNat := Cells.slice_length ..

@[simp] theorem Arch.groupShapes_length (a : Arch) : a.groupShapes.length = a.csr.groupCount.toNat := by
  simp [Arch.groupShapes]

theorem Arch.fragments_value_length {a : Arch} {f : Fragment} (hf : f ∈ a.fragments) :
    f.y.length = a.csr.lenFrag.toNat := by
  obtain ⟨j, -, rfl⟩ := List.mem_map.1 hf
  exact Cells.slice_length ..

/-! ### Symbols (R172, R196, R263) -/

@[simp] theorem pack_length (b : ByteString) : (pack b).length = symbolsFor b.length := toBigEndian_length ..

@[simp] theorem checksum_length (p : Params) (d : List Sym) : (checksum p d).length = 3 := rfl

@[simp] theorem encodeShare_length (p : Params) (sh : Share) :
    (encodeShare p sh).length = 7 + symbolsFor sh.value.length := by
  simp [encodeShare, headerSymbols]; omega

/-! ### The cipher (R240 to R243) -/

@[simp] theorem roundFunction_length (P : Ports) (p : Params) (i : Nat) (pass : ByteString) (e : BitVec 5)
    (salt half : ByteString) : (roundFunction P p i pass e salt half).length = half.length := by
  simp [roundFunction]

/-- No round lengthens the two halves together. -/
theorem feistelRounds_length_le (P : Ports) (p : Params) (pass : ByteString) (e : BitVec 5) (salt : ByteString)
    (rounds : List Nat) (lr : ByteString × ByteString) :
    (rounds.foldl (feistelRound P p pass e salt) lr).1.length +
      (rounds.foldl (feistelRound P p pass e salt) lr).2.length ≤ lr.1.length + lr.2.length := by
  induction rounds generalizing lr with
  | nil => exact le_refl _
  | cons i rest ih =>
    have round_le : (feistelRound P p pass e salt lr i).1.length + (feistelRound P p pass e salt lr i).2.length ≤
        lr.1.length + lr.2.length := by
      simp [feistelRound]; omega
    exact (ih _).trans round_le

/-- The cipher's output is no longer than its input. -/
theorem feistel_length_le (P : Ports) (p : Params) (rounds : List Nat) (m pass : ByteString) (e : BitVec 5)
    (id : BitVec 15) : (feistel P p rounds m pass e id).length ≤ m.length := by
  have halves := feistelRounds_length_le P p pass e (cipherSalt p id) rounds (m.take (m.length / 2), m.drop (m.length / 2))
  simp only [List.length_take, List.length_drop] at halves
  simp only [feistel, List.length_append]
  omega

/-! ### Interpolation, splits and recombinations (R211, R214, R219) -/

/-- The interpolated value is no longer than the values it is made of. -/
theorem interp_length_le {F : List Fragment} {N : Nat} (h : ∀ f ∈ F, f.y.length ≤ N) (t : FieldTables) (x : Byte) :
    (interp t F x).length ≤ N := by
  rw [interp_length]
  cases F with
  | nil => exact Nat.zero_le N
  | cons f rest => exact h f (List.mem_cons_self ..)

theorem randomFragments_value_length {P : Ports} {pos t L : Nat} {f : Fragment} (hf : f ∈ randomFragments P pos t L) :
    f.y.length = L := by
  obtain ⟨i, -, rfl⟩ := List.mem_map.1 hf
  exact rngDraw_length ..

/-- Every fragment of the basis is as long as the secret: the 4 digest bytes replace 4 bytes of the random salt. -/
theorem splitBasis_value_length {P : Ports} {pos t : Nat} {s : ByteString} (hs : 4 ≤ s.length) {f : Fragment}
    (hf : f ∈ splitBasis P pos t s) : f.y.length = s.length := by
  simp only [splitBasis, List.mem_append, List.mem_cons, List.not_mem_nil, or_false] at hf
  rcases hf with hf | rfl | rfl
  · exact randomFragments_value_length hf
  · simp [digestY]; omega
  · rfl

/-- Every fragment of a split is no longer than the secret. -/
theorem split_value_length_le {P : Ports} {T : FieldTables} {pos t n : Nat} {s : ByteString} (hs : t = 1 ∨ 4 ≤ s.length)
    {f : Fragment} (hf : f ∈ split P T pos t n s) : f.y.length ≤ s.length := by
  unfold split at hf
  split at hf
  · obtain ⟨i, -, rfl⟩ := List.mem_map.1 hf
    exact le_refl _
  · rename_i ht
    rcases List.mem_append.1 hf with hf | hf
    · exact (randomFragments_value_length hf).le
    · obtain ⟨i, -, rfl⟩ := List.mem_map.1 hf
      exact interp_length_le (fun g hg => (splitBasis_value_length (hs.resolve_left ht) hg).le) ..

/-- The checks of SH_SPLIT that passed (R215). -/
theorem splitChecks_eq_ok {t n L : Nat} {u : Unit} (h : splitChecks t n L = .ok u) :
    1 ≤ t ∧ t ≤ n ∧ n ≤ 16 ∧ (t = 1 ∨ 4 ≤ L) := by
  obtain ⟨hrange, h⟩ := raiseIf_bind_eq_ok_iff.1 h
  have hlen := (raiseIf_eq_ok_iff ..).1 h
  omega

/-- A recombined value is no longer than the fragments' values. -/
theorem recombine_length_le {P : Ports} {T : FieldTables} {t : Nat} {F : List Fragment} {y : ByteString} {N : Nat}
    (hF : ∀ f ∈ F, f.y.length ≤ N) (h : recombine P T t F = .ok y) : y.length ≤ N := by
  unfold recombine at h
  obtain ⟨-, h⟩ := raiseIf_bind_eq_ok_iff.1 h
  obtain ⟨-, h⟩ := raiseIf_bind_eq_ok_iff.1 h
  obtain ⟨-, h⟩ := raiseAt_bind_eq_ok_iff.1 h
  obtain ⟨-, h⟩ := raiseIf_bind_eq_ok_iff.1 h
  obtain ⟨-, h⟩ := raiseIf_bind_eq_ok_iff.1 h
  dsimp only at h
  split at h
  · cases h
    cases F with
    | nil => exact Nat.zero_le N
    | cons f rest => exact hF f (List.mem_cons_self ..)
  · obtain ⟨-, h⟩ := raiseIf_bind_eq_ok_iff.1 h
    obtain ⟨-, h⟩ := raiseIf_bind_eq_ok_iff.1 h
    cases h
    exact interp_length_le hF ..

/-! ### Decoded shares (R265) -/

/-- A decoded share has `V = W - 7` value symbols, and its value is the whole even number of bytes they hold, within
`L_MAX`. -/
theorem decodeSymbols_value_length {p : Params} {sy : List Sym} {sh : Share} (h : decodeSymbols p sy = .ok sh) :
    sh.value.length = (10 * (sy.length - 7) - paddingBits (sy.length - 7)) / 8 ∧ sh.value.length ≤ p.lMax := by
  unfold decodeSymbols at h
  obtain ⟨-, h⟩ := raiseIf_bind_eq_ok_iff.1 h
  obtain ⟨-, h⟩ := raiseIf_bind_eq_ok_iff.1 h
  obtain ⟨hfits, h⟩ := raiseIf_bind_eq_ok_iff.1 h
  obtain ⟨-, h⟩ := raiseIf_bind_eq_ok_iff.1 h
  obtain ⟨-, h⟩ := raiseIf_bind_eq_ok_iff.1 h
  obtain ⟨-, h⟩ := raiseIf_bind_eq_ok_iff.1 h
  cases h
  simp only [shareFromHeader, toBigEndian_length, true_and]
  omega

theorem decodeShare_eq_ok {p : Params} {t : ByteString} {r : Share × List Sym} (h : decodeShare p t = .ok r) :
    lookupAll p 0 (tokens t) = .ok r.2 ∧ decodeSymbols p r.2 = .ok r.1 := by
  obtain ⟨sy, hlookup, h⟩ := bind_eq_ok h
  obtain ⟨sh, hdecode, h⟩ := bind_eq_ok h
  cases h
  exact ⟨hlookup, hdecode⟩

theorem decodeShare_value_length_le {p : Params} {t : ByteString} {r : Share × List Sym} (h : decodeShare p t = .ok r) :
    r.1.value.length ≤ p.lMax :=
  (decodeSymbols_value_length (decodeShare_eq_ok h).2).2

/-- The symbols of a share whose value has at most 64 bytes fit `SYM`: at most 52 hold the value. -/
theorem decodeShare_symbols_length_le {p : Params} {t : ByteString} {r : Share × List Sym} (hp : p.lMax ≤ 64)
    (h : decodeShare p t = .ok r) : r.2.length ≤ 64 := by
  obtain ⟨hlen, hle⟩ := decodeSymbols_value_length (decodeShare_eq_ok h).2
  simp only [paddingBits] at hlen
  omega

theorem decodeAll_value_length_le {p : Params} {m : Nat} {ts : List ByteString} {shs : List Share}
    (h : decodeAll p m ts = .ok shs) : ∀ sh ∈ shs, sh.value.length ≤ p.lMax := by
  replace h := decodeAll_ok h
  induction h with
  | nil => simp
  | cons hd _ ih =>
    obtain ⟨sy, hd⟩ := hd
    exact List.forall_mem_cons.2 ⟨decodeShare_value_length_le hd, ih⟩

/-! ### Combination (R285, R286) -/

theorem memberFragments_value_length_le {shs : List Share} {N : Nat} (h : ∀ sh ∈ shs, sh.value.length ≤ N) {f : Fragment}
    (hf : f ∈ memberFragments shs) : f.y.length ≤ N := by
  obtain ⟨i, -, rfl⟩ := List.mem_map.1 hf
  cases hfind : shs.find? fun sh => sh.memberIndex.toNat == i with
  | none => simp
  | some sh => simpa using h sh (List.mem_of_find?_eq_some hfind)

/-- Where the digest error is only renamed, an answer is the renamed computation's. -/
theorem digestMismatchAs_eq_ok {α : Type} {d : Nat} {x : Except Raised α} {a : α} (h : digestMismatchAs d x = .ok a) :
    x = .ok a := by
  cases x with
  | ok b => exact h
  | error e => simp only [digestMismatchAs] at h; split at h <;> cases h

theorem groupFragments_value_length_le {P : Ports} {T : FieldTables} {shs : List Share} {N : Nat}
    (hshs : ∀ sh ∈ shs, sh.value.length ≤ N) {gs : List Nat} {F : List Fragment} (h : groupFragments P T shs gs = .ok F) :
    ∀ f ∈ F, f.y.length ≤ N := by
  induction gs generalizing F with
  | nil => cases h; simp
  | cons g gs ih =>
    obtain ⟨y, hy, h⟩ := bind_eq_ok h
    obtain ⟨rest, hrest, h⟩ := bind_eq_ok h
    cases h
    have hgroup : ∀ sh ∈ groupOf shs g, sh.value.length ≤ N := fun sh hsh => hshs sh (List.mem_of_mem_filter hsh)
    have hy_le : y.length ≤ N :=
      recombine_length_le (fun _ => memberFragments_value_length_le hgroup) (digestMismatchAs_eq_ok hy)
    exact List.forall_mem_cons.2 ⟨hy_le, ih hrest⟩

theorem combineShares_length_le {P : Ports} {T : FieldTables} {p : Params} {sh0 : Share} {shs : List Share}
    {pass y : ByteString} {N : Nat} (hshs : ∀ sh ∈ shs, sh.value.length ≤ N)
    (h : combineShares P T p sh0 shs pass = .ok y) : y.length ≤ N := by
  unfold combineShares at h
  obtain ⟨-, h⟩ := raiseAt_bind_eq_ok_iff.1 h
  obtain ⟨-, h⟩ := raiseAt_bind_eq_ok_iff.1 h
  obtain ⟨-, h⟩ := raiseAt_bind_eq_ok_iff.1 h
  obtain ⟨-, h⟩ := raiseIf_bind_eq_ok_iff.1 h
  obtain ⟨GF, hGF, h⟩ := bind_eq_ok h
  obtain ⟨ems, hems, h⟩ := bind_eq_ok h
  cases h
  exact (feistel_length_le ..).trans
    (recombine_length_le (groupFragments_value_length_le hshs hGF) (digestMismatchAs_eq_ok hems))

/-- A combined secret fits `RESULT`. -/
theorem combine_length_le {P : Ports} {T : FieldTables} {p : Params} {texts : List ByteString} {pass y : ByteString}
    (h : combine P T p texts pass = .ok y) : y.length ≤ p.lMax := by
  obtain ⟨-, -, h⟩ := bind_eq_ok h
  obtain ⟨-, h⟩ := raiseIf_bind_eq_ok_iff.1 h
  obtain ⟨shs, hshs, h⟩ := bind_eq_ok h
  cases shs with
  | nil => cases h
  | cons sh0 rest => exact combineShares_length_le (decodeAll_value_length_le hshs) h

/-! ### Generated shares (R280, R281, R283) -/

/-- The shapes of groups that passed the validation (R280). -/
theorem genValidate_eq_ok {p : Params} {gt : Nat} {groups : List (Nat × Nat)} {S pass : ByteString} {u : Unit}
    (h : genValidate p gt groups S pass = .ok u) : groups.length ≤ 16 ∧ ∀ g ∈ groups, legalGroup g = true := by
  obtain ⟨hcount, h⟩ := raiseIf_bind_eq_ok_iff.1 h
  obtain ⟨hlegal, -⟩ := raiseAt_bind_eq_ok_iff.1 h
  refine ⟨by simp only [groupCapacity] at hcount; omega, fun g hg => ?_⟩
  simpa using List.findIdx?_eq_none_iff.1 hlegal g hg

theorem legalGroup_iff (g : Nat × Nat) :
    legalGroup g = true ↔ 1 ≤ g.1 ∧ g.1 ≤ g.2 ∧ g.2 ≤ memberCapacity ∧ ¬(g.1 = 1 ∧ 1 < g.2) := by
  simp [legalGroup, and_assoc, imp_iff_not_or]

/-- Legal groups have at most 16 shares each. -/
theorem splitMembers_length_le (P : Ports) (T : FieldTables) (id : BitVec 15) (e : BitVec 5) (gt gc : Nat)
    {shapes : List (Nat × Nat)} (h : ∀ g ∈ shapes, legalGroup g = true) (Gs : List Fragment) (g pos : Nat) :
    (splitMembers P T id e gt gc g pos shapes Gs).length ≤ 16 * shapes.length := by
  induction shapes generalizing Gs g pos with
  | nil => simp [splitMembers]
  | cons shape rest ih =>
    obtain ⟨mt, mc⟩ := shape
    obtain ⟨hshape, hrest⟩ := List.forall_mem_cons.1 h
    obtain ⟨-, hle, hcap, -⟩ := (legalGroup_iff _).1 hshape
    dsimp only [memberCapacity] at hle hcap
    cases Gs with
    | nil => simp [splitMembers]
    | cons G Gs =>
      have := ih hrest Gs (g + 1) (pos + splitDraws mt G.y.length)
      have hsplit : (split P T pos mt mc G.y).length = mc := split_length P T pos mt mc G.y (.inr (by omega))
      simp only [splitMembers, List.length_append, List.length_map, hsplit, List.length_cons]
      omega

end Sys2Proof.Machine

/-! PROOFS. What keeps the unit within its capacities (R12, R43 to R51, R71 to R80): one lemma per store of the commands, per
host write and per command, up to the step. -/

namespace Sys2Proof.Machine

/-! ### The elements a write lists -/

/-- A write of an element in the set `P` lists elements of `P` only. -/
theorem Cells.forall_mem_write {w : Nat} (P : Nat → Prop) {c : Cells w} (hc : ∀ e ∈ c, P e.1) {i : Nat} (hi : P i)
    (v : BitVec w) : ∀ e ∈ Cells.write c i v, P e.1 := by
  intro e he
  unfold Cells.write at he
  split at he
  · rw [Cells.erase_eq_filter] at he
    exact hc e (List.mem_of_mem_filter he)
  · rcases Cells.mem_insert he with rfl | he
    · exact hi
    · exact hc e he

/-- A block write inside the set `P` lists elements of `P` only. -/
theorem Cells.forall_mem_writeList {w : Nat} (P : Nat → Prop) {c : Cells w} (hc : ∀ e ∈ c, P e.1) {base : Nat}
    {vs : List (BitVec w)} (hvs : ∀ i, base ≤ i → i < base + vs.length → P i) :
    ∀ e ∈ Cells.writeList c base vs, P e.1 := by
  induction vs generalizing c base with
  | nil => exact hc
  | cons v vs ih =>
    simp only [List.length_cons] at hvs
    have hfirst : P base := hvs base (le_refl _) (by omega)
    exact ih (Cells.forall_mem_write P hc hfirst v) fun i h1 h2 => hvs i (by omega) (by omega)

/-! ### The two halves of `withinCapacity`, with their parts named -/

/-- The length and count registers are within the capacities (R43 to R51). -/
structure Csrs.WithinCapacity (p : Params) (c : Csrs) : Prop where
  lenSecret : c.lenSecret.toNat ≤ p.lMax
  lenResult : c.lenResult.toNat ≤ p.lMax
  lenPass : c.lenPass.toNat ≤ p.pMax
  lenSym : c.lenSym.toNat ≤ 64
  lenText : c.lenText.toNat ≤ p.tMax
  fragCount : c.fragCount.toNat ≤ 16
  lenFrag : c.lenFrag.toNat ≤ p.lMax
  groupCount : c.groupCount.toNat ≤ 16
  mnemCount : c.mnemCount.toNat ≤ 256

/-- No element outside its space is listed, and no mnemonic is longer than its slot (R71 to R80). -/
structure Memory.WithinCapacity (p : Params) (m : Memory) : Prop where
  slotLength : ∀ k, (Cells.read m.mnemLen k).toNat ≤ p.tMax
  secret : ∀ e ∈ m.secret, e.1 < p.lMax
  result : ∀ e ∈ m.result, e.1 < p.lMax
  pass : ∀ e ∈ m.pass, e.1 < p.pMax
  sym : ∀ e ∈ m.sym, e.1 < 64
  text : ∀ e ∈ m.text, e.1 < p.tMax
  fragX : ∀ e ∈ m.fragX, e.1 < 16
  fragY : ∀ e ∈ m.fragY, e.1 / 64 < 16 ∧ e.1 % 64 < p.lMax
  groups : ∀ e ∈ m.groups, e.1 < 32
  mnem : ∀ e ∈ m.mnem, e.1 / 4096 < 256 ∧ e.1 % 4096 < p.tMax
  mnemLen : ∀ e ∈ m.mnemLen, e.1 < 256

theorem Arch.withinCapacity_iff (p : Params) (a : Arch) :
    a.withinCapacity p ↔ a.csr.WithinCapacity p ∧ a.mem.WithinCapacity p := by
  constructor
  · rintro ⟨h1, h2, h3, h4, h5, h6, h7, h8, h9, hm⟩
    obtain ⟨m1, m2, m3, m4, m5, m6, m7, m8, m9, m10, m11⟩ := hm
    exact ⟨⟨h1, h2, h3, h4, h5, h6, h7, h8, h9⟩, ⟨m1, m2, m3, m4, m5, m6, m7, m8, m9, m10, m11⟩⟩
  · rintro ⟨⟨h1, h2, h3, h4, h5, h6, h7, h8, h9⟩, ⟨m1, m2, m3, m4, m5, m6, m7, m8, m9, m10, m11⟩⟩
    exact ⟨h1, h2, h3, h4, h5, h6, h7, h8, h9, m1, m2, m3, m4, m5, m6, m7, m8, m9, m10, m11⟩

theorem Csrs.reset_withinCapacity (p : Params) : Csrs.reset.WithinCapacity p := by
  constructor <;> exact Nat.zero_le _

theorem Memory.zero_withinCapacity (p : Params) : Memory.zero.WithinCapacity p where
  slotLength _ := Nat.zero_le _
  secret := List.forall_mem_nil _
  result := List.forall_mem_nil _
  pass := List.forall_mem_nil _
  sym := List.forall_mem_nil _
  text := List.forall_mem_nil _
  fragX := List.forall_mem_nil _
  fragY := List.forall_mem_nil _
  groups := List.forall_mem_nil _
  mnem := List.forall_mem_nil _
  mnemLen := List.forall_mem_nil _

/-! ### Stores of the commands (R105) -/

section Stores

variable {p : Params} {a : Arch}

/-- A register is no greater than the number stored in it, whatever its width. -/
theorem ofNat_toNat_le {w n cap : Nat} (h : n ≤ cap) : (BitVec.ofNat w n).toNat ≤ cap := by
  rw [BitVec.toNat_ofNat]
  exact (Nat.mod_le ..).trans h

theorem Arch.putResult_withinCapacity (h : a.withinCapacity p) (v : Word) : (a.putResult v).withinCapacity p := h

theorem Arch.putSession_withinCapacity (h : a.withinCapacity p) (x : Session) : (a.putSession x).withinCapacity p := h

theorem Arch.putShareFields_withinCapacity (h : a.withinCapacity p) (sh : Share) :
    (a.putShareFields sh).withinCapacity p := h

theorem Arch.putResultBytes_withinCapacity (h : a.withinCapacity p) {bs : ByteString} (hbs : bs.length ≤ p.lMax) :
    (a.putResultBytes bs).withinCapacity p := by
  obtain ⟨hc, hm⟩ := (Arch.withinCapacity_iff ..).1 h
  exact (Arch.withinCapacity_iff ..).2
    ⟨{ hc with lenResult := ofNat_toNat_le hbs },
      { hm with result := Cells.forall_mem_writeList (· < p.lMax) hm.result fun i _ hi => by omega }⟩

theorem Arch.putSymbols_withinCapacity (h : a.withinCapacity p) {base : Nat} {s : List Sym}
    (hs : base + s.length ≤ 64) : (a.putSymbols base s).withinCapacity p := by
  obtain ⟨hc, hm⟩ := (Arch.withinCapacity_iff ..).1 h
  exact (Arch.withinCapacity_iff ..).2
    ⟨{ hc with lenSym := ofNat_toNat_le hs },
      { hm with sym := Cells.forall_mem_writeList (· < 64) hm.sym fun i _ hi => by omega }⟩

theorem Arch.putText_withinCapacity (h : a.withinCapacity p) {t : ByteString} (ht : t.length ≤ p.tMax) :
    (a.putText t).withinCapacity p := by
  obtain ⟨hc, hm⟩ := (Arch.withinCapacity_iff ..).1 h
  exact (Arch.withinCapacity_iff ..).2
    ⟨{ hc with lenText := ofNat_toNat_le ht },
      { hm with text := Cells.forall_mem_writeList (· < p.tMax) hm.text fun i _ hi => by omega }⟩

/-- Fragments written from slot `j` on fill rows of `FRAG_Y` that exist, where there are enough slots. -/
theorem putFragmentsFrom_withinCapacity (hp : p.lMax ≤ 64) {F : List Fragment} (hF : ∀ f ∈ F, f.y.length ≤ p.lMax)
    {j : Nat} (hj : j + F.length ≤ 16) {m : Memory} (h : m.WithinCapacity p) :
    (putFragmentsFrom j m F).WithinCapacity p := by
  induction F generalizing j m with
  | nil => exact h
  | cons f rest ih =>
    obtain ⟨hf, hrest⟩ := List.forall_mem_cons.1 hF
    rw [List.length_cons] at hj
    have rows : ∀ i, j * 64 ≤ i → i < j * 64 + f.y.length → i / 64 < 16 ∧ i % 64 < p.lMax := by omega
    exact ih hrest (by omega)
      { h with
        fragX := Cells.forall_mem_write (· < 16) h.fragX (by omega) f.x
        fragY := Cells.forall_mem_writeList (fun i => i / 64 < 16 ∧ i % 64 < p.lMax) h.fragY rows }

theorem Arch.putFragments_withinCapacity (h : a.withinCapacity p) (hp : p.lMax ≤ 64) {F : List Fragment} {L : Nat}
    (hcount : F.length ≤ 16) (hL : L ≤ p.lMax) (hF : ∀ f ∈ F, f.y.length ≤ p.lMax) :
    (a.putFragments F L).withinCapacity p := by
  obtain ⟨hc, hm⟩ := (Arch.withinCapacity_iff ..).1 h
  exact (Arch.withinCapacity_iff ..).2
    ⟨{ hc with fragCount := ofNat_toNat_le hcount, lenFrag := ofNat_toNat_le hL },
      putFragmentsFrom_withinCapacity hp hF (by omega) hm⟩

/-- A length written to `MNEM_LEN` within `T_MAX` keeps every slot's length within it. -/
theorem read_write_mnemLen_le {c : Cells 13} {cap : Nat} (h : ∀ k, (Cells.read c k).toNat ≤ cap) (i : Nat) {v : BitVec 13}
    (hv : v.toNat ≤ cap) (k : Nat) : (Cells.read (Cells.write c i v) k).toNat ≤ cap := by
  rw [Cells.read_write]
  split
  · exact hv
  · exact h k

/-- Mnemonics written from slot `j` on fill slots of `MNEM` that exist, where there are enough slots. -/
theorem putMnemonicsFrom_withinCapacity (hp : p.tMax ≤ 4096) {ts : List ByteString} (hts : ∀ t ∈ ts, t.length ≤ p.tMax)
    {j : Nat} (hj : j + ts.length ≤ 256) {m : Memory} (h : m.WithinCapacity p) :
    (putMnemonicsFrom j m ts).WithinCapacity p := by
  induction ts generalizing j m with
  | nil => exact h
  | cons t rest ih =>
    obtain ⟨ht, hrest⟩ := List.forall_mem_cons.1 hts
    rw [List.length_cons] at hj
    have slots : ∀ i, j * 4096 ≤ i → i < j * 4096 + t.length → i / 4096 < 256 ∧ i % 4096 < p.tMax := by omega
    exact ih hrest (by omega)
      { h with
        slotLength := read_write_mnemLen_le h.slotLength j (ofNat_toNat_le ht)
        mnem := Cells.forall_mem_writeList (fun i => i / 4096 < 256 ∧ i % 4096 < p.tMax) h.mnem slots
        mnemLen := Cells.forall_mem_write (· < 256) h.mnemLen (by omega) _ }

theorem Arch.putMnemonics_withinCapacity (h : a.withinCapacity p) (hp : p.tMax ≤ 4096) {ts : List ByteString}
    (hcount : ts.length ≤ 256) (hts : ∀ t ∈ ts, t.length ≤ p.tMax) (id : BitVec 15) :
    (a.putMnemonics ts id).withinCapacity p := by
  obtain ⟨hc, hm⟩ := (Arch.withinCapacity_iff ..).1 h
  exact (Arch.withinCapacity_iff ..).2
    ⟨{ hc with mnemCount := ofNat_toNat_le hcount }, putMnemonicsFrom_withinCapacity hp hts (by omega) hm⟩

end Stores

/-! ### Host writes (R43 to R51, R93) -/

theorem warl_toNat_le (w : Nat) (v : Word) (cap : Nat) : (warl w v cap).toNat ≤ cap :=
  ofNat_toNat_le (Nat.min_le_right ..)

/-- A host write of a register keeps the lengths and counts within the capacities. -/
theorem Csrs.write_withinCapacity {p : Params} {c : Csrs} (h : c.WithinCapacity p) (n : Nat) (v : Word) :
    (Csrs.write p c n v).WithinCapacity p := by
  unfold Csrs.write
  split
  case h_1 => exact { h with lenSecret := warl_toNat_le .. }
  case h_2 => exact { h with lenPass := warl_toNat_le .. }
  case h_3 => exact { h with lenSym := warl_toNat_le .. }
  case h_4 => exact { h with lenText := warl_toNat_le .. }
  case h_5 => exact { h with fragCount := warl_toNat_le .. }
  case h_6 => exact { h with lenFrag := warl_toNat_le .. }
  case h_7 => exact { h with groupCount := warl_toNat_le .. }
  case h_8 => exact { h with mnemCount := warl_toNat_le .. }
  all_goals exact { h with }

/-- A host write of an element that exists lists no element outside its space. -/
theorem Memory.write_withinCapacity {p : Params} {m : Memory} (h : m.WithinCapacity p) {sp i : Nat}
    (hi : hasElement p sp i = true) (v : Word) : (Memory.write p m sp i v).WithinCapacity p := by
  unfold Memory.write
  split <;> simp only [hasElement, decide_eq_true_eq, Bool.and_eq_true] at hi
  case h_1 => exact { h with secret := Cells.forall_mem_write (· < p.lMax) h.secret hi _ }
  case h_2 => exact { h with pass := Cells.forall_mem_write (· < p.pMax) h.pass hi _ }
  case h_3 => exact { h with sym := Cells.forall_mem_write (· < 64) h.sym hi _ }
  case h_4 => exact { h with text := Cells.forall_mem_write (· < p.tMax) h.text hi _ }
  case h_5 => exact { h with fragX := Cells.forall_mem_write (· < 16) h.fragX hi _ }
  case h_6 => exact { h with fragY := Cells.forall_mem_write (fun i => i / 64 < 16 ∧ i % 64 < p.lMax) h.fragY hi _ }
  case h_7 => exact { h with groups := Cells.forall_mem_write (· < 32) h.groups hi _ }
  case h_8 => exact { h with mnem := Cells.forall_mem_write (fun i => i / 4096 < 256 ∧ i % 4096 < p.tMax) h.mnem hi _ }
  case h_9 =>
    exact { h with
      slotLength := read_write_mnemLen_le h.slotLength i (warl_toNat_le ..)
      mnemLen := Cells.forall_mem_write (· < 256) h.mnemLen hi _ }
  case h_10 => exact h

end Sys2Proof.Machine

/-! PROOFS. Every command and every step keeps the unit within its capacities; the state after reset meets the invariants. -/

namespace Sys2Proof.Machine

/-! ### The parts of `capacityKept` -/

theorem State.capacityKept.sizes {s : State} (hs : s.capacityKept) : Params.sizesLegal s.params := hs.1

theorem State.capacityKept.lMax_le {s : State} (hs : s.capacityKept) : s.params.lMax ≤ 64 := hs.sizes.1

theorem State.capacityKept.tMax_le {s : State} (hs : s.capacityKept) : s.params.tMax ≤ 4096 := hs.sizes.2.1

theorem State.capacityKept.arch {s : State} (hs : s.capacityKept) : s.arch.withinCapacity s.params := hs.2.1

theorem State.capacityKept.snapshot {s : State} (hs : s.capacityKept) :
    ∀ p ∈ s.pending, p.snapshot.withinCapacity s.params := hs.2.2

/-- The operands of the running command, those of its snapshot or of the unit, have their lengths and counts within the
capacities. -/
theorem State.capacityKept.operands {s : State} (hs : s.capacityKept) : s.operands.csr.WithinCapacity s.params := by
  unfold State.operands
  split
  · rename_i p hp
    exact ((Arch.withinCapacity_iff ..).1 (hs.snapshot p hp)).1
  · exact ((Arch.withinCapacity_iff ..).1 hs.arch).1

/-! ### Completions -/

theorem State.raise_capacityKept {s : State} (hs : s.capacityKept) (e : Raised) : (s.raise e).capacityKept :=
  ⟨hs.sizes, hs.arch, by simp⟩

/-- A completion keeps the capacities where the outputs, if the command computed any, are within them. -/
theorem State.finish_capacityKept {s t : State} {r : Except Raised Arch} (hs : s.capacityKept)
    (h : s.finish r = .next t) (hr : ∀ a, r = .ok a → a.withinCapacity s.params) : t.capacityKept := by
  rcases State.finish_cases h with ⟨a, ha, rfl⟩ | ⟨e, -, rfl⟩
  · exact ⟨hs.sizes, hr a ha, by simp⟩
  · exact ⟨hs.sizes, hs.arch, by simp⟩

theorem State.finish_ok_capacityKept {s t : State} {a : Arch} (hs : s.capacityKept) (h : s.finish (.ok a) = .next t)
    (ha : a.withinCapacity s.params) : t.capacityKept :=
  State.finish_capacityKept hs h fun _ hok => by cases hok; exact ha

theorem State.finishDrawn_capacityKept {s t : State} {pos : Nat} {r : Except Raised Arch} (hs : s.capacityKept)
    (h : s.finishDrawn pos r = .next t) (hr : ∀ a, r = .ok a → a.withinCapacity s.params) : t.capacityKept :=
  State.finish_capacityKept (s := { s with draws := pos }) hs h hr

/-! ### The commands that write lengths, counts or buffers -/

section Commands

variable {s t : State} (hs : s.capacityKept)
include hs

/-- CHK_CREATE (R173): the check leaves room for the three checksum symbols. -/
theorem execChkCreate_capacityKept (h : execChkCreate s = .next t) : t.capacityKept := by
  refine State.finish_capacityKept hs h fun a ha => ?_
  obtain ⟨hfits, ha⟩ := raiseIf_bind_eq_ok_iff.1 ha
  cases ha
  exact Arch.putSymbols_withinCapacity hs.arch (by simpa [symCapacity] using hfits)

/-- WC_PACK (R192): at most 64 bytes pack into at most 52 symbols. -/
theorem execWcPack_capacityKept (h : execWcPack s = .next t) : t.capacityKept := by
  have hbytes := hs.operands.lenSecret
  have hmax := hs.lMax_le
  refine State.finish_ok_capacityKept hs h (Arch.putSymbols_withinCapacity hs.arch ?_)
  simp only [pack_length, Arch.secretBytes_length, symbolsFor]
  omega

/-- WC_UNPACK (R193): the number of bytes is checked. -/
theorem execWcUnpack_capacityKept {n : Byte} (h : execWcUnpack n s = .next t) : t.capacityKept := by
  refine State.finish_capacityKept hs h fun a ha => ?_
  obtain ⟨hfits, ha⟩ := raiseIf_bind_eq_ok_iff.1 ha
  obtain ⟨-, ha⟩ := raiseIf_bind_eq_ok_iff.1 ha
  cases ha
  exact Arch.putResultBytes_withinCapacity hs.arch (by simpa using hfits)

/-- WC_TO_WORDS (R194): the length of the text is checked. -/
theorem execWcToWords_capacityKept (h : execWcToWords s = .next t) : t.capacityKept := by
  refine State.finish_capacityKept hs h fun a ha => ?_
  obtain ⟨hfits, ha⟩ := raiseIf_bind_eq_ok_iff.1 ha
  cases ha
  exact Arch.putText_withinCapacity hs.arch (Nat.not_lt.1 hfits)

/-- WC_FROM_WORDS (R195): the number of symbols is checked. -/
theorem execWcFromWords_capacityKept (h : execWcFromWords s = .next t) : t.capacityKept := by
  refine State.finish_capacityKept hs h fun a ha => ?_
  obtain ⟨vs, -, ha⟩ := bind_eq_ok ha
  obtain ⟨hfits, ha⟩ := raiseIf_bind_eq_ok_iff.1 ha
  cases ha
  exact Arch.putSymbols_withinCapacity hs.arch (by simpa [symCapacity] using hfits)

/-- SH_INTERPOLATE (R212): the value is as long as the fragments. -/
theorem execShInterpolate_capacityKept {x : Byte} (h : execShInterpolate x s = .next t) : t.capacityKept := by
  refine State.finish_capacityKept hs h fun a ha => ?_
  obtain ⟨-, ha⟩ := raiseIf_bind_eq_ok_iff.1 ha
  obtain ⟨-, ha⟩ := raiseAt_bind_eq_ok_iff.1 ha
  cases ha
  have hfragments : ∀ f ∈ s.operands.fragments, f.y.length ≤ s.params.lMax := fun f hf =>
    (Arch.fragments_value_length hf).trans_le hs.operands.lenFrag
  exact Arch.putResultBytes_withinCapacity hs.arch (interp_length_le hfragments ..)

/-- SH_SPLIT (R215): at most 16 fragments, none longer than the secret. -/
theorem execShSplit_capacityKept (h : execShSplit s = .next t) : t.capacityKept := by
  have hbytes := hs.operands.lenSecret
  simp only [execShSplit] at h
  split at h
  · exact State.finish_capacityKept hs h fun a ha => by cases ha
  · rename_i hchecks
    obtain ⟨-, hle, hcap, hlong⟩ := splitChecks_eq_ok hchecks
    refine State.finishDrawn_capacityKept hs h fun a ha => ?_
    cases ha
    refine Arch.putFragments_withinCapacity hs.arch hs.lMax_le ?_ (by simpa using hbytes) fun f hf => ?_
    · rw [split_length _ _ _ _ _ _ (.inr (by omega))]
      exact hcap
    · exact (split_value_length_le hlong hf).trans (by simpa using hbytes)

/-- SH_RECOMBINE (R220): the value is no longer than the fragments. -/
theorem execShRecombine_capacityKept (h : execShRecombine s = .next t) : t.capacityKept := by
  refine State.finish_capacityKept hs h fun a ha => ?_
  obtain ⟨y, hy, ha⟩ := bind_eq_ok ha
  cases ha
  have hfragments : ∀ f ∈ s.operands.fragments, f.y.length ≤ s.params.lMax := fun f hf =>
    (Arch.fragments_value_length hf).trans_le hs.operands.lenFrag
  exact Arch.putResultBytes_withinCapacity hs.arch (recombine_length_le hfragments hy)

/-- FC_ENCRYPT and FC_DECRYPT (R244, R245): the cipher does not lengthen the secret. -/
theorem putResultBytes_feistel_withinCapacity (rounds : List Nat) (pass : ByteString) (e : BitVec 5) (id : BitVec 15) :
    (s.arch.putResultBytes (feistel Config.ports s.params rounds s.operands.secretBytes pass e id)).withinCapacity
      s.params :=
  Arch.putResultBytes_withinCapacity hs.arch
    ((feistel_length_le ..).trans (by simpa using hs.operands.lenSecret))

theorem execFcEncrypt_capacityKept (h : execFcEncrypt s = .next t) : t.capacityKept := by
  refine State.finish_capacityKept hs h fun a ha => ?_
  obtain ⟨-, -, ha⟩ := bind_eq_ok ha
  obtain ⟨-, -, ha⟩ := bind_eq_ok ha
  cases ha
  exact putResultBytes_feistel_withinCapacity hs ..

theorem execFcDecrypt_capacityKept (h : execFcDecrypt s = .next t) : t.capacityKept := by
  refine State.finish_capacityKept hs h fun a ha => ?_
  obtain ⟨-, -, ha⟩ := bind_eq_ok ha
  obtain ⟨-, -, ha⟩ := bind_eq_ok ha
  cases ha
  exact putResultBytes_feistel_withinCapacity hs ..

/-- SHARE_ENCODE (R264): at most 52 value symbols beside the 7 of header and checksum; the length of the text is checked. -/
theorem execShareEncode_capacityKept (h : execShareEncode s = .next t) : t.capacityKept := by
  refine State.finish_capacityKept hs h fun a ha => ?_
  obtain ⟨-, -, ha⟩ := bind_eq_ok ha
  obtain ⟨hfits, ha⟩ := raiseIf_bind_eq_ok_iff.1 ha
  cases ha
  have hbytes := hs.operands.lenSecret
  have hmax := hs.lMax_le
  have hsymbols : 0 + (encodeShare s.params s.operands.shareOperand).length ≤ 64 := by
    simp only [encodeShare_length, Arch.shareOperand, Arch.secretBytes_length, symbolsFor]
    omega
  exact Arch.putText_withinCapacity (Arch.putSymbols_withinCapacity hs.arch hsymbols) (Nat.not_lt.1 hfits)

/-- SHARE_DECODE (R266): a share that decodes has a value within `L_MAX` and at most 59 symbols. -/
theorem execShareDecode_capacityKept (h : execShareDecode s = .next t) : t.capacityKept := by
  refine State.finish_capacityKept hs h fun a ha => ?_
  obtain ⟨r, hr, ha⟩ := bind_eq_ok ha
  cases ha
  have hresult : ((s.arch.putShareFields r.1).putResultBytes r.1.value).withinCapacity s.params :=
    Arch.putResultBytes_withinCapacity (Arch.putShareFields_withinCapacity hs.arch r.1) (decodeShare_value_length_le hr)
  exact Arch.putSymbols_withinCapacity hresult (by simpa using decodeShare_symbols_length_le hs.lMax_le hr)

/-- GENERATE (R283): at most 16 groups of at most 16 shares, each text checked. -/
theorem execGenerate_capacityKept (h : execGenerate s = .next t) : t.capacityKept := by
  simp only [execGenerate] at h
  split at h
  · exact State.finish_capacityKept hs h fun a ha => by cases ha
  · rename_i hvalid
    obtain ⟨hgroups, hlegal⟩ := genValidate_eq_ok hvalid
    refine State.finishDrawn_capacityKept hs h fun a ha => ?_
    obtain ⟨ts, hts, ha⟩ := bind_eq_ok ha
    cases ha
    obtain ⟨htexts, hfit⟩ := mnemonicTexts_ok hts
    refine Arch.putMnemonics_withinCapacity hs.arch hs.tMax_le ?_ hfit _
    calc ts.length ≤ 16 * s.operands.groupShapes.length := by
          rw [htexts, List.length_map]
          exact splitMembers_length_le _ _ _ _ _ _ hlegal _ _ _
      _ ≤ 256 := by omega

/-- COMBINE (R295): a combined secret is within `L_MAX`. -/
theorem execCombine_capacityKept (h : execCombine s = .next t) : t.capacityKept := by
  refine State.finish_capacityKept hs h fun a ha => ?_
  obtain ⟨y, hy, ha⟩ := bind_eq_ok ha
  cases ha
  exact Arch.putResultBytes_withinCapacity hs.arch (combine_length_le hy)

/-- SES_COMBINE (R316): as COMBINE. -/
theorem execSesCombine_capacityKept (h : execSesCombine s = .next t) : t.capacityKept := by
  refine State.finish_capacityKept hs h fun a ha => ?_
  obtain ⟨-, ha⟩ := raiseIf_bind_eq_ok_iff.1 ha
  obtain ⟨y, hy, ha⟩ := bind_eq_ok ha
  cases ha
  exact Arch.putSession_withinCapacity (Arch.putResultBytes_withinCapacity hs.arch (combine_length_le hy)) _

/-- CLEAR (R341): the lengths, counts and buffers become 0. -/
theorem execClear_capacityKept (h : execClear s = .next t) : t.capacityKept :=
  State.finish_ok_capacityKept hs h <| (Arch.withinCapacity_iff ..).2
    ⟨{ Csrs.reset_withinCapacity s.params with }, Memory.zero_withinCapacity s.params⟩

/-! ### The commands that write CSR RESULT and the session -/

/-- A command that checks its operand and then only writes CSR RESULT has no outputs with a capacity. -/
theorem finish_checked_putResult_capacityKept {c : Prop} [Decidable c] {e : CmdError} {n : Nat} {v : Word}
    (h : (s.finish do raiseIf c e n; return s.arch.putResult v) = .next t) : t.capacityKept := by
  refine State.finish_capacityKept hs h fun a ha => ?_
  obtain ⟨-, ha⟩ := raiseIf_bind_eq_ok_iff.1 ha
  cases ha
  exact Arch.putResult_withinCapacity hs.arch v

theorem execSesAccept_capacityKept (h : execSesAccept s = .next t) : t.capacityKept := by
  refine State.finish_capacityKept hs h fun a ha => ?_
  obtain ⟨r, -, ha⟩ := bind_eq_ok ha
  cases ha
  exact Arch.putResult_withinCapacity (Arch.putSession_withinCapacity hs.arch r.1) r.2

/-! ### Every command -/

theorem exec_capacityKept {i : Instr} (h : exec i s = .next t) : t.capacityKept := by
  cases i with
  | nop => exact State.finish_ok_capacityKept hs h hs.arch
  | gfAdd | gfMul | sesStatus | sesIsComplete | sesGroupComplete =>
    exact State.finish_ok_capacityKept hs h (Arch.putResult_withinCapacity hs.arch _)
  | sesReset => exact State.finish_ok_capacityKept hs h (Arch.putSession_withinCapacity hs.arch _)
  | gfDiv | gfInv | chkVerify => exact finish_checked_putResult_capacityKept hs h
  | chkCreate => exact execChkCreate_capacityKept hs h
  | wcPack => exact execWcPack_capacityKept hs h
  | wcUnpack => exact execWcUnpack_capacityKept hs h
  | wcToWords => exact execWcToWords_capacityKept hs h
  | wcFromWords => exact execWcFromWords_capacityKept hs h
  | shInterpolate => exact execShInterpolate_capacityKept hs h
  | shSplit => exact execShSplit_capacityKept hs h
  | shRecombine => exact execShRecombine_capacityKept hs h
  | fcEncrypt => exact execFcEncrypt_capacityKept hs h
  | fcDecrypt => exact execFcDecrypt_capacityKept hs h
  | shareEncode => exact execShareEncode_capacityKept hs h
  | shareDecode => exact execShareDecode_capacityKept hs h
  | generate => exact execGenerate_capacityKept hs h
  | combine => exact execCombine_capacityKept hs h
  | sesAccept => exact execSesAccept_capacityKept hs h
  | sesCombine => exact execSesCombine_capacityKept hs h
  | clear => exact execClear_capacityKept hs h

end Commands

/-! ### Every step -/

/-- A host write that only stores clips a length and lists no element that does not exist. -/
theorem State.store_capacityKept {s : State} (hs : s.capacityKept) (addr v : Word) : (s.store addr v).capacityKept := by
  obtain ⟨hc, hm⟩ := (Arch.withinCapacity_iff ..).1 hs.arch
  unfold State.store
  split
  · exact ⟨hs.sizes, (Arch.withinCapacity_iff ..).2 ⟨Csrs.write_withinCapacity hc _ v, hm⟩, hs.snapshot⟩
  · split
    · rename_i hi
      exact ⟨hs.sizes, (Arch.withinCapacity_iff ..).2 ⟨hc, Memory.write_withinCapacity hm hi v⟩, hs.snapshot⟩
    · exact hs

/-- Acceptance takes the snapshot of a unit that is within its capacities (R33). -/
theorem State.accept_capacityKept {s : State} (hs : s.capacityKept) (w : Word) : (s.accept w).capacityKept := by
  refine ⟨hs.sizes, hs.arch, fun p hp => ?_⟩
  cases hp
  exact hs.arch

theorem State.putOverrun_capacityKept {s : State} (hs : s.capacityKept) (b : Bool) : (s.putOverrun b).capacityKept :=
  ⟨hs.sizes, hs.arch, hs.snapshot⟩

theorem State.hostWrite_capacityKept {s : State} (hs : s.capacityKept) (addr v : Word) :
    (s.hostWrite addr v).capacityKept := by
  unfold State.hostWrite
  split_ifs
  · exact hs
  · exact State.putOverrun_capacityKept hs _
  · exact State.accept_capacityKept hs v
  · exact State.putOverrun_capacityKept hs false
  · exact State.store_capacityKept hs addr v

theorem State.hostRead_capacityKept {s : State} (hs : s.capacityKept) (addr : Word) : (s.hostRead addr).capacityKept := by
  unfold State.hostRead
  split <;> exact hs

theorem Arch.underReset_withinCapacity (p : Params) : Arch.underReset.withinCapacity p :=
  (Arch.withinCapacity_iff ..).2 ⟨{ Csrs.reset_withinCapacity p with }, Memory.zero_withinCapacity p⟩

theorem Arch.reset_withinCapacity (p : Params) : Arch.reset.withinCapacity p :=
  (Arch.withinCapacity_iff ..).2 ⟨Csrs.reset_withinCapacity p, Memory.zero_withinCapacity p⟩

theorem State.onReset_capacityKept {s : State} (hs : s.capacityKept) : s.onReset.capacityKept :=
  ⟨hs.sizes, Arch.underReset_withinCapacity s.params, by simp⟩

theorem State.finishReset_capacityKept {s : State} (hs : s.capacityKept) : s.finishReset.capacityKept :=
  ⟨hs.sizes, hs.arch, hs.snapshot⟩

theorem State.onEvent_capacityKept {s : State} (hs : s.capacityKept) (e : BusEvent) : (s.onEvent e).capacityKept := by
  cases e with
  | read addr => exact State.hostRead_capacityKept hs addr
  | write addr v => exact State.hostWrite_capacityKept hs addr v
  | reset => exact State.onReset_capacityKept hs
  | unit => exact hs
  | idle => exact hs

theorem State.runUnit_capacityKept {s t : State} (hs : s.capacityKept) (h : s.runUnit = .next t) : t.capacityKept := by
  unfold State.runUnit at h
  split at h
  case h_1 => cases h; exact State.finishReset_capacityKept hs
  case h_2 => cases h; exact hs
  case h_3 => exact exec_capacityKept hs h
  case h_4 => cases h; exact State.raise_capacityKept hs _

/-- Settles O49: a step is the unit's turn or a bus event, and each keeps the unit within its capacities. -/
theorem stepsStayWithinCapacity : Obligations.StepsStayWithinCapacity := by
  intro s t hs h
  have taken (rest : List BusEvent) : State.capacityKept { s with bus := rest } := hs
  unfold step at h
  split at h
  · exact State.runUnit_capacityKept hs h
  · exact State.runUnit_capacityKept (taken _) h
  all_goals
    cases h
    exact State.onEvent_capacityKept (taken _) _

/-! ### The state after reset (R87) -/

theorem standardParams_legal : Config.standardParams.legal = true := rfl

theorem standardParams_sizesLegal : Params.sizesLegal Config.standardParams := by
  unfold Params.sizesLegal
  decide

theorem State.reset_capacityKept : State.reset.capacityKept :=
  ⟨standardParams_sizesLegal, Arch.reset_withinCapacity _, by simp [State.reset]⟩

theorem State.reset_sessionConsistent : State.reset.sessionConsistent :=
  ⟨.inl ⟨rfl, rfl, rfl⟩, by simp [State.reset]⟩

/-- Settles O52: everything is 0, the tables are those of R151, nothing is pending, and the vocabulary has the shape its type
gives. -/
theorem resetMeetsTheInvariants : Obligations.ResetMeetsTheInvariants := by
  refine ⟨⟨Memory.zero_wf, ?_⟩, ⟨fun _ => rfl, ?_⟩, State.reset_capacityKept, ?_, State.reset_sessionConsistent,
    standardParams_legal, Vocab.length_words _, Vocab.nodup_words _, Vocab.word_shape _⟩
  all_goals
    intro p hp
    cases hp

end Sys2Proof.Machine

/-! PROOFS. What a step can do, said once: the unit's turn, each bus event, and the outputs a command may write (R33, R96,
R123, R400, R401, R408). -/

namespace Sys2Proof.Machine

/-! ### The unit's turn -/

/-- READY 0: the turn ends the reset sequence (R401). -/
theorem State.runUnit_of_not_ready {s : State} (h : s.arch.csr.ready = false) : s.runUnit = .next s.finishReset := by
  simp [State.runUnit, State.turn, h]

/-- Nothing is pending: the idle unit holds its state (R391). -/
theorem State.runUnit_of_idle {s : State} (h : s.isIdle) : s.runUnit = .next s := by
  obtain ⟨hready, hnone⟩ := h
  simp [State.runUnit, State.turn, hready, hnone]

/-- The pending word is a command: the turn runs it (R408). -/
theorem State.runUnit_of_decodes {s : State} {p : Pending} {i : Instr} (hready : s.arch.csr.ready = true)
    (hp : s.pending = some p) (hi : decode p.word = .ok i) : s.runUnit = exec i s := by
  simp [State.runUnit, State.turn, hready, hp, hi]

/-- The pending word is illegal: the turn completes it with IllegalCommand (R124). -/
theorem State.runUnit_of_illegal {s : State} {p : Pending} {r : CommandReject} (hready : s.arch.csr.ready = true)
    (hp : s.pending = some p) (hr : decode p.word = .error r) : s.runUnit = .next (s.illegalCommand p.word) := by
  simp [State.runUnit, State.turn, hready, hp, hr]

/-- A running command reads its operands from the snapshot (R33). -/
theorem State.operands_of_pending {s : State} {p : Pending} (hp : s.pending = some p) : s.operands = p.snapshot := by
  simp [State.operands, hp]

/-! ### The events of the bus -/

theorem step_of_bus_nil {s : State} (h : s.bus = []) : step s = s.runUnit := by
  simp [step, h]

theorem step_of_bus_unit {s : State} {rest : List BusEvent} (h : s.bus = .unit :: rest) :
    step s = State.runUnit { s with bus := rest } := by
  simp [step, h]

/-- Every event but the unit's turn has its effect in the step that takes it off the bus. -/
theorem step_of_bus_event {s : State} {e : BusEvent} {rest : List BusEvent} (h : s.bus = e :: rest) (he : e ≠ .unit) :
    step s = .next (State.onEvent { s with bus := rest } e) := by
  cases e with
  | unit => exact absurd rfl he
  | read | write | reset | idle => simp [step, h]

/-! ### Host writes (R33, R412) -/

theorem State.hostWrite_of_not_ready {s : State} (h : s.arch.csr.ready = false) (addr v : Word) :
    s.hostWrite addr v = s := by
  simp [State.hostWrite, h]

theorem State.hostWrite_of_pending {s : State} (hready : s.arch.csr.ready = true) (hp : s.pending ≠ none)
    (addr v : Word) : s.hostWrite addr v = s.putOverrun (!clearsOverrun addr v) := by
  simp [State.hostWrite, hready, Option.isSome_iff_ne_none.2 hp]

theorem State.hostWrite_of_idle {s : State} (h : s.isIdle) (addr v : Word) :
    s.hostWrite addr v =
      if addr = busAddress 0 0x01 then s.accept v
      else if clearsOverrun addr v then s.putOverrun false
      else s.store addr v := by
  obtain ⟨hready, hnone⟩ := h
  simp [State.hostWrite, hready, hnone]

/-! ### Moves -/

/-- What one step can make of the unit, once its event is off the bus. -/
inductive State.Move (s : State) : State → Prop where
  /-- Nothing changes: an idle moment or turn, or a write during the reset sequence. -/
  | quiet : s.Move s
  /-- A host read changes only what the host has seen (R96). -/
  | read (reads : List Word) (busyReads : Nat) : s.Move { s with reads, busyReads }
  /-- A dropped write sets OVERRUN, a write to STATUS clears it (R40, R412). -/
  | overrun (b : Bool) (ready : s.arch.csr.ready = true) : s.Move (s.putOverrun b)
  /-- An idle unit accepts a command word (R33). -/
  | accept (w : Word) (idle : s.isIdle) : s.Move (s.accept w)
  /-- An idle unit stores a register or an element (R96). -/
  | store (addr v : Word) (idle : s.isIdle) : s.Move (s.store addr v)
  /-- The reset input (R400). -/
  | reset : s.Move s.onReset
  /-- The reset sequence ends (R401). -/
  | finishReset (building : s.arch.csr.ready = false) : s.Move s.finishReset
  /-- The pending command completes (R408). -/
  | complete {p : Pending} {i : Instr} {t : State} (ready : s.arch.csr.ready = true) (pending : s.pending = some p)
      (decodes : decode p.word = .ok i) (exec : exec i s = .next t) : s.Move t
  /-- The pending word is illegal (R124). -/
  | illegal {p : Pending} (ready : s.arch.csr.ready = true) (pending : s.pending = some p) :
      s.Move (s.illegalCommand p.word)

theorem State.hostRead_move (s : State) (addr : Word) : s.Move (s.hostRead addr) := by
  unfold State.hostRead
  split <;> exact .read _ _

theorem State.hostWrite_move (s : State) (addr v : Word) : s.Move (s.hostWrite addr v) := by
  cases hready : s.arch.csr.ready with
  | false => rw [State.hostWrite_of_not_ready hready]; exact .quiet
  | true =>
    by_cases hnone : s.pending = none
    · have hidle : s.isIdle := ⟨hready, hnone⟩
      rw [State.hostWrite_of_idle hidle]
      split_ifs
      · exact .accept v hidle
      · exact .overrun false hready
      · exact .store addr v hidle
    · rw [State.hostWrite_of_pending hready hnone]
      exact .overrun _ hready

theorem State.onEvent_move (s : State) (e : BusEvent) : s.Move (s.onEvent e) := by
  cases e with
  | read addr => exact s.hostRead_move addr
  | write addr v => exact s.hostWrite_move addr v
  | reset => exact .reset
  | unit | idle => exact .quiet

theorem State.runUnit_move {s t : State} (h : s.runUnit = .next t) : s.Move t := by
  cases hready : s.arch.csr.ready with
  | false =>
    rw [State.runUnit_of_not_ready hready] at h
    cases h
    exact .finishReset hready
  | true =>
    cases hp : s.pending with
    | none =>
      rw [State.runUnit_of_idle ⟨hready, hp⟩] at h
      cases h
      exact .quiet
    | some p =>
      cases hd : decode p.word with
      | ok i => exact .complete hready hp hd ((State.runUnit_of_decodes hready hp hd).symm.trans h)
      | error r =>
        rw [State.runUnit_of_illegal hready hp hd] at h
        cases h
        exact .illegal hready hp

/-- A step takes an event off the bus, if there is one, and is then one of the moves. -/
theorem step_move {s t : State} (h : step s = .next t) : ∃ rest, State.Move { s with bus := rest } t := by
  cases hbus : s.bus with
  | nil =>
    rw [step_of_bus_nil hbus] at h
    exact ⟨s.bus, State.runUnit_move h⟩
  | cons e rest =>
    refine ⟨rest, ?_⟩
    by_cases he : e = .unit
    · subst he
      rw [step_of_bus_unit hbus] at h
      exact State.runUnit_move h
    · rw [step_of_bus_event hbus he] at h
      cases h
      exact State.onEvent_move _ e

/-! ### What a command's outputs may differ in (R42, R123, R321) -/

/-- `b` is `a` with outputs of the command `i`: CMD, READY, OVERRUN and the tables are those of `a`, and so are the session
and CSR RESULT where `i` does not write them. -/
structure Arch.WrittenBy (i : Instr) (a b : Arch) : Prop where
  cmd : b.csr.cmd = a.csr.cmd
  ready : b.csr.ready = a.csr.ready
  overrun : b.csr.overrun = a.csr.overrun
  tables : b.tables = a.tables
  ses : Instr.writesSession i = false → b.ses = a.ses
  result : Instr.writesResult i = false → b.csr.result = a.csr.result

section Outputs

variable {i : Instr} {a b : Arch}

theorem Arch.WrittenBy.refl (i : Instr) (a : Arch) : a.WrittenBy i a :=
  ⟨rfl, rfl, rfl, rfl, fun _ => rfl, fun _ => rfl⟩

variable (h : a.WrittenBy i b)
include h

theorem Arch.WrittenBy.putResult (hi : Instr.writesResult i = true) (v : Word) : a.WrittenBy i (b.putResult v) :=
  { h with result := fun hn => absurd hi (by simp [hn]) }

theorem Arch.WrittenBy.putSession (hi : Instr.writesSession i = true) (x : Session) : a.WrittenBy i (b.putSession x) :=
  { h with ses := fun hn => absurd hi (by simp [hn]) }

theorem Arch.WrittenBy.putResultBytes (bs : ByteString) : a.WrittenBy i (b.putResultBytes bs) := { h with }

theorem Arch.WrittenBy.putSymbols (base : Nat) (s : List Sym) : a.WrittenBy i (b.putSymbols base s) := { h with }

theorem Arch.WrittenBy.putText (t : ByteString) : a.WrittenBy i (b.putText t) := { h with }

theorem Arch.WrittenBy.putShareFields (sh : Share) : a.WrittenBy i (b.putShareFields sh) := { h with }

theorem Arch.WrittenBy.putFragments (F : List Fragment) (L : Nat) : a.WrittenBy i (b.putFragments F L) := { h with }

theorem Arch.WrittenBy.putMnemonics (ts : List ByteString) (id : BitVec 15) : a.WrittenBy i (b.putMnemonics ts id) :=
  { h with }

end Outputs

/-- CLEAR writes CSR RESULT and no session (R341). -/
theorem Arch.writtenBy_clear (a : Arch) :
    a.WrittenBy .clear { a with csr := a.csr.cleared, mem := Memory.zero } :=
  { Arch.WrittenBy.refl .clear a with result := fun h => nomatch h }

/-! ### The answers of a computation -/

/-- Every answer of the computation has the property. -/
def Answers {α : Type} (x : Except Raised α) (P : α → Prop) : Prop := ∀ a, x = .ok a → P a

theorem Answers.ok {α : Type} {P : α → Prop} {a : α} (h : P a) : Answers (.ok a) P := by
  intro b hb
  cases hb
  exact h

theorem Answers.error {α : Type} {P : α → Prop} (e : Raised) : Answers (.error e) P := nofun

/-- What follows a computation answers with the property, whatever the computation answered. -/
theorem Answers.bind {α β : Type} {x : Except Raised α} {f : α → Except Raised β} {P : β → Prop}
    (h : ∀ a, Answers (f a) P) : Answers (x >>= f) P := by
  intro b hb
  obtain ⟨a, -, ha⟩ := bind_eq_ok hb
  exact h a b ha

/-! ### Completions -/

/-- `t` is `s` with the command `i` completed: nothing is pending, and outputs of `i` are committed or an error is reported;
the random port has moved on only where `i` draws. -/
structure State.CompletedBy (i : Instr) (s t : State) : Prop where
  draws : Instr.draws i = false → t.draws = s.draws
  completion : (∃ a, s.arch.WrittenBy i a ∧ t = State.commit { s with draws := t.draws } a) ∨
    ∃ e : Raised, t = State.failed { s with draws := t.draws } e.error.code e.info

theorem State.finishDrawn_completedBy {i : Instr} {s t : State} {pos : Nat} {r : Except Raised Arch}
    (hi : Instr.draws i = false → pos = s.draws) (hr : Answers r (s.arch.WrittenBy i))
    (h : s.finishDrawn pos r = .next t) : s.CompletedBy i t := by
  rcases State.finish_cases h with ⟨a, ha, rfl⟩ | ⟨e, -, rfl⟩
  · exact ⟨hi, .inl ⟨a, hr a ha, rfl⟩⟩
  · exact ⟨hi, .inr ⟨e, rfl⟩⟩

theorem State.finish_completedBy {i : Instr} {s t : State} {r : Except Raised Arch}
    (hr : Answers r (s.arch.WrittenBy i)) (h : s.finish r = .next t) : s.CompletedBy i t :=
  State.finishDrawn_completedBy (pos := s.draws) (fun _ => rfl) hr h

/-- SH_SPLIT (R215) draws only after its checks. -/
theorem execShSplit_completedBy {s t : State} (h : execShSplit s = .next t) : s.CompletedBy .shSplit t := by
  simp only [execShSplit] at h
  split at h
  · exact State.finish_completedBy (.error _) h
  · exact State.finishDrawn_completedBy nofun (.ok ((Arch.WrittenBy.refl ..).putFragments ..)) h

/-- GENERATE (R283) draws after its validation and may still raise. -/
theorem execGenerate_completedBy {s t : State} (h : execGenerate s = .next t) : s.CompletedBy .generate t := by
  simp only [execGenerate] at h
  split at h
  · exact State.finish_completedBy (.error _) h
  · exact State.finishDrawn_completedBy nofun
      (.bind fun _ => .ok ((Arch.WrittenBy.refl ..).putMnemonics ..)) h

/-- Every command completes, and writes no output that R42 or R123 does not list for it. -/
theorem exec_completedBy {i : Instr} {s t : State} (h : exec i s = .next t) : s.CompletedBy i t := by
  have unwritten := Arch.WrittenBy.refl i s.arch
  cases i with
  | nop => exact State.finish_completedBy (.ok unwritten) h
  | gfAdd | gfMul | sesStatus | sesIsComplete | sesGroupComplete =>
    exact State.finish_completedBy (.ok (unwritten.putResult rfl _)) h
  | gfDiv | gfInv | chkVerify => exact State.finish_completedBy (.bind fun _ => .ok (unwritten.putResult rfl _)) h
  | wcPack => exact State.finish_completedBy (.ok (unwritten.putSymbols ..)) h
  | chkCreate => exact State.finish_completedBy (.bind fun _ => .ok (unwritten.putSymbols ..)) h
  | wcFromWords => exact State.finish_completedBy (.bind fun _ => .bind fun _ => .ok (unwritten.putSymbols ..)) h
  | wcToWords => exact State.finish_completedBy (.bind fun _ => .ok (unwritten.putText _)) h
  | shRecombine | combine =>
    exact State.finish_completedBy (.bind fun _ => .ok (unwritten.putResultBytes _)) h
  | wcUnpack | shInterpolate | fcEncrypt | fcDecrypt =>
    exact State.finish_completedBy (.bind fun _ => .bind fun _ => .ok (unwritten.putResultBytes _)) h
  | shSplit => exact execShSplit_completedBy h
  | shareEncode =>
    exact State.finish_completedBy (.bind fun _ => .bind fun _ => .ok ((unwritten.putSymbols ..).putText _)) h
  | shareDecode =>
    exact State.finish_completedBy
      (.bind fun _ => .ok (((unwritten.putShareFields _).putResultBytes _).putSymbols ..)) h
  | generate => exact execGenerate_completedBy h
  | sesReset => exact State.finish_completedBy (.ok (unwritten.putSession rfl _)) h
  | sesAccept =>
    exact State.finish_completedBy (.bind fun _ => .ok ((unwritten.putSession rfl _).putResult rfl _)) h
  | sesCombine =>
    exact State.finish_completedBy (.bind fun _ => .bind fun _ => .ok ((unwritten.putResultBytes _).putSession rfl _)) h
  | clear => exact State.finish_completedBy (.ok s.arch.writtenBy_clear) h

end Sys2Proof.Machine

/-! PROOFS. What no command changes, and the invariants that the inversion of a step gives: the tables and the snapshot
(R33, R42, R82, R401, R408). -/

namespace Sys2Proof.Machine

/-! ### What a completed command leaves unchanged -/

section Completed

variable {i : Instr} {s t : State} (h : s.CompletedBy i t)
include h

theorem State.CompletedBy.pending : t.pending = none := by
  obtain ⟨a, -, ht⟩ | ⟨e, ht⟩ := h.completion <;> rw [ht] <;> rfl

theorem State.CompletedBy.params : t.params = s.params := by
  obtain ⟨a, -, ht⟩ | ⟨e, ht⟩ := h.completion <;> rw [ht] <;> rfl

theorem State.CompletedBy.bus : t.bus = s.bus := by
  obtain ⟨a, -, ht⟩ | ⟨e, ht⟩ := h.completion <;> rw [ht] <;> rfl

theorem State.CompletedBy.reads : t.reads = s.reads := by
  obtain ⟨a, -, ht⟩ | ⟨e, ht⟩ := h.completion <;> rw [ht] <;> rfl

theorem State.CompletedBy.busyReads : t.busyReads = s.busyReads := by
  obtain ⟨a, -, ht⟩ | ⟨e, ht⟩ := h.completion <;> rw [ht] <;> rfl

/-- But for the completion report, what the unit holds afterwards is outputs of the command. -/
theorem State.CompletedBy.arch : s.arch.WrittenBy i t.arch := by
  obtain ⟨a, ha, ht⟩ | ⟨e, ht⟩ := h.completion <;> rw [ht]
  · exact { ha with }
  · exact { Arch.WrittenBy.refl i s.arch with }

/-- A command that raises leaves CSR RESULT (R42). -/
theorem State.CompletedBy.result_of_error (herr : t.arch.csr.errCode ≠ 0) : t.arch.csr.result = s.arch.csr.result := by
  obtain ⟨a, -, ht⟩ | ⟨e, ht⟩ := h.completion <;> rw [ht] at herr ⊢
  · exact absurd rfl herr
  · rfl

end Completed

/-- Settles O46: a completed command is a commit of outputs it may write, or an error report. -/
theorem commandsKeepTheirFrame : Obligations.CommandsKeepTheirFrame := by
  intro i s t h
  have completed := exec_completedBy h
  have out := completed.arch
  exact ⟨out.cmd, out.ready, out.overrun, out.tables, completed.params, completed.bus, completed.reads,
    completed.busyReads, out.ses, completed.draws, fun hi => hi.elim out.result completed.result_of_error⟩

/-! ### Stores of the host (R34, R96) -/

/-- A host write of a register leaves READY. -/
theorem Csrs.write_ready (p : Params) (c : Csrs) (n : Nat) (v : Word) : (Csrs.write p c n v).ready = c.ready := by
  unfold Csrs.write
  split <;> rfl

theorem State.store_ready (s : State) (addr v : Word) : (s.store addr v).arch.csr.ready = s.arch.csr.ready := by
  unfold State.store
  split_ifs
  · exact Csrs.write_ready ..
  · rfl
  · rfl

theorem State.store_tables (s : State) (addr v : Word) : (s.store addr v).arch.tables = s.arch.tables := by
  unfold State.store
  split_ifs <;> rfl

theorem State.store_ses (s : State) (addr v : Word) : (s.store addr v).arch.ses = s.arch.ses := by
  unfold State.store
  split_ifs <;> rfl

theorem State.store_pending (s : State) (addr v : Word) : (s.store addr v).pending = s.pending := by
  unfold State.store
  split_ifs <;> rfl

theorem State.store_params (s : State) (addr v : Word) : (s.store addr v).params = s.params := by
  unfold State.store
  split_ifs <;> rfl

/-! ### The tables (R82, R401) -/

/-- With nothing pending, only the unit's own tables count. -/
theorem State.tablesBuilt_of_not_pending {s : State} (hp : s.pending = none)
    (h : s.arch.csr.ready = true → s.arch.tables = standardTables) : s.tablesBuilt :=
  ⟨h, by simp [hp]⟩

theorem State.Move.tablesBuilt {s t : State} (m : s.Move t) (hs : s.tablesBuilt) : t.tablesBuilt := by
  obtain ⟨hunit, hsnapshot⟩ := hs
  cases m with
  | quiet | read | overrun => exact ⟨hunit, hsnapshot⟩
  | accept w idle =>
    refine ⟨hunit, fun p hp => ?_⟩
    cases hp
    exact hunit idle.1
  | store addr v idle =>
    refine State.tablesBuilt_of_not_pending ((s.store_pending addr v).trans idle.2) fun _ => ?_
    rw [State.store_tables]
    exact hunit idle.1
  | reset => exact State.tablesBuilt_of_not_pending rfl nofun
  | finishReset => exact ⟨fun _ => buildTables_eq_standard, hsnapshot⟩
  | complete ready _ _ hexec =>
    have completed := exec_completedBy hexec
    exact State.tablesBuilt_of_not_pending completed.pending fun _ => completed.arch.tables.trans (hunit ready)
  | illegal => exact State.tablesBuilt_of_not_pending rfl hunit

/-- Settles O48: READY becomes 1 only where the tables are built, and no other move changes them. -/
theorem stepsKeepTheTables : Obligations.StepsKeepTheTables := by
  intro s t hs h
  obtain ⟨rest, m⟩ := step_move h
  exact m.tablesBuilt hs

/-! ### The snapshot (R33, R408) -/

theorem State.snapshotAgrees_of_not_pending {s : State} (hp : s.pending = none) : s.snapshotAgrees := by
  simp [State.snapshotAgrees, hp]

/-- Nothing is pending during the reset sequence. -/
theorem State.snapshotAgrees.not_pending_of_not_ready {s : State} (hs : s.snapshotAgrees)
    (h : s.arch.csr.ready = false) : s.pending = none := by
  refine Option.eq_none_iff_forall_not_mem.2 fun p hp => ?_
  obtain ⟨hready, harch⟩ := hs p hp
  rw [harch] at h
  exact absurd (hready.symm.trans h) (by decide)

theorem State.Move.snapshotAgrees {s t : State} (m : s.Move t) (hs : s.snapshotAgrees) : t.snapshotAgrees := by
  cases m with
  | quiet | read => exact hs
  | overrun b =>
    intro p hp
    obtain ⟨hready, harch⟩ := hs p hp
    refine ⟨hready, ?_⟩
    rw [State.putOverrun_arch, harch]
  | accept w idle =>
    intro p hp
    cases hp
    exact ⟨idle.1, rfl⟩
  | store addr v idle => exact State.snapshotAgrees_of_not_pending ((s.store_pending addr v).trans idle.2)
  | reset | illegal => exact State.snapshotAgrees_of_not_pending rfl
  | finishReset building => exact State.snapshotAgrees_of_not_pending (hs.not_pending_of_not_ready building)
  | complete _ _ _ hexec => exact State.snapshotAgrees_of_not_pending (exec_completedBy hexec).pending

/-- Settles O50: while a command is pending a move is its completion, a reset or a write that only changes OVERRUN. -/
theorem stepsKeepTheSnapshot : Obligations.StepsKeepTheSnapshot := by
  intro s t hs h
  obtain ⟨rest, m⟩ := step_move h
  exact m.snapshotAgrees hs

end Sys2Proof.Machine

/-! PROOFS. The session store stays consistent (R83, R311, R312, R320): what an accepted share adds to it, and that nothing
but the session commands and a reset changes it. -/

namespace Sys2Proof.Machine

/-! ### Groups (R290, R311) -/

/-- Where thresholds agree, the threshold of a share's group is the share's. -/
theorem memberThresholdOf_groupOf {shs : List Share} (h : ThresholdsAgree shs) {sh : Share} (hsh : sh ∈ shs) :
    memberThresholdOf (groupOf shs sh.groupIndex.toNat) = sh.memberThreshold.toNat := by
  have hmem : sh ∈ groupOf shs sh.groupIndex.toNat := List.mem_filter.2 ⟨hsh, by simp⟩
  cases hgrp : groupOf shs sh.groupIndex.toNat with
  | nil => simp [hgrp] at hmem
  | cons first rest =>
    have hfirst : first ∈ groupOf shs sh.groupIndex.toNat := by simp [hgrp]
    obtain ⟨hheld, hgroup⟩ := List.mem_filter.1 hfirst
    have hindex : first.groupIndex = sh.groupIndex := BitVec.eq_of_toNat_eq (by simpa using hgroup)
    simp [memberThresholdOf, h first hheld sh hsh hindex]

/-- The check of R312 on the group's threshold, passed: every share of that group has the new share's threshold. -/
theorem memberThreshold_eq_of_check {shs : List Share} (h : ThresholdsAgree shs) {sh : Share}
    (hcheck : ¬(groupOf shs sh.groupIndex.toNat ≠ [] ∧
      memberThresholdOf (groupOf shs sh.groupIndex.toNat) ≠ sh.memberThreshold.toNat)) :
    ∀ a ∈ shs, a.groupIndex = sh.groupIndex → a.memberThreshold = sh.memberThreshold := by
  intro a ha hgroup
  have hmem : a ∈ groupOf shs sh.groupIndex.toNat := List.mem_filter.2 ⟨ha, by simp [hgroup]⟩
  have hthreshold := memberThresholdOf_groupOf h ha
  rw [hgroup] at hthreshold
  refine BitVec.eq_of_toNat_eq (hthreshold.symm.trans ?_)
  by_contra hne
  exact hcheck ⟨List.ne_nil_of_mem hmem, hne⟩

/-- A share with the thresholds of its group keeps the thresholds in agreement. -/
theorem ThresholdsAgree.append {shs : List Share} (h : ThresholdsAgree shs) {sh : Share}
    (hsh : ∀ a ∈ shs, a.groupIndex = sh.groupIndex → a.memberThreshold = sh.memberThreshold) :
    ThresholdsAgree (shs ++ [sh]) := by
  intro a ha b hb hgroup
  rw [List.mem_append, List.mem_singleton] at ha hb
  obtain ha | rfl := ha <;> obtain hb | rfl := hb
  · exact h a ha b hb hgroup
  · exact hsh a ha hgroup
  · exact (hsh b hb hgroup.symm).symm
  · rfl

theorem SameParams.append {c : CommonParams} {shs : List Share} (h : SameParams c shs) {sh : Share}
    (hsh : commonParams sh = c) : SameParams c (shs ++ [sh]) := by
  exact List.forall_mem_append.2 ⟨h, by simpa using hsh⟩

/-! ### The entry of a share (R312, R320) -/

section Insert

variable (x : Session) (c : Option CommonParams) (sh : Share) (t : ByteString)

/-- The state after the entry is decided by the session the share has entered (R320). -/
theorem Session.insert_eq :
    x.insert c sh t =
      if Session.isComplete ⟨.collecting, c, x.shares ++ [(sh, t)]⟩ = true then ⟨.complete, c, x.shares ++ [(sh, t)]⟩
      else ⟨.collecting, c, x.shares ++ [(sh, t)]⟩ := rfl

@[simp] theorem Session.insert_shares : (x.insert c sh t).shares = x.shares ++ [(sh, t)] := by
  rw [Session.insert_eq]
  split <;> rfl

@[simp] theorem Session.insert_params : (x.insert c sh t).params = c := by
  rw [Session.insert_eq]
  split <;> rfl

@[simp] theorem Session.insert_held : (x.insert c sh t).held = x.held ++ [sh] := by
  simp [Session.held]

theorem Session.insert_state_ne_empty : (x.insert c sh t).state ≠ .empty := by
  rw [Session.insert_eq]
  split <;> simp

/-- Whether enough groups are complete does not depend on the state, once it is not EMPTY. -/
theorem Session.isComplete_complete (shs : List (Share × ByteString)) :
    Session.isComplete ⟨.complete, c, shs⟩ = Session.isComplete ⟨.collecting, c, shs⟩ := rfl

/-- After an entry the session is COMPLETE exactly when enough groups are complete. -/
theorem Session.insert_complete_iff : (x.insert c sh t).state = .complete ↔ (x.insert c sh t).isComplete = true := by
  rw [Session.insert_eq]
  split
  · rename_i hcomplete
    simpa [Session.isComplete_complete] using hcomplete
  · rename_i hcomplete
    simpa using hcomplete

end Insert

/-- What the shares of a session satisfy whatever its state (R83): they agree with the common parameters `c`, their texts
decode to them, and no two of one group differ in their threshold or share a member index. -/
structure Session.HoldsShares (p : Params) (c : CommonParams) (x : Session) : Prop where
  params : SameParams c x.held
  decodes : ∀ e ∈ x.shares, ∃ sy, decodeShare p e.2 = .ok (e.1, sy)
  thresholds : ThresholdsAgree x.held
  indices : x.held.Pairwise fun a b => ¬(a.groupIndex = b.groupIndex ∧ a.memberIndex = b.memberIndex)

/-- A session without shares holds shares of any parameters. -/
theorem Session.holdsShares_of_nil {p : Params} {c : CommonParams} {x : Session} (h : x.shares = []) :
    x.HoldsShares p c := by
  have hheld : x.held = [] := by simp [Session.held, h]
  constructor <;> simp [h, hheld, SameParams, ThresholdsAgree]

/-- A consistent session that is not EMPTY holds shares of its common parameters. -/
theorem Session.consistent.holdsShares {p : Params} {c : CommonParams} {x : Session} (h : x.consistent p)
    (hc : x.params = some c) : x.HoldsShares p c := by
  rcases h with ⟨-, hnone, -⟩ | ⟨-, -, ⟨c', hc', hparams⟩, hdecodes, hthresholds, hindices, -⟩
  · rw [hnone] at hc
    cases hc
  · obtain rfl : c' = c := by simpa [hc'] using hc
    exact ⟨hparams, hdecodes, hthresholds, hindices⟩

theorem Session.consistent.shares_of_empty {p : Params} {x : Session} (h : x.consistent p) (hempty : x.state = .empty) :
    x.shares = [] := by
  rcases h with ⟨-, -, hshares⟩ | ⟨hne, -⟩
  · exact hshares
  · exact absurd hempty hne

theorem Session.empty_consistent (p : Params) : Session.empty.consistent p := .inl ⟨rfl, rfl, rfl⟩

/-- A decoded share that has the threshold of its group, and a member index not taken there, leaves a consistent session. -/
theorem Session.HoldsShares.insert_consistent {p : Params} {x : Session} {sh : Share} {t : ByteString} {sy : List Sym}
    (h : x.HoldsShares p (commonParams sh)) (hdecode : decodeShare p t = .ok (sh, sy))
    (hthreshold : ∀ a ∈ x.held, a.groupIndex = sh.groupIndex → a.memberThreshold = sh.memberThreshold)
    (hindex : ∀ a ∈ x.held, ¬(a.groupIndex = sh.groupIndex ∧ a.memberIndex = sh.memberIndex)) :
    (x.insert (some (commonParams sh)) sh t).consistent p := by
  refine .inr ⟨x.insert_state_ne_empty _ _ _, by simp, ⟨commonParams sh, x.insert_params .., ?_⟩, ?_, ?_, ?_,
    x.insert_complete_iff ..⟩
  · rw [Session.insert_held]
    exact h.params.append rfl
  · rw [Session.insert_shares]
    exact List.forall_mem_append.2 ⟨h.decodes, by simpa using ⟨sy, hdecode⟩⟩
  · rw [Session.insert_held]
    exact h.thresholds.append hthreshold
  · rw [Session.insert_held, List.pairwise_append]
    exact ⟨h.indices, List.pairwise_singleton .., by simpa using hindex⟩

/-- What `Accept` does to a session that is not EMPTY, where it does not raise (R312): nothing, or the entry of a share that
passed its checks. -/
theorem Session.acceptMore_eq_ok {x : Session} {sh : Share} {t : ByteString} {r : Session × Word}
    (h : x.acceptMore sh t = .ok r) :
    r.1 = x ∨ x.params = some (commonParams sh) ∧
      ¬(groupOf x.held sh.groupIndex.toNat ≠ [] ∧
        memberThresholdOf (groupOf x.held sh.groupIndex.toNat) ≠ sh.memberThreshold.toNat) ∧
      (∀ a ∈ x.held, ¬(a.groupIndex = sh.groupIndex ∧ a.memberIndex = sh.memberIndex)) ∧
      r.1 = x.insert (some (commonParams sh)) sh t := by
  obtain ⟨hparams, h⟩ := raiseIf_bind_eq_ok_iff.1 h
  obtain ⟨hthreshold, h⟩ := raiseIf_bind_eq_ok_iff.1 h
  split at h
  · cases h
    exact .inl rfl
  · obtain ⟨hindex, h⟩ := raiseIf_bind_eq_ok_iff.1 h
    obtain ⟨-, h⟩ := raiseIf_bind_eq_ok_iff.1 h
    cases h
    have hparams : x.params = some (commonParams sh) := not_not.1 hparams
    exact .inr ⟨hparams, hthreshold, fun a ha hclash => hindex ⟨a, ha, hclash⟩, by rw [hparams]⟩

/-- `Accept` answers a consistent session (R312). -/
theorem Session.accept_consistent {p : Params} {x : Session} (hx : x.consistent p) {t : ByteString} {r : Session × Word}
    (h : x.accept p t = .ok r) : r.1.consistent p := by
  obtain ⟨⟨sh, sy⟩, hdecode, h⟩ := bind_eq_ok h
  dsimp only at h
  split at h
  · rename_i hempty
    cases h
    have hshares := hx.shares_of_empty hempty
    have hheld : x.held = [] := by simp [Session.held, hshares]
    exact (Session.holdsShares_of_nil hshares).insert_consistent hdecode (by simp [hheld]) (by simp [hheld])
  · rcases Session.acceptMore_eq_ok h with hsame | ⟨hparams, hcheck, hindex, hinsert⟩
    · rwa [hsame]
    · have holds := hx.holdsShares hparams
      rw [hinsert]
      exact holds.insert_consistent hdecode (memberThreshold_eq_of_check holds.thresholds hcheck) hindex

/-! ### Commands (R310, R314, R316) -/

/-- The session a command reads, that of its snapshot or of the unit, is consistent. -/
theorem State.sessionConsistent.operands {s : State} (hs : s.sessionConsistent) :
    s.operands.ses.consistent s.params := by
  obtain ⟨hunit, hsnapshot⟩ := hs
  unfold State.operands
  split
  · rename_i p hp
    exact hsnapshot p hp
  · exact hunit

/-- A completion leaves a consistent session where the outputs, if the command computed any, hold one. -/
theorem State.finish_ses_consistent {s t : State} {r : Except Raised Arch} (hs : s.sessionConsistent)
    (hr : Answers r fun a => a.ses.consistent s.params) (h : s.finish r = .next t) : t.arch.ses.consistent s.params := by
  rcases State.finish_cases h with ⟨a, ha, rfl⟩ | ⟨e, -, rfl⟩
  · exact hr a ha
  · exact hs.1

theorem execSesAccept_ses_consistent {s t : State} (hs : s.sessionConsistent) (h : execSesAccept s = .next t) :
    t.arch.ses.consistent s.params := by
  refine State.finish_ses_consistent hs (fun a ha => ?_) h
  obtain ⟨r, hr, ha⟩ := bind_eq_ok ha
  cases ha
  exact Session.accept_consistent hs.operands hr

/-- Every command leaves a consistent session: those that write it empty it or accept a share. -/
theorem exec_ses_consistent {i : Instr} {s t : State} (hs : s.sessionConsistent) (h : exec i s = .next t) :
    t.arch.ses.consistent s.params := by
  cases i with
  | sesReset => exact State.finish_ses_consistent hs (.ok (Session.empty_consistent _)) h
  | sesAccept => exact execSesAccept_ses_consistent hs h
  | sesCombine =>
    exact State.finish_ses_consistent hs (.bind fun _ => .bind fun _ => .ok (Session.empty_consistent _)) h
  | _ =>
    rw [(exec_completedBy h).arch.ses rfl]
    exact hs.1

/-! ### Steps -/

/-- With nothing pending, only the unit's own session counts. -/
theorem State.sessionConsistent_of_not_pending {s : State} (hp : s.pending = none)
    (h : s.arch.ses.consistent s.params) : s.sessionConsistent :=
  ⟨h, by simp [hp]⟩

theorem State.Move.sessionConsistent {s t : State} (m : s.Move t) (hs : s.sessionConsistent) : t.sessionConsistent := by
  obtain ⟨hunit, hsnapshot⟩ := hs
  cases m with
  | quiet | read | overrun | finishReset => exact ⟨hunit, hsnapshot⟩
  | accept w =>
    refine ⟨hunit, fun p hp => ?_⟩
    cases hp
    exact hunit
  | store addr v idle =>
    refine State.sessionConsistent_of_not_pending ((s.store_pending addr v).trans idle.2) ?_
    rwa [State.store_ses, State.store_params]
  | reset => exact State.sessionConsistent_of_not_pending rfl (Session.empty_consistent _)
  | complete _ _ _ hexec =>
    have completed := exec_completedBy hexec
    refine State.sessionConsistent_of_not_pending completed.pending ?_
    rw [completed.params]
    exact exec_ses_consistent ⟨hunit, hsnapshot⟩ hexec
  | illegal => exact State.sessionConsistent_of_not_pending rfl hunit

/-- Settles O51: the session changes only where a session command completes or the unit is reset, and an accepted share
keeps it consistent. -/
theorem stepsKeepTheSessionConsistent : Obligations.StepsKeepTheSessionConsistent := by
  intro s t hs h
  obtain ⟨rest, m⟩ := step_move h
  exact m.sessionConsistent hs

end Sys2Proof.Machine

/-! PROOFS. What the step, the command register and the bus addresses show (R31 to R63, R71 to R81, R91, R96, R400). -/

namespace Sys2Proof.Machine

/-! ### Steps and the command register (R31, R33) -/

/-- Settles O4: each clause is one branch of the unit's turn or one event of the bus. -/
theorem stepRunsTheDecodedCommand : Obligations.StepRunsTheDecodedCommand := by
  intro s
  refine ⟨fun p i hready hp hi => ⟨State.operands_of_pending hp, fun hbus => ?_, fun rest hbus => ?_⟩,
    fun hready hp => ⟨fun hbus => ?_, fun rest hbus => ?_⟩,
    fun hready => ⟨fun hbus => ?_, fun rest hbus => ?_⟩,
    fun rest => ⟨fun addr hbus => ?_, fun addr v hbus => ?_, fun hbus => ?_, fun hbus => ?_⟩⟩
  · rw [step_of_bus_nil hbus, State.runUnit_of_decodes hready hp hi]
  · rw [step_of_bus_unit hbus]
    exact State.runUnit_of_decodes hready hp hi
  · rw [step_of_bus_nil hbus, State.runUnit_of_idle ⟨hready, hp⟩]
  · rw [step_of_bus_unit hbus]
    exact State.runUnit_of_idle ⟨hready, hp⟩
  · rw [step_of_bus_nil hbus, State.runUnit_of_not_ready hready]
  · rw [step_of_bus_unit hbus]
    exact State.runUnit_of_not_ready hready
  all_goals exact step_of_bus_event hbus nofun

/-- An idle unit takes a write to CMD as a command word (R33). -/
theorem State.hostWrite_cmd_of_idle {s : State} (h : s.isIdle) (w : Word) : s.hostWrite 0x00000001 w = s.accept w := by
  rw [State.hostWrite_of_idle h, if_pos (by decide)]

/-- While a command runs a write to CMD sets OVERRUN: only a write to STATUS clears it (R40, R412). -/
theorem State.hostWrite_cmd_of_pending {s : State} (hready : s.arch.csr.ready = true) (hp : s.pending ≠ none) (w : Word) :
    s.hostWrite 0x00000001 w = s.putOverrun true := by
  have hstatus : clearsOverrun 0x00000001 w = false := by simp [clearsOverrun, busAddress]
  rw [State.hostWrite_of_pending hready hp, hstatus, Bool.not_false]

/-- Settles O53: a write to CMD is taken by an idle unit, sets OVERRUN of a running one, and is lost in the reset sequence. -/
theorem commandAcceptance : Obligations.CommandAcceptance := by
  intro s w rest hbus
  have hstep : step s = .next (State.hostWrite { s with bus := rest } 0x00000001 w) := step_of_bus_event hbus nofun
  refine ⟨fun hidle => ⟨hstep.trans (congrArg _ ?_), rfl⟩, fun hready hp => hstep.trans (congrArg _ ?_),
    fun hready => hstep.trans (congrArg _ ?_)⟩
  · exact State.hostWrite_cmd_of_idle (s := { s with bus := rest }) hidle w
  · exact State.hostWrite_cmd_of_pending (s := { s with bus := rest }) hready hp w
  · exact State.hostWrite_of_not_ready (s := { s with bus := rest }) hready _ w

/-! ### Reads of registers (R35, R93) -/

/-- The address of register `n` is its number. -/
theorem State.peek_register (s : State) {n : Nat} (hn : n < 2 ^ 24) : s.peek (BitVec.ofNat 32 n) = s.readCsr n := by
  have htoNat : (BitVec.ofNat 32 n).toNat = n := by rw [BitVec.toNat_ofNat]; omega
  have hspace : spaceId (BitVec.ofNat 32 n) = 0 := by rw [spaceId_eq, htoNat]; omega
  have hindex : elementIndex (BitVec.ofNat 32 n) = n := by rw [elementIndex_eq, htoNat]; omega
  rw [State.peek, if_pos hspace, hindex]

/-- A zero-extended value is the value. -/
theorem toNat_zeroExtended {w : Nat} (v : BitVec w) (hw : w ≤ 32) : (v.setWidth 32 : Word).toNat = v.toNat :=
  BitVec.toNat_setWidth_of_le hw

/-- A register that holds the field `v` reads `v`, zero-extended. -/
theorem State.peek_register_toNat {s : State} {w : Nat} {v : BitVec w} (n : Nat) (h : s.readCsr n = v.setWidth 32)
    (hn : n < 2 ^ 24 := by norm_num) (hw : w ≤ 32 := by norm_num) : (s.peek (BitVec.ofNat 32 n)).toNat = v.toNat := by
  rw [s.peek_register hn, h, toNat_zeroExtended v hw]

/-! ### Reads of buffers (R71 to R81, R91) -/

/-- The address of an element of a buffer space reads that element. -/
theorem State.peek_element (s : State) {sp i : Nat} (hsp : 0 < sp ∧ sp < 256) (hi : i < 2 ^ 24)
    (h : hasElement s.params sp i = true) : s.peek (elementAddress sp i) = s.arch.readBuffer sp i := by
  rw [State.peek, spaceId_elementAddress hsp.2 hi, elementIndex_elementAddress hsp.2 hi, if_neg (by omega), if_pos h]

/-- An element `v` of a buffer reads `v`, zero-extended. -/
theorem State.peek_element_toNat {s : State} {sp i w : Nat} {v : BitVec w} (h : hasElement s.params sp i = true)
    (hv : s.arch.readBuffer sp i = v.setWidth 32) (hi : i < 2 ^ 24) (hsp : 0 < sp ∧ sp < 256 := by norm_num)
    (hw : w ≤ 32 := by norm_num) : (s.peek (elementAddress sp i)).toNat = v.toNat := by
  rw [s.peek_element hsp hi h, hv, toNat_zeroExtended v hw]

/-- Element `k` of row `j` of a two-dimensional space exists where the row and the element do (R91). -/
theorem hasElement_fragY {p : Params} (hp : p.lMax ≤ 64) {j k : Nat} (hj : j < 16) (hk : k < p.lMax) :
    hasElement p 0x07 (j * 64 + k) = true := by
  simp only [hasElement, Bool.and_eq_true, decide_eq_true_eq]
  omega

theorem hasElement_mnem {p : Params} (hp : p.tMax ≤ 4096) {m b : Nat} (hm : m < 256) (hb : b < p.tMax) :
    hasElement p 0x09 (m * 4096 + b) = true := by
  simp only [hasElement, Bool.and_eq_true, decide_eq_true_eq]
  omega

/-- Settles O58: the register numbers select the stored fields, the space ids the buffers. -/
theorem registersAndBuffersReadTheirOwn : Obligations.RegistersAndBuffersReadTheirOwn := by
  intro s hsizes
  obtain ⟨hlMax, htMax, hpMax⟩ := hsizes
  refine ⟨⟨s.peek_register (n := 0x01) (by norm_num), s.peek_register (n := 0x03) (by norm_num),
      s.peek_register (n := 0x04) (by norm_num),
      State.peek_register_toNat 0x08 rfl, State.peek_register_toNat 0x09 rfl, State.peek_register_toNat 0x0A rfl,
      State.peek_register_toNat 0x0B rfl, State.peek_register_toNat 0x0C rfl, State.peek_register_toNat 0x0D rfl,
      State.peek_register_toNat 0x0E rfl, State.peek_register_toNat 0x0F rfl, State.peek_register_toNat 0x10 rfl,
      State.peek_register_toNat 0x11 rfl, State.peek_register_toNat 0x12 rfl, State.peek_register_toNat 0x13 rfl,
      State.peek_register_toNat 0x14 rfl, State.peek_register_toNat 0x15 rfl, State.peek_register_toNat 0x18 rfl,
      State.peek_register_toNat 0x19 rfl, State.peek_register_toNat 0x1A rfl, State.peek_register_toNat 0x1B rfl,
      State.peek_register_toNat 0x1C rfl, State.peek_register_toNat 0x1D rfl, State.peek_register_toNat 0x1E rfl⟩,
    fun i hi => ⟨?secret, ?result⟩, fun i hi => ?pass, fun i hi => ?sym, fun i hi => ?text,
    fun j hj => ⟨?fragX, fun k hk => ?fragY⟩, fun i hi => ?groups, fun m hm => ⟨?mnemLen, fun b hb => ?mnem⟩⟩
  case fragY => exact State.peek_element_toNat (hasElement_fragY hlMax hj hk) rfl (by omega)
  case mnem => exact State.peek_element_toNat (hasElement_mnem htMax hm hb) rfl (by omega)
  all_goals exact State.peek_element_toNat (decide_eq_true ‹_›) rfl (by omega)

/-! ### Words packed from fields (R37, R40) -/

/-- The word has the value `n`, which fits in its low `k` bits. -/
def Word.Packs (x : Word) (n k : Nat) : Prop := x.toNat = n ∧ n < 2 ^ k

/-- A field alone in the low bits. -/
theorem Word.packs_setWidth {w : Nat} (y : BitVec w) (hw : w ≤ 32) : Word.Packs (y.setWidth 32) y.toNat w :=
  ⟨toNat_zeroExtended y hw, y.isLt⟩

/-- A field put above the bits used so far adds its value at its place. -/
theorem Word.Packs.or_shiftLeft {x : Word} {n k w : Nat} (h : Word.Packs x n k) (y : BitVec w) (j : Nat) (hk : k ≤ j)
    (hw : j + w ≤ 32) : Word.Packs (x ||| (y.setWidth 32 <<< j)) (n + 2 ^ j * y.toNat) (j + w) := by
  obtain ⟨rfl, hn⟩ := h
  have hx : x.toNat < 2 ^ j := hn.trans_le (Nat.pow_le_pow_right (by norm_num) hk)
  have hy : 2 ^ j * (y.toNat + 1) ≤ 2 ^ (j + w) := by
    rw [Nat.pow_add]
    exact Nat.mul_le_mul_left _ y.isLt
  have hbound : x.toNat + 2 ^ j * y.toNat < 2 ^ (j + w) := by
    rw [Nat.mul_succ] at hy
    omega
  have hfits : y.toNat * 2 ^ j < 2 ^ 32 := by
    have := Nat.pow_le_pow_right (n := 2) (by norm_num) hw
    rw [Nat.mul_comm]
    omega
  refine ⟨?_, hbound⟩
  rw [BitVec.toNat_or, BitVec.toNat_shiftLeft, toNat_zeroExtended y (by omega), Nat.shiftLeft_eq, Nat.mod_eq_of_lt hfits,
    Nat.or_comm, Nat.mul_comm, ← Nat.two_pow_add_eq_or_of_lt hx, Nat.add_comm]

/-- A flag put above the bits used so far (R40). -/
theorem Word.Packs.or_flagAt {x : Word} {n k : Nat} (h : Word.Packs x n k) (b : Bool) (j : Nat) (hk : k ≤ j)
    (hj : j < 32) : Word.Packs (x ||| flagAt j b) (n + 2 ^ j * b.toNat) (j + 1) := by
  simpa [flagAt] using h.or_shiftLeft (BitVec.ofBool b) j hk hj

theorem Word.packs_flagAt_zero (b : Bool) : Word.Packs (flagAt 0 b) b.toNat 1 := by
  simpa [flagAt] using Word.packs_setWidth (BitVec.ofBool b) (by norm_num)

/-! ### The constants of the unit and STATUS (R36 to R38, R40) -/

theorem capsValue_toNat {p : Params} (hl : p.lMax < 256) (hm : p.minSecret < 256) (ht : p.tMax < 65536) :
    (capsValue p).toNat = p.lMax + 2 ^ 8 * p.minSecret + 2 ^ 16 * p.tMax := by
  have hpacks := ((Word.packs_setWidth (BitVec.ofNat 8 p.lMax) (by norm_num)).or_shiftLeft (BitVec.ofNat 8 p.minSecret)
    8 le_rfl (by norm_num)).or_shiftLeft (BitVec.ofNat 16 p.tMax) 16 le_rfl (by norm_num)
  rw [capsValue, hpacks.1, BitVec.toNat_ofNat, BitVec.toNat_ofNat, BitVec.toNat_ofNat, Nat.mod_eq_of_lt hl,
    Nat.mod_eq_of_lt hm, Nat.mod_eq_of_lt ht]

theorem caps2Value_toNat {p : Params} (hp : p.pMax < 65536) : (caps2Value p).toNat = p.pMax := by
  rw [caps2Value, toNat_zeroExtended _ (by norm_num), BitVec.toNat_ofNat, Nat.mod_eq_of_lt hp]

/-- The STATUS word is its fields at their places. -/
theorem State.status_toNat (s : State) :
    s.status.toNat = statusNumber s.busy s.arch.csr.done s.arch.csr.err s.arch.csr.ready s.arch.csr.overrun
      s.arch.csr.errCode.toNat s.arch.ses.state.code.toNat := by
  have hflags := ((((Word.packs_flagAt_zero s.busy).or_flagAt s.arch.csr.done 1 le_rfl (by norm_num)).or_flagAt
    s.arch.csr.err 2 le_rfl (by norm_num)).or_flagAt s.arch.csr.ready 3 le_rfl (by norm_num)).or_flagAt
    s.arch.csr.overrun 4 le_rfl (by norm_num)
  have hcodes := (hflags.or_shiftLeft s.arch.csr.errCode 8 (by norm_num) (by norm_num)).or_shiftLeft
    s.arch.ses.state.code 16 le_rfl (by norm_num)
  rw [State.status, hcodes.1]
  rfl

/-- Settles O59: ID, CAPS, CAPS2 and STATUS are the registers 0, 5, 6 and 2. -/
theorem fixedRegistersAndStatus : Obligations.FixedRegistersAndStatus := by
  intro s
  have hid : s.peek 0x00000000 = idValue := s.peek_register (n := 0x00) (by norm_num)
  have hstatus : s.peek 0x00000002 = s.status := s.peek_register (n := 0x02) (by norm_num)
  have hcaps : s.peek 0x00000005 = capsValue s.params := s.peek_register (n := 0x05) (by norm_num)
  have hcaps2 : s.peek 0x00000006 = caps2Value s.params := s.peek_register (n := 0x06) (by norm_num)
  rw [hid, hstatus, hcaps, hcaps2]
  exact ⟨rfl, capsValue_toNat, caps2Value_toNat, s.status_toNat⟩

end Sys2Proof.Machine

/-! PROOFS. What the host bus does at one address: an address that names nothing, a write and what it reads back,
and reads of a busy unit (R34, R43 to R63, R71 to R80, R92, R93, R96, R413). -/

namespace Sys2Proof.Machine

/-! ### The two parts of an address (R91) -/

theorem toNat_div_eq_spaceId (addr : Word) : addr.toNat / 2 ^ 24 = spaceId addr := (spaceId_eq addr).symm

theorem toNat_mod_eq_elementIndex (addr : Word) : addr.toNat % 2 ^ 24 = elementIndex addr := (elementIndex_eq addr).symm

/-- An address is its space id and its index. -/
theorem addr_ext {a b : Word} (hspace : spaceId a = spaceId b) (hindex : elementIndex a = elementIndex b) : a = b := by
  rw [spaceId_eq, spaceId_eq] at hspace
  rw [elementIndex_eq, elementIndex_eq] at hindex
  exact BitVec.eq_of_toNat_eq (by omega)

/-! ### Where a read and a write go (R92, R96) -/

/-- The unit with other registers. -/
def State.withCsr (s : State) (c : Csrs) : State := { s with arch := { s.arch with csr := c } }

/-- The unit with other buffers. -/
def State.withMem (s : State) (m : Memory) : State := { s with arch := { s.arch with mem := m } }

theorem State.peek_of_register (s : State) {addr : Word} (h : spaceId addr = 0) :
    s.peek addr = s.readCsr (elementIndex addr) := by
  rw [State.peek, if_pos h]

theorem State.peek_of_buffer (s : State) {addr : Word} (h : spaceId addr ≠ 0) :
    s.peek addr = if hasElement s.params (spaceId addr) (elementIndex addr) then
      s.arch.readBuffer (spaceId addr) (elementIndex addr) else 0 := by
  rw [State.peek, if_neg h]

theorem State.store_of_register (s : State) {addr : Word} (h : spaceId addr = 0) (v : Word) :
    s.store addr v = s.withCsr (Csrs.write s.params s.arch.csr (elementIndex addr) v) := by
  rw [State.store, if_pos h, State.withCsr]

theorem State.store_of_element (s : State) {addr : Word} (hspace : spaceId addr ≠ 0)
    (h : hasElement s.params (spaceId addr) (elementIndex addr) = true) (v : Word) :
    s.store addr v = s.withMem (Memory.write s.params s.arch.mem (spaceId addr) (elementIndex addr) v) := by
  rw [State.store, if_neg hspace, if_pos h, State.withMem]

theorem State.store_of_missing (s : State) {addr : Word} (hspace : spaceId addr ≠ 0)
    (h : hasElement s.params (spaceId addr) (elementIndex addr) = false) (v : Word) : s.store addr v = s := by
  rw [State.store, if_neg hspace, h, if_neg Bool.false_ne_true]

/-- A store changes registers and elements only. -/
theorem State.store_eq (s : State) (addr v : Word) :
    s.store addr v = { s with arch := { s.arch with
      csr := (s.store addr v).arch.csr
      mem := (s.store addr v).arch.mem } } := by
  unfold State.store
  split_ifs <;> rfl

theorem State.store_isIdle {s : State} (h : s.isIdle) (addr v : Word) : (s.store addr v).isIdle := by
  obtain ⟨hready, hnone⟩ := h
  exact ⟨(s.store_ready addr v).trans hready, (s.store_pending addr v).trans hnone⟩

theorem clearsOverrun_eq_false {addr : Word} (h : addr ≠ 0x00000002) (v : Word) : clearsOverrun addr v = false := by
  have haddr : (addr == busAddress 0 0x02) = false := beq_eq_false_iff_ne.2 h
  rw [clearsOverrun, haddr, Bool.false_and]

/-- Of the addresses only CMD and STATUS do more than store (R33, R40, R96). -/
theorem State.hostWrite_eq_store {s : State} (hidle : s.isIdle) {addr : Word} (hcmd : addr ≠ 0x00000001)
    (hstatus : addr ≠ 0x00000002) (v : Word) : s.hostWrite addr v = s.store addr v := by
  have haddr : addr ≠ busAddress 0 0x01 := hcmd
  rw [State.hostWrite_of_idle hidle, if_neg haddr, clearsOverrun_eq_false hstatus, if_neg Bool.false_ne_true]

/-! ### Host reads (R96, R413) -/

theorem State.busy_iff (s : State) : s.busy = true ↔ s.pending ≠ none ∨ s.arch.csr.ready = false := by
  simp [State.busy, Option.isSome_iff_ne_none]

theorem readableWhileBusy_iff (addr : Word) :
    readableWhileBusy addr = true ↔
      addr = 0x00000000 ∨ addr = 0x00000002 ∨ addr = 0x00000005 ∨ addr = 0x00000006 := by
  simp [readableWhileBusy, busAddress, or_assoc]

theorem State.hostRead_of_idle {s : State} (h : s.isIdle) (addr : Word) :
    s.hostRead addr = { s with reads := s.peek addr :: s.reads } := by
  obtain ⟨hready, hnone⟩ := h
  simp [State.hostRead, State.busy, hready, hnone]

theorem State.hostRead_of_readable {s : State} {addr : Word} (h : readableWhileBusy addr = true) :
    s.hostRead addr = { s with reads := s.peek addr :: s.reads } := by
  simp [State.hostRead, h]

theorem State.hostRead_of_busy {s : State} {addr : Word} (hbusy : s.busy = true) (h : readableWhileBusy addr = false) :
    s.hostRead addr =
      { s with reads := Config.busyRead s.busyReads :: s.reads, busyReads := s.busyReads + 1 } := by
  simp [State.hostRead, hbusy, h]

/-- Settles O55: the two branches of a host read. -/
theorem busyReadsAreUnspecified : Obligations.BusyReadsAreUnspecified := by
  intro s addr
  refine ⟨fun hidle => State.hostRead_of_idle hidle addr, fun hbusy =>
    ⟨fun hfour => ?_, fun hid hstatus hcaps hcaps2 => ?_⟩⟩
  · exact State.hostRead_of_readable ((readableWhileBusy_iff addr).2 hfour)
  · have hother : readableWhileBusy addr = false := by
      rw [← Bool.not_eq_true, readableWhileBusy_iff]
      rintro (hfour | hfour | hfour | hfour) <;> contradiction
    exact State.hostRead_of_busy (s.busy_iff.2 hbusy) hother

/-! ### Addresses that name nothing (R34, R92) -/

/-- No buffer space has an element at an address that names nothing. -/
theorem NamesNothing.hasElement_eq_false {p : Params} {sp i : Nat} (h : NamesNothing p sp i) : hasElement p sp i = false := by
  unfold hasElement
  split
  all_goals
    simp [NamesNothing, plainCapacity] at h ⊢ <;> omega

/-- In the CSR space the numbers without a register name nothing (R34, R35). -/
theorem NamesNothing.register {p : Params} {n : Nat} (h : NamesNothing p 0x00 n) :
    n = 0x07 ∨ n = 0x16 ∨ n = 0x17 ∨ n = 0x1F ∨ 0x27 ≤ n := by
  simpa [NamesNothing, plainCapacity] using h

theorem NamesNothing.readCsr_eq_zero {p : Params} {n : Nat} (h : NamesNothing p 0x00 n) (s : State) : s.readCsr n = 0 := by
  obtain rfl | rfl | rfl | rfl | hbeyond := h.register
  case inr.inr.inr.inr =>
    unfold State.readCsr
    split <;> first | rfl | omega
  all_goals rfl

theorem NamesNothing.writeCsr_eq_self {p : Params} {n : Nat} (h : NamesNothing p 0x00 n) (c : Csrs) (v : Word) :
    Csrs.write p c n v = c := by
  obtain rfl | rfl | rfl | rfl | hbeyond := h.register
  case inr.inr.inr.inr =>
    unfold Csrs.write
    split <;> first | rfl | omega
  all_goals rfl

theorem State.peek_of_namesNothing {s : State} {addr : Word}
    (h : NamesNothing s.params (spaceId addr) (elementIndex addr)) : s.peek addr = 0 := by
  by_cases hspace : spaceId addr = 0
  · rw [hspace] at h
    rw [s.peek_of_register hspace, h.readCsr_eq_zero]
  · rw [s.peek_of_buffer hspace, h.hasElement_eq_false, if_neg Bool.false_ne_true]

theorem State.store_of_namesNothing {s : State} {addr : Word}
    (h : NamesNothing s.params (spaceId addr) (elementIndex addr)) (v : Word) : s.store addr v = s := by
  by_cases hspace : spaceId addr = 0
  · rw [hspace] at h
    rw [s.store_of_register hspace, h.writeCsr_eq_self, State.withCsr]
  · exact s.store_of_missing hspace h.hasElement_eq_false v

/-- CMD and STATUS are registers. -/
theorem ne_cmd_status_of_namesNothing {p : Params} {addr : Word}
    (h : NamesNothing p (spaceId addr) (elementIndex addr)) : addr ≠ 0x00000001 ∧ addr ≠ 0x00000002 := by
  constructor <;> rintro rfl <;> have := h.register <;> simp [elementIndex] at this

/-- Settles O56: such an address has no element and no register, so a read finds 0 and a write nothing to store to. -/
theorem missingAddressesAreQuiet : Obligations.MissingAddressesAreQuiet := by
  intro s addr h
  rw [toNat_div_eq_spaceId, toNat_mod_eq_elementIndex] at h
  obtain ⟨hcmd, hstatus⟩ := ne_cmd_status_of_namesNothing h
  have hpeek : s.peek addr = 0 := State.peek_of_namesNothing h
  refine ⟨hpeek, fun hidle => ⟨?_, fun v => ?_⟩⟩
  · rw [State.hostRead_of_idle hidle, hpeek]
  · rw [State.hostWrite_eq_store hidle hcmd hstatus, State.store_of_namesNothing h]

/-! ### Registers written and read (R43 to R63, R93) -/

/-- A write to register `n` leaves what every other number reads. -/
theorem State.readCsr_write_of_ne (s : State) {n m : Nat} (h : m ≠ n) (v : Word) :
    (s.withCsr (Csrs.write s.params s.arch.csr n v)).readCsr m = s.readCsr m := by
  unfold Csrs.write
  split
  all_goals
    unfold State.readCsr
    split <;> first | rfl | exact absurd rfl h

/-- A WARL minimum within its register's width is read back whole (R34, R93). -/
theorem warl_read {w cap : Nat} (v : Word) (hcap : cap < 2 ^ w) (hw : w ≤ 32) :
    ((warl w v cap).setWidth 32 : Word).toNat = min v.toNat cap := by
  have hfits : min v.toNat cap < 2 ^ w := (Nat.min_le_right ..).trans_lt hcap
  rw [toNat_zeroExtended _ hw, warl, BitVec.toNat_ofNat, Nat.mod_eq_of_lt hfits]

/-- The low bits of the data are read back zero-extended (R93). -/
theorem lowBits_read {w : Nat} (v : Word) (hw : w ≤ 32) :
    ((v.setWidth w).setWidth 32 : Word).toNat = v.toNat % 2 ^ w := by
  rw [toNat_zeroExtended _ hw, BitVec.toNat_setWidth]

/-- A writable register reads back the number stored. -/
theorem State.readCsr_write_same {s : State} {n k : Nat} {v : Word} (hsizes : Params.sizesLegal s.params)
    (h : storedNumber s.params 0x00 n v.toNat = some k) :
    ((s.withCsr (Csrs.write s.params s.arch.csr n v)).readCsr n).toNat = k := by
  obtain ⟨hlMax, htMax, hpMax⟩ := hsizes
  simp only [storedNumber] at h
  split at h <;> cases h
  case h_1 | h_2 | h_3 | h_4 | h_5 | h_6 | h_7 | h_8 => exact warl_read v (by omega) (by norm_num)
  all_goals exact lowBits_read v (by norm_num)

/-! ### Elements written and read (R71 to R80, R93) -/

/-- A write to an element leaves what every other element reads. -/
theorem Arch.readBuffer_write_of_ne (p : Params) (a : Arch) {sp i sp' i' : Nat} (h : sp' = sp → i' ≠ i) (v : Word) :
    Arch.readBuffer { a with mem := Memory.write p a.mem sp i v } sp' i' = a.readBuffer sp' i' := by
  by_cases hsp : sp' = sp
  · subst hsp
    unfold Memory.write
    split <;> simp [Arch.readBuffer, Cells.read_write, h rfl]
  · unfold Memory.write
    split
    all_goals
      unfold Arch.readBuffer
      split <;> first | rfl | exact absurd rfl hsp

/-- A writable element exists. -/
theorem hasElement_of_storedNumber {p : Params} {sp i v n : Nat} (hsp : sp ≠ 0) (h : storedNumber p sp i v = some n) :
    hasElement p sp i = true := by
  unfold storedNumber at h
  split at h
  case h_1 => exact absurd rfl hsp
  case h_11 => cases h
  all_goals
    obtain ⟨hi, -⟩ := Option.ite_none_right_eq_some.1 h
    simp only [hasElement, Bool.and_eq_true, decide_eq_true_eq]
    omega

/-- A writable element reads back the number stored. -/
theorem Arch.readBuffer_write_same {p : Params} (a : Arch) {sp i n : Nat} {v : Word} (hsizes : Params.sizesLegal p)
    (hsp : sp ≠ 0) (h : storedNumber p sp i v.toNat = some n) :
    (Arch.readBuffer { a with mem := Memory.write p a.mem sp i v } sp i).toNat = n := by
  obtain ⟨hlMax, htMax, hpMax⟩ := hsizes
  unfold storedNumber at h
  split at h
  case h_1 => exact absurd rfl hsp
  case h_11 => cases h
  all_goals
    obtain ⟨-, hn⟩ := Option.ite_none_right_eq_some.1 h
    cases hn
    simp only [Arch.readBuffer, Memory.write, Cells.read_write, if_true]
  case h_10 => exact warl_read v (by omega) (by norm_num)
  all_goals exact lowBits_read v (by norm_num)

/-! ### A host write of an idle unit (R93) -/

/-- CMD and STATUS store no number. -/
theorem ne_cmd_status_of_storedNumber {p : Params} {addr : Word} {v n : Nat}
    (h : storedNumber p (spaceId addr) (elementIndex addr) v = some n) : addr ≠ 0x00000001 ∧ addr ≠ 0x00000002 := by
  constructor <;> rintro rfl <;> cases h

/-- The address written reads the number stored. -/
theorem State.peek_store_same {s : State} {addr v : Word} {n : Nat} (hsizes : Params.sizesLegal s.params)
    (h : storedNumber s.params (spaceId addr) (elementIndex addr) v.toNat = some n) :
    ((s.store addr v).peek addr).toNat = n := by
  by_cases hspace : spaceId addr = 0
  · rw [hspace] at h
    rw [s.store_of_register hspace, State.peek_of_register _ hspace]
    exact State.readCsr_write_same hsizes h
  · have hexists := hasElement_of_storedNumber hspace h
    rw [State.peek_of_buffer _ hspace, State.store_params, if_pos hexists, s.store_of_element hspace hexists]
    exact Arch.readBuffer_write_same s.arch hsizes hspace h

/-- Every other address reads as before a store. -/
theorem State.peek_store_of_ne (s : State) {addr other : Word} (hne : other ≠ addr) (v : Word) :
    (s.store addr v).peek other = s.peek other := by
  have hindex (hspace : spaceId other = spaceId addr) : elementIndex other ≠ elementIndex addr :=
    fun h => hne (addr_ext hspace h)
  by_cases hspace : spaceId addr = 0
  · rw [s.store_of_register hspace]
    by_cases hother : spaceId other = 0
    · rw [State.peek_of_register _ hother, s.peek_of_register hother,
        s.readCsr_write_of_ne (hindex (hother.trans hspace.symm))]
    · rw [State.peek_of_buffer _ hother, s.peek_of_buffer hother]
      rfl
  · cases hexists : hasElement s.params (spaceId addr) (elementIndex addr) with
    | false => rw [s.store_of_missing hspace hexists]
    | true =>
      rw [s.store_of_element hspace hexists]
      by_cases hother : spaceId other = 0
      · rw [State.peek_of_register _ hother, s.peek_of_register hother]
        rfl
      · rw [State.peek_of_buffer _ hother, s.peek_of_buffer hother,
          ← Arch.readBuffer_write_of_ne s.params s.arch hindex v]
        rfl

/-- Settles O57: such an address is neither CMD nor STATUS, so the write is a store, and a store reads back. -/
theorem writesReadBack : Obligations.WritesReadBack := by
  intro s addr v n hsizes hidle h t
  rw [toNat_div_eq_spaceId, toNat_mod_eq_elementIndex] at h
  obtain ⟨hcmd, hstatus⟩ := ne_cmd_status_of_storedNumber h
  have ht : t = s.store addr v := State.hostWrite_eq_store hidle hcmd hstatus v
  have hpeek : (t.peek addr).toNat = n := by rw [ht, State.peek_store_same hsizes h]
  refine ⟨hpeek, fun other hne => ?_, ?_, ?_⟩
  · rw [ht, s.peek_store_of_ne hne]
  · rw [ht]
    exact s.store_eq addr v
  · have hidle' : t.isIdle := ht ▸ State.store_isIdle hidle addr v
    rw [State.hostRead_of_idle hidle', ← hpeek, BitVec.ofNat_toNat, BitVec.setWidth_eq]

end Sys2Proof.Machine

/-! PROOFS. The decoder, the encoder and the legal command words: one round trip, and the words of the opcode map are
the encodings (R120 to R127). -/

namespace Sys2Proof

/-! ### The fields of a word (R120, R127) -/

/-- The word of a command holds its bytes, whichever command it is. -/
theorem encode_fields (i : Instr) : Laws.EncodeFields.Statement i := Laws.EncodeFields.assemble_fields _ _ _

/-- A word is its four fields. -/
theorem word_ext {v w : Word} (hop : opField v = opField w) (ha : aField v = aField w) (hb : bField v = bField w)
    (hz : zField v = zField w) : v = w := by
  simp only [opField, aField, bField, zField, ← BitVec.toNat_inj, BitVec.extractLsb'_toNat, Nat.shiftRight_eq_div_pow]
    at hop ha hb hz
  exact BitVec.eq_of_toNat_eq (by omega)

/-- A word is an assembled one when its Z field is 0 and the other three are the bytes. -/
theorem assemble_eq_iff {op a b : Byte} {w : Word} :
    assemble op a b = w ↔ opField w = op ∧ aField w = a ∧ bField w = b ∧ zField w = 0 := by
  obtain ⟨hop, ha, hb, hz⟩ := Laws.EncodeFields.assemble_fields op a b
  constructor
  · rintro rfl
    exact ⟨hop, ha, hb, hz⟩
  · rintro ⟨hop', ha', hb', hz'⟩
    exact word_ext (hop.trans hop'.symm) (ha.trans ha'.symm) (hb.trans hb'.symm) (hz.trans hz'.symm)

/-- A word is the word of a command when its fields are the command's bytes. -/
theorem encode_eq_iff {i : Instr} {w : Word} :
    encode i = w ↔ opField w = i.opcode ∧ aField w = i.operandA ∧ bField w = i.operandB ∧ zField w = 0 :=
  assemble_eq_iff

/-! ### The three kinds of row in the decoder (R124) -/

theorem decodePlain_eq_ok_iff {w : Word} {i j : Instr} :
    decodePlain w i = .ok j ↔ aField w = 0 ∧ bField w = 0 ∧ i = j := by
  unfold decodePlain
  split_ifs <;> simp_all

theorem decodeUnary_eq_ok_iff {w : Word} {mk : Byte → Instr} {j : Instr} :
    decodeUnary w mk = .ok j ↔ bField w = 0 ∧ mk (aField w) = j := by
  unfold decodeUnary
  split_ifs <;> simp_all

theorem decodeBinary_eq_ok_iff {w : Word} {mk : Byte → Byte → Instr} {j : Instr} :
    decodeBinary w mk = .ok j ↔ mk (aField w) (bField w) = j := by
  simp [decodeBinary]

/-! ### The round trip (R120, R121, R127) -/

/-- Settles O1: the OP byte selects the command's own row, and the fields are the bytes the row asks for. -/
theorem decodeEncodeRoundTrip : Obligations.DecodeEncodeRoundTrip := by
  intro i
  obtain ⟨hop, ha, hb, hz⟩ := encode_fields i
  rw [decode, if_neg (not_not.2 hz), hop]
  cases i with
  | gfAdd | gfMul | gfDiv => exact decodeBinary_eq_ok_iff.2 (congrArg₂ _ ha hb)
  | gfInv | wcUnpack | shInterpolate | sesGroupComplete => exact decodeUnary_eq_ok_iff.2 ⟨hb, congrArg _ ha⟩
  | _ => exact decodePlain_eq_ok_iff.2 ⟨ha, hb, rfl⟩

/-- The word of a command decodes to it. -/
theorem decode_of_encode_eq {i : Instr} {w : Word} (h : encode i = w) : decode w = .ok i :=
  h ▸ decodeEncodeRoundTrip i

/-- Settles O3: each of the words is the encoding of its command. -/
theorem sampleWordsDecode : Obligations.SampleWordsDecode := by
  refine ⟨?_, ?_, ?_, ?_, ?_, ?_, ?_, ?_, ?_, ?_, ?_⟩ <;> exact decode_of_encode_eq rfl

/-- A word that decodes is the word of its command: the row checks every field the command has no byte for. -/
theorem encode_eq_of_decode {w : Word} {i : Instr} (h : decode w = .ok i) : encode i = w := by
  unfold decode at h
  split_ifs at h with hz
  rw [not_not] at hz
  split at h
  case h_2 hop | h_3 hop | h_4 hop =>
    obtain rfl := decodeBinary_eq_ok_iff.1 h
    exact encode_eq_iff.2 ⟨BitVec.eq_of_toNat_eq hop, rfl, rfl, hz⟩
  case h_5 hop | h_9 hop | h_12 hop | h_25 hop =>
    obtain ⟨hb, rfl⟩ := decodeUnary_eq_ok_iff.1 h
    exact encode_eq_iff.2 ⟨BitVec.eq_of_toNat_eq hop, rfl, hb, hz⟩
  case h_28 => cases h
  all_goals
    rename_i hop
    obtain ⟨ha, hb, rfl⟩ := decodePlain_eq_ok_iff.1 h
    exact encode_eq_iff.2 ⟨BitVec.eq_of_toNat_eq hop, ha, hb, hz⟩

theorem decode_eq_ok_iff {w : Word} {i : Instr} : decode w = .ok i ↔ encode i = w :=
  ⟨encode_eq_of_decode, decode_of_encode_eq⟩

/-! ### The rows of the opcode map (R121) -/

/-- The bits of the A byte that the row of a command fixes: none where the row takes A. -/
def Instr.fixedA : Instr → Byte
  | .gfAdd _ _ | .gfMul _ _ | .gfDiv _ _ | .gfInv _ | .wcUnpack _ | .shInterpolate _ | .sesGroupComplete _ => 0
  | _ => 0xFF

/-- The bits of the B byte that the row of a command fixes: none where the row takes B. -/
def Instr.fixedB : Instr → Byte
  | .gfAdd _ _ | .gfMul _ _ | .gfDiv _ _ => 0
  | _ => 0xFF

/-- The mask of a row that fixes OP, Z and the bits `fa` and `fb` of A and B. -/
def rowMask (fa fb : Byte) : Word := 0xFF000000 ||| assemble 0xFF fa fb

/-- The row of a command in the opcode map. -/
def Instr.row (i : Instr) : OpcodeRow := ⟨i.mnemonic, rowMask i.fixedA i.fixedB, i.opcode.setWidth 32⟩

/-- The command of the same row with the immediate bytes `a` and `b`, where the row has them. -/
def Instr.withOperands (a b : Byte) : Instr → Instr
  | .gfAdd _ _ => .gfAdd a b
  | .gfMul _ _ => .gfMul a b
  | .gfDiv _ _ => .gfDiv a b
  | .gfInv _ => .gfInv a
  | .wcUnpack _ => .wcUnpack a
  | .shInterpolate _ => .shInterpolate a
  | .sesGroupComplete _ => .sesGroupComplete a
  | i => i

theorem Instr.withOperands_self (i : Instr) : i.withOperands i.operandA i.operandB = i := by
  cases i <;> rfl

/-- A command of each row, in the order of the opcode map. -/
def rowCommands : List Instr :=
  [.nop, .gfAdd 0 0, .gfMul 0 0, .gfDiv 0 0, .gfInv 0, .chkCreate, .chkVerify, .wcPack, .wcUnpack 0, .wcToWords,
   .wcFromWords, .shInterpolate 0, .shSplit, .shRecombine, .fcEncrypt, .fcDecrypt, .shareEncode, .shareDecode,
   .generate, .combine, .sesReset, .sesAccept, .sesStatus, .sesIsComplete, .sesGroupComplete 0, .sesCombine, .clear]

theorem opcodeRows_eq : opcodeRows = rowCommands.map Instr.row := rfl

/-- The rows of the opcode map are the rows of the commands. -/
theorem mem_opcodeRows_iff {r : OpcodeRow} : r ∈ opcodeRows ↔ ∃ i : Instr, i.row = r := by
  rw [opcodeRows_eq, List.mem_map]
  constructor
  · rintro ⟨i, -, hi⟩
    exact ⟨i, hi⟩
  · rintro ⟨i, rfl⟩
    refine ⟨i.withOperands 0 0, ?_, ?_⟩
    · cases i <;> simp [Instr.withOperands, rowCommands]
    · cases i <;> rfl

/-! ### The words of a row (R124) -/

theorem byte_and_ff (v : Byte) : v &&& 0xFF = v := BitVec.and_allOnes

/-- The fields of a masked word are the masked fields. -/
theorem fields_and (v w : Word) :
    opField (v &&& w) = opField v &&& opField w ∧ aField (v &&& w) = aField v &&& aField w ∧
      bField (v &&& w) = bField v &&& bField w ∧ zField (v &&& w) = zField v &&& zField w :=
  ⟨BitVec.extractLsb'_and, BitVec.extractLsb'_and, BitVec.extractLsb'_and, BitVec.extractLsb'_and⟩

theorem rowMask_fields (fa fb : Byte) :
    opField (rowMask fa fb) = 0xFF ∧ aField (rowMask fa fb) = fa ∧ bField (rowMask fa fb) = fb ∧
      zField (rowMask fa fb) = 0xFF := by
  obtain ⟨hop, ha, hb, hz⟩ := Laws.EncodeFields.assemble_fields 255#8 fa fb
  simp only [opField, aField, bField, zField] at hop ha hb hz
  simp [rowMask, opField, aField, bField, zField, BitVec.extractLsb'_or, hop, ha, hb, hz]

/-- A masked word is compared with the pattern of a row field by field. -/
theorem and_rowMask_eq_iff {w : Word} {op fa fb : Byte} :
    w &&& rowMask fa fb = op.setWidth 32 ↔
      opField w = op ∧ aField w &&& fa = 0 ∧ bField w &&& fb = 0 ∧ zField w = 0 := by
  have hpattern : op.setWidth 32 = assemble op 0 0 := by simp [assemble]
  obtain ⟨hop, ha, hb, hz⟩ := fields_and w (rowMask fa fb)
  obtain ⟨hop', ha', hb', hz'⟩ := rowMask_fields fa fb
  rw [hpattern, eq_comm, assemble_eq_iff, hop, ha, hb, hz, hop', ha', hb', hz', byte_and_ff, byte_and_ff]

/-- A row either takes A as it is or fixes it to 0. -/
theorem Instr.and_fixedA_iff (i : Instr) (a b : Byte) : a &&& i.fixedA = 0 ↔ a = (i.withOperands a b).operandA := by
  cases i with
  | gfAdd | gfMul | gfDiv | gfInv | wcUnpack | shInterpolate | sesGroupComplete => exact iff_of_true BitVec.and_zero rfl
  | _ => exact Eq.congr_left (byte_and_ff a)

/-- A row either takes B as it is or fixes it to 0. -/
theorem Instr.and_fixedB_iff (i : Instr) (a b : Byte) : b &&& i.fixedB = 0 ↔ b = (i.withOperands a b).operandB := by
  cases i with
  | gfAdd | gfMul | gfDiv => exact iff_of_true BitVec.and_zero rfl
  | _ => exact Eq.congr_left (byte_and_ff b)

theorem Instr.withOperands_opcode (i : Instr) (a b : Byte) : (i.withOperands a b).opcode = i.opcode := by
  cases i <;> rfl

/-- A row admits the words of its commands, each with its own A and B bytes. -/
theorem Instr.row_admits_iff (i : Instr) (w : Word) :
    i.row.admits w = true ↔ encode (i.withOperands (aField w) (bField w)) = w := by
  rw [OpcodeRow.admits, beq_iff_eq, Instr.row, and_rowMask_eq_iff, i.and_fixedA_iff _ (bField w),
    i.and_fixedB_iff (aField w), encode_eq_iff, i.withOperands_opcode]

/-- The legal words are the words of the commands. -/
theorem legalCommandWord_iff {w : Word} : legalCommandWord w = true ↔ ∃ i, encode i = w := by
  rw [legalCommandWord, List.any_eq_true]
  constructor
  · rintro ⟨r, hr, hadmits⟩
    obtain ⟨i, rfl⟩ := mem_opcodeRows_iff.1 hr
    exact ⟨_, (i.row_admits_iff w).1 hadmits⟩
  · rintro ⟨i, rfl⟩
    obtain ⟨-, ha, hb, -⟩ := encode_fields i
    refine ⟨i.row, mem_opcodeRows_iff.2 ⟨i, rfl⟩, (i.row_admits_iff _).2 ?_⟩
    rw [ha, hb, i.withOperands_self]

theorem exists_decode_iff_legal (w : Word) : (∃ i, decode w = .ok i) ↔ legalCommandWord w = true := by
  rw [legalCommandWord_iff]
  exact exists_congr fun _ => decode_eq_ok_iff

end Sys2Proof

namespace Sys2Proof.Machine

/-! ### Illegal words (R33, R124) -/

/-- The detail of IllegalCommand is the OP byte. -/
theorem State.illegalCommand_eq_failed (s : State) (w : Word) :
    s.illegalCommand w = s.failed 0x01 (BitVec.ofNat 32 (w.toNat % 256)) := by
  have hop : (opField w).setWidth 32 = BitVec.ofNat 32 (w.toNat % 256) := by
    simp [opField, ← BitVec.toNat_inj]
  rw [State.illegalCommand, State.raise_eq_failed, hop]
  rfl

/-- The turn of a unit whose pending word is illegal reports it (R124). -/
theorem step_of_illegal_pending {s : State} {p : Pending} {rest : List BusEvent} (hbus : s.bus = .unit :: rest)
    (hready : s.arch.csr.ready = true) (hp : s.pending = some p) (hw : legalCommandWord p.word = false) :
    step s = .next (State.failed { s with bus := rest } 0x01 (BitVec.ofNat 32 (p.word.toNat % 256))) := by
  cases hdecode : decode p.word with
  | ok i => exact absurd ((exists_decode_iff_legal p.word).1 ⟨i, hdecode⟩) (by simp [hw])
  | error r =>
    rw [step_of_bus_unit hbus, ← State.illegalCommand_eq_failed]
    exact State.runUnit_of_illegal (s := { s with bus := rest }) hready hp hdecode

/-- Settles O2: the legal words are the words of the commands, and decoding inverts encoding on them; an illegal word is
accepted like any other and reported in the unit's turn. -/
theorem illegalWordsAreAcceptedAndRefused : Obligations.IllegalWordsAreAcceptedAndRefused := by
  refine ⟨exists_decode_iff_legal, fun w i => encode_eq_of_decode, fun s w hidle hw => ⟨?_, ?_⟩⟩
  · obtain ⟨haccepts, -⟩ := commandAcceptance { s with bus := [.write 0x00000001 w, .unit] } w [.unit] rfl
    exact (haccepts hidle).1
  · obtain ⟨hready, -⟩ := hidle
    exact step_of_illegal_pending (s := { s.accepted w with bus := [.unit] }) rfl hready rfl hw

end Sys2Proof.Machine

/-! PROOFS. Multiplication of polynomials modulo P(x) distributes over exclusive or, so multiplying by the generator is
known from the powers of x; EXP lists the generator's powers, which settles what GF_MUL, GF_DIV and GF_INV compute. -/

namespace Sys2Proof.Machine

/-! ### Multiplication modulo P(x) distributes over exclusive or (R150) -/

/-- A fold whose step takes sums to sums takes sums to sums. -/
theorem foldl_xor {ι : Type} {w : Nat} {f g h : BitVec w → ι → BitVec w}
    (hstep : ∀ u v i, f (u ^^^ v) i = g u i ^^^ h v i) (l : List ι) (u v : BitVec w) :
    l.foldl f (u ^^^ v) = l.foldl g u ^^^ l.foldl h v := by
  induction l generalizing u v with
  | nil => rfl
  | cons i rest ih => rw [List.foldl_cons, List.foldl_cons, List.foldl_cons, hstep, ih]

/-- A summand that both of two sums take cancels. -/
theorem ite_xor_xor {w : Nat} (p q : Bool) (u v t : BitVec w) :
    (if (p ^^ q) = true then u ^^^ v ^^^ t else u ^^^ v) =
      (if p = true then u ^^^ t else u) ^^^ (if q = true then v ^^^ t else v) := by
  cases p with
  | false =>
    cases q with
    | false => rfl
    | true => exact BitVec.xor_assoc u v t
  | true =>
    cases q with
    | false => show u ^^^ v ^^^ t = u ^^^ t ^^^ v; ac_rfl
    | true =>
      calc u ^^^ v = u ^^^ v ^^^ (t ^^^ t) := by rw [BitVec.xor_self, BitVec.xor_zero]
        _ = u ^^^ t ^^^ (v ^^^ t) := by ac_rfl

theorem carrylessProduct_xor_left (a a' b : Byte) :
    carrylessProduct (a ^^^ a') b = carrylessProduct a b ^^^ carrylessProduct a' b := by
  refine foldl_xor (fun u v i => ?_) (List.range 8) 0 0
  split
  · rw [BitVec.setWidth_xor, BitVec.shiftLeft_xor_distrib]; ac_rfl
  · rfl

theorem carrylessProduct_xor_right (a b b' : Byte) :
    carrylessProduct a (b ^^^ b') = carrylessProduct a b ^^^ carrylessProduct a b' := by
  refine foldl_xor (fun u v i => ?_) (List.range 8) 0 0
  rw [BitVec.getLsbD_xor]
  exact ite_xor_xor ..

theorem reduceModP_xor (u v : BitVec 15) : reduceModP (u ^^^ v) = reduceModP u ^^^ reduceModP v := by
  rw [reduceModP, reduceModP, reduceModP, ← BitVec.setWidth_xor]
  refine congrArg _ (foldl_xor (fun u v k => ?_) _ u v)
  rw [BitVec.getLsbD_xor]
  exact ite_xor_xor ..

theorem fieldProduct_xor_left (a a' b : Byte) :
    fieldProduct (a ^^^ a') b = fieldProduct a b ^^^ fieldProduct a' b := by
  rw [fieldProduct, carrylessProduct_xor_left, reduceModP_xor]; rfl

theorem fieldProduct_xor_right (a b b' : Byte) :
    fieldProduct a (b ^^^ b') = fieldProduct a b ^^^ fieldProduct a b' := by
  rw [fieldProduct, carrylessProduct_xor_right, reduceModP_xor]; rfl

theorem fieldProduct_zero_left (b : Byte) : fieldProduct 0 b = 0 := by
  calc fieldProduct 0 b = fieldProduct (0 ^^^ 0) b := rfl
    _ = 0 := by rw [fieldProduct_xor_left, BitVec.xor_self]; rfl

theorem fieldProduct_zero_right (a : Byte) : fieldProduct a 0 = 0 := by
  calc fieldProduct a 0 = fieldProduct a (0 ^^^ 0) := rfl
    _ = 0 := by rw [fieldProduct_xor_right, BitVec.xor_self]; rfl

/-! ### Every byte is a sum of powers of x -/

/-- The sum of the terms of `v` of degree less than `n`. -/
def lowTerms (v : Byte) : Nat → Byte
  | 0 => 0
  | n + 1 => if v.getLsbD n then lowTerms v n ^^^ ((1 : Byte) <<< n) else lowTerms v n

theorem lowTerms_eight : ∀ v : Byte, lowTerms v 8 = v := by decide +kernel

/-- What holds of the powers of x and of the sum of any two polynomials it holds of, holds of every byte. -/
theorem byte_xor_induction {motive : Byte → Prop} (power : ∀ i < 8, motive ((1 : Byte) <<< i))
    (xor : ∀ a b, motive a → motive b → motive (a ^^^ b)) (v : Byte) : motive v := by
  have low : ∀ n ≤ 8, motive (lowTerms v n) := by
    intro n hn
    induction n with
    | zero => exact xor 1 1 (power 0 (by decide)) (power 0 (by decide))
    | succ n ih =>
      rw [lowTerms]
      split
      · exact xor _ _ (ih (by omega)) (power n (by omega))
      · exact ih (by omega)
  exact lowTerms_eight v ▸ low 8 (le_refl 8)

theorem fieldProduct_one_left (b : Byte) : fieldProduct 1 b = b := by
  induction b using byte_xor_induction with
  | power i hi => decide +revert +kernel
  | xor b b' hb hb' => rw [fieldProduct_xor_right, hb, hb']

/-- Multiplying a product by the generator is multiplying its first factor by it. -/
theorem fieldProduct_generator_mul (a b : Byte) :
    fieldProduct (fieldProduct 3 a) b = fieldProduct 3 (fieldProduct a b) := by
  induction a using byte_xor_induction with
  | power i hi =>
    induction b using byte_xor_induction with
    | power j hj => decide +revert +kernel
    | xor b b' hb hb' => rw [fieldProduct_xor_right, fieldProduct_xor_right, fieldProduct_xor_right, hb, hb']
  | xor a a' ha ha' =>
    rw [fieldProduct_xor_right, fieldProduct_xor_left, fieldProduct_xor_left, fieldProduct_xor_right, ha, ha']

/-! ### The powers of the generator and their exponents (R151) -/

/-- EXP lists the powers of the generator, which come round to 1 after 255 (a check of the 255 entries). -/
theorem fieldProduct_generator_expAt : ∀ i < 255,
    fieldProduct 3 (standardTables.expAt i) = standardTables.expAt ((i + 1) % 255) := by decide +kernel

theorem logAt_expAt : ∀ i < 255, standardTables.logAt (standardTables.expAt i) = i := by decide +kernel

theorem expAt_logAt : ∀ v : Byte, v ≠ 0 →
    standardTables.logAt v < 255 ∧ standardTables.expAt (standardTables.logAt v) = v := by decide +kernel

theorem standardTables_lengths : standardTables.exp.length = 255 ∧ standardTables.log.length = 256 := by decide +kernel

theorem logAt_zero : standardTables.logAt 0 = 0 := rfl

/-- `LOG[0]` is also the exponent of 1, so an entry 0 would be the first one. -/
theorem expAt_ne_zero {i : Nat} (hi : i < 255) : standardTables.expAt i ≠ 0 := by
  intro h
  have first : i = 0 := by rw [← logAt_expAt i hi, h, logAt_zero]
  subst first
  exact absurd h (by decide)

theorem logAt_one : standardTables.logAt 1 = 0 := rfl

/-- Settles O13: the entries of the two tables, checked one by one. -/
theorem tablesArePowersOfTheGenerator : Obligations.TablesArePowersOfTheGenerator := by
  obtain ⟨hexp, hlog⟩ := standardTables_lengths
  refine ⟨hexp, hlog, rfl, fun i hi => ?_, logAt_expAt, expAt_logAt, logAt_zero⟩
  rw [fieldProduct_generator_expAt i (by omega), Nat.mod_eq_of_lt (by omega)]

/-- The `n`th power of the generator, for any `n`. -/
def generatorPower (n : Nat) : Byte := standardTables.expAt (n % 255)

theorem generatorPower_ne_zero (n : Nat) : generatorPower n ≠ 0 := expAt_ne_zero (Nat.mod_lt n (by decide))

theorem logAt_generatorPower (n : Nat) : standardTables.logAt (generatorPower n) = n % 255 :=
  logAt_expAt _ (Nat.mod_lt n (by decide))

/-- Exponents count modulo 255, the order of the generator. -/
theorem generatorPower_congr {m n : Nat} (h : m % 255 = n % 255) : generatorPower m = generatorPower n :=
  congrArg standardTables.expAt h

theorem generatorPower_succ (n : Nat) : generatorPower (n + 1) = fieldProduct 3 (generatorPower n) := by
  rw [generatorPower, generatorPower, fieldProduct_generator_expAt _ (Nat.mod_lt n (by decide)), Nat.mod_add_mod]

/-- Exponents add under multiplication modulo P(x). -/
theorem fieldProduct_generatorPower (m n : Nat) :
    fieldProduct (generatorPower m) (generatorPower n) = generatorPower (m + n) := by
  induction m with
  | zero => rw [Nat.zero_add]; exact fieldProduct_one_left (generatorPower n)
  | succ m ih => rw [generatorPower_succ, fieldProduct_generator_mul, ih, ← generatorPower_succ, Nat.add_right_comm]

/-- A byte is 0 or a power of the generator. -/
theorem eq_zero_or_generatorPower (v : Byte) : v = 0 ∨ ∃ n, v = generatorPower n := by
  refine or_iff_not_imp_left.2 fun hv => ⟨standardTables.logAt v, ?_⟩
  obtain ⟨hlog, hexp⟩ := expAt_logAt v hv
  rw [generatorPower, Nat.mod_eq_of_lt hlog, hexp]

/-! ### The field functions on powers of the generator (R154 to R156) -/

theorem gfmul_zero_left (b : Byte) : gfmul standardTables 0 b = 0 := if_pos (.inl rfl)

theorem gfmul_zero_right (a : Byte) : gfmul standardTables a 0 = 0 := if_pos (.inr rfl)

theorem gfmul_of_ne_zero {a b : Byte} (ha : a ≠ 0) (hb : b ≠ 0) :
    gfmul standardTables a b = standardTables.expAt ((standardTables.logAt a + standardTables.logAt b) % 255) :=
  if_neg (not_or.2 ⟨ha, hb⟩)

theorem gfdiv_zero_left (b : Byte) : gfdiv standardTables 0 b = 0 := if_pos rfl

theorem gfdiv_of_ne_zero {a : Byte} (ha : a ≠ 0) (b : Byte) :
    gfdiv standardTables a b = standardTables.expAt ((standardTables.logAt a + 255 - standardTables.logAt b) % 255) :=
  if_neg ha

theorem gfmul_generatorPower (m n : Nat) :
    gfmul standardTables (generatorPower m) (generatorPower n) = generatorPower (m + n) := by
  rw [gfmul_of_ne_zero (generatorPower_ne_zero m) (generatorPower_ne_zero n), logAt_generatorPower,
    logAt_generatorPower, ← Nat.add_mod]
  rfl

theorem gfdiv_generatorPower (m n : Nat) :
    gfdiv standardTables (generatorPower m) (generatorPower n) = generatorPower (m + (255 - n % 255)) := by
  rw [gfdiv_of_ne_zero (generatorPower_ne_zero m), logAt_generatorPower, logAt_generatorPower]
  exact generatorPower_congr (by omega)

theorem gfinv_generatorPower (n : Nat) :
    gfinv standardTables (generatorPower n) = generatorPower (255 - n % 255) := by
  rw [gfinv, logAt_generatorPower]; rfl

/-- The product by the tables is the product of polynomials modulo P(x) (R157). -/
theorem fieldProduct_eq_gfmul (a b : Byte) : fieldProduct a b = gfmul standardTables a b := by
  obtain rfl | ⟨m, rfl⟩ := eq_zero_or_generatorPower a
  · rw [fieldProduct_zero_left, gfmul_zero_left]
  · obtain rfl | ⟨n, rfl⟩ := eq_zero_or_generatorPower b
    · rw [fieldProduct_zero_right, gfmul_zero_right]
    · rw [fieldProduct_generatorPower, gfmul_generatorPower]

/-! ### The laws of the field (R158) -/

theorem gfmul_comm (a b : Byte) : gfmul standardTables a b = gfmul standardTables b a := by
  simp only [gfmul, or_comm, Nat.add_comm]

theorem gfmul_eq_zero {a b : Byte} (h : gfmul standardTables a b = 0) : a = 0 ∨ b = 0 := by
  obtain rfl | ⟨m, rfl⟩ := eq_zero_or_generatorPower a
  · exact .inl rfl
  · obtain rfl | ⟨n, rfl⟩ := eq_zero_or_generatorPower b
    · exact .inr rfl
    · exact absurd (gfmul_generatorPower m n ▸ h) (generatorPower_ne_zero (m + n))

theorem gfmul_assoc (a b c : Byte) :
    gfmul standardTables (gfmul standardTables a b) c = gfmul standardTables a (gfmul standardTables b c) := by
  obtain rfl | ⟨m, rfl⟩ := eq_zero_or_generatorPower a
  · rw [gfmul_zero_left, gfmul_zero_left, gfmul_zero_left]
  · obtain rfl | ⟨n, rfl⟩ := eq_zero_or_generatorPower b
    · rw [gfmul_zero_left, gfmul_zero_right, gfmul_zero_left]
    · obtain rfl | ⟨k, rfl⟩ := eq_zero_or_generatorPower c
      · rw [gfmul_zero_right, gfmul_zero_right, gfmul_zero_right]
      · rw [gfmul_generatorPower, gfmul_generatorPower, gfmul_generatorPower, gfmul_generatorPower, Nat.add_assoc]

theorem gfmul_gfadd (a b c : Byte) :
    gfmul standardTables a (gfadd b c) = gfadd (gfmul standardTables a b) (gfmul standardTables a c) := by
  rw [← fieldProduct_eq_gfmul, ← fieldProduct_eq_gfmul, ← fieldProduct_eq_gfmul]
  exact fieldProduct_xor_right a b c

theorem gfmul_one (a : Byte) : gfmul standardTables a 1 = a := by
  rw [gfmul_comm, ← fieldProduct_eq_gfmul, fieldProduct_one_left]

theorem gfmul_gfinv {a : Byte} (ha : a ≠ 0) : gfmul standardTables a (gfinv standardTables a) = 1 := by
  obtain rfl | ⟨n, rfl⟩ := eq_zero_or_generatorPower a
  · exact absurd rfl ha
  · rw [gfinv_generatorPower, gfmul_generatorPower]
    exact generatorPower_congr (n := 0) (by omega)

theorem gfinv_gfinv {a : Byte} (ha : a ≠ 0) : gfinv standardTables (gfinv standardTables a) = a := by
  obtain rfl | ⟨n, rfl⟩ := eq_zero_or_generatorPower a
  · exact absurd rfl ha
  · rw [gfinv_generatorPower, gfinv_generatorPower]
    exact generatorPower_congr (by omega)

theorem gfmul_gfdiv (a : Byte) {b : Byte} (hb : b ≠ 0) : gfmul standardTables (gfdiv standardTables a b) b = a := by
  obtain rfl | ⟨m, rfl⟩ := eq_zero_or_generatorPower a
  · rw [gfdiv_zero_left, gfmul_zero_left]
  · obtain rfl | ⟨n, rfl⟩ := eq_zero_or_generatorPower b
    · exact absurd rfl hb
    · rw [gfdiv_generatorPower, gfmul_generatorPower]
      exact generatorPower_congr (by omega)

/-- Settles O12: the laws of addition are those of exclusive or; the product is a sum of exponents, and it distributes
because it is the product of polynomials. -/
theorem fieldLaws : Obligations.FieldLaws := fun a b c =>
  ⟨BitVec.xor_comm a b, BitVec.xor_assoc a b c, BitVec.xor_zero, BitVec.xor_self, gfmul_comm a b, gfmul_assoc a b c,
    gfmul_gfadd a b c, gfmul_one a, fun ha => ⟨gfmul_gfinv ha, gfinv_gfinv ha⟩, gfmul_gfdiv a, gfmul_eq_zero⟩

/-- The inverse is the quotient of 1, since `LOG[1]` is 0 (R156). -/
theorem gfinv_eq_gfdiv_one (a : Byte) : gfinv standardTables a = gfdiv standardTables 1 a := by
  rw [gfinv, gfdiv_of_ne_zero (by decide), logAt_one, Nat.zero_add]

/-- The exponent of a quotient is the difference of the exponents modulo 255 (R155). -/
theorem gfdiv_eq_expAt_sub {a b : Byte} (ha : a ≠ 0) (hb : b ≠ 0) : gfdiv standardTables a b = standardTables.expAt
    (((standardTables.logAt a : Int) - (standardTables.logAt b : Int)) % 255).toNat := by
  obtain ⟨hlog, -⟩ := expAt_logAt b hb
  rw [gfdiv_of_ne_zero ha]
  congr 1
  omega

/-! ### The field commands (R153 to R156) -/

/-- A computation that leaves a value in RESULT changes no other register, no buffer and no session. -/
theorem State.finish_putResult (s : State) (v : Word) :
    s.finish (.ok (s.arch.putResult v)) =
      .next (s.succeeded { s.arch.csr with result := v } s.arch.mem s.arch.ses) :=
  State.finish_eq_succeeded rfl rfl

/-- The word of a command without a B operand ends with its A operand (R127). -/
theorem assemble_zero (op a : Byte) : assemble op a 0 = op.setWidth 32 ||| (a.setWidth 32 <<< 8) := by
  simp [assemble]

theorem exec_gfMul {s : State} (hs : s.operands.tables = standardTables) (a b : Byte) :
    exec (.gfMul a b) s = s.finish (.ok (s.arch.putResult (zext32 (gfmul standardTables a b)))) :=
  hs ▸ rfl

theorem exec_gfDiv {s : State} (hs : s.operands.tables = standardTables) (a b : Byte) :
    exec (.gfDiv a b) s = s.finish (if b = 0 then .error ⟨.divisionByZero, 0⟩
      else .ok (s.arch.putResult (zext32 (gfdiv standardTables a b)))) := by
  rw [← hs]
  exact congrArg s.finish (raiseIf_bind ..)

theorem exec_gfInv {s : State} (hs : s.operands.tables = standardTables) (a : Byte) :
    exec (.gfInv a) s = s.finish (if a = 0 then .error ⟨.divisionByZero, 0⟩
      else .ok (s.arch.putResult (zext32 (gfinv standardTables a)))) := by
  rw [← hs]
  exact congrArg s.finish (raiseIf_bind ..)

/-- Settles O8: the outputs of GF_ADD are the exclusive or in RESULT and nothing else. -/
theorem gfAddIsExclusiveOr : Obligations.GfAddIsExclusiveOr := fun _ _ s => ⟨rfl, State.finish_putResult s _⟩

/-- Settles O9: the product by the tables is the product of polynomials, so the clauses are those of `gfmul`. -/
theorem gfMulIsThePolynomialProduct : Obligations.GfMulIsThePolynomialProduct := by
  intro a b s hs
  rw [fieldProduct_eq_gfmul, exec_gfMul hs]
  refine ⟨rfl, ?_, gfmul_of_ne_zero, State.finish_putResult s _⟩
  rintro (rfl | rfl)
  · exact gfmul_zero_left b
  · exact gfmul_zero_right a

/-- Settles O10: the check raises for the divisor 0, and past it `gfdiv` inverts the product. -/
theorem gfDivDividesOrRaises : Obligations.GfDivDividesOrRaises := by
  intro a b s hs
  rw [exec_gfDiv hs]
  refine ⟨rfl, fun hb => ?_, fun hb => ⟨gfdiv standardTables a b, ?_, ?_, fun ha => gfdiv_eq_expAt_sub ha hb, ?_⟩⟩
  · rw [if_pos hb]; rfl
  · rw [fieldProduct_eq_gfmul, gfmul_gfdiv a hb]
  · rintro rfl
    exact gfdiv_zero_left b
  · rw [if_neg hb]
    exact State.finish_putResult s _

/-- Settles O11: the check raises for the operand 0, and past it `gfinv` is the quotient of 1. -/
theorem gfInvInvertsOrRaises : Obligations.GfInvInvertsOrRaises := by
  intro a s hs
  rw [exec_gfInv hs]
  refine ⟨?_, fun ha => ?_, fun ha => ⟨?_, gfinv standardTables a, ?_, rfl, ?_⟩⟩
  · exact assemble_zero 0x04 a
  · rw [if_pos ha]; rfl
  · rw [exec_gfDiv hs, gfinv_eq_gfdiv_one]
  · rw [fieldProduct_eq_gfmul, gfmul_gfinv ha]
  · rw [if_neg ha]
    exact State.finish_putResult s _

end Sys2Proof.Machine

/-! PROOFS. The residue is linear, and a turn that no generator enters appends its symbol; so the three symbols CHK_CREATE
appends bring the residue to 1, which is what CHK_VERIFY tests. -/

namespace Sys2Proof.Machine

/-! ### The residue is linear (R171) -/

theorem foldGenerators_xor (b b' : BitVec 10) (i : Nat) (gs : List (BitVec 30)) (u v : BitVec 30) :
    foldGenerators (b ^^^ b') i gs (u ^^^ v) = foldGenerators b i gs u ^^^ foldGenerators b' i gs v := by
  induction gs generalizing i u v with
  | nil => rfl
  | cons g rest ih => rw [foldGenerators, BitVec.getLsbD_xor, ite_xor_xor, ih]; rfl

theorem foldGenerators_zero (i : Nat) (gs : List (BitVec 30)) (chk : BitVec 30) : foldGenerators 0 i gs chk = chk := by
  induction gs generalizing i with
  | nil => rfl
  | cons g rest ih =>
    have hclear : ¬ (0 : BitVec 10).getLsbD i = true := by simp
    rw [foldGenerators, if_neg hclear, ih]

theorem polymodStep_xor (u v : BitVec 30) (x y : Sym) :
    polymodStep (u ^^^ v) (x ^^^ y) = polymodStep u x ^^^ polymodStep v y := by
  simp only [polymodStep, BitVec.extractLsb'_xor, BitVec.setWidth_xor, BitVec.shiftLeft_xor_distrib]
  rw [← foldGenerators_xor]
  congr 1
  ac_rfl

/-- What a string does to a residue is what as many zeros do, plus what the string does to the residue 0. -/
theorem foldl_polymodStep (chk : BitVec 30) (c : List Sym) :
    c.foldl polymodStep chk = c.foldl (fun u _ => polymodStep u 0) chk ^^^ c.foldl polymodStep 0 := by
  have hstep (u v : BitVec 30) (x : Sym) : polymodStep (u ^^^ v) x = polymodStep u 0 ^^^ polymodStep v x := by
    rw [← polymodStep_xor]; simp
  simpa using foldl_xor hstep c chk 0

/-! ### The three last symbols of a string (R172) -/

/-- A turn on a residue whose top ten bits are clear appends its symbol. -/
theorem polymodStep_shiftRight (v : BitVec 30) (n : Nat) :
    polymodStep (v >>> (n + 10)) (v.extractLsb' n 10) = v >>> n := by
  have htop : (v >>> (n + 10)).extractLsb' 20 10 = 0 := by
    ext i hi
    have habove : v.getLsbD (n + 10 + (20 + i)) = false := BitVec.getLsbD_of_ge v _ (by omega)
    simpa using habove
  rw [polymodStep, htop, foldGenerators_zero]
  ext i hi
  by_cases h : i < 10
  · simp [h]
  · have hsub : n + 10 + (i - 10) = n + i := by omega
    have hkept : i - 10 < 20 := by omega
    simp [h, hsub, hkept]

/-- From the residue 0, the three symbols of `v` leave `v`. -/
theorem foldl_polymodStep_digits (v : BitVec 30) :
    [v.extractLsb' 20 10, v.extractLsb' 10 10, v.extractLsb' 0 10].foldl polymodStep 0 = v := by
  have hclear : v >>> (20 + 10) = 0 := BitVec.ushiftRight_eq_zero (by decide)
  calc [v.extractLsb' 20 10, v.extractLsb' 10 10, v.extractLsb' 0 10].foldl polymodStep 0
      = [v.extractLsb' 10 10, v.extractLsb' 0 10].foldl polymodStep (v >>> (10 + 10)) := by
        rw [List.foldl_cons, ← hclear, polymodStep_shiftRight]
    _ = [v.extractLsb' 0 10].foldl polymodStep (v >>> (0 + 10)) := by rw [List.foldl_cons, polymodStep_shiftRight]
    _ = v := by rw [List.foldl_cons, polymodStep_shiftRight]; exact BitVec.ushiftRight_zero v

/-- The residue of customization, data and checksum is 1. -/
theorem polymod_checksum (p : Params) (d : List Sym) : polymod (customSymbols p ++ d ++ checksum p d) = 1 := by
  calc polymod (customSymbols p ++ d ++ checksum p d)
      = (checksum p d).foldl polymodStep (polymod (customSymbols p ++ d)) := List.foldl_append
    _ = [0, 0, 0].foldl polymodStep (polymod (customSymbols p ++ d)) ^^^ (checksum p d).foldl polymodStep 0 :=
        foldl_polymodStep ..
    _ = polymod (customSymbols p ++ d ++ [0, 0, 0]) ^^^ (polymod (customSymbols p ++ d ++ [0, 0, 0]) ^^^ 1) :=
        congrArg₂ _ List.foldl_append.symm (foldl_polymodStep_digits _)
    _ = 1 := by rw [← BitVec.xor_assoc, BitVec.xor_self, BitVec.zero_xor]

/-! ### The checksum commands (R173, R174) -/

theorem exec_chkCreate (s : State) :
    exec .chkCreate s = s.finish (if 64 < s.operands.symbols.length + 3 then .error ⟨.resourceLimit, 0⟩
      else .ok (s.arch.putSymbols s.operands.symbols.length (checksum s.params s.operands.symbols))) :=
  congrArg s.finish (raiseIf_bind ..)

theorem exec_chkVerify (s : State) :
    exec .chkVerify s = s.finish (if checksumHolds s.params s.operands.symbols = false then .error ⟨.invalidChecksum, 0⟩
      else .ok (s.arch.putResult 1)) :=
  congrArg s.finish (raiseIf_bind ..)

theorem checksumHolds_eq_false_iff (p : Params) (s : List Sym) :
    checksumHolds p s = false ↔ polymod (customSymbols p ++ s) ≠ 1 := by
  simp [checksumHolds]

/-- Settles O14: past the check the checksum is stored after the data, and `polymod_checksum` is the derived remark. -/
theorem chkCreateAppendsTheChecksum : Obligations.ChkCreateAppendsTheChecksum := by
  refine ⟨rfl, fun s => ⟨fun hlong => ?_, fun hfits => ⟨_, checksum s.params s.operands.symbols, ?_,
    storedAt_writeList _ _ _, checksum_length .., rfl, polymod_checksum ..⟩⟩⟩
  · rw [exec_chkCreate, if_pos hlong]; rfl
  · rw [exec_chkCreate, if_neg (Nat.not_lt.2 hfits)]
    exact State.finish_eq_succeeded rfl rfl

/-- Settles O15: the check raises exactly where the residue is not 1. -/
theorem chkVerifyTestsTheResidue : Obligations.ChkVerifyTestsTheResidue := by
  refine ⟨rfl, fun s => ⟨fun hone => ?_, fun hne => ?_⟩⟩
  · rw [exec_chkVerify, if_neg (mt (checksumHolds_eq_false_iff ..).1 (not_not.2 hone))]
    exact State.finish_putResult s 1
  · rw [exec_chkVerify, if_pos ((checksumHolds_eq_false_iff ..).2 hne)]; rfl

end Sys2Proof.Machine

/-! PROOFS. The word codec: the digits of a number, the tokens of a text and the words of the vocabulary; what the four
commands write, and that each pair of them gives back what it was given (R190 to R198). -/

namespace Sys2Proof.Machine

/-! ### Packed symbols (R196) -/

/-- Digit `i` from the left of a number written with `n` digits. -/
theorem toBigEndian_getD (w v : Nat) {n i : Nat} (hi : i < n) :
    ((toBigEndian w v n).getD i 0).toNat = v / 2 ^ (w * (n - 1 - i)) % 2 ^ w := by
  induction n generalizing v with
  | zero => omega
  | succ n ih =>
    rcases Nat.lt_succ_iff_lt_or_eq.1 hi with hlt | rfl
    · have hshift : n + 1 - 1 - i = 1 + (n - 1 - i) := by omega
      rw [toBigEndian, List.getD_append _ _ _ _ (by simpa using hlt), ih _ hlt, Nat.div_div_eq_div_mul, ← Nat.pow_add,
        hshift, Nat.mul_add, Nat.mul_one]
    · simp [toBigEndian]

/-- `Pack(b)` has the length and the value R196 asks: `ceil(8L/10)` symbols have room for `8L` bits. -/
theorem packedAs_pack (b : ByteString) : PackedAs b (pack b) := by
  refine ⟨pack_length b, ?_⟩
  have hroom : 8 * b.length ≤ 10 * symbolsFor b.length := by simp only [symbolsFor]; omega
  rw [pack, bigEndian_toBigEndian,
    Nat.mod_eq_of_lt (Nat.lt_of_lt_of_le (bigEndian_lt b) (Nat.pow_le_pow_right (by decide) hroom))]

/-! ### The tokens of a text (R190) -/

theorem tokensFrom_cons_of_ne {c : Byte} (h : c ≠ 0x20) (cur t : ByteString) :
    tokensFrom cur (c :: t) = tokensFrom (cur ++ [c]) t := by
  rw [tokensFrom, space, if_neg h]

/-- A space ends the token begun before it. -/
theorem tokensFrom_space {cur : ByteString} (hne : cur ≠ []) (t : ByteString) :
    tokensFrom cur (0x20 :: t) = cur :: tokens t := by
  rw [tokensFrom, space, if_pos rfl, if_neg (by simpa using hne), tokens]

theorem tokens_space (t : ByteString) : tokens (0x20 :: t) = tokens t := by
  rw [tokens, tokensFrom, space, if_pos rfl, if_pos List.isEmpty_nil, tokens]

/-- A run without spaces extends the token begun before it. -/
theorem tokensFrom_run {w : ByteString} (h : (0x20 : Byte) ∉ w) (cur rest : ByteString) :
    tokensFrom cur (w ++ rest) = tokensFrom (cur ++ w) rest := by
  induction w generalizing cur with
  | nil => simp
  | cons c w ih =>
    obtain ⟨hc, hw⟩ := not_or.1 (mt List.mem_cons.2 h)
    rw [List.cons_append, tokensFrom_cons_of_ne (Ne.symm hc), ih hw, List.append_assoc, List.singleton_append]

theorem tokens_run {w : ByteString} (hne : w ≠ []) (h : (0x20 : Byte) ∉ w) : tokens w = [w] := by
  have hrun := tokensFrom_run h [] []
  rw [List.append_nil, List.nil_append] at hrun
  rw [tokens, hrun, tokensFrom, if_neg (by simpa using hne)]

theorem tokens_run_space {w : ByteString} (hne : w ≠ []) (h : (0x20 : Byte) ∉ w) (t : ByteString) :
    tokens (w ++ 0x20 :: t) = w :: tokens t := by
  rw [tokens, tokensFrom_run h, List.nil_append, tokensFrom_space hne]

/-- Settles O21: a run is read whole, and the space after it ends its token. -/
theorem tokensAreMaximalRuns : Obligations.TokensAreMaximalRuns :=
  ⟨rfl, tokens_space, fun _ hne h => ⟨tokens_run hne h, tokens_run_space hne h⟩⟩

/-! ### The text of symbols (R197) -/

theorem joinWords_eq_intercalate (ws : List ByteString) : joinWords ws = List.intercalate [0x20] ws := by
  induction ws with
  | nil => rfl
  | cons w rest ih =>
    cases rest with
    | nil => simp [joinWords]
    | cons v rest => rw [joinWords, ih, List.intercalate_cons_cons, List.append_assoc]; rfl

theorem wordsText_eq_textOf (p : Params) (sy : List Sym) : wordsText p sy = textOf p sy :=
  (joinWords_eq_intercalate _).symm

/-- Words joined by single spaces are the tokens of the text. -/
theorem tokens_joinWords {ws : List ByteString} (h : ∀ w ∈ ws, w ≠ [] ∧ (0x20 : Byte) ∉ w) :
    tokens (joinWords ws) = ws := by
  induction ws with
  | nil => rfl
  | cons w rest ih =>
    obtain ⟨⟨hne, hw⟩, hrest⟩ := List.forall_mem_cons.1 h
    cases rest with
    | nil => exact tokens_run hne hw
    | cons v rest => exact (tokens_run_space hne hw _).trans (congrArg _ (ih hrest))

theorem tokens_textOf (p : Params) (sy : List Sym) : tokens (textOf p sy) = sy.map (wordOf p) := by
  refine tokens_joinWords fun w hw => p.vocab.word_shape w ?_
  obtain ⟨v, -, rfl⟩ := List.mem_map.1 hw
  exact wordOf_mem p v

/-! ### Lookups (R191, R195) -/

theorem words_getElem?_eq_some_iff {p : Params} {v : Sym} {tok : ByteString} :
    p.vocab.words[v.toNat]? = some tok ↔ wordOf p v = tok := by
  rw [wordOf_eq_getElem, List.getElem?_eq_getElem (by rw [Vocab.length_words]; exact v.isLt), Option.some_inj]

theorem mem_words_iff {p : Params} {tok : ByteString} : tok ∈ p.vocab.words ↔ ∃ v, wordOf p v = tok := by
  refine ⟨fun h => ?_, fun ⟨v, hv⟩ => hv ▸ wordOf_mem p v⟩
  obtain ⟨i, hi, rfl⟩ := List.getElem_of_mem h
  have hlt : i < 1024 := by rwa [Vocab.length_words] at hi
  exact ⟨BitVec.ofNat 10 i, by simp [wordOf_eq_getElem, Nat.mod_eq_of_lt hlt]⟩

theorem lookupWord_of_not_mem {p : Params} {tok : ByteString} (h : tok ∉ p.vocab.words) : lookupWord p tok = none := by
  rw [lookupWord, List.findIdx?_eq_none_iff.2 fun w hw => by simpa using fun e : w = tok => h (e ▸ hw)]
  rfl

theorem lookupAll_cons_of_not_mem {p : Params} {tok : ByteString} (h : tok ∉ p.vocab.words) (k : Nat)
    (rest : List ByteString) :
    lookupAll p k (tok :: rest) = .error ⟨.unknownWord, BitVec.ofNat 32 k⟩ := by
  rw [lookupAll, lookupWord_of_not_mem h]

theorem lookupAll_cons_wordOf (p : Params) (v : Sym) (k : Nat) (rest : List ByteString) :
    lookupAll p k (wordOf p v :: rest) = lookupAll p (k + 1) rest >>= fun vs => .ok (v :: vs) := by
  rw [lookupAll, lookupWord_wordOf]; rfl

/-- The words of symbols are looked up to these symbols. -/
theorem lookupAll_map_wordOf (p : Params) (k : Nat) (sy : List Sym) : lookupAll p k (sy.map (wordOf p)) = .ok sy := by
  induction sy generalizing k with
  | nil => rfl
  | cons v rest ih => rw [List.map_cons, lookupAll_cons_wordOf, ih, except_ok_bind]

/-- The first token that is no word is the one reported. -/
theorem lookupAll_of_unknownAt {p : Params} {toks : List ByteString} {j : Nat} (h : UnknownAt p toks j) (k : Nat) :
    lookupAll p k toks = .error ⟨.unknownWord, BitVec.ofNat 32 (k + j)⟩ := by
  induction toks generalizing j k with
  | nil => exact absurd h.1.1 (Nat.not_lt_zero j)
  | cons tok rest ih =>
    obtain ⟨⟨hj, hunknown⟩, hfirst⟩ := h
    cases j with
    | zero => exact lookupAll_cons_of_not_mem hunknown k rest
    | succ j =>
      obtain ⟨v, rfl⟩ := mem_words_iff.1 (by_contra fun hn => hfirst 0 j.succ_pos ⟨rest.length.succ_pos, hn⟩)
      have hrest : UnknownAt p rest j := ⟨⟨Nat.lt_of_succ_lt_succ hj, hunknown⟩, fun i hi ⟨hlt, hu⟩ =>
        hfirst (i + 1) (Nat.succ_lt_succ hi) ⟨Nat.succ_lt_succ hlt, hu⟩⟩
      rw [lookupAll_cons_wordOf, ih hrest, except_error_bind, Nat.add_assoc, Nat.add_comm 1]

/-- Tokens that are all words are the words of symbols. -/
theorem exists_map_wordOf {p : Params} {toks : List ByteString} (h : ∀ t ∈ toks, t ∈ p.vocab.words) :
    ∃ sy : List Sym, sy.map (wordOf p) = toks := by
  induction toks with
  | nil => exact ⟨[], rfl⟩
  | cons tok rest ih =>
    obtain ⟨htok, hrest⟩ := List.forall_mem_cons.1 h
    obtain ⟨v, rfl⟩ := mem_words_iff.1 htok
    obtain ⟨sy, rfl⟩ := ih hrest
    exact ⟨v :: sy, rfl⟩

theorem symbolsOf_iff {p : Params} {toks : List ByteString} {sy : List Sym} :
    SymbolsOf p toks sy ↔ sy.map (wordOf p) = toks := by
  constructor
  · rintro ⟨hlen, hword⟩
    refine List.ext_getElem (by simpa using hlen) fun j hj hj' => ?_
    have hw := words_getElem?_eq_some_iff.1 (hword j hj')
    rw [List.getD_eq_getElem _ _ (by omega), List.getD_eq_getElem _ _ hj'] at hw
    simpa using hw
  · rintro rfl
    refine ⟨by simp, fun j hj => words_getElem?_eq_some_iff.2 ?_⟩
    rw [List.getD_eq_getElem _ _ (by simpa using hj), List.getD_eq_getElem _ _ hj, List.getElem_map]

/-! ### The word codec commands (R192 to R195) -/

theorem exec_wcPack (s : State) :
    exec .wcPack s = s.finish (.ok (s.arch.putSymbols 0 (pack s.operands.secretBytes))) := rfl

theorem exec_wcUnpack (n : Byte) (s : State) :
    exec (.wcUnpack n) s = s.finish (if s.params.lMax < n.toNat then .error ⟨.resourceLimit, 0⟩
      else if 2 ^ (8 * n.toNat) ≤ bigEndian s.operands.symbols then .error ⟨.invalidPadding, 0⟩
      else .ok (s.arch.putResultBytes (toBigEndian 8 (bigEndian s.operands.symbols) n.toNat))) :=
  congrArg s.finish ((raiseIf_bind ..).trans (if_congr Iff.rfl rfl (raiseIf_bind ..)))

theorem exec_wcToWords (s : State) :
    exec .wcToWords s = s.finish (if s.params.tMax < (wordsText s.params s.operands.symbols).length
      then .error ⟨.resourceLimit, 0⟩ else .ok (s.arch.putText (wordsText s.params s.operands.symbols))) := by
  rw [wordsText_eq_textOf]
  exact congrArg s.finish (raiseIf_bind ..)

/-- Where a token is no word, the lookup's error is the command's. -/
theorem exec_wcFromWords_of_unknownAt {s : State} {j : Nat} (h : UnknownAt s.params (tokens s.operands.textBytes) j) :
    exec .wcFromWords s = .next (s.failed 0x10 (BitVec.ofNat 32 j)) := by
  have hlookup := lookupAll_of_unknownAt h 0
  rw [Nat.zero_add] at hlookup
  exact congrArg s.finish (congrArg (· >>= _) hlookup)

/-- Where the tokens are the words of symbols, only the number of symbols is left to check. -/
theorem exec_wcFromWords_of_words {s : State} {sy : List Sym}
    (h : sy.map (wordOf s.params) = tokens s.operands.textBytes) :
    exec .wcFromWords s = s.finish (if 64 < sy.length then .error ⟨.resourceLimit, 0⟩
      else .ok (s.arch.putSymbols 0 sy)) := by
  have hlookup := lookupAll_map_wordOf s.params 0 sy
  rw [h] at hlookup
  exact congrArg s.finish ((congrArg (· >>= _) hlookup).trans (raiseIf_bind ..))

/-- Symbols stored from the first on leave their number in LEN_SYM and change nothing else. -/
theorem State.finish_putSymbols (s : State) (sy : List Sym) :
    s.finish (.ok (s.arch.putSymbols 0 sy)) = .next (s.succeeded { s.arch.csr with lenSym := BitVec.ofNat 7 sy.length }
      { s.arch.mem with sym := Cells.writeList s.arch.mem.sym 0 sy } s.arch.ses) := by
  rw [← Nat.zero_add sy.length]
  exact State.finish_eq_succeeded rfl rfl

/-- A block stored in RESULT leaves its length in LEN_RESULT and changes nothing else. -/
theorem State.finish_putResultBytes (s : State) (bs : ByteString) :
    s.finish (.ok (s.arch.putResultBytes bs)) =
      .next (s.succeeded { s.arch.csr with lenResult := BitVec.ofNat 7 bs.length }
        { s.arch.mem with result := Cells.writeList s.arch.mem.result 0 bs } s.arch.ses) :=
  State.finish_eq_succeeded rfl rfl

/-- Settles O17: the symbols are the digits of the operand bytes' number. -/
theorem wcPackWritesTheSymbols : Obligations.WcPackWritesTheSymbols := by
  refine ⟨rfl, fun s => ⟨_, pack s.operands.secretBytes, State.finish_putSymbols s _, storedAt_writeList _ _ _,
    packedAs_pack _, fun i hi => ?_⟩⟩
  rw [pack_length] at hi ⊢
  exact toBigEndian_getD _ _ hi

/-- Settles O18: past the two checks the number has exactly `n` digits. -/
theorem wcUnpackWritesTheBytes : Obligations.WcUnpackWritesTheBytes := by
  refine fun n s => ⟨assemble_zero _ _, fun hlong => ?_, fun hn hbig => ?_, fun hn hfits =>
    ⟨_, toBigEndian 8 (bigEndian s.operands.symbols) n.toNat, ?_, storedAt_writeList _ _ _, toBigEndian_length .., ?_⟩⟩
  · rw [exec_wcUnpack, if_pos hlong]; rfl
  · rw [exec_wcUnpack, if_neg (Nat.not_lt.2 hn), if_pos hbig]; rfl
  · rw [exec_wcUnpack, if_neg (Nat.not_lt.2 hn), if_neg (Nat.not_le.2 hfits), State.finish_putResultBytes,
      toBigEndian_length]
  · rw [bigEndian_toBigEndian, Nat.mod_eq_of_lt hfits]

/-- Settles O19: the model's text is the words joined by single spaces. -/
theorem wcToWordsWritesTheText : Obligations.WcToWordsWritesTheText := by
  refine ⟨rfl, fun s => ⟨fun hlong => ?_, fun hfits => ⟨_, ?_, storedAt_writeList _ _ _⟩⟩⟩
  · rw [exec_wcToWords, if_pos hlong]; rfl
  · rw [exec_wcToWords, if_neg (Nat.not_lt.2 hfits)]
    exact State.finish_eq_succeeded rfl rfl

/-- Settles O20: the lookup reports the first unknown token, or finds the symbols whose words the tokens are. -/
theorem wcFromWordsWritesTheSymbols : Obligations.WcFromWordsWritesTheSymbols := by
  refine ⟨rfl, fun s => ⟨fun j => exec_wcFromWords_of_unknownAt, fun hknown hlong => ?_, fun hknown hfits => ?_⟩⟩
  · obtain ⟨sy, hsy⟩ := exists_map_wordOf hknown
    rw [← hsy, List.length_map] at hlong
    rw [exec_wcFromWords_of_words hsy, if_pos hlong]; rfl
  · obtain ⟨sy, hsy⟩ := exists_map_wordOf hknown
    rw [← hsy, List.length_map] at hfits ⊢
    rw [exec_wcFromWords_of_words hsy, if_neg (Nat.not_lt.2 hfits)]
    exact ⟨_, sy, State.finish_putSymbols s sy, storedAt_writeList _ _ _, symbolsOf_iff.2 rfl⟩

/-! ### Round trips (R198) -/

/-- A block stored from the first element on is read back by a length register that holds its length. -/
theorem Cells.slice_writeList_ofNat {w k : Nat} (c : Cells w) {vs : List (BitVec w)} (hk : vs.length < 2 ^ k) :
    Cells.slice (Cells.writeList c 0 vs) 0 (BitVec.ofNat k vs.length).toNat = vs := by
  rw [BitVec.toNat_ofNat, Nat.mod_eq_of_lt hk, Cells.slice_writeList_same]

/-- After WC_PACK the symbol operand is the packed form. -/
theorem exec_wcPack_symbols {s : State} (h : s.operands.secretBytes.length ≤ 64) :
    ∃ t, exec .wcPack s = .next t ∧ t.params = s.params ∧ t.operands.symbols = pack s.operands.secretBytes :=
  ⟨_, State.finish_putSymbols s _, rfl, Cells.slice_writeList_ofNat _ (by simp only [pack_length, symbolsFor]; omega)⟩

/-- Symbols whose number is that of the byte string `b` are unpacked to `b`. -/
theorem exec_wcUnpack_result {s : State} {b : ByteString} (h64 : b.length ≤ 64) (hmax : b.length ≤ s.params.lMax)
    (hb : bigEndian s.operands.symbols = bigEndian b) :
    ∃ u, exec (.wcUnpack (BitVec.ofNat 8 b.length)) s = .next u ∧ u.arch.csr.errCode = 0 ∧
      u.arch.csr.lenResult = BitVec.ofNat 7 b.length ∧
      Cells.slice u.arch.mem.result 0 u.arch.csr.lenResult.toNat = b := by
  have hn : (BitVec.ofNat 8 b.length).toNat = b.length := by rw [BitVec.toNat_ofNat, Nat.mod_eq_of_lt (by omega)]
  rw [exec_wcUnpack, hn, hb, if_neg (Nat.not_lt.2 hmax), if_neg (Nat.not_le.2 (bigEndian_lt b)), toBigEndian_bigEndian]
  exact ⟨_, State.finish_putResultBytes s b, rfl, rfl, Cells.slice_writeList_ofNat _ (by omega)⟩

/-- After WC_TO_WORDS the text operand is the text of the symbols. -/
theorem exec_wcToWords_textBytes {s : State} (hmax : s.params.tMax ≤ 4096)
    (hfits : (wordsText s.params s.operands.symbols).length ≤ s.params.tMax) :
    ∃ t, exec .wcToWords s = .next t ∧ t.params = s.params ∧
      t.operands.textBytes = wordsText s.params s.operands.symbols := by
  rw [exec_wcToWords, if_neg (Nat.not_lt.2 hfits)]
  exact ⟨_, State.finish_ok s _, rfl, Cells.slice_writeList_ofNat _ (by omega)⟩

/-- The text of at most 64 symbols is looked up to these symbols. -/
theorem exec_wcFromWords_symbols {s : State} {sy : List Sym} (h64 : sy.length ≤ 64)
    (htext : s.operands.textBytes = wordsText s.params sy) :
    ∃ u, exec .wcFromWords s = .next u ∧ u.arch.csr.errCode = 0 ∧ u.arch.symbols = sy := by
  have hwords : sy.map (wordOf s.params) = tokens s.operands.textBytes := by
    rw [htext, wordsText_eq_textOf, tokens_textOf]
  rw [exec_wcFromWords_of_words hwords, if_neg (Nat.not_lt.2 h64)]
  exact ⟨_, State.finish_putSymbols s sy, rfl, Cells.slice_writeList_ofNat _ (by omega)⟩

/-- Settles O22: packing keeps the number, whose `L` digits are the bytes again; the tokens of a text of words are those
words, each the word of its symbol. -/
theorem wordCodecRoundTrips : Obligations.WordCodecRoundTrips := by
  refine ⟨fun s hmax hlen => ?_, fun s hmax hlen hfits => ?_⟩
  · rw [← Arch.secretBytes_length] at hlen ⊢
    obtain ⟨t, hpack, hparams, hsymbols⟩ := exec_wcPack_symbols (hlen.trans hmax)
    obtain ⟨-, hnumber⟩ := packedAs_pack s.operands.secretBytes
    obtain ⟨u, hunpack, herr, hcount, hbytes⟩ := exec_wcUnpack_result (hlen.trans hmax) (hparams ▸ hlen)
      (hsymbols ▸ hnumber)
    refine ⟨t, u, hpack, hunpack, herr, ?_, hbytes⟩
    rw [hcount, Arch.secretBytes_length, BitVec.ofNat_toNat, BitVec.setWidth_eq]
  · obtain ⟨t, htoWords, hparams, htext⟩ := exec_wcToWords_textBytes hmax hfits
    obtain ⟨u, hfromWords, herr, hsymbols⟩ := exec_wcFromWords_symbols (s := t) (sy := s.operands.symbols)
      (Arch.symbols_length s.operands ▸ hlen) (hparams ▸ htext)
    exact ⟨t, u, htoWords, hfromWords, herr, hsymbols⟩

end Sys2Proof.Machine

/-! PROOFS. The bytes with the operations of the tables are a field, and in it `Interp` is Mathlib's Lagrange
interpolation; so each byte of it is the value of the one polynomial through the fragments (R150, R211). -/

namespace Sys2Proof.Machine

open Polynomial

/-! ### The field of the bytes (R150, R158) -/

/-- The bytes as a field. `BitVec` has ring operations of its own, those modulo 256, so these are given by name and are
used only behind a bijection with an abstract field. -/
@[reducible] def byteField : Field Byte :=
  @Field.ofMinimalAxioms Byte ⟨gfadd⟩ ⟨gfmul standardTables⟩ ⟨id⟩
    ⟨fun a => if a = 0 then 0 else gfinv standardTables a⟩ ⟨0⟩ ⟨1⟩
    BitVec.xor_assoc (fun _ => BitVec.zero_xor) (fun _ => BitVec.xor_self) gfmul_assoc gfmul_comm
    (fun a => (gfmul_comm 1 a).trans (gfmul_one a))
    (fun a ha => (congrArg (gfmul standardTables a) (if_neg ha)).trans (gfmul_gfinv ha)) (if_pos rfl) gfmul_gfadd
    ⟨(0 : Byte), (1 : Byte), by decide⟩

/-- `φ` names the elements of a field by bytes, with the operations of the tables. -/
structure NamesByBytes {K : Type} [Field K] (φ : Byte ≃ K) : Prop where
  zero : φ 0 = 0
  one : φ 1 = 1
  add : ∀ a b, φ (gfadd a b) = φ a + φ b
  mul : ∀ a b, φ (gfmul standardTables a b) = φ a * φ b

theorem exists_namesByBytes : ∃ (K : Type) (_ : Field K) (φ : Byte ≃ K), NamesByBytes φ :=
  ⟨Byte, byteField, Equiv.refl Byte, @NamesByBytes.mk Byte byteField _ rfl rfl (fun _ _ => rfl) fun _ _ => rfl⟩

/-- The node at a fragment. -/
def node {K : Type} (φ : Byte ≃ K) (f : Fragment) : K := φ f.x

theorem node_injOn {K : Type} (φ : Byte ≃ K) {F : List Fragment} (hF : (F.map (·.x)).Nodup) :
    Set.InjOn (node φ) F.toFinset := fun _ hf _ hg heq =>
  List.inj_on_of_nodup_map hF (List.mem_toFinset.1 hf) (List.mem_toFinset.1 hg) (φ.injective heq)

section Names

variable {K : Type} [Field K] {φ : Byte ≃ K} (h : NamesByBytes φ)
include h

theorem NamesByBytes.eq_zero_iff {a : Byte} : φ a = 0 ↔ a = 0 := by
  rw [← h.zero, φ.apply_eq_iff_eq]

/-- Every element is its own negative, so a sum is a difference. -/
theorem NamesByBytes.gfadd_eq_sub (a b : Byte) : φ (gfadd a b) = φ a - φ b := by
  have hcancel : gfadd (gfadd a b) b = a := by rw [gfadd, gfadd, BitVec.xor_assoc, BitVec.xor_self, BitVec.xor_zero]
  rw [eq_sub_iff_add_eq, ← h.add, hcancel]

theorem NamesByBytes.gfdiv_eq_div (a : Byte) {b : Byte} (hb : b ≠ 0) :
    φ (gfdiv standardTables a b) = φ a / φ b := by
  rw [eq_div_iff (mt h.eq_zero_iff.1 hb), ← h.mul, gfmul_gfdiv a hb]

theorem NamesByBytes.foldl_gfadd (vs : List Byte) (v : Byte) : φ (vs.foldl gfadd v) = φ v + (vs.map φ).sum := by
  induction vs generalizing v with
  | nil => simp
  | cons u rest ih => rw [List.foldl_cons, ih, h.add, List.map_cons, List.sum_cons, add_assoc]

theorem NamesByBytes.foldl_gfmul (vs : List Byte) (v : Byte) :
    φ (vs.foldl (gfmul standardTables) v) = φ v * (vs.map φ).prod := by
  induction vs generalizing v with
  | nil => simp
  | cons u rest ih => rw [List.foldl_cons, ih, h.mul, List.map_cons, List.prod_cons, mul_assoc]

theorem NamesByBytes.gfsum_eq_sum (vs : List Byte) : φ (gfsum vs) = (vs.map φ).sum := by
  rw [gfsum, h.foldl_gfadd, h.zero, zero_add]

theorem NamesByBytes.gfprod_eq_prod (vs : List Byte) : φ (gfprod standardTables vs) = (vs.map φ).prod := by
  rw [gfprod, h.foldl_gfmul, h.one, one_mul]

/-! ### Coefficient lists as polynomials -/

theorem NamesByBytes.polynomialAt_cons (c : Byte) (cs : List Byte) (x : Byte) :
    φ (polynomialAt (c :: cs) x) = φ (polynomialAt cs x) * φ x + φ c := by
  calc φ (polynomialAt (c :: cs) x)
      = φ (gfadd c (gfmul standardTables x (polynomialAt cs x))) := by rw [← fieldProduct_eq_gfmul]; rfl
    _ = φ (polynomialAt cs x) * φ x + φ c := by rw [h.add, h.mul, add_comm, mul_comm]

/-- The values of a coefficient list are those of a polynomial of degree less than its length. -/
theorem NamesByBytes.exists_polynomial (cs : List Byte) :
    ∃ q : K[X], q.degree < cs.length ∧ ∀ x, φ (polynomialAt cs x) = q.eval (φ x) := by
  induction cs with
  | nil => exact ⟨0, by simp, fun x => h.zero.trans eval_zero.symm⟩
  | cons c rest ih =>
    obtain ⟨q, hdegree, hq⟩ := ih
    rw [degree_lt_iff_coeff_zero] at hdegree
    refine ⟨q * X + C (φ c), (degree_lt_iff_coeff_zero _ _).2 fun m hm => ?_, fun x => ?_⟩
    · obtain ⟨m, rfl⟩ := Nat.exists_eq_add_of_le' hm
      simpa [coeff_C, ← Nat.add_assoc] using hdegree (m + rest.length) (Nat.le_add_left ..)
    · rw [h.polynomialAt_cons, hq, eval_add, eval_mul, eval_X, eval_C]

/-- The values of a polynomial are those of any coefficient list with room for its degree. -/
theorem NamesByBytes.exists_coefficients {n : Nat} {q : K[X]} (hq : q.degree < n) :
    ∃ cs : List Byte, cs.length = n ∧ ∀ x, φ (polynomialAt cs x) = q.eval (φ x) := by
  induction n generalizing q with
  | zero =>
    obtain rfl : q = 0 := by simpa using hq
    exact ⟨[], rfl, fun x => h.zero.trans eval_zero.symm⟩
  | succ n ih =>
    rw [degree_lt_iff_coeff_zero] at hq
    obtain ⟨cs, hlength, hcs⟩ := ih (q := q.divX) <| (degree_lt_iff_coeff_zero _ _).2 fun m hm => by
      rw [coeff_divX, hq (m + 1) (Nat.succ_le_succ hm)]
    refine ⟨φ.symm (q.coeff 0) :: cs, congrArg Nat.succ hlength, fun x => ?_⟩
    rw [h.polynomialAt_cons, hcs, φ.apply_symm_apply]
    conv_rhs => rw [← divX_mul_X_add q, eval_add, eval_mul, eval_X, eval_C]

/-! ### Interpolation is Lagrange's (R211) -/

/-- A product over the other nodes is one over the other fragments. -/
theorem NamesByBytes.gfprod_others {F : List Fragment} (hF : (F.map (·.x)).Nodup) {i : Nat} (hi : i < F.length)
    (x : Byte) : φ (gfprod standardTables (((xsOf F).eraseIdx i).map (gfadd x))) =
      ∏ g ∈ F.toFinset.erase F[i], (φ x - node φ g) := by
  have hnodup := hF.of_map
  have hothers : F.toFinset.erase F[i] = (F.eraseIdx i).toFinset := by
    ext g
    rw [← hnodup.erase_getElem, Finset.mem_erase, List.mem_toFinset, List.mem_toFinset, hnodup.mem_erase_iff]
  rw [h.gfprod_eq_prod, hothers, List.prod_toFinset _ (hnodup.eraseIdx i), xsOf, List.eraseIdx_map]
  simp only [List.map_map]
  congr 2
  funext g
  exact h.gfadd_eq_sub x g.x

/-- A Lagrange coefficient is the value of the Lagrange basis polynomial. -/
theorem NamesByBytes.lagrangeCoeff_eq_eval {F : List Fragment} (hF : (F.map (·.x)).Nodup) {i : Nat} (hi : i < F.length)
    (x : Byte) : φ (lagrangeCoeff standardTables (xsOf F) x i) =
      (Lagrange.basis F.toFinset (node φ) F[i]).eval (φ x) := by
  have hxi : (xsOf F).getD i 0 = F[i].x := by simp [xsOf, hi]
  have hmem : F[i] ∈ F.toFinset := List.mem_toFinset.2 (List.getElem_mem hi)
  have hdistinct : ∏ g ∈ F.toFinset.erase F[i], (φ F[i].x - node φ g) ≠ 0 := by
    refine Finset.prod_ne_zero_iff.2 fun g hg => sub_ne_zero.2 fun heq => ?_
    obtain ⟨hne, hg⟩ := Finset.mem_erase.1 hg
    exact hne (node_injOn φ hF hmem hg heq).symm
  rw [← h.gfprod_others hF hi, Ne, h.eq_zero_iff] at hdistinct
  rw [lagrangeCoeff, hxi, h.gfdiv_eq_div _ hdistinct, h.gfprod_others hF hi, h.gfprod_others hF hi,
    ← Finset.prod_div_distrib, Lagrange.basis, eval_prod]
  refine Finset.prod_congr rfl fun g _ => ?_
  simp [Lagrange.basisDivisor, node, div_eq_inv_mul]

/-- A byte of `Interp` is the value of the Lagrange interpolation polynomial of the fragments' bytes at its position. -/
theorem NamesByBytes.interp_eq_eval {F : List Fragment} (hF : (F.map (·.x)).Nodup) {k : Nat} (x : Byte)
    (hk : k < (interp standardTables F x).length) : φ ((interp standardTables F x).getD k 0) =
      (Lagrange.interpolate F.toFinset (node φ) fun f => φ (f.y.getD k 0)).eval (φ x) := by
  have hterms : (List.zipWith (fun c f => gfmul standardTables c (f.y.getD k 0))
      ((List.range F.length).map (lagrangeCoeff standardTables (xsOf F) x)) F).map φ =
      F.map fun f => φ (f.y.getD k 0) * (Lagrange.basis F.toFinset (node φ) f).eval (φ x) := by
    refine List.ext_getElem (by simp) fun i hi _ => ?_
    have hi : i < F.length := by simpa using hi
    simp only [List.getElem_map, List.getElem_zipWith, List.getElem_range, h.mul, h.lagrangeCoeff_eq_eval hF hi]
    exact mul_comm _ _
  rw [List.getD_eq_getElem _ _ hk]
  simp only [interp, List.getElem_map, List.getElem_range]
  rw [h.gfsum_eq_sum, hterms, Lagrange.interpolate_apply, eval_finsetSum, ← List.sum_toFinset _ hF.of_map]
  simp

end Names

/-! ### What `Interp` computes (R211) -/

theorem interp_length_eq {F : List Fragment} {L : Nat} (hne : F ≠ []) (hL : ∀ f ∈ F, f.y.length = L) (T : FieldTables)
    (x : Byte) : (interp T F x).length = L := by
  obtain ⟨f, rest, rfl⟩ := List.exists_cons_of_ne_nil hne
  rw [interp_length]
  exact hL f (List.mem_cons_self ..)

section Distinct

variable {F : List Fragment} {L : Nat} (hne : F ≠ []) (hF : (F.map (·.x)).Nodup) (hL : ∀ f ∈ F, f.y.length = L)
include hne hF hL

/-- At the nodes `Interp` takes the values of the fragments. -/
theorem interp_at_node {f : Fragment} (hf : f ∈ F) : interp standardTables F f.x = f.y := by
  obtain ⟨K, _, φ, h⟩ := exists_namesByBytes
  have hlength := interp_length_eq hne hL standardTables f.x
  refine List.ext_getElem (hlength.trans (hL f hf).symm) fun k hk hk' => φ.injective ?_
  have heval := h.interp_eq_eval hF f.x hk
  have hnode := Lagrange.eval_interpolate_at_node (fun g : Fragment => φ (g.y.getD k 0)) (node_injOn φ hF)
    (List.mem_toFinset.2 hf)
  rw [List.getD_eq_getElem _ _ hk] at heval
  rw [heval, ← List.getD_eq_getElem _ 0 hk']
  exact hnode

/-- Each byte of `Interp` is the value of a polynomial with as many coefficients as there are fragments. -/
theorem interp_exists_coefficients {k : Nat} (hk : k < L) : ∃ cs : List Byte, cs.length = F.length ∧
    ∀ x, (interp standardTables F x).getD k 0 = polynomialAt cs x := by
  obtain ⟨K, _, φ, h⟩ := exists_namesByBytes
  have hdegree := Lagrange.degree_interpolate_lt (fun g : Fragment => φ (g.y.getD k 0)) (node_injOn φ hF)
  rw [List.toFinset_card_of_nodup hF.of_map] at hdegree
  obtain ⟨cs, hcount, hcs⟩ := h.exists_coefficients hdegree
  refine ⟨cs, hcount, fun x => φ.injective ?_⟩
  rw [hcs, h.interp_eq_eval hF x (by rwa [interp_length_eq hne hL])]

/-- A polynomial with no more coefficients than there are fragments, through their bytes at one position, is the one
whose values are the bytes of `Interp` there. -/
theorem interp_eq_polynomialAt {k : Nat} (hk : k < L) {cs : List Byte} (hcount : cs.length ≤ F.length)
    (hcs : ∀ f ∈ F, polynomialAt cs f.x = f.y.getD k 0) (x : Byte) :
    (interp standardTables F x).getD k 0 = polynomialAt cs x := by
  obtain ⟨K, _, φ, h⟩ := exists_namesByBytes
  obtain ⟨q, hdegree, hq⟩ := h.exists_polynomial cs
  have hcard : q.degree < F.toFinset.card := by
    rw [List.toFinset_card_of_nodup hF.of_map]
    exact hdegree.trans_le (by exact_mod_cast hcount)
  have hinterpolate := Lagrange.eq_interpolate_of_eval_eq (fun g : Fragment => φ (g.y.getD k 0)) (node_injOn φ hF) hcard
    fun f hf => (hq f.x).symm.trans (congrArg φ (hcs f (List.mem_toFinset.1 hf)))
  apply φ.injective
  rw [hq, hinterpolate, h.interp_eq_eval hF x (by rwa [interp_length_eq hne hL])]

end Distinct

/-- Settles O24: the bytes are a field, in which `Interp` is Lagrange's interpolation. -/
theorem interpIsTheInterpolatingPolynomial : Obligations.InterpIsTheInterpolatingPolynomial := fun _ _ hne hF hL =>
  ⟨interp_length_eq hne hL standardTables, fun _ => interp_at_node hne hF hL,
    fun _ => interp_exists_coefficients hne hF hL, fun _ hk _ => interp_eq_polynomialAt hne hF hL hk⟩

end Sys2Proof.Machine

/-! PROOFS. The Shamir engine: the search for a repeated x, the fragments of a split as points of one polynomial, and
what a recombination answers; so any `t` of the `n` fragments recombine to the secret (R212 to R216, R219). -/

namespace Sys2Proof.Machine

/-! ### The first repeated x (R212, R219) -/

theorem repeats_iff (xs : List Byte) (j : Nat) : Repeats xs j ↔ ∃ a, xs[j]? = some a ∧ a ∈ xs.take j := by
  constructor
  · rintro ⟨hj, i, hij, heq⟩
    rw [List.getD_eq_getElem _ _ (hij.trans hj), List.getD_eq_getElem _ _ hj] at heq
    exact ⟨xs[j], List.getElem?_eq_getElem hj, List.mem_take_iff_getElem.2 ⟨i, lt_min hij (hij.trans hj), heq⟩⟩
  · rintro ⟨a, ha, hmem⟩
    obtain ⟨hj, rfl⟩ := List.getElem?_eq_some_iff.1 ha
    obtain ⟨i, hi, heq⟩ := List.mem_take_iff_getElem.1 hmem
    obtain ⟨hij, hi⟩ := lt_min_iff.1 hi
    exact ⟨hj, i, hij, by rw [List.getD_eq_getElem _ _ hi, List.getD_eq_getElem _ _ hj, heq]⟩

theorem not_repeats_of_nodup {xs : List Byte} (h : xs.Nodup) (j : Nat) : ¬ Repeats xs j := by
  rintro ⟨hj, i, hij, heq⟩
  rw [List.getD_eq_getElem _ _ (hij.trans hj), List.getD_eq_getElem _ _ hj, h.getElem_inj_iff] at heq
  exact absurd heq hij.ne

/-- The search finds the first repetition, or there is none. -/
theorem firstDuplicateX_cases (F : List Fragment) :
    (firstDuplicateX F = none ∧ ∀ j, ¬ Repeats (F.map (·.x)) j) ∨
      ∃ m, firstDuplicateX F = some m ∧ FirstAt (Repeats (F.map (·.x))) m := by
  simp only [FirstAt, repeats_iff]
  cases hfound : firstDuplicateX F with
  | none =>
    refine .inl ⟨rfl, fun j ⟨a, ha, hmem⟩ => ?_⟩
    have hclear := firstConflict_eq_none hfound j a ha
    simp only [List.nil_append, List.any_eq_false, beq_iff_eq] at hclear
    exact hclear a hmem rfl
  | some m =>
    obtain ⟨-, -, ⟨a, ha, hbad⟩, hfirst⟩ := firstConflict_eq_some hfound
    simp only [List.nil_append, List.any_eq_true, beq_iff_eq, exists_eq_right] at hbad
    refine .inr ⟨m, rfl, ⟨a, ha, hbad⟩, fun i hi ⟨b, hb, hmem⟩ => ?_⟩
    have hclear := hfirst i b hi hb
    simp only [List.nil_append, List.any_eq_false, beq_iff_eq] at hclear
    exact hclear b hmem rfl

theorem firstDuplicateX_of_nodup {F : List Fragment} (hF : (F.map (·.x)).Nodup) : firstDuplicateX F = none := by
  obtain ⟨hnone, -⟩ | ⟨m, -, hm, -⟩ := firstDuplicateX_cases F
  · exact hnone
  · exact absurd hm (not_repeats_of_nodup hF m)

theorem firstDuplicateX_of_firstAt {F : List Fragment} {j : Nat} (hj : FirstAt (Repeats (F.map (·.x))) j) :
    firstDuplicateX F = some j := by
  obtain ⟨hj, hbefore⟩ := hj
  obtain ⟨-, hno⟩ | ⟨m, hsome, hm, hbefore'⟩ := firstDuplicateX_cases F
  · exact absurd hj (hno j)
  · rcases Nat.lt_trichotomy m j with hlt | rfl | hlt
    · exact absurd hm (hbefore m hlt)
    · exact hsome
    · exact absurd hj (hbefore' j hlt)

/-! ### What a recombination answers (R219) -/

theorem headD_value_length {F : List Fragment} {L : Nat} (hne : F ≠ []) (hL : ∀ f ∈ F, f.y.length = L) :
    ((F.map (·.y)).headD []).length = L := by
  obtain ⟨f, rest, rfl⟩ := List.exists_cons_of_ne_nil hne
  exact hL f (List.mem_cons_self ..)

/-- Past the checks of the request, the count, the length and the digest decide. -/
theorem recombine_of_distinct (P : Ports) (T : FieldTables) {t L : Nat} {F : List Fragment} (ht : 1 ≤ t ∧ t ≤ 16)
    (hne : F ≠ []) (hF : (F.map (·.x)).Nodup) (hL : ∀ f ∈ F, f.y.length = L) :
    recombine P T t F =
      if F.length < t then .error ⟨.notEnoughFragments, BitVec.ofNat 32 F.length⟩
      else if t < F.length then .error ⟨.tooManyShares, BitVec.ofNat 32 F.length⟩
      else if t = 1 then .ok ((F.map (·.y)).headD [])
      else if L < 4 then .error ⟨.invalidSecretLength, BitVec.ofNat 32 L⟩
      else if (interp T F 254).take 4 ≠ (P.digest4 ((interp T F 254).drop 4) (interp T F 255)).toList then
        .error ⟨.digestMismatch, 0⟩
      else .ok (interp T F 255) := by
  rw [recombine, raiseIf_bind, if_neg (not_not.2 ht), raiseIf_bind, if_neg (mt List.length_eq_zero_iff.1 hne),
    firstDuplicateX_of_nodup hF, raiseAt_none_bind, raiseIf_bind, raiseIf_bind]
  simp only [raiseIf_bind, headD_value_length hne hL]
  rfl

/-- With `t` distinct fragments and a digest that agrees, the answer is the one fragment's value or the secret's. -/
theorem recombine_of_agreeing (P : Ports) (T : FieldTables) {t L : Nat} {F : List Fragment} (ht : 1 ≤ t ∧ t ≤ 16)
    (hne : F ≠ []) (hF : (F.map (·.x)).Nodup) (hL : ∀ f ∈ F, f.y.length = L) (hcount : F.length = t)
    (hgood : t = 1 ∨ 4 ≤ L ∧
      (interp T F 254).take 4 = (P.digest4 ((interp T F 254).drop 4) (interp T F 255)).toList) :
    recombine P T t F = .ok (if t = 1 then (F.map (·.y)).headD [] else interp T F 255) := by
  rw [recombine_of_distinct P T ht hne hF hL, if_neg hcount.not_lt, if_neg hcount.not_gt]
  by_cases ht1 : t = 1
  · rw [if_pos ht1, if_pos ht1]
  · obtain ⟨hlong, hdigest⟩ := hgood.resolve_left ht1
    rw [if_neg ht1, if_neg ht1, if_neg (Nat.not_lt.2 hlong), if_neg (not_not.2 hdigest)]

/-! ### The fragments of a split (R214) -/

theorem split_one (P : Ports) (T : FieldTables) (pos n : Nat) (s : ByteString) :
    split P T pos 1 n s = (List.range n).map fun i => ⟨BitVec.ofNat 8 i, s⟩ := if_pos rfl

/-- With a threshold of 2 or more, fragment `i` is drawn for `i < t-2`, and else a point of the basis polynomial. -/
theorem split_eq_map (P : Ports) (T : FieldTables) (pos : Nat) {t n : Nat} (s : ByteString) (ht : t ≠ 1)
    (hn : t - 2 ≤ n) : split P T pos t n s = (List.range n).map fun i => ⟨BitVec.ofNat 8 i,
      if i < t - 2 then rngDraw P (pos + i * s.length) s.length
      else interp T (splitBasis P pos t s) (BitVec.ofNat 8 i)⟩ := by
  have hrange : List.range n = List.range (t - 2) ++ List.range' (t - 2) (n - (t - 2)) := by
    have hsplit := List.range'_append_1 (s := 0) (m := t - 2) (n := n - (t - 2))
    rw [Nat.zero_add, Nat.add_sub_cancel' hn] at hsplit
    rw [List.range_eq_range', List.range_eq_range', hsplit]
  rw [split, if_neg ht, hrange, List.map_append, randomFragments]
  congr 1
  · refine List.map_congr_left fun i hi => ?_
    rw [if_pos (List.mem_range.1 hi)]
  · refine List.map_congr_left fun i hi => ?_
    obtain ⟨hle, -⟩ := List.mem_range'_1.1 hi
    rw [if_neg (Nat.not_lt.2 hle)]

theorem splitBasis_length (P : Ports) (pos : Nat) {t : Nat} (s : ByteString) (ht : 2 ≤ t) :
    (splitBasis P pos t s).length = t := by
  simp [splitBasis]; omega

/-- The bytes of distinct numbers below 256 are distinct. -/
theorem nodup_map_ofNat {l : List Nat} (hl : l.Nodup) (hlt : ∀ i ∈ l, i < 256) : (l.map (BitVec.ofNat 8)).Nodup := by
  refine hl.map_on fun i hi j hj heq => ?_
  have htoNat := congrArg BitVec.toNat heq
  rwa [BitVec.toNat_ofNat, BitVec.toNat_ofNat, Nat.mod_eq_of_lt (hlt i hi), Nat.mod_eq_of_lt (hlt j hj)] at htoNat

/-- The basis has distinct nodes: 0 to t-3, 254 and 255. -/
theorem splitBasis_nodup (P : Ports) (pos : Nat) {t : Nat} (s : ByteString) (ht : t ≤ 16) :
    ((splitBasis P pos t s).map (·.x)).Nodup := by
  have hxs : (splitBasis P pos t s).map (·.x) = (List.range (t - 2) ++ [254, 255]).map (BitVec.ofNat 8) := by
    simp [splitBasis, randomFragments, digestX, secretX]
  rw [hxs]
  have hrandom : ∀ i ∈ List.range (t - 2), i < 254 := fun i hi => by
    have := List.mem_range.1 hi
    omega
  have hlast : ∀ j ∈ [254, 255], 254 ≤ j ∧ j < 256 := by decide
  refine nodup_map_ofNat (List.nodup_append.2 ⟨List.nodup_range, by decide, fun i hi j hj => ?_⟩)
    (List.forall_mem_append.2 ⟨fun i hi => (hrandom i hi).trans (by decide), fun j hj => (hlast j hj).2⟩)
  exact ((hrandom i hi).trans_le (hlast j hj).1).ne

section Basis

variable (P : Ports) (pos : Nat) {t : Nat} {s : ByteString} (ht16 : t ≤ 16) (hs : 4 ≤ s.length)
include ht16 hs

/-- At the nodes of the basis its polynomial takes the values of the basis. -/
theorem interp_splitBasis_of_mem {f : Fragment} (hf : f ∈ splitBasis P pos t s) :
    interp standardTables (splitBasis P pos t s) f.x = f.y :=
  interp_at_node (List.ne_nil_of_mem hf) (splitBasis_nodup P pos s ht16) (fun _ => splitBasis_value_length hs) hf

/-- At 255 the polynomial takes the secret. -/
theorem interp_splitBasis_secret : interp standardTables (splitBasis P pos t s) 255 = s :=
  interp_splitBasis_of_mem P pos ht16 hs (f := ⟨secretX, s⟩)
    (List.mem_append_right _ (List.mem_cons_of_mem _ (List.mem_singleton_self _)))

/-- At 254 it takes the digest of the secret and the drawn salt. -/
theorem interp_splitBasis_digest : interp standardTables (splitBasis P pos t s) 254 =
    digestY P s (rngDraw P (pos + (t - 2) * s.length) (s.length - 4)) :=
  interp_splitBasis_of_mem P pos ht16 hs (f := ⟨digestX, _⟩) (List.mem_append_right _ (List.mem_cons_self ..))

/-- With a threshold of 2 or more, every fragment of a split is a point of the polynomial. -/
theorem split_points (ht : t ≠ 1) {n : Nat} {f : Fragment} (hf : f ∈ split P standardTables pos t n s) :
    f.y = interp standardTables (splitBasis P pos t s) f.x := by
  rw [split, if_neg ht, List.mem_append, List.mem_map] at hf
  obtain hf | ⟨i, -, rfl⟩ := hf
  · exact (interp_splitBasis_of_mem P pos ht16 hs (List.mem_append_left _ hf)).symm
  · rfl

end Basis

/-- As many points of the polynomial as its basis has fragments determine it. -/
theorem interp_of_points {B G : List Fragment} {L : Nat} (hne : B ≠ []) (hB : (B.map (·.x)).Nodup)
    (hL : ∀ f ∈ B, f.y.length = L) (hG : (G.map (·.x)).Nodup) (hcount : G.length = B.length)
    (hpoints : ∀ g ∈ G, g.y = interp standardTables B g.x) (x : Byte) :
    interp standardTables G x = interp standardTables B x := by
  have hneG : G ≠ [] := List.ne_nil_of_length_pos (hcount ▸ List.length_pos_of_ne_nil hne)
  have hLG : ∀ g ∈ G, g.y.length = L := fun g hg => by rw [hpoints g hg, interp_length_eq hne hL]
  refine List.ext_getElem ((interp_length_eq hneG hLG _ x).trans (interp_length_eq hne hL _ x).symm) fun k hk hk' => ?_
  have hkL : k < L := interp_length_eq hne hL standardTables x ▸ hk'
  obtain ⟨cs, hcs, hvalue⟩ := interp_exists_coefficients hne hB hL hkL
  have hthrough : ∀ g ∈ G, polynomialAt cs g.x = g.y.getD k 0 := fun g hg => by rw [hpoints g hg, hvalue]
  rw [← List.getD_eq_getElem _ 0 hk, ← List.getD_eq_getElem _ 0 hk', hvalue,
    interp_eq_polynomialAt hneG hG hLG hkL (hcs.trans hcount.symm).le hthrough]

/-! ### Recombination of a split (R216) -/

section Selection

variable {P : Ports} {pos t n : Nat} {s : ByteString} (ht : 2 ≤ t) (ht16 : t ≤ 16) (hs : 4 ≤ s.length)
  {G : List Fragment} (hG : G ⊆ split P standardTables pos t n s)
include ht ht16 hs hG

theorem selection_value_length : ∀ g ∈ G, g.y.length = s.length := by
  have hne : splitBasis P pos t s ≠ [] := List.ne_nil_of_length_pos (by rw [splitBasis_length P pos s ht]; omega)
  intro g hg
  rw [split_points P pos ht16 hs (by omega) (hG hg), interp_length_eq hne fun _ => splitBasis_value_length hs]

variable (hnodup : (G.map (·.x)).Nodup)
include hnodup

/-- Fragments of a split, `t` of them, determine the polynomial of the split. -/
theorem interp_of_selection (hcount : G.length = t) (x : Byte) :
    interp standardTables G x = interp standardTables (splitBasis P pos t s) x := by
  have hbasis := splitBasis_length P pos s ht
  have hne : splitBasis P pos t s ≠ [] := List.ne_nil_of_length_pos (by omega)
  exact interp_of_points hne (splitBasis_nodup P pos s ht16) (fun _ => splitBasis_value_length hs) hnodup
    (hcount.trans hbasis.symm) (fun g hg => split_points P pos ht16 hs (by omega) (hG hg)) x

/-- Any `t` fragments of a split recombine to the secret. -/
theorem recombine_of_selection (hcount : G.length = t) : recombine P standardTables t G = .ok s := by
  have hne : G ≠ [] := List.ne_nil_of_length_pos (by omega)
  have hlength := selection_value_length ht ht16 hs hG
  have hdigest : (interp standardTables G 254).take 4 =
      (P.digest4 ((interp standardTables G 254).drop 4) (interp standardTables G 255)).toList := by
    simp only [interp_of_selection ht ht16 hs hG hnodup hcount]
    rw [interp_splitBasis_digest P pos ht16 hs, interp_splitBasis_secret P pos ht16 hs]
    simp [digestY]
  rw [recombine_of_agreeing P _ ⟨by omega, ht16⟩ hne hnodup hlength hcount (.inr ⟨hs, hdigest⟩), if_neg (by omega),
    interp_of_selection ht ht16 hs hG hnodup hcount, interp_splitBasis_secret P pos ht16 hs]

/-- One fragment fewer is reported as too few. -/
theorem recombine_of_too_few (hcount : G.length = t - 1) : recombine P standardTables t G =
    .error ⟨.notEnoughFragments, BitVec.ofNat 32 (t - 1)⟩ := by
  have hne : G ≠ [] := List.ne_nil_of_length_pos (by omega)
  have hlength := selection_value_length ht ht16 hs hG
  rw [recombine_of_distinct P _ ⟨by omega, ht16⟩ hne hnodup hlength, if_pos (by omega), hcount]

end Selection

/-- Settles O27: the fragments of a split are points of one polynomial, which any `t` of them determine. -/
theorem thresholdIsExact : Obligations.ThresholdIsExact := by
  intro P pos t n secret htn hn
  have ht16 : t ≤ 16 := htn.trans hn
  refine ⟨fun ht hs G hG hnodup => ⟨recombine_of_selection ht ht16 hs hG hnodup,
    recombine_of_too_few ht ht16 hs hG hnodup⟩, ?_⟩
  rintro rfl f hf
  rw [split_one] at hf
  obtain ⟨i, -, rfl⟩ := List.mem_map.1 hf
  rfl

end Sys2Proof.Machine

/-! PROOFS. The Shamir commands: which check answers, and what a success stores (R212, R215, R220). -/

namespace Sys2Proof.Machine

/-! ### SH_INTERPOLATE (R212) -/

theorem exec_shInterpolate (x : Byte) (s : State) :
    exec (.shInterpolate x) s = s.finish (if s.operands.fragments.length = 0 then .error ⟨.notEnoughFragments, 0⟩
      else raiseAt (firstDuplicateX s.operands.fragments) .duplicateIndex id >>= fun _ =>
        .ok (s.arch.putResultBytes (interp s.operands.tables s.operands.fragments x))) :=
  congrArg s.finish (raiseIf_bind ..)

/-- A value as long as the fragments, stored in RESULT, leaves LEN_FRAG in LEN_RESULT and changes nothing else. -/
theorem State.finish_putResultBytes_of_lenFrag {s : State} {y : ByteString}
    (hy : y.length = s.operands.csr.lenFrag.toNat) : s.finish (.ok (s.arch.putResultBytes y)) =
    .next (s.succeeded { s.arch.csr with lenResult := s.operands.csr.lenFrag }
      { s.arch.mem with result := Cells.writeList s.arch.mem.result 0 y } s.arch.ses) := by
  rw [State.finish_putResultBytes, hy, BitVec.ofNat_toNat, BitVec.setWidth_eq]

theorem Arch.interp_fragments_length {a : Arch} (hne : a.fragments ≠ []) (T : FieldTables) (x : Byte) :
    (interp T a.fragments x).length = a.csr.lenFrag.toNat :=
  interp_length_eq hne (fun _ => Arch.fragments_value_length) T x

theorem ne_nil_of_repeats {F : List Fragment} {j : Nat} (h : Repeats (F.map (·.x)) j) : F ≠ [] := by
  rintro rfl
  exact absurd h.1 (Nat.not_lt_zero j)

/-- Settles O23: an empty file and a repeated x are the two checks; past them the value has the fragments' length. -/
theorem shInterpolateWritesTheValue : Obligations.ShInterpolateWritesTheValue := by
  refine fun x s => ⟨assemble_zero _ _, fun hnil => ?_, fun j hj => ?_, fun hne hnodup =>
    ⟨_, ?_, storedAt_writeList _ _ _⟩⟩
  · rw [exec_shInterpolate, if_pos (List.length_eq_zero_iff.2 hnil)]; rfl
  · rw [exec_shInterpolate, if_neg (mt List.length_eq_zero_iff.1 (ne_nil_of_repeats hj.1)),
      firstDuplicateX_of_firstAt hj, raiseAt_some_bind]
    rfl
  · rw [exec_shInterpolate, if_neg (mt List.length_eq_zero_iff.1 hne), firstDuplicateX_of_nodup hnodup,
      raiseAt_none_bind, State.finish_putResultBytes_of_lenFrag (Arch.interp_fragments_length hne _ x)]

/-! ### SH_RECOMBINE (R219, R220) -/

theorem recombine_of_illegal (P : Ports) (T : FieldTables) {t : Nat} (ht : ¬(1 ≤ t ∧ t ≤ 16)) (F : List Fragment) :
    recombine P T t F = .error ⟨.inputValidation, 0⟩ := by
  rw [recombine, raiseIf_bind, if_pos ht]; rfl

theorem recombine_nil (P : Ports) (T : FieldTables) {t : Nat} (ht : 1 ≤ t ∧ t ≤ 16) :
    recombine P T t [] = .error ⟨.notEnoughFragments, 0⟩ := by
  rw [recombine, raiseIf_bind, if_neg (not_not.2 ht)]; rfl

theorem recombine_of_repeats (P : Ports) (T : FieldTables) {t j : Nat} (ht : 1 ≤ t ∧ t ≤ 16) {F : List Fragment}
    (hj : FirstAt (Repeats (F.map (·.x))) j) : recombine P T t F = .error ⟨.duplicateIndex, BitVec.ofNat 32 j⟩ := by
  rw [recombine, raiseIf_bind, if_neg (not_not.2 ht), raiseIf_bind,
    if_neg (mt List.length_eq_zero_iff.1 (ne_nil_of_repeats hj.1)), firstDuplicateX_of_firstAt hj, raiseAt_some_bind]
  rfl

section Recombine

variable {s : State}

theorem exec_shRecombine_of_error {e : Raised} (h : recombine Config.ports s.operands.tables
    s.operands.csr.threshold.toNat s.operands.fragments = .error e) :
    exec .shRecombine s = .next (s.failed e.error.code e.info) :=
  congrArg (fun r => s.finish (r >>= fun y => .ok (s.arch.putResultBytes y))) h

theorem exec_shRecombine_of_ok {y : ByteString} (h : recombine Config.ports s.operands.tables
    s.operands.csr.threshold.toNat s.operands.fragments = .ok y) :
    exec .shRecombine s = s.finish (.ok (s.arch.putResultBytes y)) :=
  congrArg (fun r => s.finish (r >>= fun y => .ok (s.arch.putResultBytes y))) h

end Recombine

/-- Settles O26: the checks of `Recombine` in their order; what it answers is as long as the fragments. -/
theorem shRecombineRecoversOrReports : Obligations.ShRecombineRecoversOrReports := by
  refine ⟨rfl, fun s => ⟨fun ht => exec_shRecombine_of_error (recombine_of_illegal _ _ ht _), fun ht hnil =>
    exec_shRecombine_of_error (hnil ▸ recombine_nil _ _ ht), fun ht j hj =>
    exec_shRecombine_of_error (recombine_of_repeats _ _ ht hj), fun ht hne hnodup => ?_⟩⟩
  have hlength : ∀ f ∈ s.operands.fragments, f.y.length = s.operands.csr.lenFrag.toNat :=
    fun _ => Arch.fragments_value_length
  have hrecombine := recombine_of_distinct Config.ports s.operands.tables ht hne hnodup hlength
  have hcounted (hcount : s.operands.fragments.length = s.operands.csr.threshold.toNat) :=
    hrecombine.trans ((if_neg hcount.not_lt).trans (if_neg hcount.not_gt))
  refine ⟨fun hfew => exec_shRecombine_of_error (hrecombine.trans (if_pos hfew)),
    fun hmany => exec_shRecombine_of_error (hrecombine.trans ((if_neg hmany.not_gt).trans (if_pos hmany))),
    fun hcount ht2 hshort => exec_shRecombine_of_error
      ((hcounted hcount).trans ((if_neg (by omega)).trans (if_pos hshort))),
    fun hcount ht2 hlong hdigest => exec_shRecombine_of_error
      ((hcounted hcount).trans ((if_neg (by omega)).trans ((if_neg (Nat.not_lt.2 hlong)).trans (if_pos hdigest)))),
    fun hcount hgood => ⟨_, ?_, storedAt_writeList _ _ _⟩⟩
  rw [exec_shRecombine_of_ok (recombine_of_agreeing _ _ ht hne hnodup hlength hcount hgood)]
  refine State.finish_putResultBytes_of_lenFrag ?_
  split
  · exact headD_value_length hne hlength
  · exact Arch.interp_fragments_length hne _ _

/-! ### SH_SPLIT (R214, R215) -/

theorem splitChecks_eq (t n L : Nat) : splitChecks t n L =
    if ¬(1 ≤ t ∧ t ≤ n ∧ n ≤ 16) then .error ⟨.inputValidation, 0⟩
    else if 2 ≤ t ∧ L < 4 then .error ⟨.invalidSecretLength, BitVec.ofNat 32 L⟩ else .ok () :=
  raiseIf_bind ..

theorem exec_shSplit_of_error {s : State} {e : Raised} (h : splitChecks s.operands.csr.threshold.toNat
    s.operands.csr.shareCount.toNat s.operands.secretBytes.length = .error e) :
    exec .shSplit s = .next (s.failed e.error.code e.info) := by
  rw [exec, execShSplit]
  simp only [h]
  rfl

/-- Past the checks the split is stored, and the random port stands after the bytes drawn for it. -/
theorem exec_shSplit_of_ok {s : State} (h : splitChecks s.operands.csr.threshold.toNat
    s.operands.csr.shareCount.toNat s.operands.secretBytes.length = .ok ()) :
    exec .shSplit s =
      s.finishDrawn (s.draws + splitDraws s.operands.csr.threshold.toNat s.operands.secretBytes.length)
        (.ok (s.arch.putFragments (split Config.ports s.operands.tables s.draws s.operands.csr.threshold.toNat
          s.operands.csr.shareCount.toNat s.operands.secretBytes) s.operands.secretBytes.length)) := by
  rw [exec, execShSplit]
  simp only [h]

/-- Stored fragments leave their number and length in the registers, and fill FRAG_X and FRAG_Y. -/
theorem State.finish_putFragments (s : State) (F : List Fragment) (L : Nat) :
    s.finish (.ok (s.arch.putFragments F L)) =
      .next (s.succeeded { s.arch.csr with fragCount := BitVec.ofNat 5 F.length, lenFrag := BitVec.ofNat 7 L }
        { s.arch.mem with
          fragX := (putFragmentsFrom 0 s.arch.mem F).fragX
          fragY := (putFragmentsFrom 0 s.arch.mem F).fragY } s.arch.ses) :=
  (State.finish_eq_succeeded (a := s.arch.putFragments F L) rfl rfl).trans
    (congrArg (fun m => Host.Outcome.next (s.succeeded _ m s.arch.ses)) (putFragmentsFrom_frame F 0 s.arch.mem))

theorem storedAt_fragX (F : List Fragment) (m : Memory) :
    StoredAt m.fragX (putFragmentsFrom 0 m F).fragX 0 (F.map (·.x)) := fun k => by
  rw [putFragmentsFrom_fragX, List.length_map]

theorem rowsStored_fragY {F : List Fragment} (hF : ∀ f ∈ F, f.y.length ≤ 64) (m : Memory) :
    RowsStored m.fragY (putFragmentsFrom 0 m F).fragY 64 (F.map (·.y)) := fun j k hk => by
  simp [putFragmentsFrom_fragY F hF 0 m j k hk]

theorem splitDraws_eq {t : Nat} (ht : 1 ≤ t) (L : Nat) :
    splitDraws t L = if t = 1 then 0 else (t - 2) * L + (L - 4) := by
  rw [splitDraws]
  exact if_congr (by omega) rfl rfl

/-- Fragment `i` of a split has x-coordinate `i`. -/
theorem split_map_x (P : Ports) (T : FieldTables) (pos : Nat) {t n : Nat} (s : ByteString) (hn : t ≤ n) :
    (split P T pos t n s).map (·.x) = (List.range n).map (BitVec.ofNat 8) := by
  by_cases ht : t = 1
  · subst ht
    rw [split_one, List.map_map]; rfl
  · rw [split_eq_map P T pos s ht (by omega), List.map_map]; rfl

/-- Every fragment of a split is as long as the secret. -/
theorem split_value_length {P : Ports} {T : FieldTables} {pos t n : Nat} {s : ByteString} (hs : t = 1 ∨ 4 ≤ s.length)
    {f : Fragment} (hf : f ∈ split P T pos t n s) : f.y.length = s.length := by
  by_cases ht : t = 1
  · subst ht
    rw [split_one] at hf
    obtain ⟨i, -, rfl⟩ := List.mem_map.1 hf
    rfl
  · rw [split, if_neg ht, List.mem_append, List.mem_map] at hf
    obtain hf | ⟨i, -, rfl⟩ := hf
    · exact randomFragments_value_length hf
    · exact interp_length_eq (List.append_ne_nil_of_right_ne_nil _ (List.cons_ne_nil _ _))
        (fun _ => splitBasis_value_length (hs.resolve_left ht)) ..

/-- The values of a split with a threshold of 2 or more, row by row. -/
theorem split_value_getD (P : Ports) (T : FieldTables) (pos : Nat) {t n j : Nat} (s : ByteString) (ht : t ≠ 1)
    (hn : t - 2 ≤ n) (hj : j < n) : ((split P T pos t n s).map (·.y)).getD j [] =
      if j < t - 2 then rngDraw P (pos + j * s.length) s.length
      else interp T (splitBasis P pos t s) (BitVec.ofNat 8 j) := by
  simp [split_eq_map P T pos s ht hn, hj]

/-- Settles O25: the two checks, and past them the stored rows are those of the split. -/
theorem shSplitFillsTheFragmentFile : Obligations.ShSplitFillsTheFragmentFile := by
  refine ⟨rfl, fun s => ⟨fun hbad => exec_shSplit_of_error ((splitChecks_eq ..).trans (if_pos hbad)),
    fun hlegal ht2 hshort => exec_shSplit_of_error
      ((splitChecks_eq ..).trans ((if_neg (not_not.2 hlegal)).trans (if_pos ⟨ht2, hshort⟩))),
    fun hlegal hlong h64 => ?_⟩⟩
  have hok := (splitChecks_eq ..).trans ((if_neg (not_not.2 hlegal)).trans
    (if_neg (c := 2 ≤ s.operands.csr.threshold.toNat ∧ s.operands.secretBytes.length < 4) (by omega)))
  obtain ⟨ht, htn, hn⟩ := hlegal
  have hcount := split_length Config.ports s.operands.tables s.draws s.operands.csr.threshold.toNat
    s.operands.csr.shareCount.toNat s.operands.secretBytes (.inr (by omega))
  have hx := split_map_x Config.ports s.operands.tables s.draws s.operands.secretBytes htn
  have hlength := fun f => split_value_length (P := Config.ports) (T := s.operands.tables) (pos := s.draws)
    (n := s.operands.csr.shareCount.toNat) (f := f) hlong
  refine ⟨_, _, _, ?_, hx ▸ storedAt_fragX _ _, rowsStored_fragY (fun f hf => (hlength f hf).trans_le h64) _,
    (List.length_map ..).trans hcount, List.forall_mem_map.2 hlength, fun ht1 => ?_,
    fun ht2 => ⟨fun j hj => ?_, fun j hj hjn => ?_⟩⟩
  · rw [exec_shSplit_of_ok hok, State.finishDrawn_eq, splitDraws_eq ht]
    refine (State.finish_putFragments _ _ _).trans ?_
    rw [hcount, Arch.secretBytes_length, BitVec.ofNat_toNat, BitVec.setWidth_eq, BitVec.ofNat_toNat, BitVec.setWidth_eq]
  · rw [ht1, split_one]
    simp
  · rw [split_value_getD _ _ _ _ (by omega) (by omega) (by omega), if_pos hj]
    exact rngDraw_ports ..
  · rw [split_value_getD _ _ _ _ (by omega) (by omega) hjn, if_neg (Nat.not_lt.2 hj)]
    rfl

end Sys2Proof.Machine

/-! PROOFS. The passphrase cipher: one round undoes itself once the halves are swapped, so the reverse order of rounds
inverts the network; what FC_ENCRYPT and FC_DECRYPT check and store (R240 to R246). -/

namespace Sys2Proof.Machine

/-! ### The halves of a byte string -/

/-- The halves the network starts from (R242). -/
def halves (m : ByteString) : ByteString × ByteString := (m.take (m.length / 2), m.drop (m.length / 2))

/-- The network puts out the right half first (R242, R243). -/
theorem feistel_eq (P : Ports) (p : Params) (rounds : List Nat) (m pass : ByteString) (e : BitVec 5) (id : BitVec 15) :
    feistel P p rounds m pass e id = (rounds.foldl (feistelRound P p pass e (cipherSalt p id)) (halves m)).2 ++
      (rounds.foldl (feistelRound P p pass e (cipherSalt p id)) (halves m)).1 := rfl

theorem halves_fst_append_snd (m : ByteString) : (halves m).1 ++ (halves m).2 = m := List.take_append_drop ..

theorem halves_length_eq {m : ByteString} (hm : m.length % 2 = 0) : (halves m).1.length = (halves m).2.length := by
  simp only [halves, List.length_take, List.length_drop]
  omega

theorem halves_append {a b : ByteString} (hab : a.length = b.length) : halves (a ++ b) = (a, b) := by
  have hhalf : (a ++ b).length / 2 = a.length := by rw [List.length_append]; omega
  rw [halves, hhalf, List.take_left, List.drop_left]

/-! ### The rounds (R240 to R243) -/

section Rounds

variable (P : Ports) (p : Params) (pass : ByteString) (e : BitVec 5) (salt : ByteString)

/-- A round puts the right half to the left, and to the right a half as long as the left one. -/
theorem feistelRound_lengths {lr : ByteString × ByteString} (h : lr.1.length = lr.2.length) (i : Nat) :
    (feistelRound P p pass e salt lr i).1.length = lr.2.length ∧
      (feistelRound P p pass e salt lr i).2.length = lr.1.length := by
  simp [feistelRound, h]

/-- The rounds keep the two halves as long as they are. -/
theorem feistelRounds_lengths (rounds : List Nat) {lr : ByteString × ByteString} (h : lr.1.length = lr.2.length) :
    (rounds.foldl (feistelRound P p pass e salt) lr).1.length = lr.1.length ∧
      (rounds.foldl (feistelRound P p pass e salt) lr).2.length = lr.2.length := by
  induction rounds generalizing lr with
  | nil => exact ⟨rfl, rfl⟩
  | cons i rest ih =>
    obtain ⟨hl, hr⟩ := feistelRound_lengths P p pass e salt h i
    obtain ⟨ihl, ihr⟩ := ih (hl.trans (h.symm.trans hr.symm))
    exact ⟨ihl.trans (hl.trans h.symm), ihr.trans (hr.trans h)⟩

/-- A round undoes itself on the swapped halves: the round's value is added twice to the same half. -/
theorem feistelRound_swap_feistelRound {lr : ByteString × ByteString} (h : lr.1.length = lr.2.length) (i : Nat) :
    feistelRound P p pass e salt (feistelRound P p pass e salt lr i).swap i = lr.swap :=
  Prod.ext rfl (xorBytes_cancel (h.trans (roundFunction_length ..).symm))

/-- The rounds in the reverse order undo the rounds on the swapped halves. -/
theorem feistelRounds_reverse_swap (rounds : List Nat) {lr : ByteString × ByteString} (h : lr.1.length = lr.2.length) :
    rounds.reverse.foldl (feistelRound P p pass e salt) (rounds.foldl (feistelRound P p pass e salt) lr).swap =
      lr.swap := by
  induction rounds generalizing lr with
  | nil => rfl
  | cons i rest ih =>
    obtain ⟨hl, hr⟩ := feistelRound_lengths P p pass e salt h i
    rw [List.reverse_cons, List.foldl_append, List.foldl_cons, List.foldl_cons, ih (hl.trans (h.symm.trans hr.symm))]
    exact feistelRound_swap_feistelRound P p pass e salt h i

end Rounds

section Network

variable (P : Ports) (p : Params) (rounds : List Nat) (pass : ByteString) (e : BitVec 5) (id : BitVec 15)

theorem feistel_length {m : ByteString} (hm : m.length % 2 = 0) :
    (feistel P p rounds m pass e id).length = m.length := by
  obtain ⟨hl, hr⟩ := feistelRounds_lengths P p pass e (cipherSalt p id) rounds (halves_length_eq hm)
  rw [feistel_eq, List.length_append, hl, hr, Nat.add_comm, ← List.length_append, halves_fst_append_snd]

/-- The halves of the network's output are those the rounds end with, swapped. -/
theorem halves_feistel {m : ByteString} (hm : m.length % 2 = 0) : halves (feistel P p rounds m pass e id) =
    (rounds.foldl (feistelRound P p pass e (cipherSalt p id)) (halves m)).swap := by
  have hhalves := halves_length_eq hm
  obtain ⟨hl, hr⟩ := feistelRounds_lengths P p pass e (cipherSalt p id) rounds hhalves
  exact halves_append (hr.trans (hhalves.symm.trans hl.symm))

/-- The network with the rounds in the reverse order inverts it. -/
theorem feistel_reverse_feistel {m : ByteString} (hm : m.length % 2 = 0) :
    feistel P p rounds.reverse (feistel P p rounds m pass e id) pass e id = m := by
  rw [feistel_eq, halves_feistel P p rounds pass e id hm,
    feistelRounds_reverse_swap P p pass e (cipherSalt p id) rounds (halves_length_eq hm)]
  exact halves_fst_append_snd m

end Network

/-- Settles O29: each of the two orders of the rounds is the reverse of the other. -/
theorem decryptInvertsEncrypt : Obligations.DecryptInvertsEncrypt := fun P p _ pass e id hm =>
  ⟨feistel_reverse_feistel P p [0, 1, 2, 3] pass e id hm, feistel_reverse_feistel P p [3, 2, 1, 0] pass e id hm⟩

/-! ### The round output in the terms of the claims (R240, R241) -/

theorem cipherSalt_eq (p : Params) (id : BitVec 15) :
    cipherSalt p id = p.custom ++ [BitVec.ofNat 8 (id.toNat / 256), BitVec.ofNat 8 (id.toNat % 256)] := by
  have hlow : BitVec.ofNat 8 (id.toNat % 256) = BitVec.ofNat 8 id.toNat := by
    apply BitVec.eq_of_toNat_eq
    simp
  rw [hlow]
  rfl

theorem roundFunction_ports (p : Params) (i : Nat) (pass : ByteString) (e : BitVec 5) (id : BitVec 15)
    (half : ByteString) :
    roundFunction Config.ports p i pass e (cipherSalt p id) half = roundOutput p pass e id i half := by
  rw [roundFunction, cipherSalt_eq, Nat.shiftLeft_eq]
  rfl

theorem fourRounds_feistel (p : Params) (pass : ByteString) (e : BitVec 5) (id : BitVec 15) (m : ByteString)
    (r0 r1 r2 r3 : Nat) :
    FourRounds p pass e id m (feistel Config.ports p [r0, r1, r2, r3] m pass e id) r0 r1 r2 r3 := by
  simp only [FourRounds, feistel, List.foldl_cons, List.foldl_nil, feistelRound, roundFunction_ports]

/-! ### FC_ENCRYPT and FC_DECRYPT (R244 to R246) -/

/-- What both commands do with their order of the rounds: the two checks, then the network's output to RESULT. -/
def State.finishCipher (s : State) (rounds : List Nat) : Host.Outcome State Fault Refusal :=
  s.finish do
    checkLength s.params s.operands.csr.lenSecret.toNat
    checkPass s.params s.operands.passBytes
    return s.arch.putResultBytes (feistel Config.ports s.params rounds s.operands.secretBytes s.operands.passBytes
      s.operands.csr.iterExp s.operands.csr.ident)

theorem exec_fcEncrypt (s : State) : exec .fcEncrypt s = s.finishCipher [0, 1, 2, 3] := rfl

theorem exec_fcDecrypt (s : State) : exec .fcDecrypt s = s.finishCipher [3, 2, 1, 0] := rfl

theorem checkLength_of_illegal {p : Params} {L : Nat} (h : L % 2 = 1 ∨ L < 2 ∨ p.lMax < L) :
    checkLength p L = .error ⟨.invalidSecretLength, BitVec.ofNat 32 L⟩ := if_pos h

theorem checkLength_of_legal {p : Params} {L : Nat} (heven : L % 2 = 0) (h2 : 2 ≤ L) (hmax : L ≤ p.lMax) :
    checkLength p L = .ok () := if_neg (by omega)

section Commands

variable {s : State} (rounds : List Nat)

theorem State.finishCipher_of_illegal_length (h : s.operands.secretBytes.length % 2 = 1 ∨
    s.operands.secretBytes.length < 2 ∨ s.params.lMax < s.operands.secretBytes.length) :
    s.finishCipher rounds = .next (s.failed 0x40 (BitVec.ofNat 32 s.operands.secretBytes.length)) := by
  rw [Arch.secretBytes_length] at h ⊢
  rw [State.finishCipher, checkLength_of_illegal h]
  rfl

theorem State.finishCipher_of_passRefused (heven : s.operands.secretBytes.length % 2 = 0)
    (h2 : 2 ≤ s.operands.secretBytes.length) (hmax : s.operands.secretBytes.length ≤ s.params.lMax) {j : Nat}
    (hj : PassRefusedAt s.params s.operands.passBytes j) :
    s.finishCipher rounds = .next (s.failed 0x41 (BitVec.ofNat 32 j)) := by
  rw [Arch.secretBytes_length] at heven h2 hmax
  rw [State.finishCipher, checkLength_of_legal heven h2 hmax, except_ok_bind, checkPass_of_refused hj]
  rfl

/-- Past the checks the network's output, as long as the secret, is stored in RESULT. -/
theorem State.finishCipher_of_legal (heven : s.operands.secretBytes.length % 2 = 0)
    (h2 : 2 ≤ s.operands.secretBytes.length) (hmax : s.operands.secretBytes.length ≤ s.params.lMax)
    (hpass : PassAccepted s.params s.operands.passBytes) :
    s.finishCipher rounds = .next (s.succeeded { s.arch.csr with lenResult := s.operands.csr.lenSecret }
      { s.arch.mem with result := Cells.writeList s.arch.mem.result 0 (feistel Config.ports s.params rounds
          s.operands.secretBytes s.operands.passBytes s.operands.csr.iterExp s.operands.csr.ident) } s.arch.ses) := by
  have hlength := feistel_length Config.ports s.params rounds s.operands.passBytes s.operands.csr.iterExp
    s.operands.csr.ident heven
  rw [Arch.secretBytes_length] at heven h2 hmax
  rw [State.finishCipher, checkLength_of_legal heven h2 hmax, except_ok_bind, checkPass_of_accepted hpass,
    except_ok_bind]
  refine (State.finish_putResultBytes s _).trans ?_
  rw [hlength, Arch.secretBytes_length, BitVec.ofNat_toNat, BitVec.setWidth_eq]

end Commands

/-- Settles O28: the two commands are one computation with two orders of the rounds. -/
theorem cipherCommandsRunFourRounds : Obligations.CipherCommandsRunFourRounds := by
  refine ⟨rfl, rfl, fun s => ⟨fun hlength => ?_, fun heven h2 hmax => ⟨fun j hj => ?_, fun hpass => ?_⟩⟩⟩
  · rw [exec_fcEncrypt, exec_fcDecrypt]
    exact ⟨State.finishCipher_of_illegal_length _ hlength, State.finishCipher_of_illegal_length _ hlength⟩
  · rw [exec_fcEncrypt, exec_fcDecrypt]
    exact ⟨State.finishCipher_of_passRefused _ heven h2 hmax hj,
      State.finishCipher_of_passRefused _ heven h2 hmax hj⟩
  · rw [exec_fcEncrypt, exec_fcDecrypt]
    exact ⟨⟨_, _, State.finishCipher_of_legal _ heven h2 hmax hpass, storedAt_writeList _ _ _,
        feistel_length _ _ _ _ _ _ heven, fourRounds_feistel ..⟩,
      _, _, State.finishCipher_of_legal _ heven h2 hmax hpass, storedAt_writeList _ _ _,
        feistel_length _ _ _ _ _ _ heven, fourRounds_feistel ..⟩

end Sys2Proof.Machine

/-! PROOFS. The share codec: a header is its fields at their places, a residue tells strings that differ in one symbol
apart, and what SHARE_ENCODE writes SHARE_DECODE reads (R260 to R268). -/

namespace Sys2Proof.Machine

/-! ### The header (R262) -/

/-- The bits from `j` on hold the number `n`, and those below are still clear. -/
def FieldsAbove (x : BitVec 40) (j n : Nat) : Prop := x.toNat = n * 2 ^ j

/-- The next field goes directly below the fields put so far. -/
theorem FieldsAbove.or_shiftLeft {x : BitVec 40} {j n w : Nat} (h : FieldsAbove x (j + w) n) (y : BitVec w)
    (hw : j + w ≤ 40) : FieldsAbove (x ||| (y.setWidth 40 <<< j)) j (n * 2 ^ w + y.toNat) := by
  have hw40 : 2 ^ w ≤ 2 ^ 40 := Nat.pow_le_pow_right (by decide) (by omega)
  have hj40 : 2 ^ (j + w) ≤ 2 ^ 40 := Nat.pow_le_pow_right (by decide) hw
  have hfield : y.toNat * 2 ^ j < 2 ^ (j + w) := by
    rw [Nat.add_comm, Nat.pow_add]
    exact Nat.mul_lt_mul_of_pos_right y.isLt (Nat.two_pow_pos j)
  rw [FieldsAbove, BitVec.toNat_or, BitVec.toNat_shiftLeft, BitVec.toNat_setWidth,
    Nat.mod_eq_of_lt (y.isLt.trans_le hw40), Nat.shiftLeft_eq, Nat.mod_eq_of_lt (hfield.trans_le hj40), h,
    Nat.mul_comm n, ← Nat.two_pow_add_eq_or_of_lt hfield, Nat.pow_add]
  ring

/-- The header is its fields at their places, of the thresholds and the count the stored bits. -/
theorem shareHeader_toNat (sh : Share) : (shareHeader sh).toNat =
    sh.identifier.toNat * 2 ^ 25 + sh.iterationExponent.toNat * 2 ^ 20 + sh.groupIndex.toNat * 2 ^ 16 +
    (storedMinusOne sh.groupThreshold).toNat * 2 ^ 12 + (storedMinusOne sh.groupCount).toNat * 2 ^ 8 +
    sh.memberIndex.toNat * 2 ^ 4 + (storedMinusOne sh.memberThreshold).toNat := by
  have hempty : FieldsAbove 0#40 (25 + 15) 0 := rfl
  have hfields := ((((((hempty.or_shiftLeft sh.identifier (by decide)).or_shiftLeft (j := 20) sh.iterationExponent
    (by decide)).or_shiftLeft (j := 16) sh.groupIndex (by decide)).or_shiftLeft (j := 12)
    (storedMinusOne sh.groupThreshold) (by decide)).or_shiftLeft (j := 8) (storedMinusOne sh.groupCount)
    (by decide)).or_shiftLeft (j := 4) sh.memberIndex (by decide)).or_shiftLeft (j := 0)
    (storedMinusOne sh.memberThreshold) (by decide)
  rw [BitVec.zero_or, BitVec.shiftLeft_zero] at hfields
  rw [FieldsAbove] at hfields
  rw [shareHeader, hfields]
  ring

theorem storedMinusOne_toNat {v : BitVec 5} (h1 : 1 ≤ v.toNat) (h16 : v.toNat ≤ 16) :
    (storedMinusOne v).toNat = v.toNat - 1 := by
  rw [storedMinusOne, BitVec.toNat_setWidth]
  bv_omega

theorem plusOne_toNat (v : BitVec 4) : (plusOne v).toNat = v.toNat + 1 := by
  rw [plusOne]
  bv_omega

/-- The header of a legal share is the number the claims name. -/
theorem shareHeader_toNat_of_legal {sh : Share} (h : ShareFieldsLegal sh) :
    (shareHeader sh).toNat = headerNumber sh := by
  obtain ⟨hgt1, hgt16, hgc1, hgc16, hmt1, hmt16, -, -⟩ := h
  rw [shareHeader_toNat, storedMinusOne_toNat hgt1 hgt16, storedMinusOne_toNat hgc1 hgc16,
    storedMinusOne_toNat hmt1 hmt16, headerNumber]

/-- The header symbols are the four digits of the header. -/
theorem headerSymbols_eq_toBigEndian (hdr : BitVec 40) : headerSymbols hdr = toBigEndian 10 hdr.toNat 4 := by
  simp [headerSymbols, BitVec.extractLsb', Nat.shiftRight_eq_div_pow, toBigEndian, Nat.div_div_eq_div_mul]

theorem headerSymbols_length (hdr : BitVec 40) : (headerSymbols hdr).length = 4 := rfl

theorem bigEndian_headerSymbols (hdr : BitVec 40) : bigEndian (headerSymbols hdr) = hdr.toNat := by
  rw [headerSymbols_eq_toBigEndian, bigEndian_toBigEndian, Nat.mod_eq_of_lt hdr.isLt]

/-- The fields read from the header number `n`. -/
theorem shareFromHeader_ofNat (n : Nat) (value : ByteString) : shareFromHeader (BitVec.ofNat 40 n) value =
    { identifier := BitVec.ofNat 15 (n / 2 ^ 25)
      iterationExponent := BitVec.ofNat 5 (n / 2 ^ 20 % 32)
      groupIndex := BitVec.ofNat 4 (n / 2 ^ 16 % 16)
      groupThreshold := BitVec.ofNat 5 (n / 2 ^ 12 % 16 + 1)
      groupCount := BitVec.ofNat 5 (n / 2 ^ 8 % 16 + 1)
      memberIndex := BitVec.ofNat 4 (n / 2 ^ 4 % 16)
      memberThreshold := BitVec.ofNat 5 (n % 16 + 1)
      value := value } := by
  simp only [shareFromHeader, Share.mk.injEq, ← BitVec.toNat_inj, plusOne_toNat, BitVec.extractLsb'_toNat,
    BitVec.toNat_ofNat, Nat.shiftRight_eq_div_pow, and_true]
  omega

theorem headerNumber_groupFields {sh : Share} (h : ShareFieldsLegal sh) :
    headerNumber sh / 2 ^ 16 % 16 = sh.groupIndex.toNat ∧ headerNumber sh / 2 ^ 12 % 16 + 1 = sh.groupThreshold.toNat ∧
    headerNumber sh / 2 ^ 8 % 16 + 1 = sh.groupCount.toNat := by
  obtain ⟨hgt1, hgt16, hgc1, hgc16, hmt1, hmt16, -, -⟩ := h
  rw [headerNumber]
  omega

/-- The fields of a legal share are read back from its header number. -/
theorem shareFromHeader_headerNumber {sh : Share} (h : ShareFieldsLegal sh) :
    shareFromHeader (BitVec.ofNat 40 (headerNumber sh)) sh.value = sh := by
  obtain ⟨id, e, gi, gt, gc, mi, mt, value⟩ := sh
  obtain ⟨hgt1, hgt16, hgc1, hgc16, hmt1, hmt16, -, -⟩ := h
  simp only [shareFromHeader_ofNat, headerNumber, Share.mk.injEq, ← BitVec.toNat_inj, BitVec.toNat_ofNat, and_true]
    at hgt1 hgt16 hgc1 hgc16 hmt1 hmt16 ⊢
  omega

/-! ### The symbols of a share (R263) -/

theorem encodeShare_eq (p : Params) (sh : Share) : encodeShare p sh = headerSymbols (shareHeader sh) ++
    (pack sh.value ++ checksum p (headerSymbols (shareHeader sh) ++ pack sh.value)) :=
  List.append_assoc ..

theorem shareSymbols_encodeShare (p : Params) {sh : Share} (h : ShareFieldsLegal sh) :
    ShareSymbols p sh (encodeShare p sh) :=
  ⟨headerSymbols (shareHeader sh), pack sh.value, _, rfl, rfl,
    (bigEndian_headerSymbols _).trans (shareHeader_toNat_of_legal h), packedAs_pack _, rfl, rfl⟩

/-- Header symbol `i` is digit `i` of the header. -/
theorem encodeShare_getD_toNat (p : Params) (sh : Share) {i : Nat} (hi : i < 4) :
    ((encodeShare p sh).getD i 0).toNat = (shareHeader sh).toNat / 2 ^ (10 * (3 - i)) % 2 ^ 10 := by
  rw [encodeShare_eq, List.getD_append _ _ _ _ hi, headerSymbols_eq_toBigEndian, toBigEndian_getD _ _ hi]

/-- Two shares agree in header symbol `i` exactly where their headers agree in digit `i`. -/
theorem encodeShare_getD_eq_iff (p : Params) (a b : Share) {i : Nat} (hi : i < 4) :
    (encodeShare p a).getD i 0 = (encodeShare p b).getD i 0 ↔
      (shareHeader a).toNat / 2 ^ (10 * (3 - i)) % 2 ^ 10 = (shareHeader b).toNat / 2 ^ (10 * (3 - i)) % 2 ^ 10 := by
  rw [← BitVec.toNat_inj, encodeShare_getD_toNat p a hi, encodeShare_getD_toNat p b hi]

/-- The first three symbols are the digits of the header without its last symbol. -/
theorem encodeShare_take_three (p : Params) (sh : Share) :
    (encodeShare p sh).take 3 = toBigEndian 10 ((shareHeader sh).toNat / 2 ^ 10) 3 := by
  have hlast : encodeShare p sh = toBigEndian 10 ((shareHeader sh).toNat / 2 ^ 10) 3 ++
      (BitVec.ofNat 10 (shareHeader sh).toNat ::
        (pack sh.value ++ checksum p (headerSymbols (shareHeader sh) ++ pack sh.value))) := by
    rw [encodeShare_eq, headerSymbols_eq_toBigEndian, toBigEndian, List.append_assoc, List.singleton_append]
  rw [hlast]
  exact List.take_left' (toBigEndian_length ..)

/-- Settles O33: of the fields above bit 10 of the header only the group index may differ, and it stands in symbol 2; the
member index stands in symbol 3. -/
theorem groupFingerprint : Obligations.GroupFingerprint := by
  intro p a b hid he hgt hgc
  have ha := shareHeader_toNat a
  have hb := shareHeader_toNat b
  rw [hid, he, hgt, hgc] at ha
  refine ⟨fun hgi => ?_, mt fun heq => ?_, fun hmt => mt fun heq => ?_⟩
  · have habove : (shareHeader a).toNat / 2 ^ 10 = (shareHeader b).toNat / 2 ^ 10 := by
      rw [hgi] at ha
      omega
    rw [encodeShare_take_three, encodeShare_take_three, habove]
  · rw [encodeShare_getD_eq_iff p a b (by decide)] at heq
    exact BitVec.eq_of_toNat_eq (by omega)
  · rw [encodeShare_getD_eq_iff p a b (by decide)] at heq
    rw [hmt] at ha
    exact BitVec.eq_of_toNat_eq (by omega)

/-! ### One replaced symbol changes the residue (R171) -/

/-- The low symbols of the generators are linearly independent over GF(2). -/
theorem foldGenerators_low_eq_zero : ∀ b : BitVec 10,
    (foldGenerators b 0 checksumGenerators 0).extractLsb' 0 10 = 0 → b = 0 := by decide +kernel

theorem polymodStep_zero_left (v : Sym) : polymodStep 0#30 v = v.setWidth 30 :=
  (foldGenerators_zero 0 checksumGenerators _).trans (by simp)

/-- A turn with the symbol 0 puts the generators of the top symbol over the other two, which move up. -/
theorem polymodStep_zero_right (u : BitVec 30) : polymodStep u 0 =
    foldGenerators (u.extractLsb' 20 10) 0 checksumGenerators 0 ^^^ ((u.extractLsb' 0 20).setWidth 30 <<< 10) := by
  have hsplit := foldGenerators_xor (u.extractLsb' 20 10) 0 0 checksumGenerators 0
    ((u.extractLsb' 0 20).setWidth 30 <<< 10)
  rw [foldGenerators_zero] at hsplit
  simpa [polymodStep] using hsplit

/-- Only the residue 0 becomes 0 in a turn with the symbol 0. -/
theorem eq_zero_of_polymodStep_zero {u : BitVec 30} (h : polymodStep u 0 = 0) : u = 0 := by
  rw [polymodStep_zero_right] at h
  replace h := BitVec.xor_eq_zero_iff.1 h
  have htop : u.extractLsb' 20 10 = 0 := by
    apply foldGenerators_low_eq_zero
    rw [h]
    ext i hi
    simp [hi]
  rw [htop, foldGenerators_zero] at h
  refine BitVec.eq_of_getLsbD_eq fun i hi => ?_
  by_cases hlow : i < 20
  · have hbit := congrArg (·.getLsbD (i + 10)) h
    simpa [hlow, show i + 10 < 30 by omega] using hbit.symm
  · have hbit := congrArg (·.getLsbD (i - 20)) htop
    simpa [show i - 20 < 10 by omega, show 20 + (i - 20) = i by omega] using hbit

theorem polymodStep_residue_injective (x : Sym) : Function.Injective (polymodStep · x) := by
  intro u v h
  have hsum : polymodStep (u ^^^ v) (x ^^^ x) = 0 := by
    rw [polymodStep_xor]
    exact BitVec.xor_eq_zero_iff.2 h
  rw [BitVec.xor_self] at hsum
  exact BitVec.xor_eq_zero_iff.1 (eq_zero_of_polymodStep_zero hsum)

theorem polymodStep_symbol_injective (u : BitVec 30) : Function.Injective (polymodStep u) := by
  intro x y h
  have hsum : polymodStep (u ^^^ u) (x ^^^ y) = 0 := by
    rw [polymodStep_xor]
    exact BitVec.xor_eq_zero_iff.2 h
  rw [BitVec.xor_self, polymodStep_zero_left] at hsum
  refine BitVec.xor_eq_zero_iff.1 (BitVec.eq_of_toNat_eq ?_)
  simpa using congrArg (BitVec.toNat <| BitVec.setWidth 10 ·) hsum

/-- What follows cannot bring two residues together again. -/
theorem foldl_polymodStep_injective (s : List Sym) : Function.Injective (s.foldl polymodStep) := by
  induction s with
  | nil => exact fun _ _ h => h
  | cons x rest ih => exact ih.comp (polymodStep_residue_injective x)

theorem polymod_set_ne (c : List Sym) {s : List Sym} {j : Nat} {w : Sym} (hj : j < s.length) (hw : w ≠ s.getD j 0) :
    polymod (c ++ s.set j w) ≠ polymod (c ++ s) := by
  have hset : c ++ s.set j w = (c ++ s.take j) ++ w :: s.drop (j + 1) := by
    rw [List.set_eq_take_append_cons_drop, if_pos hj, List.append_assoc]
  have hself : c ++ s = (c ++ s.take j) ++ s.getD j 0 :: s.drop (j + 1) := by
    rw [List.getD_eq_getElem _ _ hj, List.getElem_cons_drop, List.append_assoc, List.take_append_drop]
  rw [hset, hself, polymod, polymod, List.foldl_append (l' := _ :: _), List.foldl_append (l' := _ :: _)]
  exact fun h => hw (polymodStep_symbol_injective _ (foldl_polymodStep_injective _ h))

/-- A string with the residue 1 has another residue after one symbol is replaced. -/
theorem checksumHolds_set_of_ne {p : Params} {s : List Sym} {j : Nat} {w : Sym} (h : checksumHolds p s = true)
    (hj : j < s.length) (hw : w ≠ s.getD j 0) : checksumHolds p (s.set j w) = false := by
  rw [checksumHolds, beq_iff_eq] at h
  rw [checksumHolds_eq_false_iff, ← h]
  exact polymod_set_ne _ hj hw

theorem checksumHolds_encodeShare (p : Params) (sh : Share) : checksumHolds p (encodeShare p sh) = true := by
  rw [checksumHolds, encodeShare, ← List.append_assoc, polymod_checksum, beq_self_eq_true]

/-! ### Decoding (R265) -/

/-- The bytes of a value of `V` symbols: the largest even count they hold. -/
def valueBytes (V : Nat) : Nat := (10 * V - paddingBits V) / 8

/-- The checks of R265 in their order, the last of them on the fields of the header number. -/
theorem decodeSymbols_eq (p : Params) (sy : List Sym) : decodeSymbols p sy =
    let V := sy.length - 7
    let L := valueBytes V
    let v := bigEndian ((sy.drop 4).take V)
    let hdr := bigEndian (sy.take 4)
    if sy.length < 7 + symbolsFor p.minSecret then .error ⟨.invalidWordCount, BitVec.ofNat 32 sy.length⟩
    else if 8 < paddingBits V then .error ⟨.invalidWordCount, BitVec.ofNat 32 sy.length⟩
    else if p.lMax < L then .error ⟨.resourceLimit, BitVec.ofNat 32 sy.length⟩
    else if polymod (customSymbols p ++ sy) ≠ 1 then .error ⟨.invalidChecksum, 0⟩
    else if 2 ^ (8 * L) ≤ v then .error ⟨.invalidPadding, 0⟩
    else if hdr / 2 ^ 8 % 16 < hdr / 2 ^ 12 % 16 ∨ hdr / 2 ^ 8 % 16 < hdr / 2 ^ 16 % 16 then
      .error ⟨.invalidShareFields, 0⟩
    else .ok (shareFromHeader (BitVec.ofNat 40 hdr) (toBigEndian 8 v L)) := by
  simp only [decodeSymbols, raiseIf_bind, checksumHolds_eq_false_iff]
  refine if_congr Iff.rfl rfl <| if_congr Iff.rfl rfl <| if_congr Iff.rfl rfl <| if_congr Iff.rfl rfl <|
    if_congr Iff.rfl rfl <| if_congr ?_ rfl rfl
  simp only [shareFromHeader_ofNat, BitVec.toNat_ofNat]
  omega

/-- A text of words is looked up to its symbols, and only they are left to decode. -/
theorem decodeShare_wordsText (p : Params) (sy : List Sym) :
    decodeShare p (wordsText p sy) = decodeSymbols p sy >>= fun sh => .ok (sh, sy) := by
  rw [decodeShare, wordsText_eq_textOf, tokens_textOf, lookupAll_map_wordOf, except_ok_bind]
  rfl

section RoundTrip

variable {p : Params} {L : Nat}

/-- The padding of an even number of bytes is what their bits leave of the symbols, less than one symbol. -/
theorem paddingBits_symbolsFor (heven : L % 2 = 0) :
    8 * L + paddingBits (symbolsFor L) = 10 * symbolsFor L ∧ paddingBits (symbolsFor L) ≤ 8 := by
  obtain ⟨r, hr⟩ : ∃ r, 10 * symbolsFor L = 16 * (L / 2) + r :=
    Nat.exists_eq_add_of_le (by simp only [symbolsFor]; omega)
  have hlt : r < 10 := by
    simp only [symbolsFor] at hr
    omega
  rw [paddingBits, hr, Nat.mul_add_mod, Nat.mod_eq_of_lt (by omega)]
  omega

theorem valueBytes_symbolsFor (heven : L % 2 = 0) : valueBytes (symbolsFor L) = L := by
  obtain ⟨hsum, -⟩ := paddingBits_symbolsFor heven
  rw [valueBytes]
  omega

theorem symbolsFor_mono {M : Nat} (h : M ≤ L) : symbolsFor M ≤ symbolsFor L := by
  simp only [symbolsFor]
  omega

variable (heven : L % 2 = 0) (hmin : p.minSecret ≤ L) (hmax : L ≤ p.lMax) {sy : List Sym}
  (hlen : sy.length = 7 + symbolsFor L)
include heven hmin hmax hlen

/-- A string as long as the symbols of a legal share passes the checks of the lengths. -/
theorem decodeSymbols_of_length : decodeSymbols p sy =
    let v := bigEndian ((sy.drop 4).take (symbolsFor L))
    let hdr := bigEndian (sy.take 4)
    if polymod (customSymbols p ++ sy) ≠ 1 then .error ⟨.invalidChecksum, 0⟩
    else if 2 ^ (8 * L) ≤ v then .error ⟨.invalidPadding, 0⟩
    else if hdr / 2 ^ 8 % 16 < hdr / 2 ^ 12 % 16 ∨ hdr / 2 ^ 8 % 16 < hdr / 2 ^ 16 % 16 then
      .error ⟨.invalidShareFields, 0⟩
    else .ok (shareFromHeader (BitVec.ofNat 40 hdr) (toBigEndian 8 v L)) := by
  have hV : sy.length - 7 = symbolsFor L := by omega
  have hlong : ¬ sy.length < 7 + symbolsFor p.minSecret := by
    have := symbolsFor_mono hmin
    omega
  simp only [decodeSymbols_eq, hV, valueBytes_symbolsFor heven]
  rw [if_neg hlong, if_neg (Nat.not_lt.2 (paddingBits_symbolsFor heven).2), if_neg (Nat.not_lt.2 hmax)]

theorem decodeSymbols_of_residue_ne (h : checksumHolds p sy = false) :
    decodeSymbols p sy = .error ⟨.invalidChecksum, 0⟩ := by
  rw [decodeSymbols_of_length heven hmin hmax hlen]
  exact if_pos ((checksumHolds_eq_false_iff ..).1 h)

end RoundTrip

/-- The symbols of a legal share decode to the share. -/
theorem decodeSymbols_encodeShare {p : Params} {sh : Share} (hlegal : ShareFieldsLegal sh)
    (heven : sh.value.length % 2 = 0) (hmin : p.minSecret ≤ sh.value.length) (hmax : sh.value.length ≤ p.lMax) :
    decodeSymbols p (encodeShare p sh) = .ok sh := by
  have hheader : bigEndian ((encodeShare p sh).take 4) = headerNumber sh := by
    rw [encodeShare_eq, List.take_left' (headerSymbols_length _), bigEndian_headerSymbols,
      shareHeader_toNat_of_legal hlegal]
  obtain ⟨-, hpacked⟩ := packedAs_pack sh.value
  have hvalue : bigEndian (((encodeShare p sh).drop 4).take (symbolsFor sh.value.length)) = bigEndian sh.value := by
    rw [encodeShare_eq, List.drop_left' (headerSymbols_length _), List.take_left' (pack_length _), hpacked]
  have hresidue : polymod (customSymbols p ++ encodeShare p sh) = 1 := beq_iff_eq.1 (checksumHolds_encodeShare p sh)
  have hfields : ¬ (headerNumber sh / 2 ^ 8 % 16 < headerNumber sh / 2 ^ 12 % 16 ∨
      headerNumber sh / 2 ^ 8 % 16 < headerNumber sh / 2 ^ 16 % 16) := by
    obtain ⟨hgi, hgt, hgc⟩ := headerNumber_groupFields hlegal
    obtain ⟨-, -, -, -, -, -, hgtgc, higc⟩ := hlegal
    omega
  simp only [decodeSymbols_of_length heven hmin hmax (encodeShare_length p sh), hheader, hvalue]
  rw [if_neg (not_not.2 hresidue), if_neg (Nat.not_le.2 (bigEndian_lt sh.value)), if_neg hfields,
    toBigEndian_bigEndian, shareFromHeader_headerNumber hlegal]

/-- Settles O32: the text's tokens are the words of the symbols, which decode to the share; a replaced symbol leaves the
length as it was and changes the residue. -/
theorem shareTextRoundTrip : Obligations.ShareTextRoundTrip := by
  refine fun p sh _ hlegal heven hmin hmax => ⟨?_, fun j w hj hw => ?_⟩
  · rw [decodeShare_wordsText, decodeSymbols_encodeShare hlegal heven hmin hmax, except_ok_bind]
  · have hlength : ((encodeShare p sh).set j w).length = 7 + symbolsFor sh.value.length := by
      rw [List.length_set, encodeShare_length]
    rw [decodeShare_wordsText, decodeSymbols_of_residue_ne heven hmin hmax hlength
      (checksumHolds_set_of_ne (checksumHolds_encodeShare p sh) hj hw), except_error_bind]

/-! ### SHARE_ENCODE (R264) -/

theorem Arch.putSymbols_zero (a : Arch) (sy : List Sym) : a.putSymbols 0 sy =
    { a with
      csr := { a.csr with lenSym := BitVec.ofNat 7 sy.length }
      mem := { a.mem with sym := Cells.writeList a.mem.sym 0 sy } } := by
  rw [Arch.putSymbols, Nat.zero_add]

theorem shareChecks_of_illegal {p : Params} {sh : Share} (h : ¬ ShareFieldsLegal sh) :
    shareChecks p sh = .error ⟨.inputValidation, 0⟩ :=
  (raiseIf_bind ..).trans (if_pos h)

theorem shareChecks_of_legal (p : Params) {sh : Share} (h : ShareFieldsLegal sh) :
    shareChecks p sh = if sh.value.length % 2 = 1 ∨ sh.value.length < p.minSecret
      then .error ⟨.invalidSecretLength, BitVec.ofNat 32 sh.value.length⟩ else .ok () :=
  (raiseIf_bind ..).trans (if_neg (not_not.2 h))

theorem exec_shareEncode (s : State) :
    exec .shareEncode s = s.finish (shareChecks s.params s.operands.shareOperand >>= fun _ =>
      if s.params.tMax < (wordsText s.params (encodeShare s.params s.operands.shareOperand)).length
      then .error ⟨.resourceLimit, 0⟩
      else .ok ((s.arch.putSymbols 0 (encodeShare s.params s.operands.shareOperand)).putText
        (wordsText s.params (encodeShare s.params s.operands.shareOperand)))) := by
  rw [wordsText_eq_textOf]
  exact congrArg (fun f => s.finish (shareChecks s.params s.operands.shareOperand >>= f))
    (funext fun _ => raiseIf_bind ..)

/-- Settles O30: past the checks of the fields and the length the symbols and their text are stored if the text fits. -/
theorem shareEncodeWritesTheMnemonic : Obligations.ShareEncodeWritesTheMnemonic := by
  refine ⟨rfl, fun s => ⟨fun hillegal => ?_, fun hlegal hlength => ?_, fun hlegal heven hmin =>
    ⟨_, shareSymbols_encodeShare _ hlegal, fun hlong => ?_, fun hfits =>
      ⟨_, _, ?_, storedAt_writeList _ _ _, storedAt_writeList _ _ _⟩⟩⟩⟩
  · rw [exec_shareEncode, shareChecks_of_illegal hillegal]; rfl
  · rw [exec_shareEncode, shareChecks_of_legal _ hlegal, if_pos hlength]; rfl
  · rw [exec_shareEncode, shareChecks_of_legal _ hlegal, if_neg (by omega), except_ok_bind, if_pos hlong]; rfl
  · rw [exec_shareEncode, shareChecks_of_legal _ hlegal, if_neg (by omega), except_ok_bind,
      if_neg (Nat.not_lt.2 hfits), Arch.putSymbols_zero]
    exact State.finish_eq_succeeded rfl rfl

/-! ### SHARE_DECODE (R266) -/

/-- Where a token is no word, the lookup's error is the command's. -/
theorem exec_shareDecode_of_unknownAt {s : State} {j : Nat} (h : UnknownAt s.params (tokens s.operands.textBytes) j) :
    exec .shareDecode s = .next (s.failed 0x10 (BitVec.ofNat 32 j)) := by
  have hlookup := lookupAll_of_unknownAt h 0
  rw [Nat.zero_add] at hlookup
  exact congrArg (fun r => s.finish (r >>= _ >>= _)) hlookup

/-- Where the tokens are the words of symbols, these are decoded and the share and they are stored. -/
theorem exec_shareDecode_of_words {s : State} {sy : List Sym}
    (h : sy.map (wordOf s.params) = tokens s.operands.textBytes) :
    exec .shareDecode s = s.finish (decodeSymbols s.params sy >>= fun sh =>
      .ok (((s.arch.putShareFields sh).putResultBytes sh.value).putSymbols 0 sy)) := by
  have hdecode : decodeShare s.params s.operands.textBytes = decodeSymbols s.params sy >>= fun sh => .ok (sh, sy) := by
    rw [decodeShare, ← h, lookupAll_map_wordOf, except_ok_bind]
    rfl
  change s.finish (decodeShare s.params s.operands.textBytes >>= _) = _
  rw [hdecode]
  cases decodeSymbols s.params sy <;> rfl

/-- A check at the head of a computation reports its error, or the computation goes on. -/
theorem State.finish_check {s : State} {o : Host.Outcome State Fault Refusal} {α : Type} {c : Prop} [Decidable c]
    {e : Raised} {r : Except Raised α} {f : α → Except Raised Arch} {goesOn : Prop}
    (h : o = s.finish ((if c then .error e else r) >>= f)) (hrest : o = s.finish (r >>= f) → ¬ c → goesOn) :
    if c then o = .next (s.failed e.error.code e.info) else goesOn := by
  by_cases hc : c
  · rw [if_pos hc] at h ⊢
    exact h
  · rw [if_neg hc] at h ⊢
    exact hrest h hc

/-- The share's fields, its value of `L` bytes and its symbols are stored, and nothing else changes. -/
theorem State.finish_putShare (s : State) {sh : Share} {L : Nat} (hL : sh.value.length = L) (sy : List Sym) :
    s.finish (.ok (((s.arch.putShareFields sh).putResultBytes sh.value).putSymbols 0 sy)) = .next (s.succeeded
      { s.arch.csr with
        shId := sh.identifier
        shExp := sh.iterationExponent
        shGi := sh.groupIndex
        shGt := sh.groupThreshold
        shGc := sh.groupCount
        shMi := sh.memberIndex
        shMt := sh.memberThreshold
        lenResult := BitVec.ofNat 7 L
        lenSym := BitVec.ofNat 7 sy.length }
      { s.arch.mem with
        result := Cells.writeList s.arch.mem.result 0 sh.value
        sym := Cells.writeList s.arch.mem.sym 0 sy } s.arch.ses) := by
  subst hL
  rw [Arch.putSymbols_zero]
  exact State.finish_eq_succeeded rfl rfl

/-- Settles O31: the lookup reports the first unknown token, or finds the symbols, whose checks are those of
`decodeSymbols_eq`; past them the header number gives the fields. -/
theorem shareDecodeReadsTheMnemonic : Obligations.ShareDecodeReadsTheMnemonic := by
  refine ⟨rfl, fun s => ⟨fun j => exec_shareDecode_of_unknownAt, fun sy hsy => ?_⟩⟩
  rw [symbolsOf_iff] at hsy
  have hexec := exec_shareDecode_of_words hsy
  rw [decodeSymbols_eq] at hexec
  simp only [← hsy, List.length_map]
  refine State.finish_check hexec fun hexec _ => State.finish_check hexec fun hexec _ =>
    State.finish_check hexec fun hexec _ => State.finish_check hexec fun hexec _ =>
    State.finish_check hexec fun hexec hpadding => State.finish_check hexec fun hexec _ => ?_
  rw [except_ok_bind, shareFromHeader_ofNat] at hexec
  refine ⟨_, _, _, hexec.trans (State.finish_putShare s (toBigEndian_length ..) sy), storedAt_writeList _ _ _,
    toBigEndian_length .., ?_, storedAt_writeList _ _ _⟩
  rw [bigEndian_toBigEndian]
  exact Nat.mod_eq_of_lt (Nat.not_le.1 hpadding)

end Sys2Proof.Machine

/-! PROOFS. The selection of COMBINE: the members of a group, the complete groups, and the fragments taken of a complete
group (R285, R286, R311). -/

namespace Sys2Proof.Machine

/-! ### The members of a group (R285, R311) -/

theorem mem_groupOf {shs : List Share} {g : Nat} {sh : Share} :
    sh ∈ groupOf shs g ↔ sh ∈ shs ∧ sh.groupIndex.toNat = g := by
  simp [groupOf]

theorem mem_memberIndices {grp : List Share} {i : Nat} :
    i ∈ memberIndices grp ↔ ∃ sh ∈ grp, sh.memberIndex.toNat = i := by
  have hlt (sh : Share) : sh.memberIndex.toNat < memberCapacity := sh.memberIndex.isLt
  simp only [memberIndices, List.mem_filter, List.mem_range, List.any_eq_true, beq_iff_eq]
  exact ⟨And.right, fun ⟨sh, hsh, hi⟩ => ⟨hi ▸ hlt sh, sh, hsh, hi⟩⟩

theorem memberIndices_pairwise_lt (grp : List Share) : (memberIndices grp).Pairwise (· < ·) :=
  List.pairwise_lt_range.filter _

/-- The ascending list of the member indices is as long as that of the indices without repetitions. -/
theorem memberIndices_length (grp : List Share) :
    (memberIndices grp).length = (grp.map (·.memberIndex)).dedup.length := by
  have hinj : Function.Injective (BitVec.toNat (w := 4)) := fun _ _ => BitVec.eq_of_toNat_eq
  have hperm : (memberIndices grp).Perm ((grp.map (·.memberIndex)).dedup.map BitVec.toNat) := by
    refine (List.perm_ext_iff_of_nodup (memberIndices_pairwise_lt grp).nodup
      ((List.nodup_dedup _).map hinj)).2 fun i => ?_
    simp [mem_memberIndices]
  rw [hperm.length_eq, List.length_map]

theorem membersOf_eq (shs : List Share) (g : Nat) : membersOf shs g = (memberIndices (groupOf shs g)).length :=
  (memberIndices_length _).symm

/-! ### The complete groups (R285, R311) -/

theorem groupComplete_iff {shs : List Share} (h : ThresholdsAgree shs) (g : Nat) :
    groupComplete shs g = true ↔ CompleteGroup shs g := by
  simp only [groupComplete, CompleteGroup, membersOf_eq, Bool.and_eq_true, Bool.not_eq_true',
    List.isEmpty_eq_false_iff_exists_mem, decide_eq_true_eq, mem_groupOf]
  constructor
  · rintro ⟨⟨sh, hsh, rfl⟩, henough⟩
    exact ⟨sh, hsh, rfl, memberThresholdOf_groupOf h hsh ▸ henough⟩
  · rintro ⟨sh, hsh, rfl, henough⟩
    exact ⟨⟨sh, hsh, rfl⟩, memberThresholdOf_groupOf h hsh ▸ henough⟩

theorem mem_completeGroups {shs : List Share} (h : ThresholdsAgree shs) (g : Nat) :
    g ∈ completeGroups shs ↔ CompleteGroup shs g := by
  rw [completeGroups, List.mem_filter, List.mem_range, groupComplete_iff h]
  refine and_iff_right_of_imp fun ⟨sh, _, hg, _⟩ => hg ▸ sh.groupIndex.isLt

theorem completeGroups_pairwise_lt (shs : List Share) : (completeGroups shs).Pairwise (· < ·) :=
  List.pairwise_lt_range.filter _

/-! ### The fragments taken of a group (R285, R286) -/

/-- The fragment a share carries: its member index and its value. -/
def Share.memberFragment (sh : Share) : Fragment := ⟨BitVec.ofNat 8 sh.memberIndex.toNat, sh.value⟩

@[simp] theorem Share.memberFragment_x_toNat (sh : Share) :
    (Share.memberFragment sh).x.toNat = sh.memberIndex.toNat := by
  rw [Share.memberFragment, BitVec.toNat_ofNat]
  exact Nat.mod_eq_of_lt (by have := sh.memberIndex.isLt; omega)

/-- The fragments have the lowest member indices, as many as the threshold asks, as their x-coordinates. -/
theorem memberFragments_map_x (grp : List Share) :
    (memberFragments grp).map (·.x.toNat) = (memberIndices grp).take (memberThresholdOf grp) := by
  rw [memberFragments, List.map_map]
  refine (List.map_congr_left fun i hi => ?_).trans (List.map_id _)
  obtain ⟨sh, -, rfl⟩ := mem_memberIndices.1 (List.mem_of_mem_take hi)
  exact Share.memberFragment_x_toNat sh

/-- Each of them is the fragment of a share of the group. -/
theorem exists_share_of_mem_memberFragments {grp : List Share} {f : Fragment} (hf : f ∈ memberFragments grp) :
    ∃ sh ∈ grp, f = Share.memberFragment sh := by
  obtain ⟨i, hi, rfl⟩ := List.mem_map.1 hf
  obtain ⟨sh, hsh, rfl⟩ := mem_memberIndices.1 (List.mem_of_mem_take hi)
  obtain ⟨first, hfirst⟩ : ∃ a, grp.find? (fun a => a.memberIndex.toNat == sh.memberIndex.toNat) = some a :=
    Option.isSome_iff_exists.1 (List.find?_isSome.2 ⟨sh, hsh, beq_self_eq_true _⟩)
  have hindex : first.memberIndex = sh.memberIndex := BitVec.eq_of_toNat_eq (by simpa using List.find?_some hfirst)
  refine ⟨first, List.mem_of_find?_eq_some hfirst, ?_⟩
  rw [hfirst, Share.memberFragment, hindex]
  rfl

theorem memberFragments_pairwise_lt (grp : List Share) :
    (memberFragments grp).Pairwise fun a b => a.x.toNat < b.x.toNat := by
  rw [← List.pairwise_map (f := fun f : Fragment => f.x.toNat) (R := (· < ·)), memberFragments_map_x]
  exact (memberIndices_pairwise_lt grp).sublist (List.take_sublist ..)

/-- A complete group has enough members for its threshold. -/
theorem memberFragments_length {shs : List Share} (h : ThresholdsAgree shs) {g : Nat} (hg : CompleteGroup shs g) :
    (memberFragments (groupOf shs g)).length = memberThresholdOf (groupOf shs g) := by
  obtain ⟨sh, hsh, rfl, henough⟩ := hg
  rw [membersOf_eq, ← memberThresholdOf_groupOf h hsh] at henough
  rw [memberFragments, List.length_map, List.length_take, min_eq_left henough]

/-- A member whose index is not taken has a greater one than all that are. -/
theorem lt_memberIndex_of_not_taken {grp : List Share} {sh : Share} (hsh : sh ∈ grp)
    (hnot : ∀ f ∈ memberFragments grp, sh.memberIndex.toNat ≠ f.x.toNat) :
    ∀ f ∈ memberFragments grp, f.x.toNat < sh.memberIndex.toNat := by
  have htaken {f} (hf : f ∈ memberFragments grp) : f.x.toNat ∈ (memberIndices grp).take (memberThresholdOf grp) :=
    memberFragments_map_x grp ▸ List.mem_map_of_mem hf
  have hleft : sh.memberIndex.toNat ∈ (memberIndices grp).drop (memberThresholdOf grp) := by
    have hmem := mem_memberIndices.2 ⟨sh, hsh, rfl⟩
    rw [← List.take_append_drop (memberThresholdOf grp) (memberIndices grp), List.mem_append,
      ← memberFragments_map_x, List.mem_map] at hmem
    exact hmem.resolve_left fun ⟨f, hf, heq⟩ => hnot f hf heq.symm
  have hascending := memberIndices_pairwise_lt grp
  rw [← List.take_append_drop (memberThresholdOf grp) (memberIndices grp), List.pairwise_append] at hascending
  obtain ⟨-, -, hbelow⟩ := hascending
  exact fun f hf => hbelow _ (htaken hf) _ hleft

/-- Settles O36: the indices are filtered from an ascending range, and where no two shares clash, the share found for an
index is the only one. -/
theorem selectionIsLowestFirst : Obligations.SelectionIsLowestFirst := by
  intro shs hagree hclash
  refine ⟨completeGroups_pairwise_lt shs, mem_completeGroups hagree, fun g hg => ?_⟩
  have hlength := memberFragments_length hagree hg
  refine ⟨hlength.symm, ?_, memberFragments_pairwise_lt _, fun f hf => ?_, fun sh hsh hgroup =>
    ⟨fun f hf hindex => ?_, lt_memberIndex_of_not_taken (mem_groupOf.2 ⟨hsh, hgroup⟩)⟩⟩
  · rintro sh hsh rfl
    exact (memberThresholdOf_groupOf hagree hsh).symm.trans hlength.symm
  · obtain ⟨sh, hsh, rfl⟩ := exists_share_of_mem_memberFragments hf
    obtain ⟨hsh, hgroup⟩ := mem_groupOf.1 hsh
    exact ⟨sh, hsh, hgroup, (Share.memberFragment_x_toNat sh).symm⟩
  · obtain ⟨other, hother, rfl⟩ := exists_share_of_mem_memberFragments hf
    obtain ⟨hother, hgroup'⟩ := mem_groupOf.1 hother
    rw [Share.memberFragment_x_toNat] at hindex
    rw [hclash sh hsh other hother (BitVec.eq_of_toNat_eq (hgroup.trans hgroup'.symm)) (BitVec.eq_of_toNat_eq hindex)]
    rfl

end Sys2Proof.Machine

/-! PROOFS. COMBINE: the searches of its checks, what it answers once they pass, and the command (R285 to R288,
R295). -/

namespace Sys2Proof.Machine

/-! ### Searches -/

/-- An index within the list and a property of the element there, in one. -/
theorem lt_and_getD_iff {α : Type} {l : List α} {i : Nat} {d : α} {P : α → Prop} :
    i < l.length ∧ P (l.getD i d) ↔ ∃ a, l[i]? = some a ∧ P a := by
  constructor
  · rintro ⟨hi, h⟩
    rw [List.getD_eq_getElem _ _ hi] at h
    exact ⟨_, List.getElem?_eq_getElem hi, h⟩
  · rintro ⟨a, ha, h⟩
    obtain ⟨hi, rfl⟩ := List.getElem?_eq_some_iff.1 ha
    exact ⟨hi, by rwa [List.getD_eq_getElem _ _ hi]⟩

/-- The search finds the first element that is bad. -/
theorem findIdx?_of_firstAt {α : Type} {l : List α} {bad : α → Bool} {P : α → Prop}
    (hP : ∀ a, bad a = true ↔ P a) {m : Nat} (h : FirstAt (fun i => ∃ a, l[i]? = some a ∧ P a) m) :
    l.findIdx? bad = some m := by
  obtain ⟨⟨a, ha, hbad⟩, hfirst⟩ := h
  obtain ⟨hm, rfl⟩ := List.getElem?_eq_some_iff.1 ha
  exact List.findIdx?_eq_some_iff_getElem.2 ⟨hm, (hP _).2 hbad, fun i hi hb =>
    hfirst i hi ⟨_, List.getElem?_eq_getElem (hi.trans hm), (hP _).1 hb⟩⟩

/-- No two of the elements are bad together. -/
def Compatible {α : Type} (bad : α → α → Bool) (l : List α) : Prop := ∀ a ∈ l, ∀ b ∈ l, bad a b = false

section Conflicts

variable {α : Type} {bad : α → α → Bool}

theorem any_bad_iff {seen : List α} {a : α} :
    (seen.any fun b => bad b a) = true ↔ ¬ ∀ b ∈ seen, bad b a = false := by
  simp

/-- Among elements that are all compatible the search finds no conflict. -/
theorem firstConflict_of_compatible {l seen : List α} (start : Nat) (h : Compatible bad (seen ++ l)) :
    firstConflict bad seen start l = none := by
  induction l generalizing seen start with
  | nil => rfl
  | cons a rest ih =>
    have hclear : ∀ b ∈ seen, bad b a = false := fun b hb => h b (List.mem_append_left _ hb) a (by simp)
    rw [firstConflict, if_neg (by rwa [any_bad_iff, not_not])]
    exact ih (start + 1) (by rwa [List.append_assoc, List.singleton_append])

variable (hirrefl : ∀ a, bad a a = false) (hsymm : ∀ a b, bad a b = bad b a)
include hirrefl hsymm

theorem Compatible.append_singleton {l : List α} (h : Compatible bad l) {a : α} (ha : ∀ b ∈ l, bad b a = false) :
    Compatible bad (l ++ [a]) := by
  intro x hx y hy
  rw [List.mem_append, List.mem_singleton] at hx hy
  obtain hx | rfl := hx <;> obtain hy | rfl := hy
  · exact h x hx y hy
  · exact ha x hx
  · exact (hsymm _ _).trans (ha y hy)
  · exact hirrefl _

/-- The search finds the first element that is not compatible with those before it. -/
theorem firstConflict_of_firstAt {l seen : List α} (start : Nat) (hseen : Compatible bad seen) {m : Nat}
    (h : FirstAt (fun i => ∃ a, l[i]? = some a ∧ ¬ Compatible bad (seen ++ l.take i ++ [a])) m) :
    firstConflict bad seen start l = some (start + m) := by
  induction l generalizing seen start m with
  | nil =>
    obtain ⟨⟨b, hb, -⟩, -⟩ := h
    cases hb
  | cons a rest ih =>
    obtain ⟨⟨b, hb, hbad⟩, hfirst⟩ := h
    cases m with
    | zero =>
      obtain rfl : a = b := by simpa using hb
      have hconflict : (seen.any fun b => bad b a) = true := by
        by_contra hclear
        rw [any_bad_iff, not_not] at hclear
        exact hbad (by simpa using hseen.append_singleton hirrefl hsymm hclear)
      rw [firstConflict, if_pos hconflict]
      rfl
    | succ m =>
      have hhead : Compatible bad (seen ++ [a]) := by
        by_contra hn
        exact hfirst 0 m.succ_pos ⟨a, rfl, by simpa using hn⟩
      have hclear : ∀ b ∈ seen, bad b a = false := fun b hb => hhead b (List.mem_append_left _ hb) a (by simp)
      have hrest : FirstAt (fun i => ∃ c, rest[i]? = some c ∧ ¬ Compatible bad (seen ++ [a] ++ rest.take i ++ [c])) m :=
        ⟨⟨b, by simpa using hb, by simpa using hbad⟩, fun i hi ⟨c, hc, hcbad⟩ =>
          hfirst (i + 1) (Nat.succ_lt_succ hi) ⟨c, hc, by simpa using hcbad⟩⟩
      rw [firstConflict, if_neg (by rwa [any_bad_iff, not_not]), ih (start + 1) hhead hrest, Nat.add_assoc,
        Nat.add_comm 1]

end Conflicts

/-! ### The checks of the shares (R285, R288, R290) -/

theorem thresholdsDiffer_eq_true_iff (a b : Share) : thresholdsDiffer a b = true ↔
    a.groupIndex = b.groupIndex ∧ a.memberThreshold ≠ b.memberThreshold := by
  simp [thresholdsDiffer]

theorem indicesClash_eq_true_iff (a b : Share) : indicesClash a b = true ↔
    (a.groupIndex = b.groupIndex ∧ a.memberIndex = b.memberIndex) ∧ a ≠ b := by
  simp [indicesClash]

theorem thresholdsDiffer_self (a : Share) : thresholdsDiffer a a = false := by simp [thresholdsDiffer]

theorem indicesClash_self (a : Share) : indicesClash a a = false := by simp [indicesClash]

theorem thresholdsDiffer_comm (a b : Share) : thresholdsDiffer a b = thresholdsDiffer b a := by
  rw [Bool.eq_iff_iff, thresholdsDiffer_eq_true_iff, thresholdsDiffer_eq_true_iff, eq_comm, ne_comm]

theorem indicesClash_comm (a b : Share) : indicesClash a b = indicesClash b a := by
  rw [Bool.eq_iff_iff, indicesClash_eq_true_iff, indicesClash_eq_true_iff, eq_comm, @eq_comm _ a.memberIndex, ne_comm]

theorem thresholdsAgree_iff (shs : List Share) : ThresholdsAgree shs ↔ Compatible thresholdsDiffer shs := by
  simp only [ThresholdsAgree, Compatible, ← Bool.not_eq_true, thresholdsDiffer_eq_true_iff, not_and, not_not]

theorem noClash_iff (shs : List Share) : NoClash shs ↔ Compatible indicesClash shs := by
  simp only [NoClash, Compatible, ← Bool.not_eq_true, indicesClash_eq_true_iff, not_and, not_not, and_imp]

/-! ### Decoding the mnemonics (R285, R287) -/

/-- The first mnemonic that does not decode is the one reported. -/
theorem decodeAll_of_first_error {p : Params} {ts : List ByteString} {m : Nat} {e : Raised} (k : Nat)
    (hm : m < ts.length) (he : decodeShare p (ts.getD m []) = .error e)
    (hbefore : ∀ i, i < m → ∃ r, decodeShare p (ts.getD i []) = .ok r) :
    decodeAll p k ts = .error ⟨e.error, (BitVec.ofNat 32 (k + m) <<< 16) ||| e.info⟩ := by
  induction ts generalizing m k with
  | nil => exact absurd hm (Nat.not_lt_zero m)
  | cons t rest ih =>
    cases m with
    | zero =>
      rw [List.getD_cons_zero] at he
      rw [decodeAll, he, atMnemonic_error, except_error_bind]
      rfl
    | succ m =>
      obtain ⟨r, hr⟩ := hbefore 0 m.succ_pos
      rw [List.getD_cons_zero] at hr
      rw [decodeAll, hr, atMnemonic_ok, except_ok_bind, ih (k + 1) (Nat.lt_of_succ_lt_succ hm) he
        fun i hi => hbefore (i + 1) (Nat.succ_lt_succ hi), except_error_bind, Nat.add_assoc, Nat.add_comm 1]

/-! ### The group fragments (R285) -/

@[simp] theorem digestMismatchAs_ok {α : Type} (d : Nat) (a : α) : digestMismatchAs d (.ok a) = .ok a := rfl

@[simp] theorem digestMismatchAs_mismatch (α : Type) (d : Nat) (w : Word) :
    digestMismatchAs (α := α) d (.error ⟨.digestMismatch, w⟩) = .error ⟨.digestMismatch, BitVec.ofNat 32 d⟩ := rfl

/-- The recombination of group `g`: its chosen fragments at its threshold. -/
def recombineGroup (P : Ports) (T : FieldTables) (shs : List Share) (g : Nat) : Except Raised ByteString :=
  recombine P T (memberThresholdOf (groupOf shs g)) (memberFragments (groupOf shs g))

section Groups

variable {P : Ports} {T : FieldTables} {shs : List Share}

theorem groupFragments_cons (g : Nat) (gs : List Nat) : groupFragments P T shs (g :: gs) =
    digestMismatchAs g (recombineGroup P T shs g) >>= fun y =>
      groupFragments P T shs gs >>= fun rest => .ok (⟨BitVec.ofNat 8 g, y⟩ :: rest) := rfl

/-- Where every group recombines, the group fragments are the values, at the groups' indices. -/
theorem groupFragments_of_ok {gs : List Nat} {y : Nat → ByteString}
    (h : ∀ g ∈ gs, recombineGroup P T shs g = .ok (y g)) :
    groupFragments P T shs gs = .ok (gs.map fun g => ⟨BitVec.ofNat 8 g, y g⟩) := by
  induction gs with
  | nil => rfl
  | cons g gs ih =>
    obtain ⟨hg, hgs⟩ := List.forall_mem_cons.1 h
    rw [groupFragments_cons, hg, digestMismatchAs_ok, except_ok_bind, ih hgs]
    rfl

/-- The first group whose digest is wrong is the one reported. -/
theorem groupFragments_of_mismatch {before after : List Nat} {g : Nat}
    (hbefore : ∀ h ∈ before, ∃ y, recombineGroup P T shs h = .ok y)
    (hg : recombineGroup P T shs g = .error ⟨.digestMismatch, 0⟩) :
    groupFragments P T shs (before ++ g :: after) = .error ⟨.digestMismatch, BitVec.ofNat 32 g⟩ := by
  induction before with
  | nil => rw [List.nil_append, groupFragments_cons, hg, digestMismatchAs_mismatch, except_error_bind]
  | cons h before ih =>
    obtain ⟨⟨y, hy⟩, hrest⟩ := List.forall_mem_cons.1 hbefore
    rw [List.cons_append, groupFragments_cons, hy, digestMismatchAs_ok, except_ok_bind, ih hrest, except_error_bind]

end Groups

/-! ### Combination of decoded shares (R285) -/

section Shares

variable {P : Ports} {T : FieldTables} {p : Params} {sh0 : Share} {shs : List Share} {pass : ByteString}

theorem combineShares_of_other_params {m : Nat}
    (hm : FirstAt (fun m => ∃ sh, shs[m]? = some sh ∧ commonParams sh ≠ commonParams sh0) m) :
    combineShares P T p sh0 shs pass = .error ⟨.mnemonicSetMismatch, BitVec.ofNat 32 (m * 65536 + 1)⟩ := by
  rw [combineShares, findIdx?_of_firstAt (fun _ => bne_iff_ne) hm, raiseAt_some_bind, Nat.shiftLeft_eq]

variable (hparams : SameParams (commonParams sh0) shs)
include hparams

theorem findIdx?_of_sameParams : (shs.findIdx? fun sh => commonParams sh != commonParams sh0) = none :=
  List.findIdx?_eq_none_iff.2 fun sh hsh => by simp [hparams sh hsh]

theorem combineShares_of_other_threshold {m : Nat}
    (hm : FirstAt (fun m => ∃ sh, shs[m]? = some sh ∧ ¬ ThresholdsAgree (shs.take m ++ [sh])) m) :
    combineShares P T p sh0 shs pass = .error ⟨.mnemonicSetMismatch, BitVec.ofNat 32 (m * 65536 + 2)⟩ := by
  simp only [thresholdsAgree_iff] at hm
  have hconflict := firstConflict_of_firstAt thresholdsDiffer_self thresholdsDiffer_comm 0 (seen := []) nofun hm
  rw [combineShares, findIdx?_of_sameParams hparams, raiseAt_none_bind, hconflict, raiseAt_some_bind, Nat.shiftLeft_eq,
    Nat.zero_add]

variable (hagree : ThresholdsAgree shs)
include hagree

theorem combineShares_of_clash {m : Nat}
    (hm : FirstAt (fun m => ∃ sh, shs[m]? = some sh ∧ ¬ NoClash (shs.take m ++ [sh])) m) :
    combineShares P T p sh0 shs pass = .error ⟨.duplicateIndex, BitVec.ofNat 32 (m * 65536)⟩ := by
  simp only [noClash_iff] at hm
  have hconflict := firstConflict_of_firstAt indicesClash_self indicesClash_comm 0 (seen := []) nofun hm
  rw [combineShares, findIdx?_of_sameParams hparams, raiseAt_none_bind,
    firstConflict_of_compatible 0 ((thresholdsAgree_iff shs).1 hagree), raiseAt_none_bind, hconflict, raiseAt_some_bind,
    Nat.shiftLeft_eq, Nat.zero_add]

/-- Past the checks of the shares, the complete groups decide. -/
theorem combineShares_of_agreeing (hclash : NoClash shs) : combineShares P T p sh0 shs pass =
    if (completeGroups shs).length < sh0.groupThreshold.toNat
    then .error ⟨.notEnoughGroups, BitVec.ofNat 32 (completeGroups shs).length⟩
    else groupFragments P T shs ((completeGroups shs).take sh0.groupThreshold.toNat) >>= fun GF =>
      digestMismatchAs 0x100 (recombine P T sh0.groupThreshold.toNat GF) >>= fun ems =>
        .ok (decrypt P p ems pass sh0.iterationExponent sh0.identifier) := by
  rw [combineShares, findIdx?_of_sameParams hparams, raiseAt_none_bind,
    firstConflict_of_compatible 0 ((thresholdsAgree_iff shs).1 hagree), raiseAt_none_bind,
    firstConflict_of_compatible 0 ((noClash_iff shs).1 hclash), raiseAt_none_bind, raiseIf_bind]
  rfl

end Shares

/-! ### The checks of the mnemonics (R285, R287) -/

section Mnemonics

variable (P : Ports) (T : FieldTables) {p : Params} {texts : List ByteString} {pass : ByteString}

theorem combine_of_passRefused (texts : List ByteString) {j : Nat} (hj : PassRefusedAt p pass j) :
    combine P T p texts pass = .error ⟨.invalidPassphraseEncoding, BitVec.ofNat 32 j⟩ := by
  rw [combine, checkPass_of_refused hj, except_error_bind]

variable (hpass : PassAccepted p pass)
include hpass

theorem combine_nil : combine P T p [] pass = .error ⟨.notEnoughGroups, 0⟩ := by
  rw [combine, checkPass_of_accepted hpass, except_ok_bind, raiseIf_bind]
  rfl

theorem combine_of_first_error {m : Nat} {e : Raised} (hm : m < texts.length)
    (he : decodeShare p (texts.getD m []) = .error e)
    (hbefore : ∀ i, i < m → ∃ r, decodeShare p (texts.getD i []) = .ok r) :
    combine P T p texts pass = .error ⟨e.error, (BitVec.ofNat 32 m <<< 16) ||| e.info⟩ := by
  rw [combine, checkPass_of_accepted hpass, except_ok_bind, raiseIf_bind, if_neg (by omega),
    decodeAll_of_first_error 0 hm he hbefore, except_error_bind, Nat.zero_add]

/-- Once the passphrase is accepted and the mnemonics are decoded, only their shares are left to combine. -/
theorem combine_of_decoded {sh0 : Share} {rest : List Share}
    (h : List.Forall₂ (fun t sh => ∃ sy, decodeShare p t = .ok (sh, sy)) texts (sh0 :: rest)) :
    combine P T p texts pass = combineShares P T p sh0 (sh0 :: rest) pass := by
  have hcount : ¬ texts.length = 0 := by rw [h.length_eq]; exact Nat.succ_ne_zero _
  rw [combine, checkPass_of_accepted hpass, except_ok_bind, raiseIf_bind, if_neg hcount, decodeAll_of_decodes h]
  rfl

end Mnemonics

/-! ### COMBINE (R295) -/

section Command

variable {s : State}

theorem exec_combine_of_error {e : Raised} (h : combine Config.ports s.operands.tables s.params s.operands.mnemonics
    s.operands.passBytes = .error e) : exec .combine s = .next (s.failed e.error.code e.info) :=
  congrArg (fun r => s.finish (r >>= fun y => .ok (s.arch.putResultBytes y))) h

theorem exec_combine_of_ok {y : ByteString} (h : combine Config.ports s.operands.tables s.params s.operands.mnemonics
    s.operands.passBytes = .ok y) : exec .combine s =
    .next (s.succeeded { s.arch.csr with lenResult := BitVec.ofNat 7 y.length }
      { s.arch.mem with result := Cells.writeList s.arch.mem.result 0 y } s.arch.ses) :=
  (congrArg (fun r => s.finish (r >>= fun y => .ok (s.arch.putResultBytes y))) h).trans
    (State.finish_putResultBytes s y)

end Command

/-- Settles O35: the checks in their order, each with the search it makes; past them the group fragments decide. -/
theorem combineRecoversOrReports : Obligations.CombineRecoversOrReports := by
  refine ⟨rfl, fun s => ⟨fun j hj => exec_combine_of_error (combine_of_passRefused _ _ _ hj), fun hpass =>
    ⟨fun hnil => exec_combine_of_error (hnil ▸ combine_nil _ _ hpass), fun m e hm he hbefore =>
    exec_combine_of_error (combine_of_first_error _ _ hpass hm he hbefore), fun sh0 rest hdecoded => ?_⟩⟩⟩
  have hcombine := combine_of_decoded Config.ports s.operands.tables hpass hdecoded
  refine ⟨fun m hm => exec_combine_of_error (hcombine.trans (combineShares_of_other_params hm)), fun hparams =>
    ⟨fun m hm => exec_combine_of_error (hcombine.trans (combineShares_of_other_threshold hparams hm)), fun hagree =>
    ⟨fun m hm => exec_combine_of_error (hcombine.trans (combineShares_of_clash hparams hagree hm)), fun hclash => ?_⟩⟩⟩
  replace hcombine := hcombine.trans (combineShares_of_agreeing hparams hagree hclash)
  refine ⟨fun hfew => exec_combine_of_error (hcombine.trans (if_pos hfew)), fun henough => ?_⟩
  rw [if_neg (Nat.not_lt.2 henough)] at hcombine
  refine ⟨fun before after g hsplit hbefore hmismatch => ?_, fun y hy => ?_⟩
  · rw [hsplit, groupFragments_of_mismatch hbefore hmismatch] at hcombine
    exact exec_combine_of_error hcombine
  rw [groupFragments_of_ok hy, except_ok_bind] at hcombine
  refine ⟨fun hmismatch => ?_, fun ems hems => ?_⟩
  · rw [hmismatch] at hcombine
    exact exec_combine_of_error hcombine
  · rw [hems] at hcombine
    exact ⟨_, _, rfl, exec_combine_of_ok hcombine, storedAt_writeList _ _ _⟩

end Sys2Proof.Machine

/-! PROOFS. GENERATE: the checks of a request, the shares of the two-level split group by group, their texts, and the
command (R280 to R284). -/

namespace Sys2Proof.Machine

/-! ### The checks of a request (R280) -/

theorem legalGroup_eq_true_iff (q : Nat × Nat) : legalGroup q = true ↔ GroupLegal q := legalGroup_iff q

section Validation

variable {p : Params} {gt : Nat} {groups : List (Nat × Nat)} {S pass : ByteString}

theorem genValidate_of_bad_counts (h : ¬(1 ≤ gt ∧ gt ≤ groups.length ∧ groups.length ≤ 16)) :
    genValidate p gt groups S pass = .error ⟨.inputValidation, 0x100⟩ :=
  (raiseIf_bind ..).trans (if_pos h)

variable (hcounts : 1 ≤ gt ∧ gt ≤ groups.length ∧ groups.length ≤ 16)
include hcounts

theorem genValidate_of_bad_group {g : Nat}
    (hg : FirstAt (fun g => g < groups.length ∧ ¬ GroupLegal (groups.getD g (0, 0))) g) :
    genValidate p gt groups S pass = .error ⟨.inputValidation, BitVec.ofNat 32 g⟩ := by
  simp only [lt_and_getD_iff (P := (¬ GroupLegal ·))] at hg
  have hfound := findIdx?_of_firstAt (bad := fun g => !legalGroup g)
    (fun q => by rw [Bool.not_eq_true', ← Bool.not_eq_true, legalGroup_eq_true_iff]) hg
  rw [genValidate, raiseIf_bind, groupCapacity, if_neg (not_not.2 hcounts), hfound, raiseAt_some_bind]
  rfl

variable (hgroups : ∀ q ∈ groups, GroupLegal q)
include hgroups

/-- Past the checks of the groups, the length and the passphrase decide. -/
theorem genValidate_of_groups : genValidate p gt groups S pass =
    if S.length % 2 = 1 ∨ S.length < p.minSecret ∨ p.lMax < S.length
    then .error ⟨.invalidSecretLength, BitVec.ofNat 32 S.length⟩ else checkPass p pass := by
  have hfound : (groups.findIdx? fun g => !legalGroup g) = none :=
    List.findIdx?_eq_none_iff.2 fun q hq => by rw [(legalGroup_eq_true_iff q).2 (hgroups q hq)]; rfl
  rw [genValidate, raiseIf_bind, groupCapacity, if_neg (not_not.2 hcounts), hfound, raiseAt_none_bind, raiseIf_bind]

end Validation

/-! ### Fragments of a split by their index (R214) -/

theorem split_getElem? (P : Ports) (T : FieldTables) (pos : Nat) {t n i : Nat} (s : ByteString) (hn : t ≤ n)
    (hi : i < n) : (split P T pos t n s)[i]? =
      some ⟨BitVec.ofNat 8 i, ((split P T pos t n s).map (·.y)).getD i []⟩ := by
  have hlength : i < (split P T pos t n s).length := by rwa [split_length P T pos t n s (.inr (by omega))]
  have hx : (split P T pos t n s)[i].x = BitVec.ofNat 8 i := by
    have hxs := congrArg (·[i]?) (split_map_x P T pos s hn)
    simpa [hlength, hi] using hxs
  rw [List.getElem?_eq_getElem hlength, List.getD_eq_getElem _ _ (by rwa [List.length_map]), List.getElem_map, ← hx]

/-- Element `i` of list `j` in the concatenation stands after the elements of the lists before. -/
theorem flatten_getElem?_sum {α : Type} {ls : List (List α)} {i j : Nat} {l : List α} (hl : ls[j]? = some l)
    (hi : i < l.length) : ls.flatten[((ls.map List.length).take j).sum + i]? = l[i]? := by
  obtain ⟨hj, rfl⟩ := List.getElem?_eq_some_iff.1 hl
  rw [← List.getElem?_drop, List.drop_sum_flatten, List.drop_eq_getElem_cons hj, List.flatten_cons,
    List.getElem?_append_left hi]

/-! ### A call of `Generate` (R281) -/

/-- The arguments of `Generate`, with the two ports, the tables and the parameters it uses. -/
structure GenerateCall where
  /-- The random port and the hash port. -/
  ports : Ports
  /-- The field tables. -/
  tables : FieldTables
  /-- The unit's parameters. -/
  params : Params
  /-- Where the random port stands. -/
  pos : Nat
  /-- The group threshold. -/
  gt : Nat
  /-- The groups' shapes: member threshold and member count. -/
  groups : List (Nat × Nat)
  /-- The master secret. -/
  secret : ByteString
  /-- The passphrase. -/
  pass : ByteString
  /-- The iteration exponent. -/
  iterExp : BitVec 5

namespace GenerateCall

variable (c : GenerateCall)

/-- The shares the call answers. -/
def shares : List Share :=
  (generateShares c.ports c.tables c.params c.pos c.gt c.groups c.secret c.pass c.iterExp).2

/-- The identifier it draws and answers (R282). -/
def ident : BitVec 15 := drawIdentifier c.ports c.pos

/-- The encrypted master secret. -/
def ems : ByteString := encrypt c.ports c.params c.secret c.pass c.iterExp c.ident

/-- The split over the groups. -/
def groupSplit : List Fragment := split c.ports c.tables (c.pos + 2) c.gt c.groups.length c.ems

/-- The shape of group `g`. -/
def shape (g : Nat) : Nat × Nat := c.groups.getD g (0, 0)

/-- The value of group `g`. -/
def groupValue (g : Nat) : ByteString := (c.groupSplit.map (·.y)).getD g []

/-- Where the random port stands before the member split of group `g`. -/
def memberPos (g : Nat) : Nat :=
  c.pos + 2 + splitDraws c.gt c.secret.length + ((c.groups.take g).map fun q => splitDraws q.1 c.secret.length).sum

/-- The split of the value of group `g` over its members. -/
def memberSplit (g : Nat) : List Fragment :=
  split c.ports c.tables (c.memberPos g) (c.shape g).1 (c.shape g).2 (c.groupValue g)

/-- The share of member fragment `f` of group `g`. -/
def share (g : Nat) (f : Fragment) : Share := memberShare c.ident c.iterExp c.gt c.groups.length g (c.shape g).1 f

/-- The share of the fragment at `i` has member index `i`. -/
theorem share_ofNat (g i : Nat) (y : ByteString) : c.share g ⟨BitVec.ofNat 8 i, y⟩ =
    { identifier := c.ident
      iterationExponent := c.iterExp
      groupIndex := BitVec.ofNat 4 g
      groupThreshold := BitVec.ofNat 5 c.gt
      groupCount := BitVec.ofNat 5 c.groups.length
      memberIndex := BitVec.ofNat 4 i
      memberThreshold := BitVec.ofNat 5 (c.shape g).1
      value := y } := by
  rw [share, memberShare, BitVec.setWidth_ofNat_of_le (by decide)]

theorem ident_eq : c.ident =
    BitVec.ofNat 15 ((c.ports.rng c.pos).toNat * 256 + (c.ports.rng (c.pos + 1)).toNat) := by
  simp [ident, drawIdentifier, rngDraw, List.range_succ, bigEndian]

/-- After the last group the port has given the bytes of the whole call. -/
theorem memberPos_length :
    c.memberPos c.groups.length = c.pos + generateDraws c.gt c.groups c.secret.length := by
  rw [memberPos, List.take_length, generateDraws]
  omega

/-- What GENERATE has checked before it calls (R280), and that a secret has at least 4 bytes (R11). -/
structure Legal : Prop where
  gt_pos : 1 ≤ c.gt
  gt_le : c.gt ≤ c.groups.length
  groups_le : c.groups.length ≤ 16
  groups_legal : ∀ q ∈ c.groups, GroupLegal q
  even : c.secret.length % 2 = 0
  four_le : 4 ≤ c.secret.length

section Legal

variable {c} (hc : c.Legal)
include hc

theorem Legal.shape {g : Nat} (hg : g < c.groups.length) : GroupLegal (c.shape g) := by
  rw [GenerateCall.shape, List.getD_eq_getElem _ _ hg]
  exact hc.groups_legal _ (List.getElem_mem hg)

theorem ems_length : c.ems.length = c.secret.length := feistel_length _ _ _ _ _ _ hc.even

theorem groupSplit_length : c.groupSplit.length = c.groups.length :=
  split_length _ _ _ _ _ _ (.inr ((Nat.sub_le ..).trans hc.gt_le))

theorem groupSplit_value_length {G : Fragment} (hG : G ∈ c.groupSplit) : G.y.length = c.secret.length :=
  (split_value_length (.inr (hc.four_le.trans_eq (ems_length hc).symm)) hG).trans (ems_length hc)

theorem groupSplit_getElem? {g : Nat} (hg : g < c.groups.length) :
    c.groupSplit[g]? = some ⟨BitVec.ofNat 8 g, c.groupValue g⟩ :=
  split_getElem? _ _ _ _ hc.gt_le hg

theorem groupValue_length {g : Nat} (hg : g < c.groups.length) : (c.groupValue g).length = c.secret.length :=
  groupSplit_value_length hc (List.mem_of_getElem? (groupSplit_getElem? hc hg))

theorem memberSplit_length {g : Nat} (hg : g < c.groups.length) : (c.memberSplit g).length = (c.shape g).2 := by
  obtain ⟨-, hle, -⟩ := hc.shape hg
  exact split_length _ _ _ _ _ _ (.inr ((Nat.sub_le ..).trans hle))

end Legal

end GenerateCall

/-! ### The shares, group by group (R281) -/

/-- The member splits follow one another: group `j` from the one at the head stands `j` further on, after the bytes
drawn for those before. -/
theorem splitMembers_eq_flatten (P : Ports) (T : FieldTables) (id : BitVec 15) (e : BitVec 5) (gt gc : Nat) {L : Nat}
    (shapes : List (Nat × Nat)) {Gs : List Fragment} (hcount : Gs.length = shapes.length)
    (hL : ∀ G ∈ Gs, G.y.length = L) (g pos : Nat) :
    splitMembers P T id e gt gc g pos shapes Gs = ((List.range shapes.length).map fun j =>
      (split P T (pos + ((shapes.take j).map fun q => splitDraws q.1 L).sum) (shapes.getD j (0, 0)).1
        (shapes.getD j (0, 0)).2 ((Gs.map (·.y)).getD j [])).map
          (memberShare id e gt gc (g + j) (shapes.getD j (0, 0)).1)).flatten := by
  induction shapes generalizing Gs g pos with
  | nil => rw [splitMembers] <;> simp
  | cons shape rest ih =>
    cases Gs with
    | nil => cases hcount
    | cons G Gs =>
      obtain ⟨hG, hGs⟩ := List.forall_mem_cons.1 hL
      rw [splitMembers, ih (Nat.succ.inj hcount) hGs, List.length_cons, List.range_succ_eq_map, List.map_cons,
        List.flatten_cons, List.map_map, hG]
      congr 2
      refine List.map_congr_left fun j _ => ?_
      simp only [Function.comp_apply, Nat.succ_eq_add_one, List.take_succ_cons, List.map_cons, List.sum_cons,
        List.getD_cons_succ, Nat.add_assoc, Nat.add_comm 1]

namespace GenerateCall

variable {c : GenerateCall} (hc : c.Legal)
include hc

theorem shares_eq_flatten :
    c.shares = ((List.range c.groups.length).map fun g => (c.memberSplit g).map (c.share g)).flatten := by
  have hmembers := splitMembers_eq_flatten c.ports c.tables c.ident c.iterExp c.gt c.groups.length c.groups
    (groupSplit_length hc) (fun _ => groupSplit_value_length hc) 0 (c.pos + 2 + splitDraws c.gt c.secret.length)
  simp only [Nat.zero_add] at hmembers
  change splitMembers _ _ _ _ _ _ 0 (c.pos + 2 + splitDraws c.gt c.ems.length) _ c.groupSplit = _
  rw [ems_length hc]
  exact hmembers

theorem map_length_memberSplits :
    ((List.range c.groups.length).map fun g => (c.memberSplit g).map (c.share g)).map List.length =
      c.groups.map (·.2) := by
  refine List.ext_getElem (by simp) fun g hg hg' => ?_
  have hlt : g < c.groups.length := by simpa using hg'
  simp [memberSplit_length hc hlt, shape, hlt]

theorem shares_length : c.shares.length = (c.groups.map (·.2)).sum := by
  rw [shares_eq_flatten hc, List.length_flatten, map_length_memberSplits hc]

/-- Share `i` of group `g` stands after the shares of the groups before, and carries fragment `i` of the group. -/
theorem shares_getElem? {g i : Nat} (hg : g < c.groups.length) (hi : i < (c.shape g).2) :
    c.shares[((c.groups.take g).map (·.2)).sum + i]? =
      some (c.share g ⟨BitVec.ofNat 8 i, ((c.memberSplit g).map (·.y)).getD i []⟩) := by
  obtain ⟨-, hle, -⟩ := hc.shape hg
  have hgroup : ((List.range c.groups.length).map fun g => (c.memberSplit g).map (c.share g))[g]? =
      some ((c.memberSplit g).map (c.share g)) := by simp [hg]
  have hat := flatten_getElem?_sum hgroup (i := i) (by rwa [List.length_map, memberSplit_length hc hg])
  rw [← shares_eq_flatten hc, map_length_memberSplits hc, ← List.map_take] at hat
  rw [hat, List.getElem?_map, memberSplit, split_getElem? _ _ _ _ hle hi, Option.map_some]

end GenerateCall

/-! ### The texts (R283) -/

theorem mnemonicTexts_of_fits {p : Params} {shs : List Share} (m : Nat)
    (h : ∀ t ∈ shs.map fun sh => wordsText p (encodeShare p sh), t.length ≤ p.tMax) :
    mnemonicTexts p m shs = .ok (shs.map fun sh => wordsText p (encodeShare p sh)) := by
  induction shs generalizing m with
  | nil => rfl
  | cons sh rest ih =>
    obtain ⟨hfits, hrest⟩ := List.forall_mem_cons.1 h
    rw [mnemonicTexts, ← wordsText_eq_textOf, raiseIf_bind, if_neg (Nat.not_lt.2 hfits), ih (m + 1) hrest]
    rfl

/-- The first text that does not fit is the one reported. -/
theorem mnemonicTexts_of_first_long {p : Params} {shs : List Share} (k : Nat) {m : Nat}
    (h : FirstAt (fun m => m < (shs.map fun sh => wordsText p (encodeShare p sh)).length ∧
      p.tMax < ((shs.map fun sh => wordsText p (encodeShare p sh)).getD m []).length) m) :
    mnemonicTexts p k shs = .error ⟨.resourceLimit, BitVec.ofNat 32 ((k + m) <<< 16)⟩ := by
  induction shs generalizing k m with
  | nil => exact absurd h.1.1 (Nat.not_lt_zero m)
  | cons sh rest ih =>
    obtain ⟨⟨hm, hlong⟩, hfirst⟩ := h
    rw [mnemonicTexts, ← wordsText_eq_textOf, raiseIf_bind]
    cases m with
    | zero => exact if_pos hlong
    | succ m =>
      have hhead : ¬ p.tMax < (wordsText p (encodeShare p sh)).length :=
        fun hlong => hfirst 0 m.succ_pos ⟨Nat.succ_pos _, hlong⟩
      rw [if_neg hhead, ih (k + 1) ⟨⟨Nat.lt_of_succ_lt_succ hm, hlong⟩, fun i hi ⟨hlt, hbad⟩ =>
        hfirst (i + 1) (Nat.succ_lt_succ hi) ⟨Nat.succ_lt_succ hlt, hbad⟩⟩, except_error_bind, Nat.add_assoc,
        Nat.add_comm 1]

/-! ### The stores (R283, R284) -/

theorem rowsStored_mnem {ts : List ByteString} (hts : ∀ t ∈ ts, t.length ≤ 4096) (m : Memory) :
    RowsStored m.mnem (putMnemonicsFrom 0 m ts).mnem 4096 ts := fun j k hk => by
  simp [putMnemonicsFrom_mnem ts hts 0 m j k hk]

theorem storedAt_mnemLen (ts : List ByteString) (m : Memory) :
    StoredAt m.mnemLen (putMnemonicsFrom 0 m ts).mnemLen 0 (ts.map fun t => BitVec.ofNat 13 t.length) := fun k => by
  rw [putMnemonicsFrom_mnemLen, List.length_map]
  refine ite_congr rfl (fun ⟨_, hk⟩ => ?_) fun _ => rfl
  have hlt : k - 0 < ts.length := by omega
  rw [List.getD_eq_getElem _ _ hlt, List.getD_eq_getElem _ _ (by rwa [List.length_map]), List.getElem_map]

/-- Stored mnemonics leave their number and the identifier in the registers, and fill MNEM and MNEM_LEN. -/
theorem State.finish_putMnemonics (s : State) (ts : List ByteString) (id : BitVec 15) :
    s.finish (.ok (s.arch.putMnemonics ts id)) =
      .next (s.succeeded { s.arch.csr with mnemCount := BitVec.ofNat 9 ts.length, ident := id }
        { s.arch.mem with
          mnem := (putMnemonicsFrom 0 s.arch.mem ts).mnem
          mnemLen := (putMnemonicsFrom 0 s.arch.mem ts).mnemLen } s.arch.ses) :=
  (State.finish_eq_succeeded (a := s.arch.putMnemonics ts id) rfl rfl).trans
    (congrArg (fun m => Host.Outcome.next (s.succeeded _ m s.arch.ses)) (putMnemonicsFrom_frame ts 0 s.arch.mem))

/-! ### GENERATE (R283) -/

/-- The call GENERATE makes. -/
def State.generateCall (s : State) : GenerateCall where
  ports := Config.ports
  tables := s.operands.tables
  params := s.params
  pos := s.draws
  gt := s.operands.csr.groupThreshold.toNat
  groups := s.operands.groupShapes
  secret := s.operands.secretBytes
  pass := s.operands.passBytes
  iterExp := s.operands.csr.iterExp

theorem State.generateCall_ident (s : State) : s.generateCall.ident =
    BitVec.ofNat 15 ((Config.rngByte s.draws).toNat * 256 + (Config.rngByte (s.draws + 1)).toNat) :=
  s.generateCall.ident_eq

section Command

variable {s : State}

theorem exec_generate_of_error {e : Raised} (h : genValidate s.params s.operands.csr.groupThreshold.toNat
    s.operands.groupShapes s.operands.secretBytes s.operands.passBytes = .error e) :
    exec .generate s = .next (s.failed e.error.code e.info) := by
  rw [exec, execGenerate]
  simp only [h]
  rfl

/-- Past the checks the texts of the call's shares are stored, and the random port stands after the bytes drawn. -/
theorem exec_generate_of_ok (h : genValidate s.params s.operands.csr.groupThreshold.toNat
    s.operands.groupShapes s.operands.secretBytes s.operands.passBytes = .ok ()) :
    exec .generate s = State.finish { s with draws := s.generateCall.memberPos s.operands.groupShapes.length }
      (mnemonicTexts s.params 0 s.generateCall.shares >>= fun ts =>
        .ok (s.arch.putMnemonics ts s.generateCall.ident)) := by
  rw [exec, execGenerate]
  simp only [h]
  exact congrArg (fun d => State.finish { s with draws := d } _) s.generateCall.memberPos_length.symm

end Command

/-- A mnemonic index in the upper half of ERRINFO. -/
theorem ofNat_shiftLeft_16 (m : Nat) : BitVec.ofNat 32 (m <<< 16) = BitVec.ofNat 32 m <<< 16 := by
  apply BitVec.eq_of_toNat_eq
  simp [Nat.shiftLeft_eq]

/-- Settles O34: the checks in their order; past them the shares stand group by group, and their texts are stored unless
one is too long. -/
theorem generateWritesTheMnemonics : Obligations.GenerateWritesTheMnemonics := by
  refine ⟨rfl, fun s htmax hmin => ?_⟩
  rw [← State.generateCall_ident]
  refine ⟨fun hbad => exec_generate_of_error (genValidate_of_bad_counts hbad), fun hcounts =>
    ⟨fun g hg => exec_generate_of_error (genValidate_of_bad_group hcounts hg), fun hgroups => ?_⟩⟩
  have hvalid := genValidate_of_groups (p := s.params) (S := s.operands.secretBytes) (pass := s.operands.passBytes)
    hcounts hgroups
  refine ⟨fun hlength => exec_generate_of_error (hvalid.trans (if_pos hlength)), fun heven hlong hmax => ?_⟩
  rw [if_neg (by omega)] at hvalid
  refine ⟨fun j hj => exec_generate_of_error (hvalid.trans (checkPass_of_refused hj)), fun hpass => ?_⟩
  have hexec := exec_generate_of_ok (hvalid.trans (checkPass_of_accepted hpass))
  obtain ⟨hgt, hgt_le, hgroups_le⟩ := hcounts
  have hc : s.generateCall.Legal := ⟨hgt, hgt_le, hgroups_le, hgroups, heven, hmin.trans hlong⟩
  refine ⟨s.generateCall.shares, GenerateCall.shares_length hc, fun g i hg hi => ?_, fun m hm => ?_, fun hfits =>
    ⟨_, _, ?_, rowsStored_mnem (fun t ht => (hfits t ht).trans htmax) _, storedAt_mnemLen _ _⟩⟩
  · exact (GenerateCall.shares_getElem? hc hg hi).trans (congrArg some (GenerateCall.share_ofNat ..))
  · rw [mnemonicTexts_of_first_long 0 hm, Nat.zero_add, ofNat_shiftLeft_16] at hexec
    exact hexec
  · rw [mnemonicTexts_of_fits 0 hfits, except_ok_bind] at hexec
    refine hexec.trans ((State.finish_putMnemonics _ _ _).trans ?_)
    rw [List.length_map]
    rfl

end Sys2Proof.Machine

/-! PROOFS. COMBINE recovers what GENERATE split: a generated share carries a fragment of its group's split, so every
complete group recombines to its value, and the values of enough groups to the encrypted secret (R281, R285, R296). -/

namespace Sys2Proof.Machine

/-! ### Recombination of chosen fragments (R216) -/

/-- Any `t` fragments of a split with threshold `t` recombine to the secret, with a threshold of 1 too. -/
theorem recombine_split {P : Ports} {pos t n : Nat} {s : ByteString} (ht : 1 ≤ t) (htn : t ≤ n) (hn : n ≤ 16)
    (hs : 4 ≤ s.length) {F : List Fragment} (hF : F ⊆ split P standardTables pos t n s)
    (hnodup : (F.map (·.x)).Nodup) (hcount : F.length = t) : recombine P standardTables t F = .ok s := by
  obtain rfl | ht2 : t = 1 ∨ 2 ≤ t := by omega
  · obtain ⟨f, rfl⟩ := List.length_eq_one_iff.1 hcount
    have hf := hF (List.mem_singleton_self f)
    rw [split_one] at hf
    obtain ⟨i, -, rfl⟩ := List.mem_map.1 hf
    exact recombine_one ..
  · exact recombine_of_selection ht2 (htn.trans hn) hs hF hnodup hcount

theorem nodup_map_x_of_pairwise_lt {F : List Fragment} (h : F.Pairwise fun a b => a.x.toNat < b.x.toNat) :
    (F.map (·.x)).Nodup :=
  List.pairwise_map.2 (h.imp fun hlt heq => absurd (congrArg BitVec.toNat heq) hlt.ne)

/-- The x-coordinates of a split of `n` fragments are below `n`. -/
theorem split_x_lt {P : Ports} {T : FieldTables} {pos t n : Nat} {s : ByteString} (htn : t ≤ n) {f : Fragment}
    (hf : f ∈ split P T pos t n s) : f.x.toNat < n := by
  have hx : f.x ∈ (split P T pos t n s).map (·.x) := List.mem_map_of_mem hf
  rw [split_map_x P T pos s htn] at hx
  obtain ⟨i, hi, hix⟩ := List.mem_map.1 hx
  rw [← hix, BitVec.toNat_ofNat]
  exact (Nat.mod_le ..).trans_lt (List.mem_range.1 hi)

theorem split_nodup_x (P : Ports) (T : FieldTables) (pos : Nat) {t n : Nat} (s : ByteString) (htn : t ≤ n)
    (hn : n ≤ 16) : ((split P T pos t n s).map (·.x)).Nodup := by
  rw [split_map_x P T pos s htn]
  exact nodup_map_ofNat List.nodup_range fun i hi => (List.mem_range.1 hi).trans_le (hn.trans (by decide))

/-! ### Groups with enough members (R285, R311) -/

/-- Members with distinct indices count in their group. -/
theorem length_le_membersOf {shs members : List Share} {g : Nat} (hsub : members ⊆ shs)
    (hnodup : (members.map (·.memberIndex)).Nodup) (hgroup : ∀ sh ∈ members, sh.groupIndex.toNat = g) :
    members.length ≤ membersOf shs g := by
  rw [← List.length_map (·.memberIndex), membersOf]
  refine (List.subperm_of_subset hnodup fun i hi => ?_).length_le
  obtain ⟨sh, hsh, rfl⟩ := List.mem_map.1 hi
  exact List.mem_dedup.2 (List.mem_map_of_mem (mem_groupOf.2 ⟨hsub hsh, hgroup sh hsh⟩))

namespace GenerateCall

/-! ### A generated share (R281) -/

section Shares

variable {c : GenerateCall} (hc : c.Legal)
include hc

theorem share_groupIndex {g : Nat} (hg : g < c.groups.length) (f : Fragment) :
    (c.share g f).groupIndex.toNat = g := by
  have hmax := hc.groups_le
  rw [share, memberShare, BitVec.toNat_ofNat]
  omega

/-- A share carries the fragment it was made of. -/
theorem memberFragment_share {g : Nat} (hg : g < c.groups.length) {f : Fragment} (hf : f ∈ c.memberSplit g) :
    Share.memberFragment (c.share g f) = f := by
  obtain ⟨-, hle, hmax, -⟩ := hc.shape hg
  have hlt := split_x_lt hle hf
  have hx : (Share.memberFragment (c.share g f)).x = f.x := by
    apply BitVec.eq_of_toNat_eq
    rw [Share.memberFragment_x_toNat, share, memberShare, BitVec.toNat_setWidth]
    omega
  obtain ⟨x, y⟩ := f
  exact congrArg (Fragment.mk · y) hx

theorem exists_of_mem_shares {sh : Share} (hsh : sh ∈ c.shares) :
    ∃ g < c.groups.length, ∃ f ∈ c.memberSplit g, c.share g f = sh := by
  rw [shares_eq_flatten hc, ← List.flatMap_def, List.mem_flatMap] at hsh
  obtain ⟨g, hg, hsh⟩ := hsh
  exact ⟨g, List.mem_range.1 hg, List.mem_map.1 hsh⟩

/-- A generated share is that of the fragment it carries, a fragment of its group's split. -/
theorem of_mem_shares {sh : Share} (hsh : sh ∈ c.shares) : sh.groupIndex.toNat < c.groups.length ∧
    Share.memberFragment sh ∈ c.memberSplit sh.groupIndex.toNat ∧
    c.share sh.groupIndex.toNat (Share.memberFragment sh) = sh := by
  obtain ⟨g, hg, f, hf, rfl⟩ := exists_of_mem_shares hc hsh
  rw [share_groupIndex hc hg, memberFragment_share hc hg hf]
  exact ⟨hg, hf, rfl⟩

theorem value_length_of_mem_shares {sh : Share} (hsh : sh ∈ c.shares) : sh.value.length = c.secret.length := by
  obtain ⟨hg, hf, -⟩ := of_mem_shares hc hsh
  have hvalue := groupValue_length hc hg
  exact (split_value_length (.inr (hc.four_le.trans_eq hvalue.symm)) hf).trans hvalue

/-- The thresholds and the count fit their fields. -/
theorem thresholds_of_mem_shares {sh : Share} (hsh : sh ∈ c.shares) : sh.groupThreshold.toNat = c.gt ∧
    sh.groupCount.toNat = c.groups.length ∧ sh.memberThreshold.toNat = (c.shape sh.groupIndex.toNat).1 := by
  obtain ⟨g, hg, f, -, rfl⟩ := exists_of_mem_shares hc hsh
  obtain ⟨-, hle, hmax, -⟩ := hc.shape hg
  have hgt := hc.gt_le
  have hgroups := hc.groups_le
  rw [share_groupIndex hc hg]
  simp only [share, memberShare, BitVec.toNat_ofNat]
  omega

theorem shareFieldsLegal_of_mem_shares {sh : Share} (hsh : sh ∈ c.shares) : ShareFieldsLegal sh := by
  obtain ⟨hg, -, -⟩ := of_mem_shares hc hsh
  obtain ⟨hpos, hle, hmax, -⟩ := hc.shape hg
  obtain ⟨hgt, hgc, hmt⟩ := thresholds_of_mem_shares hc hsh
  have hgt_pos := hc.gt_pos
  have hgt_le := hc.gt_le
  have hgroups := hc.groups_le
  rw [ShareFieldsLegal, hgt, hgc, hmt]
  omega

theorem ident_of_mem_shares {sh : Share} (hsh : sh ∈ c.shares) :
    sh.identifier = c.ident ∧ sh.iterationExponent = c.iterExp := by
  obtain ⟨g, -, f, -, rfl⟩ := exists_of_mem_shares hc hsh
  exact ⟨rfl, rfl⟩

theorem commonParams_of_mem_shares {sh : Share} (hsh : sh ∈ c.shares) : commonParams sh =
    ⟨c.ident, c.iterExp, BitVec.ofNat 5 c.gt, BitVec.ofNat 5 c.groups.length, c.secret.length⟩ := by
  rw [commonParams, value_length_of_mem_shares hc hsh]
  obtain ⟨g, -, f, -, rfl⟩ := exists_of_mem_shares hc hsh
  rfl

/-- The text of a generated share decodes to the share. -/
theorem decodes_of_mem_shares (hp : c.params.legal = true) (hmin : c.params.minSecret ≤ c.secret.length)
    (hmax : c.secret.length ≤ c.params.lMax) {sh : Share} (hsh : sh ∈ c.shares) :
    ∃ sy, decodeShare c.params (wordsText c.params (encodeShare c.params sh)) = .ok (sh, sy) := by
  have hlength := value_length_of_mem_shares hc hsh
  obtain ⟨hdecode, -⟩ := shareTextRoundTrip c.params sh hp (shareFieldsLegal_of_mem_shares hc hsh)
    (hlength ▸ hc.even) (hlength ▸ hmin) (hlength ▸ hmax)
  exact ⟨_, hdecode⟩

end Shares

/-! ### A selection of generated shares (R285, R296) -/

section Selection

variable {c : GenerateCall} (hc : c.Legal) {chosen : List Share} (hchosen : chosen ⊆ c.shares)
include hc hchosen

theorem sameParams_of_subset {sh0 : Share} (h0 : sh0 ∈ chosen) : SameParams (commonParams sh0) chosen := by
  intro sh hsh
  rw [commonParams_of_mem_shares hc (hchosen hsh), commonParams_of_mem_shares hc (hchosen h0)]

theorem thresholdsAgree_of_subset : ThresholdsAgree chosen := by
  intro a ha b hb hgroup
  obtain ⟨-, -, hmta⟩ := thresholds_of_mem_shares hc (hchosen ha)
  obtain ⟨-, -, hmtb⟩ := thresholds_of_mem_shares hc (hchosen hb)
  exact BitVec.eq_of_toNat_eq (by rw [hmta, hmtb, hgroup])

/-- Two shares of one group and one member index carry the same fragment: the indices of a split are distinct. -/
theorem noClash_of_subset : NoClash chosen := by
  intro a ha b hb hgroup hindex
  obtain ⟨hg, hfa, heqa⟩ := of_mem_shares hc (hchosen ha)
  obtain ⟨-, hfb, heqb⟩ := of_mem_shares hc (hchosen hb)
  obtain ⟨-, hle, hmax, -⟩ := hc.shape hg
  rw [← hgroup] at hfb heqb
  have hx : (Share.memberFragment a).x = (Share.memberFragment b).x :=
    congrArg (fun i : BitVec 4 => BitVec.ofNat 8 i.toNat) hindex
  rw [← heqa, ← heqb, List.inj_on_of_nodup_map (split_nodup_x _ _ _ _ hle hmax) hfa hfb hx]

/-- A complete group recombines to its value. -/
theorem recombineGroup_of_complete (ht : c.tables = standardTables) {g : Nat} (hg : CompleteGroup chosen g) :
    recombineGroup c.ports c.tables chosen g = .ok (c.groupValue g) := by
  obtain ⟨-, -, hselect⟩ := selectionIsLowestFirst chosen (thresholdsAgree_of_subset hc hchosen)
    (noClash_of_subset hc hchosen)
  obtain ⟨hthreshold, hmt, hascending, -, -⟩ := hselect g hg
  obtain ⟨sh, hsh, rfl, -⟩ := hg
  obtain ⟨hlt, -, -⟩ := of_mem_shares hc (hchosen hsh)
  obtain ⟨-, -, hshape⟩ := thresholds_of_mem_shares hc (hchosen hsh)
  have hcount := (hmt sh hsh rfl).symm.trans hshape
  obtain ⟨hpos, hle, hmax, -⟩ := hc.shape hlt
  have hsub : memberFragments (groupOf chosen sh.groupIndex.toNat) ⊆ c.memberSplit sh.groupIndex.toNat := fun f hf => by
    obtain ⟨other, hother, rfl⟩ := exists_share_of_mem_memberFragments hf
    obtain ⟨hother, hgroup⟩ := mem_groupOf.1 hother
    obtain ⟨-, hmem, -⟩ := of_mem_shares hc (hchosen hother)
    rwa [hgroup] at hmem
  rw [recombineGroup, hthreshold, hcount, ht]
  rw [memberSplit, ht] at hsub
  exact recombine_split hpos hle hmax (hc.four_le.trans_eq (groupValue_length hc hlt).symm) hsub
    (nodup_map_x_of_pairwise_lt hascending) hcount

/-- The values of as many groups as the threshold recombine to the encrypted secret. -/
theorem recombine_groupValues (ht : c.tables = standardTables) {gs : List Nat} (hgs : ∀ g ∈ gs, CompleteGroup chosen g)
    (hnodup : gs.Nodup) (hcount : gs.length = c.gt) :
    recombine c.ports c.tables c.gt (gs.map fun g => ⟨BitVec.ofNat 8 g, c.groupValue g⟩) = .ok c.ems := by
  have hlt : ∀ g ∈ gs, g < c.groups.length := fun g hg => by
    obtain ⟨sh, hsh, rfl, -⟩ := hgs g hg
    exact (of_mem_shares hc (hchosen hsh)).1
  have hsub : gs.map (fun g => ⟨BitVec.ofNat 8 g, c.groupValue g⟩) ⊆ c.groupSplit :=
    List.forall_mem_map.2 fun g hg => List.mem_of_getElem? (groupSplit_getElem? hc (hlt g hg))
  rw [groupSplit, ht] at hsub
  rw [ht]
  refine recombine_split hc.gt_pos hc.gt_le hc.groups_le (hc.four_le.trans_eq (ems_length hc).symm) hsub ?_
    ((List.length_map _).trans hcount)
  rw [List.map_map]
  exact nodup_map_ofNat hnodup fun g hg => (hlt g hg).trans_le (hc.groups_le.trans (by decide))

/-- A group with enough of its members chosen is complete. -/
theorem completeGroup_of_members {g : Nat} (hg : g < c.groups.length) {members : List Share} (hsub : members ⊆ chosen)
    (hnodup : (members.map (·.memberIndex)).Nodup) (hgroup : ∀ sh ∈ members, sh.groupIndex.toNat = g)
    (henough : (c.shape g).1 ≤ members.length) : CompleteGroup chosen g := by
  obtain ⟨hpos, -⟩ := hc.shape hg
  obtain ⟨sh, hsh⟩ := List.exists_mem_of_length_pos (hpos.trans henough)
  obtain ⟨-, -, hmt⟩ := thresholds_of_mem_shares hc (hchosen (hsub hsh))
  rw [hgroup sh hsh] at hmt
  exact ⟨sh, hsub hsh, hgroup sh hsh, hmt ▸ henough.trans (length_le_membersOf hsub hnodup hgroup)⟩

/-- Where as many groups as the threshold are complete, the secret is recovered. -/
theorem combine_of_complete (ht : c.tables = standardTables) (hp : c.params.legal = true)
    (hmin : c.params.minSecret ≤ c.secret.length) (hmax : c.secret.length ≤ c.params.lMax)
    (hpass : PassAccepted c.params c.pass) {gs : List Nat} (hnodup : gs.Nodup) (hcount : c.gt ≤ gs.length)
    (hgs : ∀ g ∈ gs, CompleteGroup chosen g) :
    combine c.ports c.tables c.params (chosen.map fun sh => wordsText c.params (encodeShare c.params sh)) c.pass =
      .ok c.secret := by
  have hagree := thresholdsAgree_of_subset hc hchosen
  have henough : c.gt ≤ (completeGroups chosen).length := hcount.trans (List.subperm_of_subset hnodup fun g hg =>
    (mem_completeGroups hagree g).2 (hgs g hg)).length_le
  have hcomplete : ∀ g ∈ (completeGroups chosen).take c.gt, CompleteGroup chosen g := fun g hg =>
    (mem_completeGroups hagree g).1 (List.mem_of_mem_take hg)
  obtain ⟨g, hg⟩ := List.exists_mem_of_length_pos (hc.gt_pos.trans hcount)
  obtain ⟨member, hmember, -⟩ := hgs g hg
  obtain ⟨sh0, rest, rfl⟩ := List.exists_cons_of_ne_nil (List.ne_nil_of_mem hmember)
  have h0 := List.mem_cons_self (a := sh0) (l := rest)
  have hdecoded : List.Forall₂ (fun t sh => ∃ sy, decodeShare c.params t = .ok (sh, sy))
      ((sh0 :: rest).map fun sh => wordsText c.params (encodeShare c.params sh)) (sh0 :: rest) :=
    List.forall₂_map_left_iff.2 (List.forall₂_same.2 fun sh hsh => decodes_of_mem_shares hc hp hmin hmax (hchosen hsh))
  obtain ⟨hgt, -, -⟩ := thresholds_of_mem_shares hc (hchosen h0)
  obtain ⟨hident, hexp⟩ := ident_of_mem_shares hc (hchosen h0)
  rw [combine_of_decoded _ _ hpass hdecoded,
    combineShares_of_agreeing (sameParams_of_subset hc hchosen h0) hagree (noClash_of_subset hc hchosen), hgt,
    if_neg (Nat.not_lt.2 henough),
    groupFragments_of_ok fun g hg => recombineGroup_of_complete hc hchosen ht (hcomplete g hg), except_ok_bind,
    recombine_groupValues hc hchosen ht hcomplete ((completeGroups_pairwise_lt _).nodup.sublist (List.take_sublist ..))
      (by rw [List.length_take, min_eq_left henough]),
    digestMismatchAs_ok, except_ok_bind, hident, hexp]
  exact congrArg _ (decryptInvertsEncrypt c.ports c.params c.secret c.pass c.iterExp c.ident hc.even).1

end Selection

end GenerateCall

/-- Settles O37: the chosen shares decode to themselves and pass the checks, every complete group recombines to its
value, and the values of the first of them to the encrypted secret. -/
theorem generateThenCombineRecovers : Obligations.GenerateThenCombineRecovers := by
  intro P p pos gt groups secret pass e hp hgt hle hmax hgroups heven hmin hlmax hpass shs text chosen hchosen
    ⟨gs, hnodup, hcount, hgs⟩
  have hmin4 : 4 ≤ p.minSecret := by
    simp only [Params.legal, Bool.and_eq_true, decide_eq_true_eq] at hp
    omega
  have hc : GenerateCall.Legal ⟨P, standardTables, p, pos, gt, groups, secret, pass, e⟩ :=
    ⟨hgt, hle, hmax, hgroups, heven, hmin4.trans hmin⟩
  refine GenerateCall.combine_of_complete hc hchosen rfl hp hmin hlmax hpass hnodup hcount fun g hg => ?_
  obtain ⟨hlt, members, hsub, hindices, hgroup, henough⟩ := hgs g hg
  exact GenerateCall.completeGroup_of_members hc hchosen hlt hsub hindices hgroup henough

end Sys2Proof.Machine

/-! PROOFS. Every step keeps the canonical form of every buffer: the stores of the commands and of the host are writes, and
a write keeps it. -/

namespace Sys2Proof.Machine

/-! ### Commands -/

/-- A completion leaves canonical buffers where the outputs, if the command computed any, have them. -/
theorem State.finish_mem_wf {s t : State} {r : Except Raised Arch} (hs : s.arch.mem.wf = true)
    (hr : Answers r fun a => a.mem.wf = true) (h : s.finish r = .next t) : t.arch.mem.wf = true := by
  rcases State.finish_cases h with ⟨a, ha, rfl⟩ | ⟨e, -, rfl⟩
  · exact hr a ha
  · exact hs

theorem State.finishDrawn_mem_wf {s t : State} {pos : Nat} {r : Except Raised Arch} (hs : s.arch.mem.wf = true)
    (hr : Answers r fun a => a.mem.wf = true) (h : s.finishDrawn pos r = .next t) : t.arch.mem.wf = true :=
  State.finish_mem_wf (s := { s with draws := pos }) hs hr h

/-- CSR RESULT and the session are no buffers. -/
theorem Arch.putResult_wf {a : Arch} (h : a.mem.wf = true) (v : Word) : (a.putResult v).mem.wf = true := h

theorem Arch.putSession_wf {a : Arch} (h : a.mem.wf = true) (x : Session) : (a.putSession x).mem.wf = true := h

theorem execShSplit_mem_wf {s t : State} (hs : s.arch.mem.wf = true) (h : execShSplit s = .next t) :
    t.arch.mem.wf = true := by
  simp only [execShSplit] at h
  split at h
  · exact State.finish_mem_wf hs (.error _) h
  · exact State.finishDrawn_mem_wf hs (.ok (Arch.putFragments_wf hs _ _)) h

theorem execGenerate_mem_wf {s t : State} (hs : s.arch.mem.wf = true) (h : execGenerate s = .next t) :
    t.arch.mem.wf = true := by
  simp only [execGenerate] at h
  split at h
  · exact State.finish_mem_wf hs (.error _) h
  · exact State.finishDrawn_mem_wf hs (.bind fun _ => .ok (Arch.putMnemonics_wf hs _ _)) h

/-- Every command leaves canonical buffers: it writes none, or writes through the stores of R105, or zeroes them all. -/
theorem exec_mem_wf {i : Instr} {s t : State} (hs : s.arch.mem.wf = true) (h : exec i s = .next t) :
    t.arch.mem.wf = true := by
  cases i with
  | nop => exact State.finish_mem_wf hs (.ok hs) h
  | gfAdd | gfMul | sesStatus | sesIsComplete | sesGroupComplete =>
    exact State.finish_mem_wf hs (.ok (Arch.putResult_wf hs _)) h
  | gfDiv | gfInv | chkVerify => exact State.finish_mem_wf hs (.bind fun _ => .ok (Arch.putResult_wf hs _)) h
  | sesReset => exact State.finish_mem_wf hs (.ok (Arch.putSession_wf hs _)) h
  | sesAccept => exact State.finish_mem_wf hs (.bind fun _ => .ok (Arch.putResult_wf (Arch.putSession_wf hs _) _)) h
  | wcPack => exact State.finish_mem_wf hs (.ok (Arch.putSymbols_wf hs _ _)) h
  | chkCreate => exact State.finish_mem_wf hs (.bind fun _ => .ok (Arch.putSymbols_wf hs _ _)) h
  | wcFromWords => exact State.finish_mem_wf hs (.bind fun _ => .bind fun _ => .ok (Arch.putSymbols_wf hs _ _)) h
  | wcToWords => exact State.finish_mem_wf hs (.bind fun _ => .ok (Arch.putText_wf hs _)) h
  | shRecombine | combine => exact State.finish_mem_wf hs (.bind fun _ => .ok (Arch.putResultBytes_wf hs _)) h
  | wcUnpack | shInterpolate | fcEncrypt | fcDecrypt =>
    exact State.finish_mem_wf hs (.bind fun _ => .bind fun _ => .ok (Arch.putResultBytes_wf hs _)) h
  | sesCombine =>
    exact State.finish_mem_wf hs
      (.bind fun _ => .bind fun _ => .ok (Arch.putSession_wf (Arch.putResultBytes_wf hs _) _)) h
  | shSplit => exact execShSplit_mem_wf hs h
  | shareEncode =>
    exact State.finish_mem_wf hs
      (.bind fun _ => .bind fun _ => .ok (Arch.putText_wf (Arch.putSymbols_wf hs _ _) _)) h
  | shareDecode =>
    have hfields (sh : Share) : (s.arch.putShareFields sh).mem.wf = true := hs
    exact State.finish_mem_wf hs
      (.bind fun _ => .ok (Arch.putSymbols_wf (Arch.putResultBytes_wf (hfields _) _) _ _)) h
  | generate => exact execGenerate_mem_wf hs h
  | clear => exact State.finish_mem_wf hs (.ok Memory.zero_wf) h

/-! ### Steps -/

theorem State.store_mem_wf {s : State} (hs : s.arch.mem.wf = true) (addr v : Word) :
    (s.store addr v).arch.mem.wf = true := by
  unfold State.store
  split_ifs
  · exact hs
  · exact Memory.write_wf _ hs _ _ _
  · exact hs

/-- With nothing pending, only the unit's own buffers count. -/
theorem State.memoryCanonical_of_not_pending {s : State} (hp : s.pending = none) (h : s.arch.mem.wf = true) :
    s.memoryCanonical :=
  ⟨h, by simp [hp]⟩

theorem State.Move.memoryCanonical {s t : State} (m : s.Move t) (hs : s.memoryCanonical) : t.memoryCanonical := by
  obtain ⟨hunit, hsnapshot⟩ := hs
  cases m with
  | quiet | read | overrun | finishReset => exact ⟨hunit, hsnapshot⟩
  | accept w =>
    refine ⟨hunit, fun p hp => ?_⟩
    cases hp
    exact hunit
  | store addr v idle =>
    exact State.memoryCanonical_of_not_pending ((s.store_pending addr v).trans idle.2) (State.store_mem_wf hunit addr v)
  | reset => exact State.memoryCanonical_of_not_pending rfl Memory.zero_wf
  | complete _ _ _ hexec =>
    exact State.memoryCanonical_of_not_pending (exec_completedBy hexec).pending (exec_mem_wf hunit hexec)
  | illegal => exact State.memoryCanonical_of_not_pending rfl hunit

/-- Settles O47: a move changes buffers only by a command's stores, by a host's store or by clearing them. -/
theorem stepsKeepMemoryCanonical : Obligations.StepsKeepMemoryCanonical := by
  intro s t hs h
  obtain ⟨rest, m⟩ := step_move h
  exact m.memoryCanonical hs

end Sys2Proof.Machine

/-! PROOFS. Every step answers, an error leaves nothing but its report, and the system commands NOP and CLEAR (R340, R341,
R370). -/

namespace Sys2Proof.Machine

/-! ### Every step answers -/

/-- Every command completes: its last act is a completion, on every path. -/
theorem exec_answers (i : Instr) (s : State) : ∃ t, exec i s = .next t := by
  cases i with
  | nop | gfAdd | gfMul | wcPack | sesReset | sesStatus | sesIsComplete | sesGroupComplete | clear => exact ⟨_, rfl⟩
  | shSplit =>
    simp only [exec, execShSplit]
    split <;> exact State.finish_answers ..
  | generate =>
    simp only [exec, execGenerate]
    split <;> exact State.finish_answers ..
  | _ => exact State.finish_answers ..

theorem State.runUnit_answers (s : State) : ∃ t, s.runUnit = .next t := by
  unfold State.runUnit
  split
  · exact ⟨_, rfl⟩
  · exact ⟨_, rfl⟩
  · exact exec_answers ..
  · exact ⟨_, rfl⟩

theorem State.store_bus (s : State) (addr v : Word) : (s.store addr v).bus = s.bus := by
  rw [s.store_eq]

/-- No move changes the parameters of the unit or the events to come. -/
theorem State.Move.params_bus {s t : State} (m : s.Move t) : t.params = s.params ∧ t.bus = s.bus := by
  cases m with
  | store addr v => exact ⟨s.store_params addr v, s.store_bus addr v⟩
  | complete _ _ _ hexec =>
    have completed := exec_completedBy hexec
    exact ⟨completed.params, completed.bus⟩
  | _ => exact ⟨rfl, rfl⟩

/-- Settles O5: an event has its effect, and the unit's turn ends in a completion or leaves the unit idle. -/
theorem everyStepAnswers : Obligations.EveryStepAnswers := by
  intro s
  cases hbus : s.bus with
  | nil =>
    obtain ⟨t, ht⟩ := s.runUnit_answers
    obtain ⟨hparams, hbus'⟩ := (State.runUnit_move ht).params_bus
    exact ⟨t, (step_of_bus_nil hbus).trans ht, hparams, hbus'.trans hbus⟩
  | cons e rest =>
    by_cases he : e = .unit
    · subst he
      obtain ⟨t, ht⟩ := State.runUnit_answers { s with bus := rest }
      exact ⟨t, (step_of_bus_unit hbus).trans ht, (State.runUnit_move ht).params_bus⟩
    · exact ⟨_, step_of_bus_event hbus he, (State.onEvent_move _ e).params_bus⟩

/-! ### Errors are precise (R370) -/

theorem State.finish_draws {s t : State} {r : Except Raised Arch} (h : s.finish r = .next t) : t.draws = s.draws := by
  rcases State.finish_cases h with ⟨a, -, rfl⟩ | ⟨e, -, rfl⟩ <;> rfl

/-- SH_SPLIT draws after its checks, and then it succeeds. -/
theorem execShSplit_draws_of_error {s t : State} (h : execShSplit s = .next t) (herr : t.arch.csr.errCode ≠ 0) :
    t.draws = s.draws := by
  simp only [execShSplit] at h
  split at h
  · exact State.finish_draws h
  · cases h
    exact absurd rfl herr

/-- The random port does not go back. -/
theorem execGenerate_draws_le {s t : State} (h : execGenerate s = .next t) : s.draws ≤ t.draws := by
  simp only [execGenerate] at h
  split at h
  · exact (State.finish_draws h).ge
  · exact (Nat.le_add_right ..).trans (State.finish_draws h).ge

/-- Of the commands that raise only GENERATE can have drawn bytes. -/
theorem exec_draws_of_error {i : Instr} {s t : State} (h : exec i s = .next t) (herr : t.arch.csr.errCode ≠ 0) :
    s.draws ≤ t.draws ∧ (i ≠ .generate → t.draws = s.draws) := by
  cases i with
  | generate => exact ⟨execGenerate_draws_le h, absurd rfl⟩
  | shSplit =>
    have hdraws := execShSplit_draws_of_error h herr
    exact ⟨hdraws.ge, fun _ => hdraws⟩
  | _ =>
    have hdraws := (exec_completedBy h).draws rfl
    exact ⟨hdraws.ge, fun _ => hdraws⟩

/-- Settles O44: a completion with an error code is the report of an error. -/
theorem errorsArePrecise : Obligations.ErrorsArePrecise := by
  intro i s t h herr
  refine ⟨?_, exec_draws_of_error h herr⟩
  obtain ⟨a, -, ht⟩ | ⟨e, ht⟩ := (exec_completedBy h).completion
  · rw [ht] at herr
    exact absurd rfl herr
  · have hreport : t.arch.csr.errCode = e.error.code ∧ t.arch.csr.errInfo = e.info := by
      rw [ht]
      exact ⟨rfl, rfl⟩
    rw [hreport.1, hreport.2]
    exact ht

/-! ### NOP (R340) -/

/-- NOP is the only command whose OP byte is 0, so its word is the only legal one that ends in it. -/
theorem eq_zero_of_legal_of_op_zero {w : Word} (hop : w.toNat % 256 = 0) (hw : legalCommandWord w = true) : w = 0 := by
  obtain ⟨i, rfl⟩ := legalCommandWord_iff.1 hw
  have hopcode : i.opcode = 0 := by
    rw [← (encode_fields i).1]
    exact BitVec.eq_of_toNat_eq (by simpa [opField] using hop)
  cases i with
  | nop => rfl
  | _ => simp [Instr.opcode] at hopcode

theorem exec_nop (s : State) : exec .nop s = .next (s.succeeded s.arch.csr s.arch.mem s.arch.ses) :=
  State.finish_eq_succeeded rfl rfl

/-- The STATUS word 0x30E is that of a unit that is READY, with no OVERRUN and the session EMPTY (R40). -/
theorem fields_of_status {s : State} (h : s.status = 0x0000030E) :
    s.arch.csr.ready = true ∧ s.arch.csr.overrun = false ∧ s.arch.ses.state.code.toNat = 0 := by
  have hnumber := s.status_toNat
  rw [h, statusNumber] at hnumber
  have hbusy := Bool.toNat_le s.busy
  have hdone := Bool.toNat_le s.arch.csr.done
  have herr := Bool.toNat_le s.arch.csr.err
  have hready := Bool.toNat_le s.arch.csr.ready
  have hoverrun := Bool.toNat_le s.arch.csr.overrun
  simp only [BitVec.reduceToNat] at hnumber
  rw [← Bool.toNat_eq_one, ← Bool.toNat_eq_zero]
  omega

/-- Settles O6: NOP commits the state as it is. -/
theorem nopOnlyClearsTheReport : Obligations.NopOnlyClearsTheReport := by
  refine ⟨rfl, fun w hop hne => Bool.eq_false_iff.2 fun hw => hne (eq_zero_of_legal_of_op_zero hop hw), exec_nop,
    fun s hp hstatus => ⟨_, exec_nop _, BitVec.eq_of_toNat_eq ?_⟩⟩
  obtain ⟨hready, hoverrun, hses⟩ := fields_of_status hstatus
  rw [State.status_toNat]
  simp [statusNumber, State.busy, Csrs.err, State.accepted, hready, hoverrun, hses]

/-! ### CLEAR (R341) -/

/-- Where every element is 0, the buffer spaces read 0; SES_GROUP is derived from the session. -/
theorem Arch.readBuffer_of_zero {a : Arch} (h : a.mem = Memory.zero) {sp : Nat} (hsp : sp ≠ 0x0B) (i : Nat) :
    a.readBuffer sp i = 0 := by
  unfold Arch.readBuffer
  rw [h]
  split <;> first | rfl | exact absurd rfl hsp

theorem exec_clear (s : State) : exec .clear s = .next (s.succeeded s.arch.csr.cleared Memory.zero s.arch.ses) :=
  State.finish_eq_succeeded (a := { s.arch with csr := s.arch.csr.cleared, mem := Memory.zero }) rfl rfl

/-- Settles O7: the registers of R341 and every buffer are zeroed in one commit. -/
theorem clearZeroesTheWorkingStorage : Obligations.ClearZeroesTheWorkingStorage := by
  refine ⟨rfl, fun s => ⟨Memory.zero, _, exec_clear s, rfl, fun addr hcsr hgroup => ?_, fun hready htables => ?_⟩⟩
  · rw [toNat_div_eq_spaceId] at hcsr hgroup
    rw [State.peek_of_buffer _ hcsr, Arch.readBuffer_of_zero rfl hgroup, ite_self]
  · simp [Csrs.cleared, Csrs.reset, Arch.reset, hready, htables]

end Sys2Proof.Machine

/-! PROOFS. Host writes to a busy unit, writes an idle unit ignores, and the reset sequence (R34, R40, R72, R81, R87, R400,
R401, R412). -/

namespace Sys2Proof.Machine

/-! ### OVERRUN and the running command -/

/-- The registers, buffers, tables and session with another OVERRUN. -/
def Arch.withOverrun (b : Bool) (a : Arch) : Arch := { a with csr := { a.csr with overrun := b } }

theorem State.putOverrun_eq (s : State) (b : Bool) : s.putOverrun b = { s with arch := s.arch.withOverrun b } := rfl

/-- While a command is pending OVERRUN is no operand: the operands are those of the snapshot (R33). -/
theorem State.putOverrun_operands {s : State} (hp : s.pending ≠ none) (b : Bool) :
    (s.putOverrun b).operands = s.operands := by
  obtain ⟨p, hp⟩ := Option.ne_none_iff_exists'.1 hp
  rw [State.operands_of_pending hp, State.operands_of_pending ((s.putOverrun_pending b).trans hp)]

/-- `y` computes what `x` does, but for OVERRUN in its outputs. -/
def SameButOverrun (b : Bool) (x y : Except Raised Arch) : Prop := y = x.map (Arch.withOverrun b)

theorem SameButOverrun.ok {b : Bool} {a a' : Arch} (h : a' = a.withOverrun b) : SameButOverrun b (.ok a) (.ok a') :=
  congrArg Except.ok h

theorem SameButOverrun.error (b : Bool) (e : Raised) : SameButOverrun b (.error e) (.error e) := rfl

theorem SameButOverrun.bind {b : Bool} {α : Type} {x : Except Raised α} {f f' : α → Except Raised Arch}
    (h : ∀ a, SameButOverrun b (f a) (f' a)) : SameButOverrun b (x >>= f) (x >>= f') := by
  cases x with
  | ok a => exact h a
  | error e => rfl

/-- `o'` is the completion `o`, but for OVERRUN. -/
def CompletesSameButOverrun (b : Bool) (o o' : Host.Outcome State Fault Refusal) : Prop :=
  ∀ t, o = .next t → o' = .next (t.putOverrun b)

theorem State.finish_sameButOverrun {s : State} {b : Bool} {x y : Except Raised Arch} (h : SameButOverrun b x y) :
    CompletesSameButOverrun b (s.finish x) ((s.putOverrun b).finish y) := by
  intro t ht
  cases h
  rcases State.finish_cases ht with ⟨a, rfl, rfl⟩ | ⟨e, rfl, rfl⟩ <;> rfl

theorem State.finishDrawn_sameButOverrun {s : State} {b : Bool} {pos : Nat} {x y : Except Raised Arch}
    (h : SameButOverrun b x y) :
    CompletesSameButOverrun b (s.finishDrawn pos x) ((s.putOverrun b).finishDrawn pos y) :=
  State.finish_sameButOverrun (s := { s with draws := pos }) h

section Pending

variable {s : State} (hp : s.pending ≠ none) (b : Bool)
include hp

theorem execShSplit_sameButOverrun : CompletesSameButOverrun b (execShSplit s) (execShSplit (s.putOverrun b)) := by
  simp only [execShSplit, s.putOverrun_operands hp]
  split
  · exact State.finish_sameButOverrun (.error b _)
  · exact State.finishDrawn_sameButOverrun (.ok rfl)

theorem execGenerate_sameButOverrun : CompletesSameButOverrun b (execGenerate s) (execGenerate (s.putOverrun b)) := by
  simp only [execGenerate, s.putOverrun_operands hp, s.putOverrun_params]
  split
  · exact State.finish_sameButOverrun (.error b _)
  · exact State.finishDrawn_sameButOverrun (.bind fun _ => .ok rfl)

/-- No command reads OVERRUN or writes it. -/
theorem exec_sameButOverrun (i : Instr) : CompletesSameButOverrun b (exec i s) (exec i (s.putOverrun b)) := by
  have hoperands := s.putOverrun_operands hp b
  cases i with
  | shSplit => exact execShSplit_sameButOverrun hp b
  | generate => exact execGenerate_sameButOverrun hp b
  | nop | gfAdd | sesReset | clear => exact State.finish_sameButOverrun (.ok rfl)
  | gfMul | wcPack | sesStatus | sesIsComplete | sesGroupComplete =>
    refine State.finish_sameButOverrun (.ok ?_)
    rw [hoperands]
    rfl
  | gfDiv | gfInv | chkCreate | chkVerify | wcToWords | shRecombine | shareDecode | combine | sesAccept =>
    refine State.finish_sameButOverrun ?_
    rw [hoperands]
    exact .bind fun _ => .ok rfl
  | wcUnpack | wcFromWords | shInterpolate | fcEncrypt | fcDecrypt | shareEncode | sesCombine =>
    refine State.finish_sameButOverrun ?_
    rw [hoperands]
    exact .bind fun _ => .bind fun _ => .ok rfl

/-- The running command completes as it would have, but for OVERRUN (R412). -/
theorem State.runUnit_sameButOverrun (hready : s.arch.csr.ready = true) :
    CompletesSameButOverrun b s.runUnit (s.putOverrun b).runUnit := by
  obtain ⟨p, hpending⟩ := Option.ne_none_iff_exists'.1 hp
  have hpending' : (s.putOverrun b).pending = some p := hpending
  cases hdecode : decode p.word with
  | ok i =>
    rw [State.runUnit_of_decodes hready hpending hdecode, State.runUnit_of_decodes (s := s.putOverrun b) hready hpending' hdecode]
    exact exec_sameButOverrun hp b i
  | error r =>
    rw [State.runUnit_of_illegal hready hpending hdecode, State.runUnit_of_illegal (s := s.putOverrun b) hready hpending' hdecode]
    rintro t ⟨⟩
    rfl

end Pending

/-! ### Writes an idle unit ignores (R34, R72, R81) -/

/-- The read-only registers are not stored to (R34). -/
theorem Csrs.write_of_readOnly {n : Nat} (h : ReadOnly 0x00 n) (p : Params) (c : Csrs) (v : Word) :
    Csrs.write p c n v = c := by
  unfold Csrs.write
  split <;> first | rfl | (simp [ReadOnly] at h)

/-- RESULT and SES_GROUP are not stored to (R72, R81). -/
theorem Memory.write_of_readOnly {sp i : Nat} (hsp : sp ≠ 0) (h : ReadOnly sp i) (p : Params) (m : Memory) (v : Word) :
    Memory.write p m sp i v = m := by
  obtain rfl | rfl | ⟨rfl, -⟩ := h
  · rfl
  · rfl
  · exact absurd rfl hsp

theorem State.store_of_readOnly {s : State} {addr : Word} (h : ReadOnly (spaceId addr) (elementIndex addr)) (v : Word) :
    s.store addr v = s := by
  by_cases hspace : spaceId addr = 0
  · rw [hspace] at h
    rw [s.store_of_register hspace, Csrs.write_of_readOnly h, State.withCsr]
  · cases hexists : hasElement s.params (spaceId addr) (elementIndex addr) with
    | false => exact s.store_of_missing hspace hexists v
    | true => rw [s.store_of_element hspace hexists, Memory.write_of_readOnly hspace h, State.withMem]

/-- CMD is writable, and STATUS stands apart. -/
theorem ne_cmd_status_of_readOnly {addr : Word} (h : ReadOnly (spaceId addr) (elementIndex addr)) :
    addr ≠ 0x00000001 ∧ addr ≠ 0x00000002 := by
  constructor <;> rintro rfl <;> simp [ReadOnly, spaceId, elementIndex] at h

/-- Of a write to STATUS an idle unit obeys bit 4 alone (R40). -/
theorem State.hostWrite_status_of_idle {s : State} (h : s.isIdle) (v : Word) :
    s.hostWrite 0x00000002 v = if v.getLsbD 4 then s.putOverrun false else s := by
  have hcmd : (0x00000002 : Word) ≠ busAddress 0 0x01 := by decide
  have hclears : clearsOverrun 0x00000002 v = v.getLsbD 4 := by simp [clearsOverrun, busAddress]
  have hstore : s.store 0x00000002 v = s := s.store_of_register (by decide) v
  rw [State.hostWrite_of_idle h, if_neg hcmd, hclears, hstore]

/-- Settles O54: a busy unit only records the write in OVERRUN, which no command reads; an idle one stores nothing at a
read-only or missing address. -/
theorem busyWritesAreDropped : Obligations.BusyWritesAreDropped := by
  intro s addr v
  refine ⟨fun hready hp => ?_, fun hready => State.hostWrite_of_not_ready hready addr v, fun hidle => ⟨?_, fun hbit => ?_,
    fun hbit => ?_⟩⟩
  · have hwrite := State.hostWrite_of_pending hready hp addr v
    refine ⟨hwrite, fun t ht => ?_⟩
    rw [hwrite]
    exact State.runUnit_sameButOverrun hp _ hready t ht
  · rw [toNat_div_eq_spaceId, toNat_mod_eq_elementIndex]
    rintro (h | h)
    · obtain ⟨hcmd, hstatus⟩ := ne_cmd_status_of_readOnly h
      rw [State.hostWrite_eq_store hidle hcmd hstatus, State.store_of_readOnly h]
    · obtain ⟨hcmd, hstatus⟩ := ne_cmd_status_of_namesNothing h
      rw [State.hostWrite_eq_store hidle hcmd hstatus, State.store_of_namesNothing h]
  · rw [State.hostWrite_status_of_idle hidle, if_pos hbit]
    rfl
  · rw [State.hostWrite_status_of_idle hidle, hbit, if_neg Bool.false_ne_true]

/-! ### The reset sequence (R87, R400, R401) -/

/-- The EMPTY session has no shares in any group (R81). -/
theorem Session.groupWord_empty (g : Nat) : Session.empty.groupWord g = 0 := by
  simp [Session.groupWord, Session.held, Session.empty, groupOf, memberThresholdOf, groupComplete, flagAt]

section ResetValues

variable {s : State} {ready : Bool} {T : FieldTables}
  (h : s.arch = ⟨{ Csrs.reset with ready }, Memory.zero, T, Session.empty⟩)
include h

/-- At its reset value every register but ID, STATUS, CAPS and CAPS2 reads 0 (R35). -/
theorem State.readCsr_of_reset {n : Nat} (hid : n ≠ 0x00) (hstatus : n ≠ 0x02) (hcaps : n ≠ 0x05) (hcaps2 : n ≠ 0x06) :
    s.readCsr n = 0 := by
  unfold State.readCsr
  rw [h]
  split <;> first | rfl | contradiction

/-- At its reset value every element reads 0 (R87). -/
theorem Arch.readBuffer_of_reset (sp i : Nat) : s.arch.readBuffer sp i = 0 := by
  by_cases hsp : sp = 0x0B
  · rw [h, hsp]
    exact Session.groupWord_empty i
  · exact Arch.readBuffer_of_zero (by rw [h]) hsp i

theorem State.peek_of_reset {addr : Word} (hid : addr ≠ 0x00000000) (hstatus : addr ≠ 0x00000002)
    (hcaps : addr ≠ 0x00000005) (hcaps2 : addr ≠ 0x00000006) : s.peek addr = 0 := by
  by_cases hspace : spaceId addr = 0
  · have hindex {a : Word} (hne : addr ≠ a) (ha : spaceId a = 0) : elementIndex addr ≠ elementIndex a :=
      fun heq => hne (addr_ext (hspace.trans ha.symm) heq)
    rw [s.peek_of_register hspace]
    exact State.readCsr_of_reset h (hindex hid rfl) (hindex hstatus rfl) (hindex hcaps rfl) (hindex hcaps2 rfl)
  · rw [s.peek_of_buffer hspace, Arch.readBuffer_of_reset h, ite_self]

end ResetValues

theorem State.status_onReset (s : State) : s.onReset.status = 0x00000001 :=
  BitVec.eq_of_toNat_eq (State.status_toNat _)

theorem State.status_finishReset_onReset (s : State) : s.onReset.finishReset.status = 0x00000008 :=
  BitVec.eq_of_toNat_eq (State.status_toNat _)

/-- Settles O60: the reset step gives the reset values with the tables still to build, and the next turn builds them. -/
theorem resetSequence : Obligations.ResetSequence := by
  intro s rest hbus
  refine ⟨_, _, step_of_bus_event hbus nofun, State.status_onReset _, rfl, rfl,
    (step_of_bus_unit (rest := rest) rfl).trans (State.runUnit_of_not_ready rfl), State.status_finishReset_onReset s, rfl,
    buildTables_eq_standard, rfl, fun addr hid hstatus hcaps hcaps2 => ⟨?_, ?_⟩⟩
  · exact State.peek_of_reset (ready := false) (T := blankTables) rfl hid hstatus hcaps hcaps2
  · exact State.peek_of_reset (ready := true) (T := buildTables) rfl hid hstatus hcaps hcaps2

end Sys2Proof.Machine

/-! PROOFS. The recovery session: what its queries answer and its registers show, how a share enters it, and how it is
combined and emptied (R310 to R320). -/

namespace Sys2Proof.Machine

/-! ### Counts of groups and shares (R12, R311) -/

theorem completeGroups_length_le (shs : List Share) : (completeGroups shs).length ≤ 16 :=
  (List.length_filter_le ..).trans_eq List.length_range

/-- More shares, no fewer member indices. -/
theorem membersOf_mono {shs shs' : List Share} (h : shs ⊆ shs') (g : Nat) : membersOf shs g ≤ membersOf shs' g := by
  refine (List.subperm_of_subset (List.nodup_dedup _) fun i hi => ?_).length_le
  obtain ⟨sh, hsh, rfl⟩ := List.mem_map.1 (List.mem_dedup.1 hi)
  obtain ⟨hsh, hgroup⟩ := List.mem_filter.1 hsh
  exact List.mem_dedup.2 (List.mem_map_of_mem (List.mem_filter.2 ⟨h hsh, hgroup⟩))

theorem CompleteGroup.mono {shs shs' : List Share} (h : shs ⊆ shs') {g : Nat} (hg : CompleteGroup shs g) :
    CompleteGroup shs' g := by
  obtain ⟨sh, hsh, hgroup, henough⟩ := hg
  exact ⟨sh, h hsh, hgroup, henough.trans (membersOf_mono h g)⟩

/-- The complete groups are as many as any list of distinct complete groups can be. -/
theorem le_completeGroups_length_iff {shs : List Share} (h : ThresholdsAgree shs) (n : Nat) :
    n ≤ (completeGroups shs).length ↔
      ∃ gs : List Nat, gs.Nodup ∧ (∀ g ∈ gs, CompleteGroup shs g) ∧ n ≤ gs.length := by
  constructor
  · exact fun hn => ⟨_, (completeGroups_pairwise_lt shs).nodup, fun g => (mem_completeGroups h g).1, hn⟩
  · rintro ⟨gs, hnodup, hgs, hn⟩
    exact hn.trans (List.subperm_of_subset hnodup fun g hg => (mem_completeGroups h g).2 (hgs g hg)).length_le

/-- Accepted shares do not make a complete group incomplete. -/
theorem completeGroups_length_mono {shs shs' : List Share} (h : shs ⊆ shs') (hagree : ThresholdsAgree shs)
    (hagree' : ThresholdsAgree shs') : (completeGroups shs).length ≤ (completeGroups shs').length :=
  (le_completeGroups_length_iff hagree' _).2 ⟨_, (completeGroups_pairwise_lt shs).nodup,
    fun g hg => ((mem_completeGroups hagree g).1 hg).mono h, le_rfl⟩

/-- One share completes its group exactly where one member is enough. -/
theorem completeGroups_singleton_length (sh : Share) :
    (completeGroups [sh]).length = if sh.memberThreshold.toNat ≤ 1 then 1 else 0 := by
  have hagree : ThresholdsAgree [sh] := by simp [ThresholdsAgree]
  have hmem (g : Nat) : g ∈ completeGroups [sh] ↔ sh.groupIndex.toNat = g ∧ sh.memberThreshold.toNat ≤ 1 := by
    rw [mem_completeGroups hagree]
    simp only [CompleteGroup, List.mem_singleton, exists_eq_left, membersOf]
    exact and_congr_right fun hg => by simp [hg]
  have hnodup := (completeGroups_pairwise_lt [sh]).nodup
  split
  · rename_i hone
    exact ((List.perm_ext_iff_of_nodup hnodup (List.nodup_singleton sh.groupIndex.toNat)).2 fun g => by
      simp [hmem, hone, eq_comm]).length_eq
  · rename_i hmany
    exact List.length_eq_zero_iff.2 (List.eq_nil_iff_forall_not_mem.2 fun g hg => hmany ((hmem g).1 hg).2)

/-- At most 16 members of 16 groups differ in their group or member index. -/
theorem length_le_of_indices_differ {shs : List Share}
    (h : shs.Pairwise fun a b => ¬(a.groupIndex = b.groupIndex ∧ a.memberIndex = b.memberIndex)) : shs.length ≤ 256 := by
  have hnodup : (shs.map fun sh => (sh.groupIndex.toFin, sh.memberIndex.toFin)).Nodup :=
    List.pairwise_map.2 (h.imp fun hne heq => hne
      ⟨BitVec.eq_of_toFin_eq (congrArg Prod.fst heq), BitVec.eq_of_toFin_eq (congrArg Prod.snd heq)⟩)
  simpa using hnodup.length_le_card

theorem groupOf_length_le {shs : List Share}
    (h : shs.Pairwise fun a b => ¬(a.groupIndex = b.groupIndex ∧ a.memberIndex = b.memberIndex)) (g : Nat) :
    (groupOf shs g).length ≤ 16 := by
  have hgroup : ∀ sh ∈ groupOf shs g, sh.groupIndex.toNat = g := fun sh hsh => (mem_groupOf.1 hsh).2
  have hnodup : ((groupOf shs g).map (·.memberIndex.toFin)).Nodup :=
    List.pairwise_map.2 ((h.sublist List.filter_sublist).imp_of_mem fun ha hb hne heq => hne
      ⟨BitVec.eq_of_toNat_eq ((hgroup _ ha).trans (hgroup _ hb).symm), BitVec.eq_of_toFin_eq heq⟩)
  simpa using hnodup.length_le_card

theorem memberThresholdOf_lt (grp : List Share) : memberThresholdOf grp < 32 := by
  cases grp with
  | nil => decide
  | cons sh rest => exact sh.memberThreshold.isLt

/-- A decoded share has fields in the ranges of R260 that agree as R264 asks: stored thresholds and counts are their values
minus one, and the last check of R265 compares them. -/
theorem shareFieldsLegal_of_decodeSymbols {p : Params} {sy : List Sym} {sh : Share} (h : decodeSymbols p sy = .ok sh) :
    ShareFieldsLegal sh := by
  unfold decodeSymbols at h
  obtain ⟨-, h⟩ := raiseIf_bind_eq_ok_iff.1 h
  obtain ⟨-, h⟩ := raiseIf_bind_eq_ok_iff.1 h
  obtain ⟨-, h⟩ := raiseIf_bind_eq_ok_iff.1 h
  obtain ⟨-, h⟩ := raiseIf_bind_eq_ok_iff.1 h
  obtain ⟨-, h⟩ := raiseIf_bind_eq_ok_iff.1 h
  obtain ⟨hagree, h⟩ := raiseIf_bind_eq_ok_iff.1 h
  cases h
  simp only [ShareFieldsLegal, shareFromHeader, plusOne_toNat] at hagree ⊢
  omega

theorem shareFieldsLegal_of_decodes {p : Params} {t : ByteString} {r : Share × List Sym} (h : decodeShare p t = .ok r) :
    ShareFieldsLegal r.1 :=
  shareFieldsLegal_of_decodeSymbols (decodeShare_eq_ok h).2

/-! ### The parts of a consistent session (R83, R311) -/

section Consistent

variable {p : Params} {x : Session} (hx : x.consistent p)
include hx

theorem Session.consistent.exists_holdsShares : ∃ c, x.HoldsShares p c := by
  have h := hx
  rcases h with ⟨-, -, hnil⟩ | ⟨-, -, ⟨c, hc, -⟩, -⟩
  · exact ⟨⟨0, 0, 0, 0, 0⟩, Session.holdsShares_of_nil hnil⟩
  · exact ⟨c, hx.holdsShares hc⟩

theorem Session.consistent.thresholds : ThresholdsAgree x.held := by
  obtain ⟨c, h⟩ := hx.exists_holdsShares
  exact h.thresholds

theorem Session.consistent.indices :
    x.held.Pairwise fun a b => ¬(a.groupIndex = b.groupIndex ∧ a.memberIndex = b.memberIndex) := by
  obtain ⟨c, h⟩ := hx.exists_holdsShares
  exact h.indices

theorem Session.consistent.held_of_empty (hempty : x.state = .empty) : x.held = [] := by
  simp [Session.held, hx.shares_of_empty hempty]

/-- The common parameters the host sees are those of every share the session holds. -/
theorem Session.consistent.visibleParams_of_mem {sh : Share} (hsh : sh ∈ x.held) :
    x.visibleParams = some (commonParams sh) := by
  have h := hx
  rcases h with ⟨hempty, -, -⟩ | ⟨hne, -, ⟨c, hc, hparams⟩, -⟩
  · simp [hx.held_of_empty hempty] at hsh
  · rw [Session.visibleParams, if_neg hne, hc, hparams sh hsh]

theorem Session.consistent.complete_iff (hne : x.state ≠ .empty) : x.state = .complete ↔ x.isComplete = true := by
  rcases hx with ⟨hempty, -⟩ | ⟨-, -, -, -, -, -, hcomplete⟩
  · exact absurd hempty hne
  · exact hcomplete

/-- Whether the session is complete, without its list of complete groups (R313). -/
theorem Session.consistent.isComplete_iff_exists : x.isComplete = true ↔
    x.state ≠ .empty ∧ ∃ c, x.params = some c ∧ ∃ gs : List Nat, gs.Nodup ∧
      (∀ g ∈ gs, CompleteGroup x.held g) ∧ c.groupThreshold.toNat ≤ gs.length := by
  have hagree := hx.thresholds
  rcases hx with ⟨hempty, -, -⟩ | ⟨hne, -, ⟨c, hc, -⟩, -⟩
  · simp [Session.isComplete, hempty]
  · simp [← le_completeGroups_length_iff hagree, Session.isComplete, Session.completeCount, Session.groupThreshold,
      Session.visibleParams, hne, hc]

end Consistent

theorem Session.visibleParams_of_empty {x : Session} (h : x.state = .empty) : x.visibleParams = none := if_pos h

/-! ### SES_RESET, SES_STATUS and the queries (R310, R315, R317, R318) -/

/-- Settles O38: the EMPTY session is stored and nothing else. -/
theorem sesResetEmptiesTheSession : Obligations.SesResetEmptiesTheSession :=
  ⟨rfl, fun _ => State.finish_eq_succeeded rfl rfl⟩

theorem toNat_ofNat_of_le {w n m : Nat} (h : n ≤ m) (hm : m < 2 ^ w := by norm_num) : (BitVec.ofNat w n).toNat = n := by
  rw [BitVec.toNat_ofNat, Nat.mod_eq_of_lt (h.trans_lt hm)]

/-- The summary is its fields at their places. -/
theorem Session.statusWord_toNat (x : Session) : x.statusWord.toNat =
    x.state.code.toNat + 2 ^ 4 * (completeGroups x.held).length + 2 ^ 12 * x.groupThreshold.toNat +
      2 ^ 20 * x.groupCount.toNat := by
  have hpacks := (((Word.packs_setWidth x.state.code (by norm_num)).or_shiftLeft (BitVec.ofNat 5 x.completeCount) 4
    (by norm_num) (by norm_num)).or_shiftLeft x.groupThreshold 12 (by norm_num) (by norm_num)).or_shiftLeft x.groupCount 20
    (by norm_num) (by norm_num)
  rw [Session.statusWord, hpacks.1, Session.completeCount, toNat_ofNat_of_le (m := 16) (completeGroups_length_le _)]

/-- Settles O40: the summary is written to RESULT and nothing else changes. -/
theorem sesStatusPacksTheSummary : Obligations.SesStatusPacksTheSummary :=
  ⟨rfl, fun s => ⟨_, State.finish_putResult s _, Session.statusWord_toNat _⟩⟩

/-- An answer is 1 where it holds and 0 where it does not. -/
theorem State.finish_putFlag {s : State} {b : Bool} {P : Prop} (h : b = true ↔ P) :
    (P → s.finish (.ok (s.arch.putResult (flagAt 0 b))) =
      .next (s.succeeded { s.arch.csr with result := 1 } s.arch.mem s.arch.ses)) ∧
    (¬ P → s.finish (.ok (s.arch.putResult (flagAt 0 b))) =
      .next (s.succeeded { s.arch.csr with result := 0 } s.arch.mem s.arch.ses)) := by
  rw [← h, State.finish_putResult]
  cases b with
  | true => exact ⟨fun _ => rfl, absurd rfl⟩
  | false => exact ⟨nofun, fun _ => rfl⟩

/-- Settles O41: the flags the two queries write, said of the shares. -/
theorem sesQueriesAnswerCompleteness : Obligations.SesQueriesAnswerCompleteness := by
  refine ⟨rfl, fun s hx => State.finish_putFlag hx.isComplete_iff_exists, fun g s hx => ⟨assemble_zero 0x44 g, ?_⟩⟩
  exact State.finish_putFlag (groupComplete_iff hx.thresholds g.toNat)

/-! ### SES_COMBINE (R316) -/

theorem exec_sesCombine (s : State) : exec .sesCombine s =
    s.finish (if s.operands.ses.state ≠ .complete then
        .error ⟨.notEnoughGroups, BitVec.ofNat 32 (completeGroups s.operands.ses.held).length⟩
      else combine Config.ports s.operands.tables s.params s.operands.ses.texts s.operands.passBytes >>= fun y =>
        .ok ((s.arch.putResultBytes y).putSession Session.empty)) :=
  congrArg s.finish (raiseIf_bind ..)

/-- Settles O42: past the check of the state the texts are combined, and a success empties the session. -/
theorem sesCombineEndsTheSession : Obligations.SesCombineEndsTheSession := by
  refine ⟨rfl, fun s => ⟨fun hstate => ?_, fun hstate => ⟨fun e he => ?_, fun secret hsecret =>
    ⟨_, ?_, storedAt_writeList _ _ _⟩⟩⟩⟩
  · rw [exec_sesCombine, if_pos hstate]
    rfl
  · rw [exec_sesCombine, if_neg (not_not.2 hstate), Session.texts, he]
    rfl
  · rw [exec_sesCombine, if_neg (not_not.2 hstate), Session.texts, hsecret]
    exact State.finish_eq_succeeded rfl rfl

/-! ### The session registers (R64 to R70, R81, R319) -/

theorem Session.groupWord_toNat {p : Params} {x : Session} (hx : x.consistent p) (g : Nat) : (x.groupWord g).toNat =
    (groupOf x.held g).length + 2 ^ 8 * memberThresholdOf (groupOf x.held g) + 2 ^ 16 * (groupComplete x.held g).toNat := by
  have hpacks := ((Word.packs_setWidth (BitVec.ofNat 5 (groupOf x.held g).length) (by norm_num)).or_shiftLeft
    (BitVec.ofNat 5 (memberThresholdOf (groupOf x.held g))) 8 (by norm_num) (by norm_num)).or_flagAt
    (groupComplete x.held g) 16 (by norm_num) (by norm_num)
  rw [Session.groupWord, hpacks.1, toNat_ofNat_of_le (m := 16) (groupOf_length_le hx.indices g),
    toNat_ofNat_of_le (m := 31) (Nat.le_of_lt_succ (memberThresholdOf_lt _))]

/-- Settles O43: the registers are views of the store, each wide enough for what a consistent session holds. -/
theorem sessionRegistersMirrorTheStore : Obligations.SessionRegistersMirrorTheStore := by
  intro s hx
  have hagree := hx.thresholds
  have hident := State.peek_register_toNat (s := s) (v := s.arch.ses.identifier) 0x21 rfl
  have hexp := State.peek_register_toNat (s := s) (v := s.arch.ses.iterationExponent) 0x22 rfl
  have hgt := State.peek_register_toNat (s := s) (v := s.arch.ses.groupThreshold) 0x23 rfl
  have hgc := State.peek_register_toNat (s := s) (v := s.arch.ses.groupCount) 0x24 rfl
  have hshares := State.peek_register_toNat (s := s) (v := BitVec.ofNat 9 s.arch.ses.shares.length) 0x25 rfl
  have hcount := State.peek_register_toNat (s := s) (v := BitVec.ofNat 5 s.arch.ses.completeCount) 0x26 rfl
  refine ⟨State.peek_register_toNat 0x20 rfl, fun hempty => ?_, fun sh hsh => ?_, ?_, ?_, fun g hg => ?_⟩
  · simp only [Session.identifier, Session.iterationExponent, Session.groupThreshold, Session.groupCount,
      Session.visibleParams_of_empty hempty] at hident hexp hgt hgc
    exact ⟨BitVec.eq_of_toNat_eq hident, BitVec.eq_of_toNat_eq hexp, BitVec.eq_of_toNat_eq hgt, BitVec.eq_of_toNat_eq hgc⟩
  · simp only [Session.identifier, Session.iterationExponent, Session.groupThreshold, Session.groupCount,
      hx.visibleParams_of_mem hsh] at hident hexp hgt hgc
    exact ⟨hident, hexp, hgt, hgc⟩
  · have hle := length_le_of_indices_differ hx.indices
    rw [Session.held, List.length_map] at hle
    exact hshares.trans (toNat_ofNat_of_le hle)
  · exact ⟨completeGroups s.arch.ses.held, (completeGroups_pairwise_lt _).nodup, mem_completeGroups hagree,
      hcount.trans (toNat_ofNat_of_le (completeGroups_length_le _))⟩
  · have hpeek : s.peek (elementAddress 0x0B g) = s.arch.ses.groupWord g :=
      s.peek_element (by norm_num) (by omega) (decide_eq_true hg)
    refine ⟨_, _, _, (congrArg BitVec.toNat hpeek).trans (Session.groupWord_toNat hx g), rfl, fun hnone => ?_, ?_,
      Bool.toNat_le _, ?_⟩
    · rw [List.length_eq_zero_iff.1 hnone]
      rfl
    · rintro sh hsh rfl
      exact memberThresholdOf_groupOf hagree hsh
    · rw [Bool.toNat_eq_one, groupComplete_iff hagree]

/-! ### SES_ACCEPT (R312, R314, R320) -/

section Accept

variable {s : State}

theorem exec_sesAccept_of_error {e : Raised}
    (h : Session.accept s.params s.operands.ses s.operands.textBytes = .error e) :
    exec .sesAccept s = .next (s.failed e.error.code e.info) :=
  congrArg (fun x : Except Raised (Session × Word) =>
    s.finish (x >>= fun r => .ok ((s.arch.putSession r.1).putResult r.2))) h

theorem exec_sesAccept_of_ok {x : Session} {v : Word}
    (h : Session.accept s.params s.operands.ses s.operands.textBytes = .ok (x, v)) :
    exec .sesAccept s = .next (s.succeeded { s.arch.csr with result := v } s.arch.mem x) :=
  (congrArg (fun x : Except Raised (Session × Word) =>
    s.finish (x >>= fun r => .ok ((s.arch.putSession r.1).putResult r.2))) h).trans
    (State.finish_eq_succeeded rfl rfl)

end Accept

section Decoded

variable {p : Params} {x : Session} {t : ByteString}

theorem Session.accept_of_error {e : Raised} (h : decodeShare p t = .error e) : x.accept p t = .error e := by
  rw [Session.accept, h, except_error_bind]

variable {sh : Share} {sy : List Sym} (h : decodeShare p t = .ok (sh, sy))
include h

theorem Session.accept_of_empty (hempty : x.state = .empty) :
    x.accept p t = .ok (x.insert (some (commonParams sh)) sh t, 1) := by
  rw [Session.accept, h, except_ok_bind]
  exact if_pos hempty

theorem Session.accept_of_ne_empty (hne : x.state ≠ .empty) : x.accept p t = x.acceptMore sh t := by
  rw [Session.accept, h, except_ok_bind]
  exact if_neg hne

end Decoded

section Checks

variable {p : Params} {x : Session} {sh : Share} {t : ByteString} (hx : x.consistent p)
include hx

/-- The threshold of the share's group differs from the share's exactly where a share of that group has another. -/
theorem Session.consistent.thresholdCheck_iff :
    (groupOf x.held sh.groupIndex.toNat ≠ [] ∧
      memberThresholdOf (groupOf x.held sh.groupIndex.toNat) ≠ sh.memberThreshold.toNat) ↔
    ∃ h ∈ x.held, h.groupIndex = sh.groupIndex ∧ h.memberThreshold ≠ sh.memberThreshold := by
  constructor
  · rintro ⟨hmember, hne⟩
    obtain ⟨a, ha⟩ := List.exists_mem_of_ne_nil _ hmember
    obtain ⟨hheld, hgroup⟩ := mem_groupOf.1 ha
    refine ⟨a, hheld, BitVec.eq_of_toNat_eq hgroup, fun heq => hne ?_⟩
    rw [← hgroup, memberThresholdOf_groupOf hx.thresholds hheld, heq]
  · rintro ⟨a, hheld, hgroup, hne⟩
    rw [← hgroup, memberThresholdOf_groupOf hx.thresholds hheld]
    exact ⟨List.ne_nil_of_mem (mem_groupOf.2 ⟨hheld, rfl⟩), fun heq => hne (BitVec.eq_of_toNat_eq heq)⟩

/-- A share whose place is free finds fewer than 256 shares in the session (R12). -/
theorem Session.consistent.shares_length_ne
    (hfree : ¬ ∃ h ∈ x.held, h.groupIndex = sh.groupIndex ∧ h.memberIndex = sh.memberIndex) : x.shares.length ≠ 256 := by
  have hindices : (x.held ++ [sh]).Pairwise
      fun a b => ¬(a.groupIndex = b.groupIndex ∧ a.memberIndex = b.memberIndex) :=
    List.pairwise_append.2 ⟨hx.indices, List.pairwise_singleton .., by simpa using hfree⟩
  have hle := length_le_of_indices_differ hindices
  simp only [Session.held, List.length_append, List.length_map, List.length_singleton] at hle
  omega

/-- The checks of R312 in their order, said of the shares held; the last of them always passes. -/
theorem Session.consistent.acceptMore_eq : x.acceptMore sh t =
    if x.params ≠ some (commonParams sh) then .error ⟨.mnemonicSetMismatch, 1⟩
    else if ∃ h ∈ x.held, h.groupIndex = sh.groupIndex ∧ h.memberThreshold ≠ sh.memberThreshold then
      .error ⟨.mnemonicSetMismatch, 2⟩
    else if sh ∈ x.held then .ok (x, 0)
    else if ∃ h ∈ x.held, h.groupIndex = sh.groupIndex ∧ h.memberIndex = sh.memberIndex then .error ⟨.duplicateIndex, 0⟩
    else .ok (x.insert (some (commonParams sh)) sh t, 1) := by
  rw [Session.acceptMore, raiseIf_bind]
  refine if_ctx_congr Iff.rfl (fun _ => rfl) fun hparams => ?_
  rw [raiseIf_bind]
  refine if_ctx_congr hx.thresholdCheck_iff (fun _ => rfl) fun _ => if_ctx_congr Iff.rfl (fun _ => rfl) fun _ => ?_
  rw [raiseIf_bind]
  refine if_ctx_congr Iff.rfl (fun _ => rfl) fun hfree => ?_
  rw [raiseIf_bind, sessionCapacity, if_neg (hx.shares_length_ne hfree), not_not.1 hparams]
  rfl

end Checks

section Entry

variable (x : Session) (sh : Share) (t : ByteString)

/-- Whether the session is complete after an entry is a matter of its complete groups (R311, R320). -/
theorem Session.isComplete_of_entry_iff :
    Session.isComplete ⟨.collecting, some (commonParams sh), x.shares ++ [(sh, t)]⟩ = true ↔
      sh.groupThreshold.toNat ≤ (completeGroups (x.held ++ [sh])).length := by
  simp [Session.isComplete, Session.groupThreshold, Session.visibleParams, Session.completeCount, Session.held,
    commonParams]

variable {sh}

theorem Session.insert_of_enough (h : sh.groupThreshold.toNat ≤ (completeGroups (x.held ++ [sh])).length) :
    x.insert (some (commonParams sh)) sh t = ⟨.complete, some (commonParams sh), x.shares ++ [(sh, t)]⟩ := by
  rw [Session.insert_eq, if_pos ((x.isComplete_of_entry_iff sh t).2 h)]

theorem Session.insert_of_few (h : (completeGroups (x.held ++ [sh])).length < sh.groupThreshold.toNat) :
    x.insert (some (commonParams sh)) sh t = ⟨.collecting, some (commonParams sh), x.shares ++ [(sh, t)]⟩ := by
  rw [Session.insert_eq, if_neg (mt (x.isComplete_of_entry_iff sh t).1 (Nat.not_le.2 h))]

end Entry

/-- A COMPLETE session stays complete when a share enters it. -/
theorem Session.consistent.enough_of_complete {p : Params} {x : Session} {sh : Share} (hx : x.consistent p)
    (hcomplete : x.state = .complete) (hparams : x.params = some (commonParams sh))
    (hsame : ∀ h ∈ x.held, h.groupIndex = sh.groupIndex → h.memberThreshold = sh.memberThreshold) :
    sh.groupThreshold.toNat ≤ (completeGroups (x.held ++ [sh])).length := by
  have hne : x.state ≠ .empty := by simp [hcomplete]
  have henough := (hx.complete_iff hne).1 hcomplete
  simp only [Session.isComplete, Session.groupThreshold, Session.visibleParams, if_neg hne, hparams, Session.completeCount,
    Bool.and_eq_true, decide_eq_true_eq] at henough
  exact henough.2.trans
    (completeGroups_length_mono (List.subset_append_left ..) hx.thresholds (hx.thresholds.append hsame))

/-- Settles O39: the decode, the checks and the entry of `Accept`, and the state the entry leaves. -/
theorem sesAcceptAddsAShare : Obligations.SesAcceptAddsAShare := by
  refine ⟨rfl, fun s hx => ⟨fun e he => exec_sesAccept_of_error (Session.accept_of_error he), fun sh sy hdecode =>
    ⟨fun hempty => ?first, fun hne => ?further⟩⟩⟩
  case first =>
    have hexec := exec_sesAccept_of_ok (Session.accept_of_empty hdecode hempty)
    have hlegal : ShareFieldsLegal sh := shareFieldsLegal_of_decodes hdecode
    obtain ⟨hgt, -, -, -, hmt, -⟩ := hlegal
    have hcount : (completeGroups (s.operands.ses.held ++ [sh])).length =
        if sh.memberThreshold.toNat ≤ 1 then 1 else 0 := by
      rw [hx.held_of_empty hempty, List.nil_append, completeGroups_singleton_length]
    refine ⟨fun ⟨hone, hmember⟩ => ?_, fun hmore => ?_⟩
    · rwa [Session.insert_of_enough _ _ (by rw [hcount, hone, hmember]; decide)] at hexec
    · have hfew : (if sh.memberThreshold.toNat ≤ 1 then 1 else 0) < sh.groupThreshold.toNat := by
        have hnumbers : ¬(sh.groupThreshold.toNat = 1 ∧ sh.memberThreshold.toNat = 1) :=
          fun ⟨hone, hmember⟩ => hmore ⟨BitVec.eq_of_toNat_eq hone, BitVec.eq_of_toNat_eq hmember⟩
        split <;> omega
      rwa [Session.insert_of_few _ _ (hcount.trans_lt hfew)] at hexec
  case further =>
    have haccept := (Session.accept_of_ne_empty hdecode hne).trans hx.acceptMore_eq
    refine ⟨fun hparams => exec_sesAccept_of_error (haccept.trans (if_pos hparams)), fun hparams => ?_⟩
    rw [if_neg (not_not.2 hparams)] at haccept
    refine ⟨fun hother => exec_sesAccept_of_error (haccept.trans (if_pos hother)), fun hheld => ?_, fun hsame hnew => ?_⟩
    · have hsame : ¬ ∃ h ∈ s.operands.ses.held, h.groupIndex = sh.groupIndex ∧ h.memberThreshold ≠ sh.memberThreshold :=
        fun ⟨h, hh, hgroup, hdiffers⟩ => hdiffers (hx.thresholds h hh sh hheld hgroup)
      exact exec_sesAccept_of_ok (haccept.trans ((if_neg hsame).trans (if_pos hheld)))
    · have hagree : ¬ ∃ h ∈ s.operands.ses.held, h.groupIndex = sh.groupIndex ∧ h.memberThreshold ≠ sh.memberThreshold :=
        fun ⟨h, hh, hgroup, hdiffers⟩ => hdiffers (hsame h hh hgroup)
      rw [if_neg hagree, if_neg hnew] at haccept
      refine ⟨fun htaken => exec_sesAccept_of_error (haccept.trans (if_pos htaken)), fun hfree => ?_⟩
      rw [if_neg fun ⟨h, hh, htaken⟩ => hfree h hh htaken] at haccept
      have hexec := exec_sesAccept_of_ok haccept
      refine ⟨fun hcomplete => ?_, fun hfew => ?_, fun henough => ?_⟩
      · rwa [Session.insert_of_enough _ _ (hx.enough_of_complete hcomplete hparams hsame)] at hexec
      · rwa [Session.insert_of_few _ _ hfew] at hexec
      · rwa [Session.insert_of_enough _ _ henough] at hexec

end Sys2Proof.Machine

/-! PROOFS. Every change of up to three symbols is detected (R175). The generator of the residue is the polynomial over
GF(1024) with the roots `α`, `α^2` and `α^3`, where `α^10 = α^3 + 1`: a string of symbols with the residue 0 is a
polynomial that vanishes at these three. No such polynomial of degree below 64 has one, two or three nonzero coefficients,
since the powers of `α` below 64 differ (the Vandermonde argument, by elimination of one coefficient at a time). -/

namespace Sys2Proof.Machine

/-! ### Multiplication by `α` in GF(1024) -/

/-- Multiplication by `α` on the symbols, polynomials in `α` of degree below 10 with `α^10 = α^3 + 1`. -/
def timesAlpha (v : Sym) : Sym := if v.getLsbD 9 then (v <<< 1) ^^^ 9 else v <<< 1

theorem timesAlpha_xor (u v : Sym) : timesAlpha (u ^^^ v) = timesAlpha u ^^^ timesAlpha v := by
  simp only [timesAlpha, BitVec.shiftLeft_xor_distrib, BitVec.getLsbD_xor]
  exact ite_xor_xor ..

theorem timesAlpha_iterate_xor (n : Nat) (u v : Sym) :
    timesAlpha^[n] (u ^^^ v) = timesAlpha^[n] u ^^^ timesAlpha^[n] v :=
  Function.Semiconj₂.iterate timesAlpha_xor n u v

@[simp] theorem timesAlpha_iterate_zero (n : Nat) : timesAlpha^[n] 0#10 = 0#10 := Function.iterate_fixed rfl n

theorem eq_zero_of_timesAlpha_eq_zero : ∀ v : Sym, timesAlpha v = 0 → v = 0 := by decide +kernel

theorem timesAlpha_injective : Function.Injective timesAlpha := fun u v h =>
  BitVec.xor_eq_zero_iff.1 (eq_zero_of_timesAlpha_eq_zero _ ((timesAlpha_xor u v).trans (BitVec.xor_eq_zero_iff.2 h)))

/-! ### The powers of `α` -/

/-- None of `v`, `α v`, ..., `α^(n-1) v` is 1. -/
def avoidsOne : Nat → Sym → Bool
  | 0, _ => true
  | n + 1, v => v != 1 && avoidsOne n (timesAlpha v)

theorem iterate_ne_one_of_avoidsOne {n : Nat} {v : Sym} (h : avoidsOne n v = true) {i : Nat} (hi : i < n) :
    timesAlpha^[i] v ≠ 1 := by
  induction n generalizing v i with
  | zero => exact absurd hi (Nat.not_lt_zero i)
  | succ n ih =>
    obtain ⟨hhead, hrest⟩ := Bool.and_eq_true_iff.1 h
    cases i with
    | zero => exact bne_iff_ne.1 hhead
    | succ i => exact ih hrest (Nat.lt_of_succ_lt_succ hi)

/-- `α` has the order 1023 (a walk through its powers). -/
theorem alpha_power_ne_one {n : Nat} (hpos : 0 < n) (hn : n < 1023) : timesAlpha^[n] 1 ≠ 1 := by
  have hwalk : avoidsOne 1022 (timesAlpha 1) = true := by decide +kernel
  obtain ⟨i, rfl⟩ := Nat.exists_eq_add_one_of_ne_zero hpos.ne'
  exact iterate_ne_one_of_avoidsOne hwalk (Nat.lt_of_succ_lt_succ hn)

/-- The powers of `α` below 1023 differ. -/
theorem alpha_powers_injOn : Set.InjOn (fun n => timesAlpha^[n] 1) (Finset.range 1023) := by
  have hlt {m n : Nat} (hmn : m < n) (hn : n < 1023) : timesAlpha^[m] 1 ≠ timesAlpha^[n] 1 := by
    intro h
    rw [← Nat.add_sub_cancel' hmn.le, Function.iterate_add_apply] at h
    exact alpha_power_ne_one (Nat.sub_pos_of_lt hmn) (by omega) (timesAlpha_injective.iterate m h).symm
  intro m hm n hn h
  rcases Nat.lt_trichotomy m n with hmn | hmn | hmn
  · exact absurd h (hlt hmn (Finset.mem_range.1 hn))
  · exact hmn
  · exact absurd h.symm (hlt hmn (Finset.mem_range.1 hm))

/-- The 1023 powers of `α` are all the symbols but 0. -/
theorem exists_alpha_power {v : Sym} (hv : v ≠ 0) : ∃ n, timesAlpha^[n] 1 = v := by
  have hsub : (Finset.range 1023).image (fun n => timesAlpha^[n] 1) ⊆ Finset.univ.erase 0 := by
    refine Finset.image_subset_iff.2 fun n _ => Finset.mem_erase.2 ⟨fun h => ?_, Finset.mem_univ _⟩
    exact absurd (timesAlpha_injective.iterate n (h.trans (timesAlpha_iterate_zero n).symm)) (by decide)
  have hcard : (Finset.univ.erase (0 : Sym)).card ≤ ((Finset.range 1023).image fun n => timesAlpha^[n] 1).card := by
    rw [Finset.card_image_of_injOn alpha_powers_injOn, Finset.card_range, Finset.card_erase_of_mem (Finset.mem_univ _),
      Finset.card_univ, ← FinEnum.card_eq_fintypeCard, FinEnum.card_bitVec]
    decide
  have hmem : v ∈ (Finset.range 1023).image fun n => timesAlpha^[n] 1 := by
    rw [Finset.eq_of_subset_of_card_le hsub hcard]
    exact Finset.mem_erase.2 ⟨hv, Finset.mem_univ _⟩
  obtain ⟨n, -, hn⟩ := Finset.mem_image.1 hmem
  exact ⟨n, hn⟩

/-- Different powers of `α` below 1023 take a nonzero symbol to different symbols. -/
theorem eq_zero_of_alpha_powers_agree {p q : Nat} (hpq : p < q) (hq : q < 1023) {v : Sym}
    (h : timesAlpha^[p] v = timesAlpha^[q] v) : v = 0 := by
  by_contra hv
  obtain ⟨n, rfl⟩ := exists_alpha_power hv
  refine alpha_power_ne_one (Nat.sub_pos_of_lt hpq) (by omega) (timesAlpha_injective.iterate (n + p) ?_)
  rw [← Function.iterate_add_apply, ← Function.iterate_add_apply] at h
  rw [← Function.iterate_add_apply, Nat.add_comm n p, h, show p + n + (q - p) = q + n by omega]

/-! ### Strings as polynomials -/

/-- The value at `α^k` of the polynomial whose coefficients are the symbols, the highest first. -/
def valueAt (k : Nat) : List Sym → Sym
  | [] => 0
  | v :: rest => timesAlpha^[k * rest.length] v ^^^ valueAt k rest

theorem valueAt_zipWith_xor (k : Nat) {x y : List Sym} (h : x.length = y.length) :
    valueAt k (List.zipWith (· ^^^ ·) x y) = valueAt k x ^^^ valueAt k y := by
  induction x generalizing y with
  | nil =>
    obtain rfl := List.length_eq_zero_iff.1 h.symm
    simp [valueAt]
  | cons a x ih =>
    cases y with
    | nil => simp at h
    | cons b y =>
      have h : x.length = y.length := Nat.succ.inj h
      simp only [List.zipWith_cons_cons, valueAt, List.length_zipWith, h, Nat.min_self, timesAlpha_iterate_xor, ih h]
      ac_rfl

theorem valueAt_of_eq_zero (k : Nat) {d : List Sym} (h : ∀ v ∈ d, v = 0) : valueAt k d = 0 := by
  induction d with
  | nil => rfl
  | cons v rest ih =>
    obtain ⟨rfl, hrest⟩ := List.forall_mem_cons.1 h
    simp [valueAt, ih hrest]

/-- Every coefficient times the difference of its power of `α` and the `q`th. -/
def eliminate (q : Nat) : List Sym → List Sym
  | [] => []
  | v :: rest => (timesAlpha^[rest.length] v ^^^ timesAlpha^[q] v) :: eliminate q rest

@[simp] theorem eliminate_length (q : Nat) (d : List Sym) : (eliminate q d).length = d.length := by
  induction d with
  | nil => rfl
  | cons v rest ih => simp [eliminate, ih]

theorem valueAt_eliminate (k q : Nat) (d : List Sym) :
    valueAt k (eliminate q d) = valueAt (k + 1) d ^^^ timesAlpha^[q] (valueAt k d) := by
  induction d with
  | nil => simp [eliminate, valueAt]
  | cons v rest ih =>
    have hswap : timesAlpha^[k * rest.length] (timesAlpha^[q] v) = timesAlpha^[q] (timesAlpha^[k * rest.length] v) := by
      rw [← Function.iterate_add_apply, Nat.add_comm, Function.iterate_add_apply]
    rw [eliminate, valueAt, valueAt, valueAt, eliminate_length, ih, timesAlpha_iterate_xor, timesAlpha_iterate_xor, hswap,
      ← Function.iterate_add_apply, Nat.succ_mul, ← Nat.add_comm rest.length]
    ac_rfl

/-- An elimination makes no coefficient nonzero. -/
theorem countP_eliminate_le (q : Nat) (d : List Sym) :
    (eliminate q d).countP (· != 0) ≤ d.countP (· != 0) := by
  induction d with
  | nil => exact le_rfl
  | cons v rest ih =>
    rw [eliminate, List.countP_cons, List.countP_cons]
    refine Nat.add_le_add ih ?_
    by_cases hv : v = 0
    · simp [hv]
    · rw [if_pos (bne_iff_ne.2 hv)]
      split <;> omega

/-- An elimination makes no coefficient below the `q`th 0. -/
theorem eq_zero_of_eliminate {q : Nat} (hq : q < 1023) {d : List Sym} (hlen : d.length ≤ q)
    (h : ∀ v ∈ eliminate q d, v = 0) : ∀ v ∈ d, v = 0 := by
  induction d with
  | nil => simp
  | cons v rest ih =>
    obtain ⟨hhead, hrest⟩ := List.forall_mem_cons.1 h
    exact List.forall_mem_cons.2 ⟨eq_zero_of_alpha_powers_agree hlen hq (BitVec.xor_eq_zero_iff.1 hhead),
      ih (Nat.le_of_succ_le hlen) hrest⟩

/-- A polynomial with at most `w` nonzero coefficients that vanishes at `α`, ..., `α^w` is 0: where its highest coefficient
is not 0, the elimination of that one leaves a polynomial of lower degree that vanishes at one power less. -/
theorem eq_zero_of_valueAt_eq_zero {w : Nat} {d : List Sym} (hlen : d.length ≤ 1023)
    (hcount : d.countP (· != 0) ≤ w) (hvalue : ∀ k, 1 ≤ k → k ≤ w → valueAt k d = 0) : ∀ v ∈ d, v = 0 := by
  obtain ⟨n, hn⟩ : ∃ n, d.length = n := ⟨_, rfl⟩
  induction n generalizing d w with
  | zero => simp [List.length_eq_zero_iff.1 hn]
  | succ n ih =>
    obtain ⟨v, rest, rfl⟩ := List.exists_cons_of_length_eq_add_one hn
    rw [List.length_cons] at hlen hn
    have hn : rest.length = n := Nat.succ.inj hn
    by_cases hv : v = 0
    · subst hv
      refine List.forall_mem_cons.2 ⟨rfl, ih (by omega) (by simpa using hcount) (fun k h1 hk => ?_) hn⟩
      simpa [valueAt] using hvalue k h1 hk
    · exfalso
      rw [List.countP_cons_of_pos (by simpa using hv)] at hcount
      have hrest : ∀ u ∈ rest, u = 0 := by
        refine eq_zero_of_eliminate hlen le_rfl (ih (w := w - 1) ?_ ?_ (fun k h1 hk => ?_) ?_)
        · rw [eliminate_length]
          omega
        · exact (countP_eliminate_le ..).trans (Nat.le_sub_one_of_lt hcount)
        · have hvanishes := valueAt_eliminate k rest.length (v :: rest)
          rw [hvalue k h1 (by omega), hvalue (k + 1) (by omega) (by omega), eliminate, BitVec.xor_self] at hvanishes
          simpa [valueAt] using hvanishes
        · exact (eliminate_length ..).trans hn
      have hhead := hvalue 1 le_rfl (by omega)
      rw [valueAt, valueAt_of_eq_zero 1 hrest] at hhead
      exact hv (timesAlpha_injective.iterate _ ((BitVec.xor_eq_zero_iff.1 hhead).trans (timesAlpha_iterate_zero _).symm))

/-! ### The residue at the roots of the generator (R171) -/

/-- The residue, three symbols, as a polynomial of degree below 3, at `α^k`. -/
def residueAt (k : Nat) (u : BitVec 30) : Sym :=
  timesAlpha^[2 * k] (u.extractLsb' 20 10) ^^^ timesAlpha^[k] (u.extractLsb' 10 10) ^^^ u.extractLsb' 0 10

theorem residueAt_xor (k : Nat) (u v : BitVec 30) : residueAt k (u ^^^ v) = residueAt k u ^^^ residueAt k v := by
  simp only [residueAt, BitVec.extractLsb'_xor, timesAlpha_iterate_xor]
  ac_rfl

/-- What holds of 0, of the single bits and of the sum of any two vectors it holds of, holds of every vector. -/
theorem bitVec_xor_induction {w : Nat} {motive : BitVec w → Prop} (zero : motive 0#w)
    (power : ∀ i < w, motive (BitVec.twoPow w i)) (xor : ∀ a b, motive a → motive b → motive (a ^^^ b)) (v : BitVec w) :
    motive v := by
  have low : ∀ n ≤ w, ∀ v : BitVec w, (∀ i, n ≤ i → v.getLsbD i = false) → motive v := by
    intro n
    induction n with
    | zero =>
      intro _ v hv
      obtain rfl : v = 0#w := BitVec.eq_of_getLsbD_eq fun i _ => by simp [hv]
      exact zero
    | succ n ih =>
      intro hn v hv
      have hclear {u : BitVec w} (hbit : u.getLsbD n = false) (hu : ∀ i, n + 1 ≤ i → u.getLsbD i = false) : motive u :=
        ih (by omega) u fun i hi => (Nat.eq_or_lt_of_le hi).elim (fun heq => heq ▸ hbit) (hu i)
      cases hbit : v.getLsbD n with
      | false => exact hclear hbit hv
      | true =>
        have hsum : v = (v ^^^ BitVec.twoPow w n) ^^^ BitVec.twoPow w n := by
          rw [BitVec.xor_assoc, BitVec.xor_self, BitVec.xor_zero]
        rw [hsum]
        refine xor _ _ (hclear ?_ fun i hi => ?_) (power n hn)
        · simp [hbit, Nat.lt_of_succ_le hn]
        · simp [hv i hi, show n ≠ i by omega]
  exact low w le_rfl v fun i hi => BitVec.getLsbD_of_ge v i hi

/-- The generators reduce `x^3` modulo `(x - α)(x - α^2)(x - α^3)`: at the three roots they are the cube. -/
theorem residueAt_foldGenerators {k : Nat} (h1 : 1 ≤ k) (h3 : k ≤ 3) (b : Sym) :
    residueAt k (foldGenerators b 0 checksumGenerators 0) = timesAlpha^[3 * k] b := by
  induction b using bitVec_xor_induction with
  | zero =>
    have hzero : foldGenerators 0#10 0 checksumGenerators 0 = 0 := foldGenerators_zero 0 checksumGenerators 0
    rw [hzero]
    simp [residueAt]
  | power i hi => interval_cases k <;> decide +revert +kernel
  | xor a b ha hb =>
    have hsum : foldGenerators (a ^^^ b) 0 checksumGenerators 0 =
        foldGenerators a 0 checksumGenerators 0 ^^^ foldGenerators b 0 checksumGenerators 0 :=
      foldGenerators_xor a b 0 checksumGenerators 0 0
    rw [hsum, residueAt_xor, ha, hb, timesAlpha_iterate_xor]

/-- The two lower symbols of a residue, moved up by one. -/
theorem extractLsb'_moved_up (u : BitVec 30) {n : Nat} (hn : n ≤ 10) :
    ((u.extractLsb' 0 20).setWidth 30 <<< 10).extractLsb' (n + 10) 10 = u.extractLsb' n 10 := by
  ext i hi
  have hplace : n + 10 + i - 10 = n + i := by omega
  have hinside : n + 10 + i < 30 ∧ ¬ n + 10 + i < 10 ∧ n + i < 20 ∧ n + i < 30 := by omega
  simp [hplace, hinside]

theorem residueAt_moved_up (k : Nat) (u : BitVec 30) : residueAt k ((u.extractLsb' 0 20).setWidth 30 <<< 10) =
    timesAlpha^[2 * k] (u.extractLsb' 10 10) ^^^ timesAlpha^[k] (u.extractLsb' 0 10) := by
  have hlow : ((u.extractLsb' 0 20).setWidth 30 <<< 10).extractLsb' 0 10 = 0#10 := by
    ext i hi
    simp [hi]
  rw [residueAt, extractLsb'_moved_up u le_rfl, extractLsb'_moved_up u (n := 0) (by decide), hlow, BitVec.xor_zero]

theorem residueAt_symbol (k : Nat) (v : Sym) : residueAt k (v.setWidth 30) = v := by
  have hhigh : (v.setWidth 30).extractLsb' 20 10 = 0#10 := by
    ext i hi
    simp [BitVec.getLsbD_of_ge v (20 + i) (by omega)]
  have hmiddle : (v.setWidth 30).extractLsb' 10 10 = 0#10 := by
    ext i hi
    simp
  have hlow : (v.setWidth 30).extractLsb' 0 10 = v := by
    ext i hi
    simp [hi, hi.trans (show 10 < 30 by decide)]
  rw [residueAt, hhigh, hmiddle, hlow]
  simp

/-- At a root of the generator a turn multiplies by the root and adds the symbol. -/
theorem residueAt_polymodStep {k : Nat} (h1 : 1 ≤ k) (h3 : k ≤ 3) (u : BitVec 30) (v : Sym) :
    residueAt k (polymodStep u v) = timesAlpha^[k] (residueAt k u) ^^^ v := by
  have hsplit : polymodStep u v = polymodStep u 0 ^^^ polymodStep 0#30 v := by
    rw [← polymodStep_xor]
    simp
  rw [hsplit, polymodStep_zero_left, polymodStep_zero_right, residueAt_xor, residueAt_xor, residueAt_symbol,
    residueAt_foldGenerators h1 h3, residueAt_moved_up, residueAt, timesAlpha_iterate_xor, timesAlpha_iterate_xor,
    ← Function.iterate_add_apply, ← Function.iterate_add_apply, show k + 2 * k = 3 * k by omega,
    show k + k = 2 * k by omega]
  ac_rfl

theorem residueAt_foldl {k : Nat} (h1 : 1 ≤ k) (h3 : k ≤ 3) (d : List Sym) (u : BitVec 30) :
    residueAt k (d.foldl polymodStep u) = timesAlpha^[k * d.length] (residueAt k u) ^^^ valueAt k d := by
  induction d generalizing u with
  | nil => simp [valueAt]
  | cons v rest ih =>
    rw [List.foldl_cons, ih, residueAt_polymodStep h1 h3, timesAlpha_iterate_xor, ← Function.iterate_add_apply, valueAt,
      List.length_cons, Nat.mul_succ, BitVec.xor_assoc]

/-- Strings of one length with one residue agree at the three roots. -/
theorem valueAt_eq_of_polymod_eq {k : Nat} (h1 : 1 ≤ k) (h3 : k ≤ 3) {c x y : List Sym} (hlen : x.length = y.length)
    (h : polymod (c ++ x) = polymod (c ++ y)) : valueAt k x = valueAt k y := by
  rw [polymod, polymod, List.foldl_append, List.foldl_append] at h
  have hvalue := congrArg (residueAt k) h
  rw [residueAt_foldl h1 h3 x, residueAt_foldl h1 h3 y, hlen] at hvalue
  exact (BitVec.xor_right_inj _).1 hvalue

/-! ### Detection (R175) -/

theorem zipWith_xor_eq_map {x y : List Sym} (h : x.length = y.length) :
    List.zipWith (· ^^^ ·) x y = (List.range x.length).map fun i => x.getD i 0 ^^^ y.getD i 0 := by
  refine List.ext_getElem (by simp [h]) fun i hi _ => ?_
  have hix : i < x.length := by simp at hi; omega
  have hiy : i < y.length := hix.trans_eq h
  simp [hix, hiy]

/-- The sum of two strings has a nonzero symbol at each place where they differ. -/
theorem countP_zipWith_xor {x y : List Sym} (h : x.length = y.length) : (List.zipWith (· ^^^ ·) x y).countP (· != 0) =
    ((List.range x.length).filter fun i => x.getD i 0 != y.getD i 0).length := by
  rw [zipWith_xor_eq_map h, List.countP_map, List.countP_eq_length_filter]
  congr 1
  refine List.filter_congr fun i _ => ?_
  simp [bne, BEq.beq, BitVec.xor_eq_zero_iff]

theorem eq_of_zipWith_xor_eq_zero {x y : List Sym} (h : x.length = y.length)
    (hzero : ∀ v ∈ List.zipWith (· ^^^ ·) x y, v = 0) : x = y := by
  rw [zipWith_xor_eq_map h, List.forall_mem_map] at hzero
  refine List.ext_getElem h fun i hx hy => ?_
  simpa [BitVec.xor_eq_zero_iff, hx, hy] using hzero i (List.mem_range.2 hx)

/-- Settles O16: the sum of two strings with the residue 1 vanishes at the three roots, so it is 0 or has more than three
nonzero symbols. -/
theorem threeSymbolChangesAreDetected : Obligations.ThreeSymbolChangesAreDetected := by
  intro p x y h64 hlen hne hcount hx hy
  refine hne (eq_of_zipWith_xor_eq_zero hlen.symm (eq_zero_of_valueAt_eq_zero (w := 3) ?_ ?_ fun k h1 h3 => ?_))
  · rw [List.length_zipWith]
    omega
  · rwa [countP_zipWith_xor hlen.symm]
  · rw [valueAt_zipWith_xor k hlen.symm]
    exact BitVec.xor_eq_zero_iff.2 (valueAt_eq_of_polymod_eq h1 h3 hlen.symm (hx.trans hy.symm))

end Sys2Proof.Machine

/-! PROOFS. Every command completes with success or with an error its row of R361 lists: what each of the shared functions
can raise, and why the combination of decoded shares raises no error of its Shamir layer but a wrong digest. -/

namespace Sys2Proof.Machine

/-! ### What a computation raises -/

/-- Every error the computation raises has one of the codes. -/
structure RaisesOnly {α : Type} (codes : List (BitVec 8)) (x : Except Raised α) : Prop where
  code_mem : ∀ e, x = .error e → e.error.code ∈ codes

section Raises

variable {α β : Type} {codes : List (BitVec 8)}

theorem RaisesOnly.ok (a : α) : RaisesOnly codes (.ok a : Except Raised α) := ⟨nofun⟩

theorem RaisesOnly.error {e : Raised} (h : e.error.code ∈ codes) : RaisesOnly codes (.error e : Except Raised α) :=
  ⟨by rintro e' ⟨⟩; exact h⟩

theorem RaisesOnly.raised {e : CmdError} {info : Word} (h : e.code ∈ codes := by decide) :
    RaisesOnly codes (.error ⟨e, info⟩ : Except Raised α) :=
  .error h

theorem RaisesOnly.mono {codes' : List (BitVec 8)} {x : Except Raised α} (hx : RaisesOnly codes x)
    (h : codes ⊆ codes' := by decide) : RaisesOnly codes' x :=
  ⟨fun e he => h (hx.code_mem e he)⟩

/-- A computation of two parts raises what the first raises, or what the second raises where the first has answered. -/
theorem RaisesOnly.bind {x : Except Raised α} {f : α → Except Raised β} (hx : RaisesOnly codes x)
    (hf : ∀ a, x = .ok a → RaisesOnly codes (f a)) : RaisesOnly codes (x >>= f) where
  code_mem e he := by
    obtain h | ⟨a, ha, h⟩ := bind_eq_error he
    · exact hx.code_mem e h
    · exact (hf a ha).code_mem e h

theorem RaisesOnly.ite {c : Prop} [Decidable c] {x y : Except Raised α} (hx : c → RaisesOnly codes x)
    (hy : ¬ c → RaisesOnly codes y) : RaisesOnly codes (if c then x else y) := by
  split
  · exact hx ‹_›
  · exact hy ‹_›

theorem raiseIf_raisesOnly (c : Prop) [Decidable c] (e : CmdError) (n : Nat) (h : e.code ∈ codes := by decide) :
    RaisesOnly codes (raiseIf c e n) :=
  .ite (fun _ => .error h) fun _ => .ok ()

theorem raiseAt_raisesOnly (found : Option Nat) (e : CmdError) (g : Nat → Nat) (h : e.code ∈ codes := by decide) :
    RaisesOnly codes (raiseAt found e g) := by
  cases found with
  | none => exact .ok ()
  | some m => exact .error h

theorem atMnemonic_raisesOnly {x : Except Raised α} (hx : RaisesOnly codes x) (m : Nat) :
    RaisesOnly codes (atMnemonic m x) := by
  cases x with
  | ok a => exact .ok a
  | error e => exact .error (e := ⟨e.error, _⟩) (hx.code_mem e rfl)

theorem digestMismatchAs_raisesOnly {x : Except Raised α} (hx : RaisesOnly codes x) (d : Nat) :
    RaisesOnly codes (digestMismatchAs d x) := by
  cases x with
  | ok a => exact .ok a
  | error e =>
    have he := hx.code_mem e rfl
    exact .ite (fun hmismatch => .error (e := ⟨.digestMismatch, _⟩) (hmismatch ▸ he)) fun _ => .error he

end Raises

/-! ### The checks of the commands (R195, R215, R246, R264, R265, R280) -/

theorem checkLength_raisesOnly (p : Params) (L : Nat) : RaisesOnly [0x40] (checkLength p L) := raiseIf_raisesOnly ..

theorem checkPass_raisesOnly (p : Params) (pass : ByteString) : RaisesOnly [0x41] (checkPass p pass) :=
  raiseAt_raisesOnly ..

theorem lookupAll_raisesOnly (p : Params) (j : Nat) (toks : List ByteString) : RaisesOnly [0x10] (lookupAll p j toks) where
  code_mem e he := by
    obtain ⟨i, -, rfl⟩ := lookupAll_error he
    exact List.mem_singleton_self _

theorem splitChecks_raisesOnly (t n L : Nat) : RaisesOnly [0x02, 0x40] (splitChecks t n L) :=
  .bind (raiseIf_raisesOnly ..) fun _ _ => raiseIf_raisesOnly ..

theorem decodeSymbols_raisesOnly (p : Params) (sy : List Sym) :
    RaisesOnly [0x11, 0x12, 0x13, 0x14, 0x50] (decodeSymbols p sy) :=
  .bind (raiseIf_raisesOnly ..) fun _ _ => .bind (raiseIf_raisesOnly ..) fun _ _ => .bind (raiseIf_raisesOnly ..)
    fun _ _ => .bind (raiseIf_raisesOnly ..) fun _ _ => .bind (raiseIf_raisesOnly ..) fun _ _ =>
    .bind (raiseIf_raisesOnly ..) fun _ _ => .ok _

theorem decodeShare_raisesOnly (p : Params) (t : ByteString) :
    RaisesOnly [0x10, 0x11, 0x12, 0x13, 0x14, 0x50] (decodeShare p t) :=
  .bind (lookupAll_raisesOnly ..).mono fun _ _ => .bind (decodeSymbols_raisesOnly ..).mono fun _ _ => .ok _

theorem decodeAll_raisesOnly (p : Params) (m : Nat) (ts : List ByteString) :
    RaisesOnly [0x10, 0x11, 0x12, 0x13, 0x14, 0x50] (decodeAll p m ts) := by
  induction ts generalizing m with
  | nil => exact .ok []
  | cons t rest ih =>
    exact .bind (atMnemonic_raisesOnly (decodeShare_raisesOnly p t) m) fun _ _ => .bind (ih (m + 1)) fun _ _ => .ok _

theorem shareChecks_raisesOnly (p : Params) (sh : Share) : RaisesOnly [0x02, 0x40] (shareChecks p sh) :=
  .bind (raiseIf_raisesOnly ..) fun _ _ => raiseIf_raisesOnly ..

theorem genValidate_raisesOnly (p : Params) (gt : Nat) (groups : List (Nat × Nat)) (S pass : ByteString) :
    RaisesOnly [0x02, 0x40, 0x41] (genValidate p gt groups S pass) :=
  .bind (raiseIf_raisesOnly ..) fun _ _ => .bind (raiseAt_raisesOnly ..) fun _ _ => .bind (raiseIf_raisesOnly ..)
    fun _ _ => (checkPass_raisesOnly ..).mono

theorem mnemonicTexts_raisesOnly (p : Params) (m : Nat) (shs : List Share) :
    RaisesOnly [0x50] (mnemonicTexts p m shs) := by
  induction shs generalizing m with
  | nil => exact .ok []
  | cons sh rest ih => exact .bind (raiseIf_raisesOnly ..) fun _ _ => .bind (ih (m + 1)) fun _ _ => .ok _

theorem recombine_raisesOnly (P : Ports) (T : FieldTables) (t : Nat) (F : List Fragment) :
    RaisesOnly [0x02, 0x21, 0x30, 0x32, 0x33, 0x40] (recombine P T t F) :=
  .bind (raiseIf_raisesOnly ..) fun _ _ => .bind (raiseIf_raisesOnly ..) fun _ _ => .bind (raiseAt_raisesOnly ..)
    fun _ _ => .bind (raiseIf_raisesOnly ..) fun _ _ => .bind (raiseIf_raisesOnly ..) fun _ _ =>
    .ite (fun _ => .ok _) fun _ => .bind (raiseIf_raisesOnly ..) fun _ _ => .bind (raiseIf_raisesOnly ..) fun _ _ => .ok _

theorem Session.accept_raisesOnly (p : Params) (x : Session) (t : ByteString) :
    RaisesOnly [0x10, 0x11, 0x12, 0x13, 0x14, 0x20, 0x21, 0x50] (x.accept p t) :=
  .bind (decodeShare_raisesOnly ..).mono fun _ _ => .ite (fun _ => .ok _) fun _ =>
    .bind (raiseIf_raisesOnly ..) fun _ _ => .bind (raiseIf_raisesOnly ..) fun _ _ => .ite (fun _ => .ok _) fun _ =>
    .bind (raiseIf_raisesOnly ..) fun _ _ => .bind (raiseIf_raisesOnly ..) fun _ _ => .ok _

/-! ### Recombination of enough fragments (R219) -/

section Recombine

variable {P : Ports} {T : FieldTables} {t L : Nat} {F : List Fragment} (ht : 1 ≤ t ∧ t ≤ 16) (hcount : F.length = t)
  (hF : (F.map (·.x)).Nodup) (hL : ∀ f ∈ F, f.y.length = L)
include ht hcount hF hL

/-- As many fragments as the threshold, with different x and of one length of 4 bytes or more, recombine unless the digest is
wrong. -/
theorem recombine_raisesOnly_mismatch (h4 : 4 ≤ L) : RaisesOnly [0x32] (recombine P T t F) := by
  have hne : F ≠ [] := List.ne_nil_of_length_pos (by omega)
  rw [recombine_of_distinct P T ht hne hF hL, if_neg hcount.not_lt, if_neg hcount.not_gt]
  exact .ite (fun _ => .ok _) fun _ => .ite (fun hshort => absurd h4 (Nat.not_le.2 hshort)) fun _ =>
    .ite (fun _ => .raised) fun _ => .ok _

/-- What they recombine to is as long as they are. -/
theorem recombine_length_eq {y : ByteString} (h : recombine P T t F = .ok y) : y.length = L := by
  have hne : F ≠ [] := List.ne_nil_of_length_pos (by omega)
  rw [recombine_of_distinct P T ht hne hF hL, if_neg hcount.not_lt, if_neg hcount.not_gt] at h
  split_ifs at h
  · cases h
    exact headD_value_length hne hL
  · cases h
    exact interp_length_eq hne hL T _

end Recombine

/-! ### Combination of decoded shares (R285) -/

/-- The value of a decoded share has the 4 bytes a digest needs (R11). -/
theorem four_le_value_length {p : Params} (hmin : 4 ≤ p.minSecret) {sy : List Sym} {sh : Share}
    (h : decodeSymbols p sy = .ok sh) : 4 ≤ sh.value.length := by
  obtain ⟨hlength, -⟩ := decodeSymbols_value_length h
  obtain ⟨hwords, -⟩ := raiseIf_bind_eq_ok_iff.1 h
  simp only [paddingBits, symbolsFor] at hlength hwords
  omega

/-- What the combination needs of its shares: legal fields, values long enough, and agreement (R285 to R290). -/
structure Combinable (sh0 : Share) (shs : List Share) : Prop where
  mem : sh0 ∈ shs
  legal : ∀ sh ∈ shs, ShareFieldsLegal sh
  long : ∀ sh ∈ shs, 4 ≤ sh.value.length
  params : SameParams (commonParams sh0) shs
  thresholds : ThresholdsAgree shs
  noClash : NoClash shs

section Combine

variable {P : Ports} {T : FieldTables} {p : Params} {sh0 : Share} {shs : List Share} (hc : Combinable sh0 shs)
include hc

/-- A complete group has as many fragments as its threshold, which is legal, and they differ and are as long as the shares'
values. -/
theorem Combinable.memberFragments {g : Nat} (hg : CompleteGroup shs g) :
    (1 ≤ memberThresholdOf (groupOf shs g) ∧ memberThresholdOf (groupOf shs g) ≤ 16) ∧
    (Machine.memberFragments (groupOf shs g)).length = memberThresholdOf (groupOf shs g) ∧
    ((Machine.memberFragments (groupOf shs g)).map (·.x)).Nodup ∧
    ∀ f ∈ Machine.memberFragments (groupOf shs g), f.y.length = sh0.value.length := by
  refine ⟨?_, memberFragments_length hc.thresholds hg, nodup_map_x_of_pairwise_lt (memberFragments_pairwise_lt _),
    fun f hf => ?_⟩
  · obtain ⟨sh, hsh, rfl, -⟩ := hg
    obtain ⟨-, -, -, -, hpos, hle, -⟩ := hc.legal sh hsh
    rw [memberThresholdOf_groupOf hc.thresholds hsh]
    exact ⟨hpos, hle⟩
  · obtain ⟨sh, hsh, rfl⟩ := exists_share_of_mem_memberFragments hf
    exact congrArg CommonParams.valueLength (hc.params sh (mem_groupOf.1 hsh).1)

theorem Combinable.recombineGroup_raisesOnly {g : Nat} (hg : CompleteGroup shs g) :
    RaisesOnly [0x32] (recombineGroup P T shs g) := by
  obtain ⟨ht, hcount, hF, hL⟩ := hc.memberFragments hg
  exact recombine_raisesOnly_mismatch ht hcount hF hL (hc.long sh0 hc.mem)

theorem Combinable.recombineGroup_length {g : Nat} (hg : CompleteGroup shs g) {y : ByteString}
    (hy : recombineGroup P T shs g = .ok y) : y.length = sh0.value.length := by
  obtain ⟨ht, hcount, hF, hL⟩ := hc.memberFragments hg
  exact recombine_length_eq ht hcount hF hL hy

theorem Combinable.groupFragments_raisesOnly {gs : List Nat} (hgs : ∀ g ∈ gs, CompleteGroup shs g) :
    RaisesOnly [0x32] (groupFragments P T shs gs) := by
  induction gs with
  | nil => exact .ok []
  | cons g gs ih =>
    obtain ⟨hg, hrest⟩ := List.forall_mem_cons.1 hgs
    rw [groupFragments_cons]
    exact .bind (digestMismatchAs_raisesOnly (hc.recombineGroup_raisesOnly hg) g) fun _ _ => .bind (ih hrest) fun _ _ => .ok _

/-- The group fragments are at the groups' indices and as long as the shares' values. -/
theorem Combinable.groupFragments_eq_ok {gs : List Nat} (hgs : ∀ g ∈ gs, CompleteGroup shs g) {F : List Fragment}
    (h : groupFragments P T shs gs = .ok F) :
    F.map (·.x) = gs.map (BitVec.ofNat 8) ∧ ∀ f ∈ F, f.y.length = sh0.value.length := by
  induction gs generalizing F with
  | nil =>
    cases h
    exact ⟨rfl, nofun⟩
  | cons g gs ih =>
    obtain ⟨hg, hrest⟩ := List.forall_mem_cons.1 hgs
    rw [groupFragments_cons] at h
    obtain ⟨y, hy, h⟩ := bind_eq_ok h
    obtain ⟨rest, hF, h⟩ := bind_eq_ok h
    cases h
    obtain ⟨hx, hL⟩ := ih hrest hF
    exact ⟨congrArg _ hx, List.forall_mem_cons.2 ⟨hc.recombineGroup_length hg (digestMismatchAs_eq_ok hy), hL⟩⟩

/-- Shares that agree combine unless too few groups are complete or a digest is wrong. -/
theorem Combinable.combineShares_raisesOnly (pass : ByteString) :
    RaisesOnly [0x31, 0x32] (combineShares P T p sh0 shs pass) := by
  rw [combineShares_of_agreeing hc.params hc.thresholds hc.noClash]
  refine .ite (fun _ => .raised) fun henough => ?_
  have hgs : ∀ g ∈ (completeGroups shs).take sh0.groupThreshold.toNat, CompleteGroup shs g := fun g hg =>
    (mem_completeGroups hc.thresholds g).1 (List.mem_of_mem_take hg)
  refine .bind (hc.groupFragments_raisesOnly hgs).mono fun GF hGF => ?_
  obtain ⟨hx, hL⟩ := hc.groupFragments_eq_ok hgs hGF
  obtain ⟨hpos, hle, -⟩ := hc.legal sh0 hc.mem
  have hcount : GF.length = sh0.groupThreshold.toNat := by
    rw [← List.length_map (·.x), hx, List.length_map, List.length_take, min_eq_left (Nat.not_lt.1 henough)]
  have hnodup : (GF.map (·.x)).Nodup := by
    rw [hx]
    refine nodup_map_ofNat ((completeGroups_pairwise_lt shs).nodup.sublist (List.take_sublist ..)) fun g hg => ?_
    obtain ⟨sh, -, rfl, -⟩ := hgs g hg
    exact sh.groupIndex.isLt.trans (by decide)
  exact .bind (digestMismatchAs_raisesOnly
    (recombine_raisesOnly_mismatch ⟨hpos, hle⟩ hcount hnodup hL (hc.long sh0 hc.mem)) _).mono fun _ _ => .ok _

end Combine

/-- Shares at different indices do not clash. -/
theorem noClash_of_pairwise {shs : List Share}
    (h : shs.Pairwise fun a b => ¬(a.groupIndex = b.groupIndex ∧ a.memberIndex = b.memberIndex)) : NoClash shs := by
  have : Std.Symm fun a b : Share => ¬(a.groupIndex = b.groupIndex ∧ a.memberIndex = b.memberIndex) :=
    ⟨fun _ _ hne heq => hne ⟨heq.1.symm, heq.2.symm⟩⟩
  intro a ha b hb hgroup hmember
  by_contra hne
  exact h.forall ha hb hne ⟨hgroup, hmember⟩

/-- A search that finds no conflict has seen every pair. -/
theorem compatible_of_firstConflict_eq_none {α : Type} {bad : α → α → Bool} (hirrefl : ∀ a, bad a a = false)
    (hsymm : ∀ a b, bad a b = bad b a) {l : List α} (h : firstConflict bad [] 0 l = none) : Compatible bad l := by
  have hbefore {i j : Nat} (hij : i < j) (hj : j < l.length) : bad (l[i]'(hij.trans hj)) l[j] = false := by
    have hclear := firstConflict_eq_none h j _ (List.getElem?_eq_getElem hj)
    rw [List.nil_append, List.any_eq_false] at hclear
    exact Bool.eq_false_iff.2 (hclear _ (List.mem_take_iff_getElem.2 ⟨i, lt_min hij (hij.trans hj), rfl⟩))
  intro a ha b hb
  obtain ⟨i, hi, rfl⟩ := List.getElem_of_mem ha
  obtain ⟨j, hj, rfl⟩ := List.getElem_of_mem hb
  rcases Nat.lt_trichotomy i j with hij | rfl | hij
  · exact hbefore hij hj
  · exact hirrefl _
  · exact (hsymm _ _).trans (hbefore hij hi)

/-- The checks of the shares raise MnemonicSetMismatch or DuplicateIndex, or the shares agree. -/
theorem combineShares_cases (P : Ports) (T : FieldTables) (p : Params) (sh0 : Share) (shs : List Share) (pass : ByteString) :
    RaisesOnly [0x20, 0x21] (combineShares P T p sh0 shs pass) ∨
      SameParams (commonParams sh0) shs ∧ ThresholdsAgree shs ∧ NoClash shs := by
  rw [combineShares]
  cases hparams : shs.findIdx? fun sh => commonParams sh != commonParams sh0 with
  | some m => exact .inl (.raised)
  | none =>
    cases hthresholds : firstConflict thresholdsDiffer [] 0 shs with
    | some m => exact .inl (.raised)
    | none =>
      cases hclash : firstConflict indicesClash [] 0 shs with
      | some m => exact .inl (.raised)
      | none =>
        refine .inr ⟨fun sh hsh => by simpa using List.findIdx?_eq_none_iff.1 hparams sh hsh, ?_, ?_⟩
        · exact (thresholdsAgree_iff shs).2
            (compatible_of_firstConflict_eq_none thresholdsDiffer_self thresholdsDiffer_comm hthresholds)
        · exact (noClash_iff shs).2 (compatible_of_firstConflict_eq_none indicesClash_self indicesClash_comm hclash)

section Decoded

variable {P : Ports} {T : FieldTables} {p : Params} (hmin : 4 ≤ p.minSecret)
include hmin

/-- Decoded shares that agree can be combined. -/
theorem combinable_of_decodes {sh0 : Share} {shs : List Share} (h0 : sh0 ∈ shs)
    (hdecodes : ∀ sh ∈ shs, ∃ t sy, decodeShare p t = .ok (sh, sy)) (hparams : SameParams (commonParams sh0) shs)
    (hthresholds : ThresholdsAgree shs) (hclash : NoClash shs) : Combinable sh0 shs where
  mem := h0
  legal sh hsh := by
    obtain ⟨t, sy, h⟩ := hdecodes sh hsh
    exact shareFieldsLegal_of_decodes h
  long sh hsh := by
    obtain ⟨t, sy, h⟩ := hdecodes sh hsh
    exact four_le_value_length hmin (decodeShare_eq_ok h).2
  params := hparams
  thresholds := hthresholds
  noClash := hclash

theorem combine_raisesOnly (texts : List ByteString) (pass : ByteString) :
    RaisesOnly [0x10, 0x11, 0x12, 0x13, 0x14, 0x20, 0x21, 0x31, 0x32, 0x41, 0x50] (combine P T p texts pass) := by
  refine .bind (checkPass_raisesOnly ..).mono fun _ _ => .bind (raiseIf_raisesOnly ..) fun _ _ =>
    .bind (decodeAll_raisesOnly ..).mono fun shs hshs => ?_
  cases shs with
  | nil => exact .raised
  | cons sh0 rest =>
    have hdecodes : ∀ sh ∈ sh0 :: rest, ∃ t sy, decodeShare p t = .ok (sh, sy) := fun sh hsh => by
      obtain ⟨i, hi, rfl⟩ := List.getElem_of_mem hsh
      have hall := decodeAll_ok hshs
      exact ⟨_, hall.get (hall.length_eq ▸ hi) hi⟩
    obtain h | ⟨hparams, hthresholds, hclash⟩ := combineShares_cases P T p sh0 (sh0 :: rest) pass
    · exact h.mono
    · exact ((combinable_of_decodes hmin (List.mem_cons_self ..) hdecodes hparams hthresholds
        hclash).combineShares_raisesOnly pass).mono

/-- The texts of a consistent session decode to shares that agree. -/
theorem combine_session_raisesOnly {x : Session} (hx : x.consistent p) (pass : ByteString) :
    RaisesOnly [0x31, 0x32, 0x41] (combine P T p x.texts pass) := by
  obtain hpass | ⟨j, hj⟩ := checkPass_cases p pass
  · obtain ⟨c, holds⟩ := hx.exists_holdsShares
    have hdecoded : List.Forall₂ (fun t sh => ∃ sy, decodeShare p t = .ok (sh, sy)) x.texts x.held :=
      List.forall₂_map_left_iff.2 (List.forall₂_map_right_iff.2 (List.forall₂_same.2 holds.decodes))
    have hdecodes : ∀ sh ∈ x.held, ∃ t sy, decodeShare p t = .ok (sh, sy) := fun sh hsh => by
      obtain ⟨e, he, rfl⟩ := List.mem_map.1 hsh
      exact ⟨e.2, holds.decodes e he⟩
    have hclash := noClash_of_pairwise holds.indices
    have hparams := holds.params
    have hthresholds := holds.thresholds
    cases hheld : x.held with
    | nil =>
      rw [hheld, List.forall₂_nil_right_iff] at hdecoded
      rw [hdecoded, combine_nil P T hpass]
      exact .raised
    | cons sh0 rest =>
      rw [hheld] at hdecoded hdecodes hclash hparams hthresholds
      rw [combine_of_decoded P T hpass hdecoded]
      obtain rfl : commonParams sh0 = c := hparams sh0 (List.mem_cons_self ..)
      exact ((combinable_of_decodes hmin (List.mem_cons_self ..) hdecodes hparams hthresholds
        hclash).combineShares_raisesOnly pass).mono
  · rw [combine_of_passRefused P T x.texts hj]
    exact .raised

end Decoded

/-! ### The report of a completion (R360) -/

theorem State.CompletedBy.done {i : Instr} {s t : State} (h : s.CompletedBy i t) : t.arch.csr.done = true := by
  obtain ⟨a, -, ht⟩ | ⟨e, ht⟩ := h.completion <;> rw [ht] <;> rfl

/-- The report is empty, or has one of the codes. -/
def Csrs.ReportsOnly (codes : List (BitVec 8)) (c : Csrs) : Prop :=
  (c.errCode = 0 ∧ c.errInfo = 0) ∨ c.errCode ∈ codes

section Report

variable {s t : State} {codes : List (BitVec 8)}

/-- A completion reports the error of the computation, and nothing if there is none. -/
theorem State.finish_report {r : Except Raised Arch} (hr : RaisesOnly codes r) (h : s.finish r = .next t) :
    t.arch.csr.ReportsOnly codes := by
  rcases State.finish_cases h with ⟨a, -, rfl⟩ | ⟨e, he, rfl⟩
  · exact .inl ⟨rfl, rfl⟩
  · exact .inr (hr.code_mem e he)

theorem State.finishDrawn_report {pos : Nat} {r : Except Raised Arch} (hr : RaisesOnly codes r)
    (h : s.finishDrawn pos r = .next t) : t.arch.csr.ReportsOnly codes :=
  State.finish_report (s := { s with draws := pos }) hr h

theorem execShSplit_report (h : execShSplit s = .next t) : t.arch.csr.ReportsOnly [0x02, 0x40] := by
  simp only [execShSplit] at h
  split at h
  next e he => exact State.finish_report (.error ((splitChecks_raisesOnly ..).code_mem e he)) h
  next => exact State.finishDrawn_report (.ok _) h

theorem execGenerate_report (h : execGenerate s = .next t) : t.arch.csr.ReportsOnly [0x02, 0x40, 0x41, 0x50] := by
  simp only [execGenerate] at h
  split at h
  next e he => exact State.finish_report (.error ((genValidate_raisesOnly ..).mono.code_mem e he)) h
  next => exact State.finishDrawn_report (.bind (mnemonicTexts_raisesOnly ..).mono fun _ _ => .ok _) h

end Report

/-- Every command reports success or an error that R361 lists for it. -/
theorem exec_report {i : Instr} {s t : State} (hmin : 4 ≤ s.params.minSecret) (hses : s.operands.ses.consistent s.params)
    (h : exec i s = .next t) : t.arch.csr.ReportsOnly (Instr.errorCodes i) := by
  cases i with
  | nop | gfAdd | gfMul | wcPack | sesReset | sesStatus | sesIsComplete | sesGroupComplete | clear =>
    exact State.finish_report (.ok _) h
  | gfDiv | gfInv =>
    exact State.finish_report (codes := [0x03]) (.bind (raiseIf_raisesOnly ..) fun _ _ => .ok _) h
  | chkCreate | wcToWords =>
    exact State.finish_report (codes := [0x50]) (.bind (raiseIf_raisesOnly ..) fun _ _ => .ok _) h
  | chkVerify => exact State.finish_report (codes := [0x12]) (.bind (raiseIf_raisesOnly ..) fun _ _ => .ok _) h
  | wcUnpack =>
    exact State.finish_report (codes := [0x13, 0x50])
      (.bind (raiseIf_raisesOnly ..) fun _ _ => .bind (raiseIf_raisesOnly ..) fun _ _ => .ok _) h
  | wcFromWords =>
    exact State.finish_report (codes := [0x10, 0x50])
      (.bind (lookupAll_raisesOnly ..).mono fun _ _ => .bind (raiseIf_raisesOnly ..) fun _ _ => .ok _) h
  | shInterpolate =>
    exact State.finish_report (codes := [0x21, 0x30])
      (.bind (raiseIf_raisesOnly ..) fun _ _ => .bind (raiseAt_raisesOnly ..) fun _ _ => .ok _) h
  | shSplit => exact execShSplit_report h
  | shRecombine => exact State.finish_report (.bind (recombine_raisesOnly ..) fun _ _ => .ok _) h
  | fcEncrypt | fcDecrypt =>
    exact State.finish_report (codes := [0x40, 0x41])
      (.bind (checkLength_raisesOnly ..).mono fun _ _ => .bind (checkPass_raisesOnly ..).mono fun _ _ => .ok _) h
  | shareEncode =>
    exact State.finish_report (codes := [0x02, 0x40, 0x50])
      (.bind (shareChecks_raisesOnly ..).mono fun _ _ => .bind (raiseIf_raisesOnly ..) fun _ _ => .ok _) h
  | shareDecode => exact State.finish_report (.bind (decodeShare_raisesOnly ..) fun _ _ => .ok _) h
  | generate => exact execGenerate_report h
  | combine => exact State.finish_report (.bind (combine_raisesOnly hmin ..) fun _ _ => .ok _) h
  | sesAccept => exact State.finish_report (.bind (Session.accept_raisesOnly ..) fun _ _ => .ok _) h
  | sesCombine =>
    exact State.finish_report (codes := [0x31, 0x32, 0x41])
      (.bind (raiseIf_raisesOnly ..) fun _ _ => .bind (combine_session_raisesOnly hmin hses _) fun _ _ => .ok _) h

/-- Settles O45: every command answers with a completion, whose report is one its checks can make. -/
theorem commandsRaiseOnlyTheirCodes : Obligations.CommandsRaiseOnlyTheirCodes := by
  intro i s hmin hses
  obtain ⟨t, h⟩ := exec_answers i s
  have completed := exec_completedBy h
  exact ⟨t, h, completed.pending, completed.done, exec_report hmin hses h⟩

end Sys2Proof.Machine
